-- ==== Sys2Proof/Word.lean ====
section
/-! DEFINITION. The word types: bytes and 16-bit words (00_scope.md R5). Everything that picks bits out of a
word stands in Sys2Proof/Machine/Bits.lean. -/

namespace Sys2Proof

/-- `u8` of 00_scope.md R5. -/
abbrev Byte := BitVec 8

/-- `u16` of 00_scope.md R5. -/
abbrev Word := BitVec 16

end Sys2Proof
end

