-- ==== Sys2Proof/Machine/Bits.lean ====
section
/-! DEFINITION. Halves of a word, sign extension and parity (00_scope.md R5, R16). -/

namespace Sys2Proof

/-- `hi(w)` of 00_scope.md R5. -/
def hiByte (w : Word) : Byte := w.extractLsb' 8 8

/-- `lo(w)` of 00_scope.md R5. -/
def loByte (w : Word) : Byte := w.extractLsb' 0 8

/-- `(h:l)` of 00_scope.md R5: the word with high byte `h` and low byte `l`. -/
def joinBytes (h l : Byte) : Word := h ++ l

/-- `sext_8(v)` of 00_scope.md R5, taken modulo 65536. -/
def signExtend8 (v : Byte) : Word := v.signExtend 16

/-- `par(v)` of 00_scope.md R16: true when `v` has an even number of 1 bits. -/
def evenParity (v : Byte) : Bool :=
  !(v.getLsbD 0 ^^ v.getLsbD 1 ^^ v.getLsbD 2 ^^ v.getLsbD 3 ^^
    v.getLsbD 4 ^^ v.getLsbD 5 ^^ v.getLsbD 6 ^^ v.getLsbD 7)

/-- `1 << b` as a byte, for a bit number 0 to 7 (30_encoding.md R95). -/
def bitMask (b : BitVec 3) : Byte := 1#8 <<< b.toNat

end Sys2Proof
end

