-- ==== Sys2Proof/Selectors.lean ====
section
/-! DEFINITION. The names operands can have: the selector tables of 30_encoding.md R93, one inductive a table,
the operand slot of R112 and the two index registers. -/

namespace Sys2Proof

/-- `r8[i]` of 30_encoding.md R93 without its memory slot. -/
inductive Reg8 where
  | b | c | d | e | h | l | a
deriving DecidableEq, Repr

/-- `IX` or `IY`: what a `DD` or `FD` byte selects (30_encoding.md R94). -/
inductive Index where
  | ix | iy
deriving DecidableEq, Repr

/-- The high or the low half of an index register (10_state.md R21). -/
inductive Half where
  | high | low
deriving DecidableEq, Repr

/-- `x8[i]` of 40_load8.md R148: the substituted register table of the `DD` and `FD` spaces. -/
inductive XReg8 where
  | b | c | d | e | half (p : Half) | a
deriving DecidableEq, Repr

/-- `rp[i]` of 30_encoding.md R93. -/
inductive Pair where
  | bc | de | hl | sp
deriving DecidableEq, Repr

/-- The source of `ADD XY,pp` (45_alu16.md R284): for `p = 2` it is the index register itself. -/
inductive XPair where
  | bc | de | xy | sp
deriving DecidableEq, Repr

/-- `rp2[i]` of 30_encoding.md R93. -/
inductive StackPair where
  | bc | de | hl | af
deriving DecidableEq, Repr

/-- `cc[i]` of 30_encoding.md R93 and 48_jump_call.md R350. -/
inductive Cond where
  | nz | z | nc | c | po | pe | p | m
deriving DecidableEq, Repr

/-- `alu[i]` of 30_encoding.md R93. -/
inductive AluOp where
  | add | adc | sub | sbc | and | xor | or | cp
deriving DecidableEq, Repr

/-- `rot[i]` of 30_encoding.md R93. -/
inductive RotOp where
  | rlc | rrc | rl | rr | sla | sra | sll | srl
deriving DecidableEq, Repr

/-- `IM` of 10_state.md R35: the value 3 is not reachable. -/
inductive IntMode where
  | im0 | im1 | im2
deriving DecidableEq, Repr

/-- What the 3-bit register selector resolves to (30_encoding.md R112). -/
inductive Slot where
  | reg (r : Reg8)
  | mem
deriving DecidableEq, Repr

/-- The source of an 8-bit operand (43_alu8.md R230 to R234). -/
inductive Src8 where
  | reg (r : Reg8)
  | imm (n : Byte)
  | memHl
  | memIdx (xy : Index) (d : Byte)
  | half (xy : Index) (p : Half)
deriving DecidableEq, Repr

end Sys2Proof
end

