-- ==== Sys2Proof/Syntax.lean ====
section
/-! DEFINITION. The syntax: one constructor for each of the 204 rows of spec/opcode_table.json, in the table's
order. The comment of a constructor is the row's name in the spec's text and the rule that gives it its meaning.
An operand is the field of the encoding it comes from (30_encoding.md R93 to R95); `xy` is the index register that
the prefix byte selects.

The rows that are no complete instruction: `prefixCb`, `prefixDd`, `prefixEd`, `prefixFd` and `prefixXyCb` are the
prefix bytes alone, with the bytes they select still to come; `asMainSpace xy inner` is a main-space instruction
behind a `DD` or `FD` that changes nothing in it (30_encoding.md R103 item 5); `prefixEdAfterXy xy inner` is an
ED-space instruction behind a dropped index prefix (R105). -/

namespace Sys2Proof

inductive Instr where
  /-- `NOP`, main space, R265. -/
  | nop
  /-- `EX AF,AF'`, main space, R191. -/
  | exAfAf
  /-- `DJNZ e`, main space, R357. -/
  | djnzE (e : Byte)
  /-- `JR e`, main space, R353. -/
  | jrE (e : Byte)
  /-- `JR cc,e`, main space, R354. -/
  | jrCcE (cc : Cond) (e : Byte)
  /-- `LD dd,nn`, main space, R160. -/
  | ldDdNn (dd : Pair) (nn : Word)
  /-- `ADD HL,ss`, main space, R283. -/
  | addHlSs (ss : Pair)
  /-- `LD (BC),A`, main space, R141. -/
  | ldMemBcA
  /-- `LD (DE),A`, main space, R142. -/
  | ldMemDeA
  /-- `LD (nn),HL`, main space, R165. -/
  | ldMemNnHl (nn : Word)
  /-- `LD (nn),A`, main space, R143. -/
  | ldMemNnA (nn : Word)
  /-- `LD A,(BC)`, main space, R138. -/
  | ldAMemBc
  /-- `LD A,(DE)`, main space, R139. -/
  | ldAMemDe
  /-- `LD HL,(nn)`, main space, R162. -/
  | ldHlMemNn (nn : Word)
  /-- `LD A,(nn)`, main space, R140. -/
  | ldAMemNn (nn : Word)
  /-- `INC ss`, main space, R287. -/
  | incSs (ss : Pair)
  /-- `DEC ss`, main space, R288. -/
  | decSs (ss : Pair)
  /-- `INC r`, main space, R241. -/
  | incR (r : Reg8)
  /-- `INC (HL)`, main space, R242. -/
  | incMemHl
  /-- `DEC r`, main space, R245. -/
  | decR (r : Reg8)
  /-- `DEC (HL)`, main space, R246. -/
  | decMemHl
  /-- `LD r,n`, main space, R131. -/
  | ldRN (r : Reg8) (n : Byte)
  /-- `LD (HL),n`, main space, R136. -/
  | ldMemHlN (n : Byte)
  /-- `RLCA`, main space, R300. -/
  | rlca
  /-- `RRCA`, main space, R301. -/
  | rrca
  /-- `RLA`, main space, R302. -/
  | rla
  /-- `RRA`, main space, R303. -/
  | rra
  /-- `DAA`, main space, R260. -/
  | daa
  /-- `CPL`, main space, R261. -/
  | cpl
  /-- `SCF`, main space, R264. -/
  | scf
  /-- `CCF`, main space, R263. -/
  | ccf
  /-- `LD r,r'`, main space, R130. -/
  | ldRR (dst : Reg8) (src : Reg8)
  /-- `LD r,(HL)`, main space, R132. -/
  | ldRMemHl (r : Reg8)
  /-- `LD (HL),r`, main space, R134. -/
  | ldMemHlR (r : Reg8)
  /-- `HALT`, main space, R266. -/
  | halt
  /-- `ADD A,r`, main space, R230. -/
  | addAR (r : Reg8)
  /-- `ADD A,(HL)`, main space, R232. -/
  | addAMemHl
  /-- `ADC A,r`, main space, R230. -/
  | adcAR (r : Reg8)
  /-- `ADC A,(HL)`, main space, R232. -/
  | adcAMemHl
  /-- `SUB r`, main space, R230. -/
  | subR (r : Reg8)
  /-- `SUB (HL)`, main space, R232. -/
  | subMemHl
  /-- `SBC A,r`, main space, R230. -/
  | sbcAR (r : Reg8)
  /-- `SBC A,(HL)`, main space, R232. -/
  | sbcAMemHl
  /-- `AND r`, main space, R230. -/
  | andR (r : Reg8)
  /-- `AND (HL)`, main space, R232. -/
  | andMemHl
  /-- `XOR r`, main space, R230. -/
  | xorR (r : Reg8)
  /-- `XOR (HL)`, main space, R232. -/
  | xorMemHl
  /-- `OR r`, main space, R230. -/
  | orR (r : Reg8)
  /-- `OR (HL)`, main space, R232. -/
  | orMemHl
  /-- `CP r`, main space, R230. -/
  | cpR (r : Reg8)
  /-- `CP (HL)`, main space, R232. -/
  | cpMemHl
  /-- `RET cc`, main space, R361. -/
  | retCc (cc : Cond)
  /-- `POP qq`, main space, R172. -/
  | popQq (qq : StackPair)
  /-- `RET`, main space, R360. -/
  | ret
  /-- `EXX`, main space, R192. -/
  | exx
  /-- `JP (HL)`, main space, R355. -/
  | jpHl
  /-- `LD SP,HL`, main space, R168. -/
  | ldSpHl
  /-- `JP cc,nn`, main space, R352. -/
  | jpCcNn (cc : Cond) (nn : Word)
  /-- `JP nn`, main space, R351. -/
  | jpNn (nn : Word)
  /-- `prefix CB`, main space, R96. -/
  | prefixCb
  /-- `OUT (n),A`, main space, R388. -/
  | outNA (n : Byte)
  /-- `IN A,(n)`, main space, R380. -/
  | inAN (n : Byte)
  /-- `EX (SP),HL`, main space, R193. -/
  | exMemSpHl
  /-- `EX DE,HL`, main space, R190. -/
  | exDeHl
  /-- `DI`, main space, R267. -/
  | di
  /-- `EI`, main space, R269. -/
  | ei
  /-- `CALL cc,nn`, main space, R359. -/
  | callCcNn (cc : Cond) (nn : Word)
  /-- `PUSH qq`, main space, R170. -/
  | pushQq (qq : StackPair)
  /-- `CALL nn`, main space, R358. -/
  | callNn (nn : Word)
  /-- `prefix DD`, main space, R96. -/
  | prefixDd
  /-- `prefix ED`, main space, R96. -/
  | prefixEd
  /-- `prefix FD`, main space, R96. -/
  | prefixFd
  /-- `ADD A,n`, main space, R231. -/
  | addAN (n : Byte)
  /-- `ADC A,n`, main space, R231. -/
  | adcAN (n : Byte)
  /-- `SUB n`, main space, R231. -/
  | subN (n : Byte)
  /-- `SBC A,n`, main space, R231. -/
  | sbcAN (n : Byte)
  /-- `AND n`, main space, R231. -/
  | andN (n : Byte)
  /-- `XOR n`, main space, R231. -/
  | xorN (n : Byte)
  /-- `OR n`, main space, R231. -/
  | orN (n : Byte)
  /-- `CP n`, main space, R231. -/
  | cpN (n : Byte)
  /-- `RST p`, main space, R366. -/
  | rstP (p : BitVec 3)
  /-- `RLC r`, CB space, R312. -/
  | rlcR (r : Reg8)
  /-- `RLC (HL)`, CB space, R313. -/
  | rlcMemHl
  /-- `RRC r`, CB space, R312. -/
  | rrcR (r : Reg8)
  /-- `RRC (HL)`, CB space, R313. -/
  | rrcMemHl
  /-- `RL r`, CB space, R312. -/
  | rlR (r : Reg8)
  /-- `RL (HL)`, CB space, R313. -/
  | rlMemHl
  /-- `RR r`, CB space, R312. -/
  | rrR (r : Reg8)
  /-- `RR (HL)`, CB space, R313. -/
  | rrMemHl
  /-- `SLA r`, CB space, R312. -/
  | slaR (r : Reg8)
  /-- `SLA (HL)`, CB space, R313. -/
  | slaMemHl
  /-- `SRA r`, CB space, R312. -/
  | sraR (r : Reg8)
  /-- `SRA (HL)`, CB space, R313. -/
  | sraMemHl
  /-- `SLL r`, CB space, R312. -/
  | sllR (r : Reg8)
  /-- `SLL (HL)`, CB space, R313. -/
  | sllMemHl
  /-- `SRL r`, CB space, R312. -/
  | srlR (r : Reg8)
  /-- `SRL (HL)`, CB space, R313. -/
  | srlMemHl
  /-- `BIT b,r`, CB space, R331. -/
  | bitBR (bit : BitVec 3) (r : Reg8)
  /-- `BIT b,(HL)`, CB space, R332. -/
  | bitBMemHl (bit : BitVec 3)
  /-- `RES b,r`, CB space, R334. -/
  | resBR (bit : BitVec 3) (r : Reg8)
  /-- `RES b,(HL)`, CB space, R335. -/
  | resBMemHl (bit : BitVec 3)
  /-- `SET b,r`, CB space, R334. -/
  | setBR (bit : BitVec 3) (r : Reg8)
  /-- `SET b,(HL)`, CB space, R335. -/
  | setBMemHl (bit : BitVec 3)
  /-- `NOP*`, ED space, R272. -/
  | edNop0 (yz : BitVec 6)
  /-- `IN r,(C)`, ED space, R381. -/
  | inRC (r : Reg8)
  /-- `IN F,(C)`, ED space, R382. -/
  | inFC
  /-- `OUT (C),r`, ED space, R389. -/
  | outCR (r : Reg8)
  /-- `OUT (C),0`, ED space, R390. -/
  | outC0
  /-- `SBC HL,ss`, ED space, R286. -/
  | sbcHlSs (ss : Pair)
  /-- `ADC HL,ss`, ED space, R285. -/
  | adcHlSs (ss : Pair)
  /-- `LD (nn),dd`, ED space, R166. -/
  | ldMemNnDd (nn : Word) (dd : Pair)
  /-- `LD dd,(nn)`, ED space, R163. -/
  | ldDdMemNn (dd : Pair) (nn : Word)
  /-- `NEG`, ED space, R262. -/
  | neg (y : BitVec 3)
  /-- `RETN`, ED space, R365. -/
  | retn (y : BitVec 3)
  /-- `RETI`, ED space, R362. -/
  | reti
  /-- `IM n`, ED space, R270. -/
  | imN (y : BitVec 3)
  /-- `LD I,A`, ED space, R146. -/
  | ldIA
  /-- `LD R,A`, ED space, R147. -/
  | ldRfA
  /-- `LD A,I`, ED space, R144. -/
  | ldAI
  /-- `LD A,R`, ED space, R145. -/
  | ldARf
  /-- `RRD`, ED space, R317. -/
  | rrd
  /-- `RLD`, ED space, R316. -/
  | rld
  /-- `NOP*`, ED space, R272. -/
  | edNop7 (q : BitVec 1)
  /-- `NOP*`, ED space, R272. -/
  | edNop8 (yz : BitVec 5)
  /-- `LDI`, ED space, R195. -/
  | ldi
  /-- `CPI`, ED space, R199. -/
  | cpi
  /-- `INI`, ED space, R384. -/
  | ini
  /-- `OUTI`, ED space, R391. -/
  | outi
  /-- `LDD`, ED space, R197. -/
  | ldd
  /-- `CPD`, ED space, R201. -/
  | cpd
  /-- `IND`, ED space, R386. -/
  | ind
  /-- `OUTD`, ED space, R393. -/
  | outd
  /-- `LDIR`, ED space, R196. -/
  | ldir
  /-- `CPIR`, ED space, R200. -/
  | cpir
  /-- `INIR`, ED space, R385. -/
  | inir
  /-- `OTIR`, ED space, R392. -/
  | otir
  /-- `LDDR`, ED space, R198. -/
  | lddr
  /-- `CPDR`, ED space, R202. -/
  | cpdr
  /-- `INDR`, ED space, R387. -/
  | indr
  /-- `OTDR`, ED space, R394. -/
  | otdr
  /-- `NOP*`, ED space, R272. -/
  | edNopA (y : BitVec 2) (z : BitVec 2)
  /-- `NOP*`, ED space, R272. -/
  | edNopC (yz : BitVec 6)
  /-- `ADD XY,pp`, XY space, R284. -/
  | addXyPp (xy : Index) (pp : XPair)
  /-- `LD XY,nn`, XY space, R161. -/
  | ldXyNn (xy : Index) (nn : Word)
  /-- `LD (nn),XY`, XY space, R167. -/
  | ldMemNnXy (xy : Index) (nn : Word)
  /-- `INC XY`, XY space, R289. -/
  | incXy (xy : Index)
  /-- `INC p`, XY space, R244. -/
  | incP (xy : Index) (p : Half)
  /-- `DEC p`, XY space, R248. -/
  | decP (xy : Index) (p : Half)
  /-- `LD p,n`, XY space, R149. -/
  | ldPN (xy : Index) (p : Half) (n : Byte)
  /-- `LD XY,(nn)`, XY space, R164. -/
  | ldXyMemNn (xy : Index) (nn : Word)
  /-- `DEC XY`, XY space, R290. -/
  | decXy (xy : Index)
  /-- `INC (XY+d)`, XY space, R243. -/
  | incMemXyd (xy : Index) (d : Byte)
  /-- `DEC (XY+d)`, XY space, R247. -/
  | decMemXyd (xy : Index) (d : Byte)
  /-- `LD (XY+d),n`, XY space, R137. -/
  | ldMemXydN (xy : Index) (d : Byte) (n : Byte)
  /-- `LD r,(XY+d)`, XY space, R133. -/
  | ldRMemXyd (xy : Index) (r : Reg8) (d : Byte)
  /-- `LD (XY+d),r`, XY space, R135. -/
  | ldMemXydR (xy : Index) (d : Byte) (r : Reg8)
  /-- `LD p,p'`, XY space, R148. -/
  | ldPP (xy : Index) (dst : XReg8) (src : XReg8)
  /-- `ADD A,p`, XY space, R234. -/
  | addAP (xy : Index) (p : Half)
  /-- `ADD A,(XY+d)`, XY space, R233. -/
  | addAMemXyd (xy : Index) (d : Byte)
  /-- `ADC A,p`, XY space, R234. -/
  | adcAP (xy : Index) (p : Half)
  /-- `ADC A,(XY+d)`, XY space, R233. -/
  | adcAMemXyd (xy : Index) (d : Byte)
  /-- `SUB p`, XY space, R234. -/
  | subP (xy : Index) (p : Half)
  /-- `SUB (XY+d)`, XY space, R233. -/
  | subMemXyd (xy : Index) (d : Byte)
  /-- `SBC A,p`, XY space, R234. -/
  | sbcAP (xy : Index) (p : Half)
  /-- `SBC A,(XY+d)`, XY space, R233. -/
  | sbcAMemXyd (xy : Index) (d : Byte)
  /-- `AND p`, XY space, R234. -/
  | andP (xy : Index) (p : Half)
  /-- `AND (XY+d)`, XY space, R233. -/
  | andMemXyd (xy : Index) (d : Byte)
  /-- `XOR p`, XY space, R234. -/
  | xorP (xy : Index) (p : Half)
  /-- `XOR (XY+d)`, XY space, R233. -/
  | xorMemXyd (xy : Index) (d : Byte)
  /-- `OR p`, XY space, R234. -/
  | orP (xy : Index) (p : Half)
  /-- `OR (XY+d)`, XY space, R233. -/
  | orMemXyd (xy : Index) (d : Byte)
  /-- `CP p`, XY space, R234. -/
  | cpP (xy : Index) (p : Half)
  /-- `CP (XY+d)`, XY space, R233. -/
  | cpMemXyd (xy : Index) (d : Byte)
  /-- `prefix XY CB`, XY space, R102. -/
  | prefixXyCb (xy : Index)
  /-- `repeated prefix DD`, XY space, R104. -/
  | repeatedPrefixDd (xy : Index)
  /-- `prefix ED after XY`, XY space, R105. -/
  | prefixEdAfterXy (xy : Index) (inner : Instr)
  /-- `repeated prefix FD`, XY space, R104. -/
  | repeatedPrefixFd (xy : Index)
  /-- `POP XY`, XY space, R173. -/
  | popXy (xy : Index)
  /-- `EX (SP),XY`, XY space, R194. -/
  | exMemSpXy (xy : Index)
  /-- `PUSH XY`, XY space, R171. -/
  | pushXy (xy : Index)
  /-- `JP (XY)`, XY space, R356. -/
  | jpXy (xy : Index)
  /-- `LD SP,XY`, XY space, R169. -/
  | ldSpXy (xy : Index)
  /-- `RLC (XY+d)`, XYCB space, R314. -/
  | rlcMemXyd (xy : Index) (d : Byte)
  /-- `RLC (XY+d),r`, XYCB space, R315. -/
  | rlcMemXydR (xy : Index) (d : Byte) (r : Reg8)
  /-- `RRC (XY+d)`, XYCB space, R314. -/
  | rrcMemXyd (xy : Index) (d : Byte)
  /-- `RRC (XY+d),r`, XYCB space, R315. -/
  | rrcMemXydR (xy : Index) (d : Byte) (r : Reg8)
  /-- `RL (XY+d)`, XYCB space, R314. -/
  | rlMemXyd (xy : Index) (d : Byte)
  /-- `RL (XY+d),r`, XYCB space, R315. -/
  | rlMemXydR (xy : Index) (d : Byte) (r : Reg8)
  /-- `RR (XY+d)`, XYCB space, R314. -/
  | rrMemXyd (xy : Index) (d : Byte)
  /-- `RR (XY+d),r`, XYCB space, R315. -/
  | rrMemXydR (xy : Index) (d : Byte) (r : Reg8)
  /-- `SLA (XY+d)`, XYCB space, R314. -/
  | slaMemXyd (xy : Index) (d : Byte)
  /-- `SLA (XY+d),r`, XYCB space, R315. -/
  | slaMemXydR (xy : Index) (d : Byte) (r : Reg8)
  /-- `SRA (XY+d)`, XYCB space, R314. -/
  | sraMemXyd (xy : Index) (d : Byte)
  /-- `SRA (XY+d),r`, XYCB space, R315. -/
  | sraMemXydR (xy : Index) (d : Byte) (r : Reg8)
  /-- `SLL (XY+d)`, XYCB space, R314. -/
  | sllMemXyd (xy : Index) (d : Byte)
  /-- `SLL (XY+d),r`, XYCB space, R315. -/
  | sllMemXydR (xy : Index) (d : Byte) (r : Reg8)
  /-- `SRL (XY+d)`, XYCB space, R314. -/
  | srlMemXyd (xy : Index) (d : Byte)
  /-- `SRL (XY+d),r`, XYCB space, R315. -/
  | srlMemXydR (xy : Index) (d : Byte) (r : Reg8)
  /-- `BIT b,(XY+d)`, XYCB space, R333. -/
  | bitBMemXyd (xy : Index) (d : Byte) (bit : BitVec 3) (z : BitVec 3)
  /-- `RES b,(XY+d)`, XYCB space, R336. -/
  | resBMemXyd (xy : Index) (d : Byte) (bit : BitVec 3)
  /-- `RES b,(XY+d),r`, XYCB space, R338. -/
  | resBMemXydR (xy : Index) (d : Byte) (bit : BitVec 3) (r : Reg8)
  /-- `SET b,(XY+d)`, XYCB space, R337. -/
  | setBMemXyd (xy : Index) (d : Byte) (bit : BitVec 3)
  /-- `SET b,(XY+d),r`, XYCB space, R339. -/
  | setBMemXydR (xy : Index) (d : Byte) (bit : BitVec 3) (r : Reg8)
  /-- `(as main space)`, XY space, R103. -/
  | asMainSpace (xy : Index) (inner : Instr)
deriving DecidableEq, Repr

end Sys2Proof
end

