-- ==== Sys2Proof/WellFormed.lean ====
section
/-! DEFINITION. Which terms of `Instr` are instructions: the checks the constructors' types do not make. -/

namespace Sys2Proof

/-- The space an opcode byte is looked up in (30_encoding.md R97, R126): `xy` stands for DD and FD, `xycb` for
DDCB and FDCB. -/
inductive Space where
  | main | cb | ed | xy | xycb
deriving DecidableEq, Repr

/-- The space of each row of spec/opcode_table.json. -/
def Instr.space : Instr → Space
  | .nop | .exAfAf | .djnzE _ | .jrE _ | .jrCcE _ _ | .ldDdNn _ _ | .addHlSs _ | .ldMemBcA | .ldMemDeA
  | .ldMemNnHl _ | .ldMemNnA _ | .ldAMemBc | .ldAMemDe | .ldHlMemNn _ | .ldAMemNn _ | .incSs _ | .decSs _
  | .incR _ | .incMemHl | .decR _ | .decMemHl | .ldRN _ _ | .ldMemHlN _ | .rlca | .rrca | .rla | .rra | .daa
  | .cpl | .scf | .ccf | .ldRR _ _ | .ldRMemHl _ | .ldMemHlR _ | .halt | .addAR _ | .addAMemHl | .adcAR _
  | .adcAMemHl | .subR _ | .subMemHl | .sbcAR _ | .sbcAMemHl | .andR _ | .andMemHl | .xorR _ | .xorMemHl
  | .orR _ | .orMemHl | .cpR _ | .cpMemHl | .retCc _ | .popQq _ | .ret | .exx | .jpHl | .ldSpHl | .jpCcNn _ _
  | .jpNn _ | .prefixCb | .outNA _ | .inAN _ | .exMemSpHl | .exDeHl | .di | .ei | .callCcNn _ _ | .pushQq _
  | .callNn _ | .prefixDd | .prefixEd | .prefixFd | .addAN _ | .adcAN _ | .subN _ | .sbcAN _ | .andN _
  | .xorN _ | .orN _ | .cpN _ | .rstP _ => .main
  | .rlcR _ | .rlcMemHl | .rrcR _ | .rrcMemHl | .rlR _ | .rlMemHl | .rrR _ | .rrMemHl | .slaR _ | .slaMemHl
  | .sraR _ | .sraMemHl | .sllR _ | .sllMemHl | .srlR _ | .srlMemHl | .bitBR _ _ | .bitBMemHl _ | .resBR _ _
  | .resBMemHl _ | .setBR _ _ | .setBMemHl _ => .cb
  | .edNop0 _ | .inRC _ | .inFC | .outCR _ | .outC0 | .sbcHlSs _ | .adcHlSs _ | .ldMemNnDd _ _ | .ldDdMemNn _ _
  | .neg _ | .retn _ | .reti | .imN _ | .ldIA | .ldRfA | .ldAI | .ldARf | .rrd | .rld | .edNop7 _ | .edNop8 _
  | .ldi | .cpi | .ini | .outi | .ldd | .cpd | .ind | .outd | .ldir | .cpir | .inir | .otir | .lddr | .cpdr
  | .indr | .otdr | .edNopA _ _ | .edNopC _ => .ed
  | .addXyPp _ _ | .ldXyNn _ _ | .ldMemNnXy _ _ | .incXy _ | .incP _ _ | .decP _ _ | .ldPN _ _ _
  | .ldXyMemNn _ _ | .decXy _ | .incMemXyd _ _ | .decMemXyd _ _ | .ldMemXydN _ _ _ | .ldRMemXyd _ _ _
  | .ldMemXydR _ _ _ | .ldPP _ _ _ | .addAP _ _ | .addAMemXyd _ _ | .adcAP _ _ | .adcAMemXyd _ _ | .subP _ _
  | .subMemXyd _ _ | .sbcAP _ _ | .sbcAMemXyd _ _ | .andP _ _ | .andMemXyd _ _ | .xorP _ _ | .xorMemXyd _ _
  | .orP _ _ | .orMemXyd _ _ | .cpP _ _ | .cpMemXyd _ _ | .prefixXyCb _ | .repeatedPrefixDd _
  | .prefixEdAfterXy _ _ | .repeatedPrefixFd _ | .popXy _ | .exMemSpXy _ | .pushXy _ | .jpXy _ | .ldSpXy _
  | .asMainSpace _ _ => .xy
  | .rlcMemXyd _ _ | .rlcMemXydR _ _ _ | .rrcMemXyd _ _ | .rrcMemXydR _ _ _ | .rlMemXyd _ _ | .rlMemXydR _ _ _
  | .rrMemXyd _ _ | .rrMemXydR _ _ _ | .slaMemXyd _ _ | .slaMemXydR _ _ _ | .sraMemXyd _ _ | .sraMemXydR _ _ _
  | .sllMemXyd _ _ | .sllMemXydR _ _ _ | .srlMemXyd _ _ | .srlMemXydR _ _ _ | .bitBMemXyd _ _ _ _
  | .resBMemXyd _ _ _ | .resBMemXydR _ _ _ _ | .setBMemXyd _ _ _ | .setBMemXydR _ _ _ _ => .xycb

/-- The rows that are a prefix byte alone: the entry they select is still to come (30_encoding.md R96, R126). -/
def Instr.isBarePrefix : Instr → Bool
  | .prefixCb | .prefixDd | .prefixEd | .prefixFd | .prefixXyCb _ => true
  | _ => false

/-- `r8[4]` and `r8[5]`, which an index prefix replaces (30_encoding.md R103 item 3). -/
def Reg8.isHl : Reg8 → Bool
  | .h | .l => true
  | _ => false

/-- The index halves `XYH` and `XYL`. -/
def XReg8.isHalf : XReg8 → Bool
  | .half _ => true
  | _ => false

/-- The main-space entries an index prefix changes: those that use the memory operand `(HL)`, name `HL` as a
16-bit register (but for `EX DE,HL`), or name `H` or `L` (30_encoding.md R103 items 1 to 3). -/
def Instr.changedByIndex : Instr → Bool
  | .incMemHl | .decMemHl | .ldMemHlN _ | .ldRMemHl _ | .ldMemHlR _
  | .addAMemHl | .adcAMemHl | .subMemHl | .sbcAMemHl | .andMemHl | .xorMemHl | .orMemHl | .cpMemHl => true
  | .ldHlMemNn _ | .ldMemNnHl _ | .addHlSs _ | .exMemSpHl | .jpHl | .ldSpHl => true
  | .ldDdNn dd _ => dd == .hl
  | .incSs ss | .decSs ss => ss == .hl
  | .popQq qq | .pushQq qq => qq == .hl
  | .incR r | .decR r | .ldRN r _ => r.isHl
  | .ldRR dst src => dst.isHl || src.isHl
  | .addAR r | .adcAR r | .subR r | .sbcAR r | .andR r | .xorR r | .orR r | .cpR r => r.isHl
  | _ => false

/-- The main-space instructions an index prefix leaves as they are (30_encoding.md R103 item 5). -/
def Instr.unchangedByIndex (i : Instr) : Bool :=
  i.space == .main && !i.isBarePrefix && !i.changedByIndex

/-- `JR` takes only the first four conditions (48_jump_call.md R350). -/
def Cond.isShort : Cond → Bool
  | .nz | .z | .nc | .c => true
  | _ => false

/-- The checks an instruction term passes. -/
def Instr.wellFormed : Instr → Bool
  | .jrCcE cc _ => cc.isShort
  -- ED 01 yyy 101 with y = 1 is RETI (48_jump_call.md R365)
  | .retn y => y != 1#3
  -- at least one field names an index half (40_load8.md R148)
  | .ldPP _ dst src => dst.isHalf || src.isHalf
  | .asMainSpace _ inner => inner.unchangedByIndex && inner.wellFormed
  | .prefixEdAfterXy _ inner => inner.space == .ed && inner.wellFormed
  | _ => true

end Sys2Proof
end

