-- ==== Sys2Proof/Decode.lean ====
section
/-! DEFINITION. The decoder of 30_encoding.md R90 to R105, total on any five bytes (R116 to R118), how the bytes of
an instruction are fetched (R94), and the encoder, written from the same encodings. -/

namespace Sys2Proof

/-! ### Fields of an opcode byte (R92) -/

/-- `op[7:6]`. -/
def opX (op : Byte) : Nat := op.toNat / 64

/-- `op[5:3]`. -/
def opY (op : Byte) : Nat := op.toNat / 8 % 8

/-- `op[2:0]`. -/
def opZ (op : Byte) : Nat := op.toNat % 8

/-- `op[5:4]`. -/
def opP (op : Byte) : Nat := op.toNat / 16 % 4

/-- `op[3]`. -/
def opQ (op : Byte) : Nat := op.toNat / 8 % 2

/-- The field `y` as bits. -/
def opYBits (op : Byte) : BitVec 3 := op.extractLsb' 3 3

/-- The field `z` as bits. -/
def opZBits (op : Byte) : BitVec 3 := op.extractLsb' 0 3

/-! ### Selector tables (R93) -/

/-- `r8[i]`, with its memory slot (R93, R112). -/
def slotOf : Nat → Slot
  | 0 => .reg .b
  | 1 => .reg .c
  | 2 => .reg .d
  | 3 => .reg .e
  | 4 => .reg .h
  | 5 => .reg .l
  | 6 => .mem
  | _ => .reg .a

/-- `rp[i]`. -/
def pairOf : Nat → Pair
  | 0 => .bc
  | 1 => .de
  | 2 => .hl
  | _ => .sp

/-- `rp2[i]`. -/
def stackPairOf : Nat → StackPair
  | 0 => .bc
  | 1 => .de
  | 2 => .hl
  | _ => .af

/-- `cc[i]`. -/
def condOf : Nat → Cond
  | 0 => .nz
  | 1 => .z
  | 2 => .nc
  | 3 => .c
  | 4 => .po
  | 5 => .pe
  | 6 => .p
  | _ => .m

/-- `im[i]`. -/
def imOf : BitVec 3 → IntMode
  | 2#3 | 6#3 => .im1
  | 3#3 | 7#3 => .im2
  | _ => .im0

/-- R103 item 3: `H` becomes `XYH`, `L` becomes `XYL`. -/
def Reg8.underIndex : Reg8 → XReg8
  | .b => .b
  | .c => .c
  | .d => .d
  | .e => .e
  | .h => .half .high
  | .l => .half .low
  | .a => .a

/-- R103 item 2 in the source of `ADD HL,rp[p]`: `HL` becomes `XY`. -/
def Pair.underIndex : Pair → XPair
  | .bc => .bc
  | .de => .de
  | .hl => .xy
  | .sp => .sp

/-! ### The opcode maps -/

/-- The ALU block `alu[y] r8[z]` (R98, x = 2). -/
def decodeAluSlot (y : Nat) : Slot → Instr
  | .reg r =>
    match y with
    | 0 => .addAR r
    | 1 => .adcAR r
    | 2 => .subR r
    | 3 => .sbcAR r
    | 4 => .andR r
    | 5 => .xorR r
    | 6 => .orR r
    | _ => .cpR r
  | .mem =>
    match y with
    | 0 => .addAMemHl
    | 1 => .adcAMemHl
    | 2 => .subMemHl
    | 3 => .sbcAMemHl
    | 4 => .andMemHl
    | 5 => .xorMemHl
    | 6 => .orMemHl
    | _ => .cpMemHl

/-- `alu[y] n` (R98, x = 3, z = 6). -/
def decodeAluImm (y : Nat) (n : Byte) : Instr :=
  match y with
  | 0 => .addAN n
  | 1 => .adcAN n
  | 2 => .subN n
  | 3 => .sbcAN n
  | 4 => .andN n
  | 5 => .xorN n
  | 6 => .orN n
  | _ => .cpN n

/-- Quadrant `x = 0` of the main space (R98); `b1`, `b2` are the two bytes after the opcode byte. -/
def decodeQuadrant0 (op b1 b2 : Byte) : Instr :=
  let nn := joinBytes b2 b1
  match opZ op with
  | 0 =>
    match opY op with
    | 0 => .nop
    | 1 => .exAfAf
    | 2 => .djnzE b1
    | 3 => .jrE b1
    | 4 => .jrCcE .nz b1
    | 5 => .jrCcE .z b1
    | 6 => .jrCcE .nc b1
    | _ => .jrCcE .c b1
  | 1 =>
    match opQ op with
    | 0 => .ldDdNn (pairOf (opP op)) nn
    | _ => .addHlSs (pairOf (opP op))
  | 2 =>
    match opY op with
    | 0 => .ldMemBcA
    | 1 => .ldAMemBc
    | 2 => .ldMemDeA
    | 3 => .ldAMemDe
    | 4 => .ldMemNnHl nn
    | 5 => .ldHlMemNn nn
    | 6 => .ldMemNnA nn
    | _ => .ldAMemNn nn
  | 3 =>
    match opQ op with
    | 0 => .incSs (pairOf (opP op))
    | _ => .decSs (pairOf (opP op))
  | 4 =>
    match slotOf (opY op) with
    | .reg r => .incR r
    | .mem => .incMemHl
  | 5 =>
    match slotOf (opY op) with
    | .reg r => .decR r
    | .mem => .decMemHl
  | 6 =>
    match slotOf (opY op) with
    | .reg r => .ldRN r b1
    | .mem => .ldMemHlN b1
  | _ =>
    match opY op with
    | 0 => .rlca
    | 1 => .rrca
    | 2 => .rla
    | 3 => .rra
    | 4 => .daa
    | 5 => .cpl
    | 6 => .scf
    | _ => .ccf

/-- Quadrant `x = 1`: the register-transfer block, whose memory-to-memory slot is `HALT` (R119, R120). -/
def decodeQuadrant1 (op : Byte) : Instr :=
  match slotOf (opY op), slotOf (opZ op) with
  | .mem, .mem => .halt
  | .reg r, .mem => .ldRMemHl r
  | .mem, .reg r => .ldMemHlR r
  | .reg dst, .reg src => .ldRR dst src

/-- Quadrant `x = 3` of the main space (R98). -/
def decodeQuadrant3 (op b1 b2 : Byte) : Instr :=
  let nn := joinBytes b2 b1
  match opZ op with
  | 0 => .retCc (condOf (opY op))
  | 1 =>
    match opQ op with
    | 0 => .popQq (stackPairOf (opP op))
    | _ =>
      match opP op with
      | 0 => .ret
      | 1 => .exx
      | 2 => .jpHl
      | _ => .ldSpHl
  | 2 => .jpCcNn (condOf (opY op)) nn
  | 3 =>
    match opY op with
    | 0 => .jpNn nn
    | 1 => .prefixCb
    | 2 => .outNA b1
    | 3 => .inAN b1
    | 4 => .exMemSpHl
    | 5 => .exDeHl
    | 6 => .di
    | _ => .ei
  | 4 => .callCcNn (condOf (opY op)) nn
  | 5 =>
    match opQ op with
    | 0 => .pushQq (stackPairOf (opP op))
    | _ =>
      match opP op with
      | 0 => .callNn nn
      | 1 => .prefixDd
      | 2 => .prefixEd
      | _ => .prefixFd
  | 6 => decodeAluImm (opY op) b1
  | _ => .rstP (opYBits op)

/-- The main-space entry `op` (R98); the four prefix bytes are entries of their own (R96). -/
def decodeMain (op b1 b2 : Byte) : Instr :=
  match opX op with
  | 0 => decodeQuadrant0 op b1 b2
  | 1 => decodeQuadrant1 op
  | 2 => decodeAluSlot (opY op) (slotOf (opZ op))
  | _ => decodeQuadrant3 op b1 b2

/-- `rot[y] r8[z]` (R99). -/
def decodeRotSlot (y : Nat) : Slot → Instr
  | .reg r =>
    match y with
    | 0 => .rlcR r
    | 1 => .rrcR r
    | 2 => .rlR r
    | 3 => .rrR r
    | 4 => .slaR r
    | 5 => .sraR r
    | 6 => .sllR r
    | _ => .srlR r
  | .mem =>
    match y with
    | 0 => .rlcMemHl
    | 1 => .rrcMemHl
    | 2 => .rlMemHl
    | 3 => .rrMemHl
    | 4 => .slaMemHl
    | 5 => .sraMemHl
    | 6 => .sllMemHl
    | _ => .srlMemHl

/-- The CB-space entry `op` (R99). -/
def decodeCb (op : Byte) : Instr :=
  match opX op, slotOf (opZ op) with
  | 0, s => decodeRotSlot (opY op) s
  | 1, .reg r => .bitBR (opYBits op) r
  | 1, .mem => .bitBMemHl (opYBits op)
  | 2, .reg r => .resBR (opYBits op) r
  | 2, .mem => .resBMemHl (opYBits op)
  | _, .reg r => .setBR (opYBits op) r
  | _, .mem => .setBMemHl (opYBits op)

/-- Rows `4x` to `7x` of the ED space (R100). -/
def decodeEd1 (op b1 b2 : Byte) : Instr :=
  let nn := joinBytes b2 b1
  match opZ op with
  | 0 =>
    match slotOf (opY op) with
    | .reg r => .inRC r
    | .mem => .inFC
  | 1 =>
    match slotOf (opY op) with
    | .reg r => .outCR r
    | .mem => .outC0
  | 2 =>
    match opQ op with
    | 0 => .sbcHlSs (pairOf (opP op))
    | _ => .adcHlSs (pairOf (opP op))
  | 3 =>
    match opQ op with
    | 0 => .ldMemNnDd nn (pairOf (opP op))
    | _ => .ldDdMemNn (pairOf (opP op)) nn
  | 4 => .neg (opYBits op)
  | 5 =>
    match opY op with
    | 1 => .reti
    | _ => .retn (opYBits op)
  | 6 => .imN (opYBits op)
  | _ =>
    match opY op with
    | 0 => .ldIA
    | 1 => .ldRfA
    | 2 => .ldAI
    | 3 => .ldARf
    | 4 => .rrd
    | 5 => .rld
    | _ => .edNop7 (op.extractLsb' 3 1)

/-- Rows `8x` to `Bx` of the ED space (R100): the block instructions, and `NOP*` around them. -/
def decodeEd2 (op : Byte) : Instr :=
  match opY op, opZ op with
  | 4, 0 => .ldi
  | 4, 1 => .cpi
  | 4, 2 => .ini
  | 4, 3 => .outi
  | 5, 0 => .ldd
  | 5, 1 => .cpd
  | 5, 2 => .ind
  | 5, 3 => .outd
  | 6, 0 => .ldir
  | 6, 1 => .cpir
  | 6, 2 => .inir
  | 6, 3 => .otir
  | 7, 0 => .lddr
  | 7, 1 => .cpdr
  | 7, 2 => .indr
  | 7, 3 => .otdr
  | 0, _ | 1, _ | 2, _ | 3, _ => .edNop8 (op.extractLsb' 0 5)
  | _, _ => .edNopA (op.extractLsb' 3 2) (op.extractLsb' 0 2)

/-- The ED-space entry `op` (R100). -/
def decodeEd (op b1 b2 : Byte) : Instr :=
  match opX op with
  | 0 => .edNop0 (op.extractLsb' 0 6)
  | 1 => decodeEd1 op b1 b2
  | 2 => decodeEd2 op
  | _ => .edNopC (op.extractLsb' 0 6)

/-- `rot[y] (XY+d)`, with the copy to `r8[z]` when `z` is not 6 (R102). -/
def decodeRotIdx (xy : Index) (d : Byte) (y : Nat) : Slot → Instr
  | .reg r =>
    match y with
    | 0 => .rlcMemXydR xy d r
    | 1 => .rrcMemXydR xy d r
    | 2 => .rlMemXydR xy d r
    | 3 => .rrMemXydR xy d r
    | 4 => .slaMemXydR xy d r
    | 5 => .sraMemXydR xy d r
    | 6 => .sllMemXydR xy d r
    | _ => .srlMemXydR xy d r
  | .mem =>
    match y with
    | 0 => .rlcMemXyd xy d
    | 1 => .rrcMemXyd xy d
    | 2 => .rlMemXyd xy d
    | 3 => .rrMemXyd xy d
    | 4 => .slaMemXyd xy d
    | 5 => .sraMemXyd xy d
    | 6 => .sllMemXyd xy d
    | _ => .srlMemXyd xy d

/-- The DDCB- or FDCB-space entry `op` (R102); the displacement `d` comes before the opcode byte. -/
def decodeXyCb (xy : Index) (d op : Byte) : Instr :=
  match opX op, slotOf (opZ op) with
  | 0, s => decodeRotIdx xy d (opY op) s
  | 1, _ => .bitBMemXyd xy d (opYBits op) (opZBits op)
  | 2, .mem => .resBMemXyd xy d (opYBits op)
  | 2, .reg r => .resBMemXydR xy d (opYBits op) r
  | _, .mem => .setBMemXyd xy d (opYBits op)
  | _, .reg r => .setBMemXydR xy d (opYBits op) r

/-- R103 item 3 for an ALU operation on a register: `named` if it is an index half, else the unchanged entry. -/
def Reg8.aluUnderIndex (r : Reg8) (named : Half → Instr) (unchanged : Instr) : Instr :=
  match r with
  | .h => named .high
  | .l => named .low
  | _ => unchanged

/-- The DD- or FD-space entry `op` (`decode_xy` of R90): the main-space entry for the same byte with the
substitutions of R103, the repeated prefix of R104, the dropped prefix of R105. `b1`, `b2`, `b3` follow `op`. -/
def decodeXy (xy : Index) (op b1 b2 b3 : Byte) : Instr :=
  let entry := decodeMain op b1 b2
  match entry with
  | .prefixCb => decodeXyCb xy b1 b2
  | .prefixDd => .repeatedPrefixDd xy
  | .prefixFd => .repeatedPrefixFd xy
  | .prefixEd => .prefixEdAfterXy xy (decodeEd b1 b2 b3)
  -- item 1: the memory operand
  | .incMemHl => .incMemXyd xy b1
  | .decMemHl => .decMemXyd xy b1
  | .ldMemHlN _ => .ldMemXydN xy b1 b2
  | .ldRMemHl r => .ldRMemXyd xy r b1
  | .ldMemHlR r => .ldMemXydR xy b1 r
  | .addAMemHl => .addAMemXyd xy b1
  | .adcAMemHl => .adcAMemXyd xy b1
  | .subMemHl => .subMemXyd xy b1
  | .sbcAMemHl => .sbcAMemXyd xy b1
  | .andMemHl => .andMemXyd xy b1
  | .xorMemHl => .xorMemXyd xy b1
  | .orMemHl => .orMemXyd xy b1
  | .cpMemHl => .cpMemXyd xy b1
  -- item 2: HL as a 16-bit register
  | .ldDdNn .hl nn => .ldXyNn xy nn
  | .ldHlMemNn nn => .ldXyMemNn xy nn
  | .ldMemNnHl nn => .ldMemNnXy xy nn
  | .incSs .hl => .incXy xy
  | .decSs .hl => .decXy xy
  | .addHlSs ss => .addXyPp xy ss.underIndex
  | .popQq .hl => .popXy xy
  | .pushQq .hl => .pushXy xy
  | .exMemSpHl => .exMemSpXy xy
  | .jpHl => .jpXy xy
  | .ldSpHl => .ldSpXy xy
  -- item 3: H and L
  | .incR r => r.aluUnderIndex (.incP xy) (.asMainSpace xy entry)
  | .decR r => r.aluUnderIndex (.decP xy) (.asMainSpace xy entry)
  | .ldRN r n => r.aluUnderIndex (fun p => .ldPN xy p n) (.asMainSpace xy entry)
  | .ldRR dst src =>
    if dst.isHl || src.isHl then .ldPP xy dst.underIndex src.underIndex else .asMainSpace xy entry
  | .addAR r => r.aluUnderIndex (.addAP xy) (.asMainSpace xy entry)
  | .adcAR r => r.aluUnderIndex (.adcAP xy) (.asMainSpace xy entry)
  | .subR r => r.aluUnderIndex (.subP xy) (.asMainSpace xy entry)
  | .sbcAR r => r.aluUnderIndex (.sbcAP xy) (.asMainSpace xy entry)
  | .andR r => r.aluUnderIndex (.andP xy) (.asMainSpace xy entry)
  | .xorR r => r.aluUnderIndex (.xorP xy) (.asMainSpace xy entry)
  | .orR r => r.aluUnderIndex (.orP xy) (.asMainSpace xy entry)
  | .cpR r => r.aluUnderIndex (.cpP xy) (.asMainSpace xy entry)
  -- item 5: every other entry
  | _ => .asMainSpace xy entry

/-- `decode_main` of R90 on the byte `b0`, with the bytes that follow it: total, every byte sequence decodes
(R117). -/
def decodeBytes (b0 b1 b2 b3 b4 : Byte) : Instr :=
  match decodeMain b0 b1 b2 with
  | .prefixCb => decodeCb b1
  | .prefixEd => decodeEd b1 b2 b3
  | .prefixDd => decodeXy .ix b1 b2 b3 b4
  | .prefixFd => decodeXy .iy b1 b2 b3 b4
  | i => i

/-! ### How the bytes are fetched (R94) -/

/-- The number of bytes read with `Fetch()` and the number read with `Imm8()` after them, by the row's format
(R94): `OP` 1, 0; `OP n` and `OP e` 1, 1; `OP nn` 1, 2; `CB OP`, `ED OP`, `XY OP` 2, 0; and so on. A dropped index prefix
is one more `Fetch()` (R105), so that a step can cost 25 where 60_exceptions.md R441 says at most 23: DESIGN CHOICE,
log 14. -/
def Instr.fetches : Instr → Nat × Nat
  | .nop | .exAfAf | .addHlSs _ | .ldMemBcA | .ldMemDeA | .ldAMemBc | .ldAMemDe | .incSs _ | .decSs _ | .incR _
  | .incMemHl | .decR _ | .decMemHl | .rlca | .rrca | .rla | .rra | .daa | .cpl | .scf | .ccf | .ldRR _ _
  | .ldRMemHl _ | .ldMemHlR _ | .halt | .addAR _ | .addAMemHl | .adcAR _ | .adcAMemHl | .subR _ | .subMemHl
  | .sbcAR _ | .sbcAMemHl | .andR _ | .andMemHl | .xorR _ | .xorMemHl | .orR _ | .orMemHl | .cpR _ | .cpMemHl
  | .retCc _ | .popQq _ | .ret | .exx | .jpHl | .ldSpHl | .prefixCb | .exMemSpHl | .exDeHl | .di | .ei
  | .pushQq _ | .prefixDd | .prefixEd | .prefixFd | .rstP _ => (1, 0)
  | .djnzE _ | .jrE _ | .jrCcE _ _ | .ldRN _ _ | .ldMemHlN _ | .outNA _ | .inAN _ | .addAN _ | .adcAN _
  | .subN _ | .sbcAN _ | .andN _ | .xorN _ | .orN _ | .cpN _ => (1, 1)
  | .ldDdNn _ _ | .ldMemNnHl _ | .ldMemNnA _ | .ldHlMemNn _ | .ldAMemNn _ | .jpCcNn _ _ | .jpNn _
  | .callCcNn _ _ | .callNn _ => (1, 2)
  | .rlcR _ | .rlcMemHl | .rrcR _ | .rrcMemHl | .rlR _ | .rlMemHl | .rrR _ | .rrMemHl | .slaR _ | .slaMemHl
  | .sraR _ | .sraMemHl | .sllR _ | .sllMemHl | .srlR _ | .srlMemHl | .bitBR _ _ | .bitBMemHl _ | .resBR _ _
  | .resBMemHl _ | .setBR _ _ | .setBMemHl _ | .edNop0 _ | .inRC _ | .inFC | .outCR _ | .outC0 | .sbcHlSs _
  | .adcHlSs _ | .neg _ | .retn _ | .reti | .imN _ | .ldIA | .ldRfA | .ldAI | .ldARf | .rrd | .rld | .edNop7 _
  | .edNop8 _ | .ldi | .cpi | .ini | .outi | .ldd | .cpd | .ind | .outd | .ldir | .cpir | .inir | .otir | .lddr
  | .cpdr | .indr | .otdr | .edNopA _ _ | .edNopC _ | .addXyPp _ _ | .incXy _ | .incP _ _ | .decP _ _
  | .decXy _ | .ldPP _ _ _ | .addAP _ _ | .adcAP _ _ | .subP _ _ | .sbcAP _ _ | .andP _ _ | .xorP _ _
  | .orP _ _ | .cpP _ _ | .prefixXyCb _ | .repeatedPrefixDd _ | .repeatedPrefixFd _ | .popXy _ | .exMemSpXy _
  | .pushXy _ | .jpXy _ | .ldSpXy _ => (2, 0)
  | .ldMemNnDd _ _ | .ldDdMemNn _ _ | .ldXyNn _ _ | .ldMemNnXy _ _ | .ldXyMemNn _ _ | .ldMemXydN _ _ _
  | .rlcMemXyd _ _ | .rlcMemXydR _ _ _ | .rrcMemXyd _ _ | .rrcMemXydR _ _ _ | .rlMemXyd _ _ | .rlMemXydR _ _ _
  | .rrMemXyd _ _ | .rrMemXydR _ _ _ | .slaMemXyd _ _ | .slaMemXydR _ _ _ | .sraMemXyd _ _ | .sraMemXydR _ _ _
  | .sllMemXyd _ _ | .sllMemXydR _ _ _ | .srlMemXyd _ _ | .srlMemXydR _ _ _ | .bitBMemXyd _ _ _ _
  | .resBMemXyd _ _ _ | .resBMemXydR _ _ _ _ | .setBMemXyd _ _ _ | .setBMemXydR _ _ _ _ => (2, 2)
  | .ldPN _ _ _ | .incMemXyd _ _ | .decMemXyd _ _ | .ldRMemXyd _ _ _ | .ldMemXydR _ _ _ | .addAMemXyd _ _
  | .adcAMemXyd _ _ | .subMemXyd _ _ | .sbcAMemXyd _ _ | .andMemXyd _ _ | .xorMemXyd _ _ | .orMemXyd _ _
  | .cpMemXyd _ _ => (2, 1)
  | .asMainSpace _ inner | .prefixEdAfterXy _ inner => (1 + inner.fetches.1, inner.fetches.2)

/-- The length in bytes (R91). -/
def Instr.length (i : Instr) : Nat := i.fetches.1 + i.fetches.2

/-! ### Decoding a list of bytes -/

/-- Why a list of bytes is no instruction: it is empty, or it ends before the instruction does. -/
inductive DecodeError where
  | noBytes
  | truncated (length : Nat)
deriving DecidableEq, Repr

/-- A list that is one prefix byte, or `DD CB` or `FD CB`, and nothing more, is that prefix's own row. -/
def barePrefixOf (bytes : List Byte) : Option Instr :=
  if bytes = [0xCB] then some .prefixCb
  else if bytes = [0xDD] then some .prefixDd
  else if bytes = [0xED] then some .prefixEd
  else if bytes = [0xFD] then some .prefixFd
  else if bytes = [0xDD, 0xCB] then some (.prefixXyCb .ix)
  else if bytes = [0xFD, 0xCB] then some (.prefixXyCb .iy)
  else none

/-- The first instruction of a list of bytes, and the bytes after it. -/
def decode (bytes : List Byte) : Except DecodeError (Instr × List Byte) :=
  match barePrefixOf bytes with
  | some p => .ok (p, [])
  | none =>
    let i := decodeBytes (bytes.getD 0 0) (bytes.getD 1 0) (bytes.getD 2 0) (bytes.getD 3 0) (bytes.getD 4 0)
    if bytes = [] then .error .noBytes
    else if i.length ≤ bytes.length then .ok (i, bytes.drop i.length)
    else .error (.truncated i.length)

/-! ### The encoder -/

def Reg8.code : Reg8 → Nat
  | .b => 0
  | .c => 1
  | .d => 2
  | .e => 3
  | .h => 4
  | .l => 5
  | .a => 7

/-- `x8` of 40_load8.md R148. -/
def XReg8.code : XReg8 → Nat
  | .b => 0
  | .c => 1
  | .d => 2
  | .e => 3
  | .half .high => 4
  | .half .low => 5
  | .a => 7

def Pair.code : Pair → Nat
  | .bc => 0
  | .de => 1
  | .hl => 2
  | .sp => 3

def XPair.code : XPair → Nat
  | .bc => 0
  | .de => 1
  | .xy => 2
  | .sp => 3

def StackPair.code : StackPair → Nat
  | .bc => 0
  | .de => 1
  | .hl => 2
  | .af => 3

def Cond.code : Cond → Nat
  | .nz => 0
  | .z => 1
  | .nc => 2
  | .c => 3
  | .po => 4
  | .pe => 5
  | .p => 6
  | .m => 7

/-- 4 for `XYH`, 5 for `XYL`: the places of `H` and `L` in `r8`. -/
def Half.code : Half → Nat
  | .high => 4
  | .low => 5

/-- `0xDD` selects `IX`, `0xFD` selects `IY` (R94). -/
def Index.prefixByte : Index → Byte
  | .ix => 0xDD
  | .iy => 0xFD

/-- The opcode byte with fields `x`, `y`, `z` (R92). -/
def opByte (x y z : Nat) : Byte := BitVec.ofNat 8 (64 * x + 8 * y + z)

/-- The bytes of an instruction in the order they are fetched, from its row's encoding. -/
def encode : Instr → List Byte
  | .nop => [0x00]
  | .exAfAf => [0x08]
  | .djnzE e => [0x10, e]
  | .jrE e => [0x18, e]
  | .jrCcE cc e => [opByte 0 (4 + cc.code) 0, e]
  | .ldDdNn dd nn => [opByte 0 (2 * dd.code) 1, loByte nn, hiByte nn]
  | .addHlSs ss => [opByte 0 (2 * ss.code + 1) 1]
  | .ldMemBcA => [0x02]
  | .ldMemDeA => [0x12]
  | .ldMemNnHl nn => [0x22, loByte nn, hiByte nn]
  | .ldMemNnA nn => [0x32, loByte nn, hiByte nn]
  | .ldAMemBc => [0x0A]
  | .ldAMemDe => [0x1A]
  | .ldHlMemNn nn => [0x2A, loByte nn, hiByte nn]
  | .ldAMemNn nn => [0x3A, loByte nn, hiByte nn]
  | .incSs ss => [opByte 0 (2 * ss.code) 3]
  | .decSs ss => [opByte 0 (2 * ss.code + 1) 3]
  | .incR r => [opByte 0 r.code 4]
  | .incMemHl => [0x34]
  | .decR r => [opByte 0 r.code 5]
  | .decMemHl => [0x35]
  | .ldRN r n => [opByte 0 r.code 6, n]
  | .ldMemHlN n => [0x36, n]
  | .rlca => [0x07]
  | .rrca => [0x0F]
  | .rla => [0x17]
  | .rra => [0x1F]
  | .daa => [0x27]
  | .cpl => [0x2F]
  | .scf => [0x37]
  | .ccf => [0x3F]
  | .ldRR dst src => [opByte 1 dst.code src.code]
  | .ldRMemHl r => [opByte 1 r.code 6]
  | .ldMemHlR r => [opByte 1 6 r.code]
  | .halt => [0x76]
  | .addAR r => [opByte 2 0 r.code]
  | .addAMemHl => [opByte 2 0 6]
  | .adcAR r => [opByte 2 1 r.code]
  | .adcAMemHl => [opByte 2 1 6]
  | .subR r => [opByte 2 2 r.code]
  | .subMemHl => [opByte 2 2 6]
  | .sbcAR r => [opByte 2 3 r.code]
  | .sbcAMemHl => [opByte 2 3 6]
  | .andR r => [opByte 2 4 r.code]
  | .andMemHl => [opByte 2 4 6]
  | .xorR r => [opByte 2 5 r.code]
  | .xorMemHl => [opByte 2 5 6]
  | .orR r => [opByte 2 6 r.code]
  | .orMemHl => [opByte 2 6 6]
  | .cpR r => [opByte 2 7 r.code]
  | .cpMemHl => [opByte 2 7 6]
  | .retCc cc => [opByte 3 cc.code 0]
  | .popQq qq => [opByte 3 (2 * qq.code) 1]
  | .ret => [0xC9]
  | .exx => [0xD9]
  | .jpHl => [0xE9]
  | .ldSpHl => [0xF9]
  | .jpCcNn cc nn => [opByte 3 cc.code 2, loByte nn, hiByte nn]
  | .jpNn nn => [0xC3, loByte nn, hiByte nn]
  | .prefixCb => [0xCB]
  | .outNA n => [0xD3, n]
  | .inAN n => [0xDB, n]
  | .exMemSpHl => [0xE3]
  | .exDeHl => [0xEB]
  | .di => [0xF3]
  | .ei => [0xFB]
  | .callCcNn cc nn => [opByte 3 cc.code 4, loByte nn, hiByte nn]
  | .pushQq qq => [opByte 3 (2 * qq.code) 5]
  | .callNn nn => [0xCD, loByte nn, hiByte nn]
  | .prefixDd => [0xDD]
  | .prefixEd => [0xED]
  | .prefixFd => [0xFD]
  | .addAN n => [opByte 3 0 6, n]
  | .adcAN n => [opByte 3 1 6, n]
  | .subN n => [opByte 3 2 6, n]
  | .sbcAN n => [opByte 3 3 6, n]
  | .andN n => [opByte 3 4 6, n]
  | .xorN n => [opByte 3 5 6, n]
  | .orN n => [opByte 3 6 6, n]
  | .cpN n => [opByte 3 7 6, n]
  | .rstP p => [opByte 3 p.toNat 7]
  | .rlcR r => [0xCB, opByte 0 0 r.code]
  | .rlcMemHl => [0xCB, opByte 0 0 6]
  | .rrcR r => [0xCB, opByte 0 1 r.code]
  | .rrcMemHl => [0xCB, opByte 0 1 6]
  | .rlR r => [0xCB, opByte 0 2 r.code]
  | .rlMemHl => [0xCB, opByte 0 2 6]
  | .rrR r => [0xCB, opByte 0 3 r.code]
  | .rrMemHl => [0xCB, opByte 0 3 6]
  | .slaR r => [0xCB, opByte 0 4 r.code]
  | .slaMemHl => [0xCB, opByte 0 4 6]
  | .sraR r => [0xCB, opByte 0 5 r.code]
  | .sraMemHl => [0xCB, opByte 0 5 6]
  | .sllR r => [0xCB, opByte 0 6 r.code]
  | .sllMemHl => [0xCB, opByte 0 6 6]
  | .srlR r => [0xCB, opByte 0 7 r.code]
  | .srlMemHl => [0xCB, opByte 0 7 6]
  | .bitBR bit r => [0xCB, opByte 1 bit.toNat r.code]
  | .bitBMemHl bit => [0xCB, opByte 1 bit.toNat 6]
  | .resBR bit r => [0xCB, opByte 2 bit.toNat r.code]
  | .resBMemHl bit => [0xCB, opByte 2 bit.toNat 6]
  | .setBR bit r => [0xCB, opByte 3 bit.toNat r.code]
  | .setBMemHl bit => [0xCB, opByte 3 bit.toNat 6]
  | .edNop0 yz => [0xED, BitVec.ofNat 8 yz.toNat]
  | .inRC r => [0xED, opByte 1 r.code 0]
  | .inFC => [0xED, 0x70]
  | .outCR r => [0xED, opByte 1 r.code 1]
  | .outC0 => [0xED, 0x71]
  | .sbcHlSs ss => [0xED, opByte 1 (2 * ss.code) 2]
  | .adcHlSs ss => [0xED, opByte 1 (2 * ss.code + 1) 2]
  | .ldMemNnDd nn dd => [0xED, opByte 1 (2 * dd.code) 3, loByte nn, hiByte nn]
  | .ldDdMemNn dd nn => [0xED, opByte 1 (2 * dd.code + 1) 3, loByte nn, hiByte nn]
  | .neg y => [0xED, opByte 1 y.toNat 4]
  | .retn y => [0xED, opByte 1 y.toNat 5]
  | .reti => [0xED, 0x4D]
  | .imN y => [0xED, opByte 1 y.toNat 6]
  | .ldIA => [0xED, 0x47]
  | .ldRfA => [0xED, 0x4F]
  | .ldAI => [0xED, 0x57]
  | .ldARf => [0xED, 0x5F]
  | .rrd => [0xED, 0x67]
  | .rld => [0xED, 0x6F]
  | .edNop7 q => [0xED, opByte 1 (6 + q.toNat) 7]
  | .edNop8 yz => [0xED, BitVec.ofNat 8 (0x80 + yz.toNat)]
  | .ldi => [0xED, 0xA0]
  | .cpi => [0xED, 0xA1]
  | .ini => [0xED, 0xA2]
  | .outi => [0xED, 0xA3]
  | .ldd => [0xED, 0xA8]
  | .cpd => [0xED, 0xA9]
  | .ind => [0xED, 0xAA]
  | .outd => [0xED, 0xAB]
  | .ldir => [0xED, 0xB0]
  | .cpir => [0xED, 0xB1]
  | .inir => [0xED, 0xB2]
  | .otir => [0xED, 0xB3]
  | .lddr => [0xED, 0xB8]
  | .cpdr => [0xED, 0xB9]
  | .indr => [0xED, 0xBA]
  | .otdr => [0xED, 0xBB]
  | .edNopA y z => [0xED, opByte 2 (4 + y.toNat) (4 + z.toNat)]
  | .edNopC yz => [0xED, BitVec.ofNat 8 (0xC0 + yz.toNat)]
  | .addXyPp xy pp => [xy.prefixByte, opByte 0 (2 * pp.code + 1) 1]
  | .ldXyNn xy nn => [xy.prefixByte, 0x21, loByte nn, hiByte nn]
  | .ldMemNnXy xy nn => [xy.prefixByte, 0x22, loByte nn, hiByte nn]
  | .incXy xy => [xy.prefixByte, 0x23]
  | .incP xy p => [xy.prefixByte, opByte 0 p.code 4]
  | .decP xy p => [xy.prefixByte, opByte 0 p.code 5]
  | .ldPN xy p n => [xy.prefixByte, opByte 0 p.code 6, n]
  | .ldXyMemNn xy nn => [xy.prefixByte, 0x2A, loByte nn, hiByte nn]
  | .decXy xy => [xy.prefixByte, 0x2B]
  | .incMemXyd xy d => [xy.prefixByte, 0x34, d]
  | .decMemXyd xy d => [xy.prefixByte, 0x35, d]
  | .ldMemXydN xy d n => [xy.prefixByte, 0x36, d, n]
  | .ldRMemXyd xy r d => [xy.prefixByte, opByte 1 r.code 6, d]
  | .ldMemXydR xy d r => [xy.prefixByte, opByte 1 6 r.code, d]
  | .ldPP xy dst src => [xy.prefixByte, opByte 1 dst.code src.code]
  | .addAP xy p => [xy.prefixByte, opByte 2 0 p.code]
  | .addAMemXyd xy d => [xy.prefixByte, opByte 2 0 6, d]
  | .adcAP xy p => [xy.prefixByte, opByte 2 1 p.code]
  | .adcAMemXyd xy d => [xy.prefixByte, opByte 2 1 6, d]
  | .subP xy p => [xy.prefixByte, opByte 2 2 p.code]
  | .subMemXyd xy d => [xy.prefixByte, opByte 2 2 6, d]
  | .sbcAP xy p => [xy.prefixByte, opByte 2 3 p.code]
  | .sbcAMemXyd xy d => [xy.prefixByte, opByte 2 3 6, d]
  | .andP xy p => [xy.prefixByte, opByte 2 4 p.code]
  | .andMemXyd xy d => [xy.prefixByte, opByte 2 4 6, d]
  | .xorP xy p => [xy.prefixByte, opByte 2 5 p.code]
  | .xorMemXyd xy d => [xy.prefixByte, opByte 2 5 6, d]
  | .orP xy p => [xy.prefixByte, opByte 2 6 p.code]
  | .orMemXyd xy d => [xy.prefixByte, opByte 2 6 6, d]
  | .cpP xy p => [xy.prefixByte, opByte 2 7 p.code]
  | .cpMemXyd xy d => [xy.prefixByte, opByte 2 7 6, d]
  | .prefixXyCb xy => [xy.prefixByte, 0xCB]
  | .repeatedPrefixDd xy => [xy.prefixByte, 0xDD]
  | .prefixEdAfterXy xy inner => xy.prefixByte :: encode inner
  | .repeatedPrefixFd xy => [xy.prefixByte, 0xFD]
  | .popXy xy => [xy.prefixByte, 0xE1]
  | .exMemSpXy xy => [xy.prefixByte, 0xE3]
  | .pushXy xy => [xy.prefixByte, 0xE5]
  | .jpXy xy => [xy.prefixByte, 0xE9]
  | .ldSpXy xy => [xy.prefixByte, 0xF9]
  | .rlcMemXyd xy d => [xy.prefixByte, 0xCB, d, opByte 0 0 6]
  | .rlcMemXydR xy d r => [xy.prefixByte, 0xCB, d, opByte 0 0 r.code]
  | .rrcMemXyd xy d => [xy.prefixByte, 0xCB, d, opByte 0 1 6]
  | .rrcMemXydR xy d r => [xy.prefixByte, 0xCB, d, opByte 0 1 r.code]
  | .rlMemXyd xy d => [xy.prefixByte, 0xCB, d, opByte 0 2 6]
  | .rlMemXydR xy d r => [xy.prefixByte, 0xCB, d, opByte 0 2 r.code]
  | .rrMemXyd xy d => [xy.prefixByte, 0xCB, d, opByte 0 3 6]
  | .rrMemXydR xy d r => [xy.prefixByte, 0xCB, d, opByte 0 3 r.code]
  | .slaMemXyd xy d => [xy.prefixByte, 0xCB, d, opByte 0 4 6]
  | .slaMemXydR xy d r => [xy.prefixByte, 0xCB, d, opByte 0 4 r.code]
  | .sraMemXyd xy d => [xy.prefixByte, 0xCB, d, opByte 0 5 6]
  | .sraMemXydR xy d r => [xy.prefixByte, 0xCB, d, opByte 0 5 r.code]
  | .sllMemXyd xy d => [xy.prefixByte, 0xCB, d, opByte 0 6 6]
  | .sllMemXydR xy d r => [xy.prefixByte, 0xCB, d, opByte 0 6 r.code]
  | .srlMemXyd xy d => [xy.prefixByte, 0xCB, d, opByte 0 7 6]
  | .srlMemXydR xy d r => [xy.prefixByte, 0xCB, d, opByte 0 7 r.code]
  | .bitBMemXyd xy d bit z => [xy.prefixByte, 0xCB, d, opByte 1 bit.toNat z.toNat]
  | .resBMemXyd xy d bit => [xy.prefixByte, 0xCB, d, opByte 2 bit.toNat 6]
  | .resBMemXydR xy d bit r => [xy.prefixByte, 0xCB, d, opByte 2 bit.toNat r.code]
  | .setBMemXyd xy d bit => [xy.prefixByte, 0xCB, d, opByte 3 bit.toNat 6]
  | .setBMemXydR xy d bit r => [xy.prefixByte, 0xCB, d, opByte 3 bit.toNat r.code]
  | .asMainSpace xy inner => xy.prefixByte :: encode inner

/-! ### Words of the opcode table -/

/-- Byte `k` of a word numbered with bit 0 the least significant bit of the first byte. -/
def tableByte (w k : Nat) : Byte := BitVec.ofNat 8 (w / 256 ^ k)

/-- The first `n` bytes of such a word, in the order they lie in memory. -/
def tableBytes (n w : Nat) : List Byte := (List.range n).map (tableByte w)

/-- The instruction this decoder reads from the bytes of a table word: the row's own bytes where they are a whole
instruction (or a prefix row), else those bytes with bytes of zeros after them. -/
def decodeTableWord (nbits w : Nat) : Option Instr :=
  let own := tableBytes (nbits / 8) w
  match decode own with
  | .ok (i, _) => some i
  | .error _ =>
    match decode (own ++ List.replicate 5 0) with
    | .ok (i, _) => some i
    | .error _ => none

end Sys2Proof
end

