-- ==== Sys2Proof/Machine/Flags.lean ====
section
/-! DEFINITION. The flag byte, the three flag tables and every result and flag computation of the spec, as pure
functions of bytes and words. -/

namespace Sys2Proof.Machine

open Sys2Proof

/-! ### The flag byte (10_state.md R25) -/

/-- The byte with bit `k` equal to `x` and every other bit 0. -/
def bitAt (k : Nat) (x : Bool) : Byte := if x then 1#8 <<< k else 0#8

/-- `{S=.., Z=.., Y=.., H=.., X=.., PV=.., N=.., C=..}` of 00_scope.md R16: all eight bits (10_state.md R25). -/
def packFlags (s z y h x pv n c : Bool) : Byte :=
  bitAt 7 s ||| bitAt 6 z ||| bitAt 5 y ||| bitAt 4 h ||| bitAt 3 x ||| bitAt 2 pv ||| bitAt 1 n ||| bitAt 0 c

def flagS (f : Byte) : Bool := f.getLsbD 7
def flagZ (f : Byte) : Bool := f.getLsbD 6
def flagY (f : Byte) : Bool := f.getLsbD 5
def flagH (f : Byte) : Bool := f.getLsbD 4
def flagX (f : Byte) : Bool := f.getLsbD 3
def flagPV (f : Byte) : Bool := f.getLsbD 2
def flagN (f : Byte) : Bool := f.getLsbD 1
def flagC (f : Byte) : Bool := f.getLsbD 0

/-- `cond(c)` of 48_jump_call.md R350. -/
def condHolds (cc : Cond) (f : Byte) : Bool :=
  match cc with
  | .nz => !flagZ f
  | .z => flagZ f
  | .nc => !flagC f
  | .c => flagC f
  | .po => !flagPV f
  | .pe => flagPV f
  | .p => !flagS f
  | .m => flagS f

/-! ### The flag tables (10_state.md R30 to R33) -/

/-- `FT_SZXY` (R30). -/
def tableSZXY (v : Byte) : Byte := (v &&& 0xA8) ||| (if v = 0 then 0x40 else 0)

/-- `FT_SZPXY` (R31). -/
def tableSZPXY (v : Byte) : Byte := tableSZXY v ||| (if evenParity v then 0x04 else 0)

/-- `FT_SZPH` (R32). -/
def tableSZPH (v : Byte) : Byte :=
  (v &&& 0x80) ||| (if v = 0 then 0x40 else 0) ||| (if evenParity v then 0x04 else 0) ||| 0x10

/-! ### 8-bit arithmetic and logic (43_alu8.md) -/

/-- `add8` (R220): the result and the new flag byte. -/
def add8 (a v : Byte) (cin : Bool) : Byte × Byte :=
  let sum := a.toNat + v.toNat + cin.toNat
  let res := BitVec.ofNat 8 sum
  (res, packFlags (res.getLsbD 7) (res == 0) (res.getLsbD 5) ((a ^^^ v ^^^ res).getLsbD 4) (res.getLsbD 3)
    (((a ^^^ res) &&& (v ^^^ res)).getLsbD 7) false (decide (255 < sum)))

/-- `sub8` (R222). -/
def sub8 (a v : Byte) (cin : Bool) : Byte × Byte :=
  let diff : Int := a.toNat - v.toNat - cin.toNat
  let res := BitVec.ofInt 8 diff
  (res, packFlags (res.getLsbD 7) (res == 0) (res.getLsbD 5) ((a ^^^ v ^^^ res).getLsbD 4) (res.getLsbD 3)
    (((a ^^^ v) &&& (a ^^^ res)).getLsbD 7) true (decide (diff < 0)))

/-- `alu[y]` on the accumulator `a`, the flag byte `f` and the operand `v`: the new accumulator and flag byte
(R220 to R227). -/
def alu8 (op : AluOp) (a f v : Byte) : Byte × Byte :=
  match op with
  | .add => add8 a v false
  | .adc => add8 a v (flagC f)
  | .sub => sub8 a v false
  | .sbc => sub8 a v (flagC f)
  | .and => (a &&& v, tableSZPXY (a &&& v) ||| 0x10)
  | .xor => (a ^^^ v, tableSZPXY (a ^^^ v))
  | .or => (a ||| v, tableSZPXY (a ||| v))
  | .cp => (a, ((sub8 a v false).2 &&& 0xD7) ||| (v &&& 0x28))

/-- `inc8` (R239): the result, and the new flag byte from the old one. -/
def inc8 (f v : Byte) : Byte × Byte :=
  let res := v + 1
  (res, packFlags (res.getLsbD 7) (res == 0) (res.getLsbD 5) (res &&& 0x0F == 0) (res.getLsbD 3)
    (res == 0x80) false (flagC f))

/-- `dec8` (R240). -/
def dec8 (f v : Byte) : Byte × Byte :=
  let res := v - 1
  (res, packFlags (res.getLsbD 7) (res == 0) (res.getLsbD 5) (res &&& 0x0F == 0x0F) (res.getLsbD 3)
    (res == 0x7F) true (flagC f))

/-! ### General purpose (44_general_cpu.md) -/

/-- `DAA` (R260): the new accumulator and flag byte. -/
def daa8 (a f : Byte) : Byte × Byte :=
  let low := flagH f || decide (9 < (a &&& 0x0F).toNat)
  let high := flagC f || decide (0x99 < a.toNat)
  let corr : Byte := (if low then 0x06 else 0) ||| (if high then 0x60 else 0)
  let res := if flagN f then a - corr else a + corr
  (res, tableSZPXY res ||| (f &&& 0x02) ||| bitAt 0 high ||| bitAt 4 ((a ^^^ res).getLsbD 4))

/-- The flags of `CPL` (R261) from the old flag byte and the new accumulator. -/
def cplFlags (f a : Byte) : Byte :=
  packFlags (flagS f) (flagZ f) (a.getLsbD 5) true (a.getLsbD 3) (flagPV f) true (flagC f)

/-- The flags of `CCF` (R263). -/
def ccfFlags (f a : Byte) : Byte :=
  packFlags (flagS f) (flagZ f) (a.getLsbD 5) (flagC f) (a.getLsbD 3) (flagPV f) false (!flagC f)

/-- The flags of `SCF` (R264). -/
def scfFlags (f a : Byte) : Byte :=
  packFlags (flagS f) (flagZ f) (a.getLsbD 5) false (a.getLsbD 3) (flagPV f) false true

/-- The flags of `LD A,I` and `LD A,R` (40_load8.md R144) with `a` the new accumulator. -/
def loadIrFlags (f a : Byte) (iff2 : Bool) : Byte := (f &&& 0x01) ||| tableSZXY a ||| bitAt 2 iff2

/-! ### 16-bit arithmetic (45_alu16.md) -/

/-- `add16` (R280): the result and the new flag byte from the old one. -/
def add16 (f : Byte) (a v : Word) : Word × Byte :=
  let sum := a.toNat + v.toNat
  let res := BitVec.ofNat 16 sum
  (res, packFlags (flagS f) (flagZ f) (res.getLsbD 13) ((a ^^^ v ^^^ res).getLsbD 12) (res.getLsbD 11)
    (flagPV f) false (decide (65535 < sum)))

/-- `adc16` (R281). -/
def adc16 (f : Byte) (a v : Word) : Word × Byte :=
  let sum := a.toNat + v.toNat + (flagC f).toNat
  let res := BitVec.ofNat 16 sum
  (res, packFlags (res.getLsbD 15) (res == 0) (res.getLsbD 13) ((a ^^^ v ^^^ res).getLsbD 12) (res.getLsbD 11)
    (((a ^^^ res) &&& (v ^^^ res)).getLsbD 15) false (decide (65535 < sum)))

/-- `sbc16` (R282). -/
def sbc16 (f : Byte) (a v : Word) : Word × Byte :=
  let diff : Int := a.toNat - v.toNat - (flagC f).toNat
  let res := BitVec.ofInt 16 diff
  (res, packFlags (res.getLsbD 15) (res == 0) (res.getLsbD 13) ((a ^^^ v ^^^ res).getLsbD 12) (res.getLsbD 11)
    (((a ^^^ v) &&& (a ^^^ res)).getLsbD 15) true (decide (diff < 0)))

/-! ### Rotates and shifts (46_rotate_shift.md) -/

/-- `rot[y]` (R304 to R311): the result and the carry out, from the byte and the old carry. -/
def rot8 (op : RotOp) (v : Byte) (cin : Bool) : Byte × Bool :=
  match op with
  | .rlc => ((v <<< 1) ||| bitAt 0 (v.getLsbD 7), v.getLsbD 7)
  | .rrc => ((v >>> 1) ||| bitAt 7 (v.getLsbD 0), v.getLsbD 0)
  | .rl => ((v <<< 1) ||| bitAt 0 cin, v.getLsbD 7)
  | .rr => ((v >>> 1) ||| bitAt 7 cin, v.getLsbD 0)
  | .sla => (v <<< 1, v.getLsbD 7)
  | .sra => ((v >>> 1) ||| (v &&& 0x80), v.getLsbD 0)
  | .sll => ((v <<< 1) ||| 0x01, v.getLsbD 7)
  | .srl => (v >>> 1, v.getLsbD 0)

/-- The flags of a CB-space rotate or shift with result `res` and carry out `co` (46 section 2). -/
def rotFlags (res : Byte) (co : Bool) : Byte := tableSZPXY res ||| bitAt 0 co

/-- The flags of an accumulator rotate (R300): `S`, `Z`, `PV` keep their value; `a` is the new accumulator. -/
def accRotFlags (f a : Byte) (co : Bool) : Byte :=
  packFlags (flagS f) (flagZ f) (a.getLsbD 5) false (a.getLsbD 3) (flagPV f) false co

/-- `RLD` on the accumulator and the byte at `(HL)` (R316): the new accumulator and the new byte. -/
def rld8 (a v : Byte) : Byte × Byte := ((a &&& 0xF0) ||| (v >>> 4), (v <<< 4) ||| (a &&& 0x0F))

/-- `RRD` (R317). -/
def rrd8 (a v : Byte) : Byte × Byte := ((a &&& 0xF0) ||| (v &&& 0x0F), (a <<< 4) ||| (v >>> 4))

/-- The flags of `RLD` and `RRD` (R316) with `a` the new accumulator. -/
def digitRotFlags (f a : Byte) : Byte := tableSZPXY a ||| (f &&& 0x01)

/-! ### Bits (47_bit.md) -/

/-- `bittest(b, v, xysrc)` (R330): the new flag byte. -/
def bitTestFlags (f : Byte) (bit : BitVec 3) (v xysrc : Byte) : Byte :=
  (f &&& 0x01) ||| tableSZPH (v &&& bitMask bit) ||| (xysrc &&& 0x28)

/-! ### Block transfer, search and I/O (42_exchange_block.md, 49_io.md) -/

/-- The flags of a block transfer of the byte `v` (R195), with `bc` the new count. -/
def blockLoadFlags (f a v : Byte) (bc : Word) : Byte :=
  let n := v + a
  packFlags (flagS f) (flagZ f) (n.getLsbD 1) false (n.getLsbD 3) (bc != 0) false (flagC f)

/-- The flags of a block comparison with the byte `v` (R199), with `bc` the new count. -/
def blockCompareFlags (f a v : Byte) (bc : Word) : Byte :=
  let res := a - v
  let hf := (a ^^^ v ^^^ res).getLsbD 4
  let n := res - bitAt 0 hf
  packFlags (res.getLsbD 7) (res == 0) (n.getLsbD 1) hf (n.getLsbD 3) (bc != 0) true (flagC f)

/-- `bioflags(v, k)` (49_io.md R383), with `b` the count after its decrement. -/
def blockIoFlags (b v : Byte) (k : Nat) : Byte :=
  tableSZXY b ||| (if v.getLsbD 7 then 0x02 else 0) ||| (if 255 < k then 0x11 else 0) |||
    (if evenParity (BitVec.ofNat 8 (k % 8) ^^^ b) then 0x04 else 0)

/-- The flags of `IN r,(C)` (49_io.md R381). -/
def inFlags (f v : Byte) : Byte := (f &&& 0x01) ||| tableSZPXY v

end Sys2Proof.Machine
end

