-- ==== Sys2Proof/Config.lean ====
section
/-! DEFINITION. What is fixed for one core while it runs (00_scope.md R4), the calls the core makes
of its adapter, and the one value the spec leaves to the adapter that is not data of the state. -/

namespace Sys2Proof

/-- The open parameters of 00_scope.md R4, fixed when the core is created: the cycle costs of the three access
classes (20_memory.md R65) and the byte a device supplies at an interrupt acknowledge (60_exceptions.md R415).
A state carries the parameters of its core, and no step changes them. -/
structure CoreConfig where
  tFetch : Nat
  tMem : Nat
  tIo : Nat
  intData : Byte
deriving DecidableEq, Repr

/-- A cost of 0 is a configuration error (00_scope.md R4; 92_eei_decisions.md D10). -/
def CoreConfig.valid (cfg : CoreConfig) : Bool :=
  decide (1 ≤ cfg.tFetch) && decide (1 ≤ cfg.tMem) && decide (1 ≤ cfg.tIo)

/-- The reference configuration of 00_scope.md R4. -/
def CoreConfig.reference : CoreConfig where
  tFetch := 4
  tMem := 3
  tIo := 4
  intData := 0xFF

/-- One call of the adapter with its address (or port) and the byte read or written (20_memory.md R62, R63). -/
inductive BusAccess where
  | fetch (address : Word) (value : Byte)
  | read (address : Word) (value : Byte)
  | write (address : Word) (value : Byte)
  | ioRead (port : Word) (value : Byte)
  | ioWrite (port : Word) (value : Byte)
deriving DecidableEq, Repr

/-- The three calls that the adapter answers: `fetchOpcode`, `read`, `ioRead` (20_memory.md R66). -/
inductive ReadKind where
  | fetch | read | ioRead
deriving DecidableEq, Repr

/-- What the adapter answers to a call of the kind `kind` for `address` when it is no plain memory that answers and
nothing in the state says what the answer is. `history` is every call made before it, newest first: an adapter is an
oracle that sees the writes and may have side effects at any call (20_memory.md R66; 93_implementation_defined.md U1).
A free value: it has no body, so nothing can be proved of it. DESIGN CHOICE, log 2. -/
opaque Config.answer (history : List BusAccess) (kind : ReadKind) (address : Word) : Byte

end Sys2Proof
end

