-- ==== Sys2Proof/Machine/State.lean ====
section
/-! DEFINITION. The state of the machine as plain data, and the state after reset. `CoreState` is the table of
10_state.md R20, the whole of it and nothing else; `State` adds the core's configuration, and the adapter and the
environment behind it, which the core does not own (10_state.md R43). -/

namespace Sys2Proof.Machine

open Sys2Proof

/-- The register file and the hidden state of the core: 10_state.md R20, one field a row (AF, BC, DE, HL and the
halves of IX, IY are no storage of their own, R21). It is also the content of a snapshot (60_exceptions.md R456). -/
structure CoreState where
  /-- A, the accumulator. -/
  a : Byte
  /-- F, the flag byte, laid out as 10_state.md R25 says. -/
  f : Byte
  b : Byte
  c : Byte
  d : Byte
  e : Byte
  h : Byte
  l : Byte
  /-- A', and so on: the alternate bank (10_state.md R22). -/
  altA : Byte
  altF : Byte
  altB : Byte
  altC : Byte
  altD : Byte
  altE : Byte
  altH : Byte
  altL : Byte
  ix : Word
  iy : Word
  sp : Word
  pc : Word
  /-- I, the interrupt vector base (10_state.md R24). -/
  i : Byte
  /-- R, the refresh counter (10_state.md R24). -/
  r : Byte
  iff1 : Bool
  iff2 : Bool
  im : IntMode
  /-- HALT (10_state.md R36). -/
  halt : Bool
  /-- NMI_PENDING, the edge latch (10_state.md R37). -/
  nmiPending : Bool
  /-- INT_LINE, the level of the maskable input (10_state.md R38). -/
  intLine : Bool
  /-- INHIBIT, the one-boundary hold-off (10_state.md R39). -/
  inhibit : Bool
  /-- PFX, the pending index prefix (10_state.md R40). -/
  pfx : Option Index
  /-- WZ, the hidden address latch (10_state.md R28). -/
  wz : Word
  /-- The running cycle counter, unbounded (10_state.md R41). -/
  cycles : Nat
deriving DecidableEq, Repr

/-- Bytes at addresses, in one canonical form: addresses strictly rising, none listed with the value an unlisted
address reads as. -/
abbrev Memory := List Host.Cell

/-- How the adapter answers for an address (20_memory.md R66: "the address may be ROM, unmapped, a mapper register or a
device"). Log 1. -/
inductive Place where
  /-- Plain memory: a read gives the byte that stands there, a write puts one there. -/
  | ram
  /-- A read gives the byte that stands there; a write leaves it. -/
  | rom
  /-- Anything else: each answer is the adapter's own, and a write is only seen by it. Log 2. -/
  | device
deriving DecidableEq, Repr

/-- The addresses `first` to `last`, and how the adapter answers for them. -/
structure Region where
  first : Word
  last : Word
  place : Place
deriving DecidableEq, Repr

/-- How the adapter answers an `ioRead` (20_memory.md R66, R75). -/
inductive Ports where
  /-- Every port reads as the byte `v`. -/
  | constant (v : Byte)
  /-- Each answer is the adapter's own. Log 2. -/
  | device
deriving DecidableEq, Repr

/-- The adapter, the parameter of 20_memory.md R66: the regions of the address space, the first that holds an address
counting and an address in none being plain memory, and the ports. No step changes it. -/
structure Adapter where
  regions : List Region
  ports : Ports
deriving DecidableEq, Repr

/-- `RAM64K` of 20_memory.md R75: plain memory everywhere, and every port reads as the byte stated for it. -/
def Adapter.ram64k (stated : Byte) : Adapter := { regions := [], ports := .constant stated }

/-- What the environment did to the two interrupt inputs since the last boundary check, and since the last host operation if
one came after it (DESIGN CHOICE, log 3): whether it signalled the non-maskable one, and the level it set the maskable one
to, if it did (60_exceptions.md R413). -/
structure LineChange where
  nmi : Bool
  int : Option Bool
deriving DecidableEq, Repr

/-- The machine: the core, its configuration, and the adapter. -/
structure State extends CoreState where
  /-- The parameters fixed at creation (00_scope.md R4). -/
  cfg : CoreConfig
  /-- The adapter behind the core (20_memory.md R66). Log 1. -/
  adapter : Adapter
  /-- The bytes that stand in the adapter's plain memory and ROM (20_memory.md R60, R75). Log 1. -/
  mem : Memory
  /-- What the adapter answers to the coming calls that no plain memory, ROM or constant answers, oldest first
  (20_memory.md R66). Log 2. -/
  answers : List Byte
  /-- The changes of the interrupt inputs seen at the coming boundaries, one a boundary (20_memory.md R78). Log 3. -/
  lineScript : List LineChange
  /-- Every adapter call made, newest first (20_memory.md R64, R72). Log 4. -/
  bus : List BusAccess
deriving DecidableEq, Repr

/-- Why a step stops. The core raises no synchronous exception and no access faults (00_scope.md R17;
60_exceptions.md R410), so there is no reason: nobody raises one. -/
inductive Fault where
deriving DecidableEq, Repr

/-- Why an instruction has no meaning. No byte sequence is refused (30_encoding.md R116, R117). -/
inductive Refusal where
  /-- Raised by an arm of `exec` whose instruction has no meaning in the model yet (no arm is left). Safe: the run
  stops where the hardware goes on. -/
  | notModelled (mnemonic : String)
  /-- Raised by `execEntry` on a prefix byte's own row, which the decoder gives it from no bytes: an entry is
  selected only once its bytes are all there. Safe: the run stops, and no run of the machine reaches it. -/
  | barePrefix
deriving DecidableEq, Repr

/-- What a step or a meaning answers. -/
abbrev Outcome := Host.Outcome State Fault Refusal

/-- The reset values of 10_state.md R45 and 70_reset_and_hazards.md R470, `cycles` at `t0` and the interrupt input at
the level the environment gives it. The general registers, IX, IY and WZ: log 7. -/
def CoreState.atReset (t0 : Nat) (intLine : Bool) : CoreState where
  a := 0xFF
  f := 0xFF
  b := 0xFF
  c := 0xFF
  d := 0xFF
  e := 0xFF
  h := 0xFF
  l := 0xFF
  altA := 0xFF
  altF := 0xFF
  altB := 0xFF
  altC := 0xFF
  altD := 0xFF
  altE := 0xFF
  altH := 0xFF
  altL := 0xFF
  ix := 0xFFFF
  iy := 0xFFFF
  sp := 0xFFFF
  pc := 0x0000
  i := 0x00
  r := 0x00
  iff1 := false
  iff2 := false
  im := .im0
  halt := false
  nmiPending := false
  intLine := intLine
  inhibit := false
  pfx := none
  wz := 0xFFFF
  cycles := t0

/-- The machine right after it is created with the configuration `cfg` and the adapter `adapter`, as `create` leaves it:
`reset(0)` (60_exceptions.md R455), memory with nothing listed, and no input yet. Logs 1 to 7. -/
def State.created (cfg : CoreConfig) (adapter : Adapter) : State where
  toCoreState := .atReset 0 false
  cfg := cfg
  adapter := adapter
  mem := []
  answers := []
  lineScript := []
  bus := []

/-- The machine right after reset, in the reference configuration (00_scope.md R4) and with the reference adapter, whose
ports read as 0xFF (20_memory.md R75). Logs 1 and 5. -/
def State.reset : State := .created .reference (.ram64k 0xFF)

end Sys2Proof.Machine
end

