-- ==== Sys2Proof/Machine/Ops.lean ====
section
/-! DEFINITION. The named operations over memory, registers and the adapter: the pseudocode primitives of
00_scope.md R8 to R14, the taking of an interrupt (60_exceptions.md R419 to R424) and the return from one. -/

namespace Sys2Proof.Machine

open Sys2Proof

/-! ### Memory -/

/-- What an address nothing has written reads as: 95_test_vectors.md loads `RAM64K` with zeros. Log 1. -/
def Memory.unlisted : Byte := 0

/-- The byte that stands at an address: `M[a]` of 20_memory.md R75. -/
def Memory.read (m : Memory) (a : Nat) : Byte :=
  match m with
  | [] => Memory.unlisted
  | (k, v) :: rest => if k = a then v else Memory.read rest a

/-- Puts a cell in front of the first cell with a greater address. -/
def Memory.place (c : Host.Cell) (m : Memory) : Memory :=
  match m with
  | [] => [c]
  | x :: rest => if c.1 < x.1 then c :: x :: rest else x :: Memory.place c rest

/-- `M[a] <- v` of 20_memory.md R75, keeping the canonical form: no cell holds the value of an unlisted one. -/
def Memory.write (m : Memory) (a : Nat) (v : Byte) : Memory :=
  let others := m.filter (fun c => c.1 != a)
  if v = Memory.unlisted then others else Memory.place (a, v) others

/-- The canonical form from the address `low` on: addresses strictly rising below 65536, no listed value equal to
an unlisted one. -/
def Memory.wfFrom (low : Nat) (m : Memory) : Bool :=
  match m with
  | [] => true
  | (k, v) :: rest =>
    decide (low ≤ k) && decide (k < 65536) && decide (v ≠ Memory.unlisted) && Memory.wfFrom (k + 1) rest

/-- The canonical form. -/
def Memory.wf (m : Memory) : Bool := Memory.wfFrom 0 m

/-! ### Registers -/

/-- Reading `r8[i]` (30_encoding.md R93). -/
def State.getReg (s : State) : Reg8 → Byte
  | .b => s.b
  | .c => s.c
  | .d => s.d
  | .e => s.e
  | .h => s.h
  | .l => s.l
  | .a => s.a

/-- Writing `r8[i]`. -/
def State.setReg (s : State) (r : Reg8) (v : Byte) : State :=
  match r with
  | .b => { s with b := v }
  | .c => { s with c := v }
  | .d => { s with d := v }
  | .e => { s with e := v }
  | .h => { s with h := v }
  | .l => { s with l := v }
  | .a => { s with a := v }

/-- `BC`, `DE`, `HL`, `AF` (10_state.md R21). -/
def State.bc (s : State) : Word := joinBytes s.b s.c
def State.de (s : State) : Word := joinBytes s.d s.e
def State.hl (s : State) : Word := joinBytes s.h s.l
def State.af (s : State) : Word := joinBytes s.a s.f

/-- `BC <- w`, `DE <- w`, `HL <- w`, `AF <- w`: both halves (10_state.md R21). -/
def State.setBc (s : State) (w : Word) : State := { s with b := hiByte w, c := loByte w }
def State.setDe (s : State) (w : Word) : State := { s with d := hiByte w, e := loByte w }
def State.setHl (s : State) (w : Word) : State := { s with h := hiByte w, l := loByte w }
def State.setAf (s : State) (w : Word) : State := { s with a := hiByte w, f := loByte w }

def State.setF (s : State) (v : Byte) : State := { s with f := v }
def State.setSp (s : State) (w : Word) : State := { s with sp := w }
def State.setPc (s : State) (w : Word) : State := { s with pc := w }
def State.setWz (s : State) (w : Word) : State := { s with wz := w }

/-- Reading `rp[i]`. -/
def State.getPair (s : State) : Pair → Word
  | .bc => s.bc
  | .de => s.de
  | .hl => s.hl
  | .sp => s.sp

/-- Writing `rp[i]`. -/
def State.setPair (s : State) (p : Pair) (w : Word) : State :=
  match p with
  | .bc => s.setBc w
  | .de => s.setDe w
  | .hl => s.setHl w
  | .sp => s.setSp w

/-- Reading `rp2[i]`. -/
def State.getStackPair (s : State) : StackPair → Word
  | .bc => s.bc
  | .de => s.de
  | .hl => s.hl
  | .af => s.af

/-- Writing `rp2[i]`. -/
def State.setStackPair (s : State) (p : StackPair) (w : Word) : State :=
  match p with
  | .bc => s.setBc w
  | .de => s.setDe w
  | .hl => s.setHl w
  | .af => s.setAf w

/-- Reading `IX` or `IY`. -/
def State.getIndex (s : State) : Index → Word
  | .ix => s.ix
  | .iy => s.iy

/-- Writing `IX` or `IY`. -/
def State.setIndex (s : State) (xy : Index) (w : Word) : State :=
  match xy with
  | .ix => { s with ix := w }
  | .iy => { s with iy := w }

/-- Reading `XYH` or `XYL`. -/
def State.getHalf (s : State) (xy : Index) : Half → Byte
  | .high => hiByte (s.getIndex xy)
  | .low => loByte (s.getIndex xy)

/-- Writing `XYH` or `XYL`: the other half keeps its value. -/
def State.setHalf (s : State) (xy : Index) (p : Half) (v : Byte) : State :=
  match p with
  | .high => s.setIndex xy (joinBytes v (loByte (s.getIndex xy)))
  | .low => s.setIndex xy (joinBytes (hiByte (s.getIndex xy)) v)

/-- Reading the source of `ADD XY,pp` (45_alu16.md R284). -/
def State.getXPair (s : State) (xy : Index) : XPair → Word
  | .bc => s.bc
  | .de => s.de
  | .xy => s.getIndex xy
  | .sp => s.sp

/-- Reading `x8[i]` (40_load8.md R148). -/
def State.getXReg (s : State) (xy : Index) : XReg8 → Byte
  | .b => s.b
  | .c => s.c
  | .d => s.d
  | .e => s.e
  | .half p => s.getHalf xy p
  | .a => s.a

/-- Writing `x8[i]`. -/
def State.setXReg (s : State) (xy : Index) (x : XReg8) (v : Byte) : State :=
  match x with
  | .b => s.setReg .b v
  | .c => s.setReg .c v
  | .d => s.setReg .d v
  | .e => s.setReg .e v
  | .half p => s.setHalf xy p v
  | .a => s.setReg .a v

/-! ### The adapter and the cycle counter (00_scope.md R8 to R14) -/

/-- `tick(n)` (R13). -/
def State.tick (s : State) (n : Nat) : State := { s with cycles := s.cycles + n }

/-- The adapter has been called: 20_memory.md R64. -/
def State.note (s : State) (x : BusAccess) : State := { s with bus := x :: s.bus }

/-- `R <- (R & 0x80) | ((R + 1) & 0x7F)` (10_state.md R24). -/
def State.bumpR (s : State) : State := { s with r := (s.r &&& 0x80) ||| ((s.r + 1) &&& 0x7F) }

/-- Whether an address lies in a region. -/
def Region.covers (x : Region) (a : Word) : Bool :=
  decide (x.first.toNat ≤ a.toNat) && decide (a.toNat ≤ x.last.toNat)

/-- How the adapter answers for `a`: as the first region that holds it says, and as plain memory where none does. -/
def Adapter.placeOf (ad : Adapter) (a : Word) : Place :=
  match ad.regions.find? (fun x => x.covers a) with
  | some x => x.place
  | none => .ram

/-- Whether the answer to a `fetchOpcode` or a `read` of `a` is the adapter's own, not a byte that stands there. -/
def Adapter.isDevice (ad : Adapter) (a : Word) : Bool :=
  match ad.placeOf a with
  | .ram => false
  | .rom => false
  | .device => true

/-- An answer of the adapter's own: the next one in the state, or a free value when there is none. Log 2. -/
def State.nextAnswer (s : State) (kind : ReadKind) (a : Word) : Byte := s.answers.headD (Config.answer s.bus kind a)

/-- What the adapter answers to a `fetchOpcode` or a `read` of `a` (20_memory.md R66). -/
def State.memValue (s : State) (kind : ReadKind) (a : Word) : Byte :=
  if s.adapter.isDevice a then s.nextAnswer kind a else s.mem.read a.toNat

/-- What the adapter answers to an `ioRead` of `port` (20_memory.md R66, R75). -/
def State.portValue (s : State) (port : Word) : Byte :=
  match s.adapter.ports with
  | .constant v => v
  | .device => s.nextAnswer .ioRead port

/-- The adapter has answered, and by an answer of its own where `own` says so. -/
def State.useAnswer (s : State) (own : Bool) : State :=
  { s with answers := if own then s.answers.tail else s.answers }

/-- The adapter's memory after a `write` of `v` to `a`: plain memory alone takes the byte (20_memory.md R66). -/
def Adapter.store (ad : Adapter) (m : Memory) (a : Word) (v : Byte) : Memory :=
  match ad.placeOf a with
  | .ram => m.write a.toNat v
  | .rom => m
  | .device => m

/-- `Fetch()` (R8). -/
def State.fetch (s : State) : Byte × State :=
  let v := s.memValue .fetch s.pc
  (v, ((((s.setPc (s.pc + 1)).bumpR).useAnswer (s.adapter.isDevice s.pc)).note (.fetch s.pc v)).tick s.cfg.tFetch)

/-- `MemRead(a, 1)` (R9). -/
def State.memRead (s : State) (a : Word) : Byte × State :=
  let v := s.memValue .read a
  (v, ((s.useAnswer (s.adapter.isDevice a)).note (.read a v)).tick s.cfg.tMem)

/-- `MemRead(a, 2)` (R9): the low byte first, from the lower address. -/
def State.memRead16 (s : State) (a : Word) : Word × State :=
  let l := s.memRead a
  let h := l.2.memRead (a + 1)
  (joinBytes h.1 l.1, h.2)

/-- Memory holds `v` at `a` from now on, whatever the adapter does with a `write` there: how memory is loaded from
outside. -/
def State.poke (s : State) (a : Word) (v : Byte) : State := { s with mem := s.mem.write a.toNat v }

/-- `MemWrite(a, 1, v)` (R10). -/
def State.memWrite (s : State) (a : Word) (v : Byte) : State :=
  (({ s with mem := s.adapter.store s.mem a v } : State).note (.write a v)).tick s.cfg.tMem

/-- `MemWrite(a, 2, w)` (R10): the low byte first, at the lower address. -/
def State.memWrite16 (s : State) (a w : Word) : State :=
  (s.memWrite a (loByte w)).memWrite (a + 1) (hiByte w)

/-- `Imm8()` (R11). -/
def State.imm8 (s : State) : Byte × State := (s.setPc (s.pc + 1)).memRead s.pc

/-- Whether the answer to an `ioRead` is the adapter's own. -/
def Adapter.ownPorts (ad : Adapter) : Bool :=
  match ad.ports with
  | .constant _ => false
  | .device => true

/-- `IORead(port)` (R12). -/
def State.ioRead (s : State) (port : Word) : Byte × State :=
  let v := s.portValue port
  (v, ((s.useAnswer s.adapter.ownPorts).note (.ioRead port v)).tick s.cfg.tIo)

/-- `IOWrite(port, v)` (R12). -/
def State.ioWrite (s : State) (port : Word) (v : Byte) : State :=
  (s.note (.ioWrite port v)).tick s.cfg.tIo

/-- `Push16(w)` (R14): the high byte first. -/
def State.push16 (s : State) (w : Word) : State :=
  let t := (s.setSp (s.sp - 1)).memWrite (s.sp - 1) (hiByte w)
  (t.setSp (t.sp - 1)).memWrite (t.sp - 1) (loByte w)

/-- `Pop16()` (R14). -/
def State.pop16 (s : State) : Word × State :=
  let l := s.memRead s.sp
  let t := l.2.setSp (l.2.sp + 1)
  let h := t.memRead t.sp
  (joinBytes h.1 l.1, h.2.setSp (h.2.sp + 1))

/-- `PC` and `WZ` take the same value, as in every taken transfer of 48_jump_call.md but `JP (HL)` and
`JP (IX)`. -/
def State.jumpTo (s : State) (w : Word) : State := (s.setPc w).setWz w

/-- `Push16(PC)`, then to `target`: a call (48_jump_call.md R358) and the last lines of an acceptance
(60_exceptions.md R420, R423). -/
def State.callTo (s : State) (target : Word) : State := (s.push16 s.pc).jumpTo target

/-- `PC <- Pop16(); WZ <- PC` (48_jump_call.md R360). -/
def State.popPc (s : State) : State :=
  let p := s.pop16
  p.2.jumpTo p.1

/-! ### Taking an interrupt (60_exceptions.md R419 to R424) and returning from one (R426) -/

/-- The two interrupt inputs (R413). -/
inductive Interrupt where
  | nmi | int
deriving DecidableEq, Repr

/-- The common part of both acceptances (R419). -/
def State.acknowledge (s : State) : State := ({ s with halt := false } : State).bumpR

/-- An acceptance: the non-maskable one (R420), or the maskable one in the mode `IM` (R421 to R424). In mode 0 it is
the part before the injected instruction (R422), which the step then executes. -/
def State.accept (s : State) : Interrupt → State
  | .nmi =>
    let t := (({ s with nmiPending := false } : State).acknowledge).tick 5
    ({ t with iff1 := false } : State).callTo 0x0066
  | .int =>
    let t : State := { s.acknowledge with iff1 := false, iff2 := false }
    match t.im with
    | .im0 => (t.tick 2).tick t.cfg.tFetch
    | .im1 => (t.tick 7).callTo 0x0038
    | .im2 =>
      let u := (t.tick 7).push16 t.pc
      let v := u.memRead16 (joinBytes u.i u.cfg.intData)
      v.2.jumpTo v.1

/-- `RETN` and `RETI`: `IFF1 <- IFF2`, then as `RET` (48_jump_call.md R362, R365). -/
def State.returnFromInterrupt (s : State) : State := ({ s with iff1 := s.iff2 } : State).popPc

/-! ### The interrupt inputs (60_exceptions.md R413, 20_memory.md R78) -/

/-- What the environment did to the inputs before this boundary takes effect. Log 3. -/
def State.sampleLines (s : State) : State :=
  match s.lineScript with
  | [] => s
  | x :: rest =>
    { s with lineScript := rest, nmiPending := s.nmiPending || x.nmi, intLine := x.int.getD s.intLine }

end Sys2Proof.Machine
end

