-- ==== Sys2Proof/Machine/Operands.lean ====
section
/-! DEFINITION. Every operand form: the sources of an 8-bit operand, the memory operand and its effective address
(30_encoding.md R112, R113), read-modify-write of a byte (20_memory.md R69), and the shared effects of the families
over them. The displacement and immediate bytes have been read when a meaning begins: they are arguments. -/

namespace Sys2Proof.Machine

open Sys2Proof

/-- `(XY + sext_8(d)) mod 65536` (30_encoding.md R95, 20_memory.md R79). -/
def State.indexAddress (s : State) (xy : Index) (d : Byte) : Word := s.getIndex xy + signExtend8 d

/-- What `EA(XY, k)` does besides giving the address (30_encoding.md R113): `k` internal cycles, and `WZ`. -/
def State.useIndex (s : State) (xy : Index) (d : Byte) (k : Nat) : State :=
  (s.tick k).setWz (s.indexAddress xy d)

/-- Reading the source `s` of an 8-bit operation (43_alu8.md R230 to R234). -/
def State.readSource (s : State) : Src8 → Byte × State
  | .reg r => (s.getReg r, s)
  | .imm n => (n, s)
  | .memHl => s.memRead s.hl
  | .memIdx xy d => (s.useIndex xy d 5).memRead (s.indexAddress xy d)
  | .half xy p => (s.getHalf xy p, s)

/-- `s <- ...; alu[y](s)` (43_alu8.md section 2). -/
def State.aluFrom (s : State) (op : AluOp) (src : Src8) : State :=
  let v := s.readSource src
  let r := alu8 op v.2.a v.2.f v.1
  { v.2 with a := r.1, f := r.2 }

/-- Read-modify-write of the byte at `a`: a read, one internal cycle, a write of `g` of the byte read
(43_alu8.md R242, 46_rotate_shift.md R313, 47_bit.md R335). -/
def State.modify (s : State) (a : Word) (g : Byte → Byte) : State :=
  let v := s.memRead a
  (v.2.tick 1).memWrite a (g v.1)

/-- `INC` or `DEC` of the byte at `a`, `step` being `inc8` or `dec8` (43_alu8.md R242, R243, R246, R247). -/
def State.stepMem (s : State) (a : Word) (step : Byte → Byte → Byte × Byte) : State :=
  (s.modify a (fun v => (step s.f v).1)).setF (step s.f (s.memValue .read a)).2

/-- A rotate or shift of the byte at `a` (46_rotate_shift.md R313). -/
def State.rotMem (s : State) (a : Word) (op : RotOp) : State :=
  let r := rot8 op (s.memValue .read a) (flagC s.f)
  (s.modify a (fun v => (rot8 op v (flagC s.f)).1)).setF (rotFlags r.1 r.2)

/-- A rotate or shift of a register (46_rotate_shift.md R312). -/
def State.rotReg (s : State) (r : Reg8) (op : RotOp) : State :=
  let x := rot8 op (s.getReg r) (flagC s.f)
  (s.setReg r x.1).setF (rotFlags x.1 x.2)

/-- An accumulator rotate (46_rotate_shift.md R300 to R303). -/
def State.rotAcc (s : State) (op : RotOp) : State :=
  let x := rot8 op s.a (flagC s.f)
  (s.setReg .a x.1).setF (accRotFlags s.f x.1 x.2)

/-- `v & ~(1 << b)` (47_bit.md R334). -/
def clearBit (bit : BitVec 3) (v : Byte) : Byte := v &&& ~~~(bitMask bit)

/-- `v | (1 << b)` (47_bit.md R334). -/
def setBit (bit : BitVec 3) (v : Byte) : Byte := v ||| bitMask bit

/-- The copy forms: read-modify-write of the byte at `a`, and the value written goes to a plain register as well
(30_encoding.md R102, 47_bit.md R338, R339). -/
def State.modifyCopy (s : State) (a : Word) (g : Byte → Byte) (r : Reg8) : State :=
  (s.modify a g).setReg r (g (s.memValue .read a))

/-- The copy form of a rotate or shift (46_rotate_shift.md R315). -/
def State.rotMemCopy (s : State) (a : Word) (op : RotOp) (r : Reg8) : State :=
  (s.rotMem a op).setReg r (rot8 op (s.memValue .read a) (flagC s.f)).1

/-- `+1` for the incrementing block instructions, `-1` for the decrementing ones. -/
def blockStep (up : Bool) : Word := if up then 1 else 0xFFFF

/-- `LDI`, `LDD` and one iteration of `LDIR`, `LDDR` (42_exchange_block.md R195, R197). -/
def State.blockLoad (s : State) (up : Bool) : State :=
  let v := s.memRead s.hl
  let t := (v.2.memWrite s.de v.1).tick 2
  let bc := s.bc - 1
  (((t.setHl (s.hl + blockStep up)).setDe (s.de + blockStep up)).setBc bc).setF (blockLoadFlags s.f s.a v.1 bc)

/-- `CPI`, `CPD` and one iteration of `CPIR`, `CPDR` (42_exchange_block.md R199, R201). -/
def State.blockCompare (s : State) (up : Bool) : State :=
  let v := s.memRead s.hl
  let t := v.2.tick 5
  let bc := s.bc - 1
  (((t.setHl (s.hl + blockStep up)).setBc bc).setF (blockCompareFlags s.f s.a v.1 bc)).setWz (s.wz + blockStep up)

/-- The repeat clause of the block transfers and searches (42_exchange_block.md R196):
`tick(5); PC <- PC - 2; WZ <- PC + 1`. -/
def State.repeatBlock (s : State) : State := ((s.tick 5).setPc (s.pc - 2)).setWz (s.pc - 2 + 1)

/-- The repeat clause of the block I/O instructions (49_io.md R385): `tick(5); PC <- PC - 2`. -/
def State.repeatIo (s : State) : State := (s.tick 5).setPc (s.pc - 2)

/-- `INI`, `IND` and one iteration of `INIR`, `INDR` (49_io.md R384, R386). -/
def State.blockIn (s : State) (up : Bool) : State :=
  let v := (s.tick 1).ioRead s.bc
  let t := (v.2.setWz (s.bc + blockStep up)).memWrite s.hl v.1
  let b := s.b - 1
  let k := v.1.toNat + (s.c + loByte (blockStep up)).toNat
  ((t.setHl (s.hl + blockStep up)).setReg .b b).setF (blockIoFlags b v.1 k)

/-- `OUTI`, `OUTD` and one iteration of `OTIR`, `OTDR` (49_io.md R391, R393). -/
def State.blockOut (s : State) (up : Bool) : State :=
  let v := (s.tick 1).memRead s.hl
  let b := s.b - 1
  let port := joinBytes b s.c
  let hl := s.hl + blockStep up
  let t := (v.2.setReg .b b).ioWrite port v.1
  ((t.setHl hl).setWz (port + blockStep up)).setF (blockIoFlags b v.1 (v.1.toNat + (loByte hl).toNat))

end Sys2Proof.Machine
end

