-- ==== Sys2Proof/Machine/Alu16.lean ====
section
/-! DEFINITION. The 16-bit arithmetic group (45_alu16.md). -/

namespace Sys2Proof.Machine

open Sys2Proof

/-- `dst <- f16(dst, v)`: 7 internal cycles, the flags, and `WZ` the old destination plus 1 (45_alu16.md R280 to
R282); `put` writes the destination. -/
def State.arith16 (s : State) (x : Word × Byte) (old : Word) (put : State → Word → State) : State :=
  ((put (s.tick 7) x.1).setF x.2).setWz (old + 1)

/-- `ADD HL,ss` (45_alu16.md R283). -/
def execAddHlSs (ss : Pair) (s : State) : Outcome := .next (s.arith16 (add16 s.f s.hl (s.getPair ss)) s.hl .setHl)

/-- `ADD XY,pp` (45_alu16.md R284). -/
def execAddXyPp (xy : Index) (pp : XPair) (s : State) : Outcome := .next (s.arith16 (add16 s.f (s.getIndex xy) (s.getXPair xy pp)) (s.getIndex xy) (fun t w => t.setIndex xy w))

/-- `ADC HL,ss` (45_alu16.md R285). -/
def execAdcHlSs (ss : Pair) (s : State) : Outcome := .next (s.arith16 (adc16 s.f s.hl (s.getPair ss)) s.hl .setHl)

/-- `SBC HL,ss` (45_alu16.md R286). -/
def execSbcHlSs (ss : Pair) (s : State) : Outcome := .next (s.arith16 (sbc16 s.f s.hl (s.getPair ss)) s.hl .setHl)

/-- `INC ss` (45_alu16.md R287). -/
def execIncSs (ss : Pair) (s : State) : Outcome := .next ((s.tick 2).setPair ss (s.getPair ss + 1))

/-- `DEC ss` (45_alu16.md R288). -/
def execDecSs (ss : Pair) (s : State) : Outcome := .next ((s.tick 2).setPair ss (s.getPair ss - 1))

/-- `INC XY` (45_alu16.md R289). -/
def execIncXy (xy : Index) (s : State) : Outcome := .next ((s.tick 2).setIndex xy (s.getIndex xy + 1))

/-- `DEC XY` (45_alu16.md R290). -/
def execDecXy (xy : Index) (s : State) : Outcome := .next ((s.tick 2).setIndex xy (s.getIndex xy - 1))

end Sys2Proof.Machine
end

