-- ==== Sys2Proof/Machine/Alu8.lean ====
section
/-! DEFINITION. The 8-bit arithmetic and logic group (43_alu8.md). -/

namespace Sys2Proof.Machine

open Sys2Proof

/-- `ADD A,r` (43_alu8.md R230). -/
def execAddAR (r : Reg8) (s : State) : Outcome := .next (s.aluFrom .add (.reg r))

/-- `ADD A,n` (43_alu8.md R231). -/
def execAddAN (n : Byte) (s : State) : Outcome := .next (s.aluFrom .add (.imm n))

/-- `ADD A,(HL)` (43_alu8.md R232). -/
def execAddAMemHl (s : State) : Outcome := .next (s.aluFrom .add .memHl)

/-- `ADD A,(XY+d)` (43_alu8.md R233). -/
def execAddAMemXyd (xy : Index) (d : Byte) (s : State) : Outcome := .next (s.aluFrom .add (.memIdx xy d))

/-- `ADD A,p` (43_alu8.md R234). -/
def execAddAP (xy : Index) (p : Half) (s : State) : Outcome := .next (s.aluFrom .add (.half xy p))

/-- `ADC A,r` (43_alu8.md R230). -/
def execAdcAR (r : Reg8) (s : State) : Outcome := .next (s.aluFrom .adc (.reg r))

/-- `ADC A,n` (43_alu8.md R231). -/
def execAdcAN (n : Byte) (s : State) : Outcome := .next (s.aluFrom .adc (.imm n))

/-- `ADC A,(HL)` (43_alu8.md R232). -/
def execAdcAMemHl (s : State) : Outcome := .next (s.aluFrom .adc .memHl)

/-- `ADC A,(XY+d)` (43_alu8.md R233). -/
def execAdcAMemXyd (xy : Index) (d : Byte) (s : State) : Outcome := .next (s.aluFrom .adc (.memIdx xy d))

/-- `ADC A,p` (43_alu8.md R234). -/
def execAdcAP (xy : Index) (p : Half) (s : State) : Outcome := .next (s.aluFrom .adc (.half xy p))

/-- `SUB r` (43_alu8.md R230). -/
def execSubR (r : Reg8) (s : State) : Outcome := .next (s.aluFrom .sub (.reg r))

/-- `SUB n` (43_alu8.md R231). -/
def execSubN (n : Byte) (s : State) : Outcome := .next (s.aluFrom .sub (.imm n))

/-- `SUB (HL)` (43_alu8.md R232). -/
def execSubMemHl (s : State) : Outcome := .next (s.aluFrom .sub .memHl)

/-- `SUB (XY+d)` (43_alu8.md R233). -/
def execSubMemXyd (xy : Index) (d : Byte) (s : State) : Outcome := .next (s.aluFrom .sub (.memIdx xy d))

/-- `SUB p` (43_alu8.md R234). -/
def execSubP (xy : Index) (p : Half) (s : State) : Outcome := .next (s.aluFrom .sub (.half xy p))

/-- `SBC A,r` (43_alu8.md R230). -/
def execSbcAR (r : Reg8) (s : State) : Outcome := .next (s.aluFrom .sbc (.reg r))

/-- `SBC A,n` (43_alu8.md R231). -/
def execSbcAN (n : Byte) (s : State) : Outcome := .next (s.aluFrom .sbc (.imm n))

/-- `SBC A,(HL)` (43_alu8.md R232). -/
def execSbcAMemHl (s : State) : Outcome := .next (s.aluFrom .sbc .memHl)

/-- `SBC A,(XY+d)` (43_alu8.md R233). -/
def execSbcAMemXyd (xy : Index) (d : Byte) (s : State) : Outcome := .next (s.aluFrom .sbc (.memIdx xy d))

/-- `SBC A,p` (43_alu8.md R234). -/
def execSbcAP (xy : Index) (p : Half) (s : State) : Outcome := .next (s.aluFrom .sbc (.half xy p))

/-- `AND r` (43_alu8.md R230). -/
def execAndR (r : Reg8) (s : State) : Outcome := .next (s.aluFrom .and (.reg r))

/-- `AND n` (43_alu8.md R231). -/
def execAndN (n : Byte) (s : State) : Outcome := .next (s.aluFrom .and (.imm n))

/-- `AND (HL)` (43_alu8.md R232). -/
def execAndMemHl (s : State) : Outcome := .next (s.aluFrom .and .memHl)

/-- `AND (XY+d)` (43_alu8.md R233). -/
def execAndMemXyd (xy : Index) (d : Byte) (s : State) : Outcome := .next (s.aluFrom .and (.memIdx xy d))

/-- `AND p` (43_alu8.md R234). -/
def execAndP (xy : Index) (p : Half) (s : State) : Outcome := .next (s.aluFrom .and (.half xy p))

/-- `XOR r` (43_alu8.md R230). -/
def execXorR (r : Reg8) (s : State) : Outcome := .next (s.aluFrom .xor (.reg r))

/-- `XOR n` (43_alu8.md R231). -/
def execXorN (n : Byte) (s : State) : Outcome := .next (s.aluFrom .xor (.imm n))

/-- `XOR (HL)` (43_alu8.md R232). -/
def execXorMemHl (s : State) : Outcome := .next (s.aluFrom .xor .memHl)

/-- `XOR (XY+d)` (43_alu8.md R233). -/
def execXorMemXyd (xy : Index) (d : Byte) (s : State) : Outcome := .next (s.aluFrom .xor (.memIdx xy d))

/-- `XOR p` (43_alu8.md R234). -/
def execXorP (xy : Index) (p : Half) (s : State) : Outcome := .next (s.aluFrom .xor (.half xy p))

/-- `OR r` (43_alu8.md R230). -/
def execOrR (r : Reg8) (s : State) : Outcome := .next (s.aluFrom .or (.reg r))

/-- `OR n` (43_alu8.md R231). -/
def execOrN (n : Byte) (s : State) : Outcome := .next (s.aluFrom .or (.imm n))

/-- `OR (HL)` (43_alu8.md R232). -/
def execOrMemHl (s : State) : Outcome := .next (s.aluFrom .or .memHl)

/-- `OR (XY+d)` (43_alu8.md R233). -/
def execOrMemXyd (xy : Index) (d : Byte) (s : State) : Outcome := .next (s.aluFrom .or (.memIdx xy d))

/-- `OR p` (43_alu8.md R234). -/
def execOrP (xy : Index) (p : Half) (s : State) : Outcome := .next (s.aluFrom .or (.half xy p))

/-- `CP r` (43_alu8.md R230). -/
def execCpR (r : Reg8) (s : State) : Outcome := .next (s.aluFrom .cp (.reg r))

/-- `CP n` (43_alu8.md R231). -/
def execCpN (n : Byte) (s : State) : Outcome := .next (s.aluFrom .cp (.imm n))

/-- `CP (HL)` (43_alu8.md R232). -/
def execCpMemHl (s : State) : Outcome := .next (s.aluFrom .cp .memHl)

/-- `CP (XY+d)` (43_alu8.md R233). -/
def execCpMemXyd (xy : Index) (d : Byte) (s : State) : Outcome := .next (s.aluFrom .cp (.memIdx xy d))

/-- `CP p` (43_alu8.md R234). -/
def execCpP (xy : Index) (p : Half) (s : State) : Outcome := .next (s.aluFrom .cp (.half xy p))

/-- `INC r` (43_alu8.md R241). -/
def execIncR (r : Reg8) (s : State) : Outcome := .next (let x := inc8 s.f (s.getReg r); (s.setReg r x.1).setF x.2)

/-- `INC (HL)` (43_alu8.md R242). -/
def execIncMemHl (s : State) : Outcome := .next (s.stepMem s.hl inc8)

/-- `INC (XY+d)` (43_alu8.md R243). -/
def execIncMemXyd (xy : Index) (d : Byte) (s : State) : Outcome := .next ((s.useIndex xy d 5).stepMem (s.indexAddress xy d) inc8)

/-- `INC p` (43_alu8.md R244). -/
def execIncP (xy : Index) (p : Half) (s : State) : Outcome := .next (let x := inc8 s.f (s.getHalf xy p); (s.setHalf xy p x.1).setF x.2)

/-- `DEC r` (43_alu8.md R245). -/
def execDecR (r : Reg8) (s : State) : Outcome := .next (let x := dec8 s.f (s.getReg r); (s.setReg r x.1).setF x.2)

/-- `DEC (HL)` (43_alu8.md R246). -/
def execDecMemHl (s : State) : Outcome := .next (s.stepMem s.hl dec8)

/-- `DEC (XY+d)` (43_alu8.md R247). -/
def execDecMemXyd (xy : Index) (d : Byte) (s : State) : Outcome := .next ((s.useIndex xy d 5).stepMem (s.indexAddress xy d) dec8)

/-- `DEC p` (43_alu8.md R248). -/
def execDecP (xy : Index) (p : Half) (s : State) : Outcome := .next (let x := dec8 s.f (s.getHalf xy p); (s.setHalf xy p x.1).setF x.2)

end Sys2Proof.Machine
end

