-- ==== Sys2Proof/Machine/Bit.lean ====
section
/-! DEFINITION. The bit test, set and reset group (47_bit.md). -/

namespace Sys2Proof.Machine

open Sys2Proof

/-- `BIT b,r` (47_bit.md R331). -/
def execBitBR (bit : BitVec 3) (r : Reg8) (s : State) : Outcome := .next (s.setF (bitTestFlags s.f bit (s.getReg r) (s.getReg r)))

/-- `BIT b,(HL)` (47_bit.md R332). -/
def execBitBMemHl (bit : BitVec 3) (s : State) : Outcome := .next (let v := s.memRead s.hl; (v.2.tick 1).setF (bitTestFlags s.f bit v.1 (hiByte s.wz)))

/-- `BIT b,(XY+d)` (47_bit.md R333): every `z` alike. -/
def execBitBMemXyd (xy : Index) (d : Byte) (bit : BitVec 3) (_z : BitVec 3) (s : State) : Outcome :=
  let ea := s.indexAddress xy d
  let v := (s.useIndex xy d 2).memRead ea
  .next ((v.2.tick 1).setF (bitTestFlags s.f bit v.1 (hiByte ea)))

/-- `RES b,r` (47_bit.md R334). -/
def execResBR (bit : BitVec 3) (r : Reg8) (s : State) : Outcome := .next (s.setReg r (clearBit bit (s.getReg r)))

/-- `RES b,(HL)` (47_bit.md R335). -/
def execResBMemHl (bit : BitVec 3) (s : State) : Outcome := .next (s.modify s.hl (clearBit bit))

/-- `RES b,(XY+d)` (47_bit.md R336). -/
def execResBMemXyd (xy : Index) (d : Byte) (bit : BitVec 3) (s : State) : Outcome := .next ((s.useIndex xy d 2).modify (s.indexAddress xy d) (clearBit bit))

/-- `RES b,(XY+d),r` (47_bit.md R338). -/
def execResBMemXydR (xy : Index) (d : Byte) (bit : BitVec 3) (r : Reg8) (s : State) : Outcome := .next ((s.useIndex xy d 2).modifyCopy (s.indexAddress xy d) (clearBit bit) r)

/-- `SET b,r` (47_bit.md R334). -/
def execSetBR (bit : BitVec 3) (r : Reg8) (s : State) : Outcome := .next (s.setReg r (setBit bit (s.getReg r)))

/-- `SET b,(HL)` (47_bit.md R335). -/
def execSetBMemHl (bit : BitVec 3) (s : State) : Outcome := .next (s.modify s.hl (setBit bit))

/-- `SET b,(XY+d)` (47_bit.md R337). -/
def execSetBMemXyd (xy : Index) (d : Byte) (bit : BitVec 3) (s : State) : Outcome := .next ((s.useIndex xy d 2).modify (s.indexAddress xy d) (setBit bit))

/-- `SET b,(XY+d),r` (47_bit.md R339). -/
def execSetBMemXydR (xy : Index) (d : Byte) (bit : BitVec 3) (r : Reg8) (s : State) : Outcome := .next ((s.useIndex xy d 2).modifyCopy (s.indexAddress xy d) (setBit bit) r)

end Sys2Proof.Machine
end

