-- ==== Sys2Proof/Machine/Exchange.lean ====
section
/-! DEFINITION. The exchange, block transfer and block search group (42_exchange_block.md). -/

namespace Sys2Proof.Machine

open Sys2Proof

/-- `EX DE,HL` (42_exchange_block.md R190). -/
def execExDeHl (s : State) : Outcome := .next ((s.setDe s.hl).setHl s.de)

/-- `EX AF,AF'` (42_exchange_block.md R191). -/
def execExAfAf (s : State) : Outcome := .next ({ s with a := s.altA, f := s.altF, altA := s.a, altF := s.f })

/-- `EXX` (42_exchange_block.md R192). -/
def execExx (s : State) : Outcome :=
  .next { s with
    b := s.altB, c := s.altC, d := s.altD, e := s.altE, h := s.altH, l := s.altL,
    altB := s.b, altC := s.c, altD := s.d, altE := s.e, altH := s.h, altL := s.l }

/-- The accesses of `EX (SP),HL` and `EX (SP),XY` with the register holding `w` (42_exchange_block.md R193): the
word on the stack, read low byte first, and the state with `w` there, written high byte first, and `WZ` set. -/
def State.exchangeStack (s : State) (w : Word) : Word × State :=
  let p := s.memRead16 s.sp
  let t := ((p.2.tick 1).memWrite (s.sp + 1) (hiByte w)).memWrite s.sp (loByte w)
  (p.1, (t.tick 2).setWz p.1)

/-- `EX (SP),HL` (42_exchange_block.md R193). -/
def execExMemSpHl (s : State) : Outcome := .next (let p := s.exchangeStack s.hl; p.2.setHl p.1)

/-- `EX (SP),XY` (42_exchange_block.md R194). -/
def execExMemSpXy (xy : Index) (s : State) : Outcome := .next (let p := s.exchangeStack (s.getIndex xy); p.2.setIndex xy p.1)

/-- `LDI` (42_exchange_block.md R195). -/
def execLdi (s : State) : Outcome := .next (s.blockLoad true)

/-- `LDD` (42_exchange_block.md R197). -/
def execLdd (s : State) : Outcome := .next (s.blockLoad false)

/-- `LDIR` (42_exchange_block.md R196): one iteration. -/
def execLdir (s : State) : Outcome :=
  let t := s.blockLoad true
  .next (if t.bc != 0 then t.repeatBlock else t)

/-- `LDDR` (42_exchange_block.md R198): one iteration. -/
def execLddr (s : State) : Outcome :=
  let t := s.blockLoad false
  .next (if t.bc != 0 then t.repeatBlock else t)

/-- `CPI` (42_exchange_block.md R199). -/
def execCpi (s : State) : Outcome := .next (s.blockCompare true)

/-- `CPD` (42_exchange_block.md R201). -/
def execCpd (s : State) : Outcome := .next (s.blockCompare false)

/-- `CPIR` (42_exchange_block.md R200): one iteration; the result is 0 when the bytes are
equal. -/
def execCpir (s : State) : Outcome :=
  let t := s.blockCompare true
  .next (if t.bc != 0 && s.a != s.memValue .read s.hl then t.repeatBlock else t)

/-- `CPDR` (42_exchange_block.md R202): one iteration; the result is 0 when the bytes are
equal. -/
def execCpdr (s : State) : Outcome :=
  let t := s.blockCompare false
  .next (if t.bc != 0 && s.a != s.memValue .read s.hl then t.repeatBlock else t)

end Sys2Proof.Machine
end

