-- ==== Sys2Proof/Machine/Fetch.lean ====
section
/-! DEFINITION. Fetching an instruction, and what the machine does next: the boundary check of 60_exceptions.md R416,
the choice between an acceptance, the halted idle and a step of the dispatcher (R440), and the start of that step
(30_encoding.md R90). -/

namespace Sys2Proof.Machine

open Sys2Proof

/-- Whether another opcode byte is fetched behind those there are: the first one, and one behind `CB`, `ED`, `DD`,
`FD`, and `ED` behind an index prefix (30_encoding.md R90, R96). Behind `DD CB` and `FD CB` both bytes are operands in
this sense: they are read with `Imm8()` (R102). -/
def moreOpcode (bytes : List Byte) : Bool :=
  match bytes with
  | [] => true
  | [x] => x == 0xCB || x == 0xED || x == 0xDD || x == 0xFD
  | [x, y] => (x == 0xDD || x == 0xFD) && y == 0xED
  | _ => false

/-- Fetching opcode bytes, at most `n`, behind those in `got`. -/
def State.fetchOpcode (s : State) (n : Nat) (got : List Byte) : List Byte × State :=
  match n with
  | 0 => (got, s)
  | k + 1 => if moreOpcode got then s.fetch.2.fetchOpcode k (got ++ [s.fetch.1]) else (got, s)

/-- Reading `n` more bytes with `Imm8()` behind those in `got`. -/
def State.readOperands (s : State) (n : Nat) (got : List Byte) : List Byte × State :=
  match n with
  | 0 => (got, s)
  | k + 1 => s.imm8.2.readOperands k (got ++ [s.imm8.1])

/-- The instruction that bytes begin with, as far as they tell. -/
def decodeSoFar (bytes : List Byte) : Instr :=
  decodeBytes (bytes.getD 0 0) (bytes.getD 1 0) (bytes.getD 2 0) (bytes.getD 3 0) (bytes.getD 4 0)

/-- Reading an instruction, byte by byte in its order, each with the access of its format (30_encoding.md R90, R94):
what the adapter answers for one byte decides whether and how the next one is read. The bytes `supplied` (a pending
prefix, an injected opcode) come first and are not read. -/
def State.fetchInstr (s : State) (supplied : List Byte) : Instr × State :=
  let op := s.fetchOpcode 3 supplied
  let all := op.2.readOperands (decodeSoFar op.1).fetches.2 op.1
  (decodeSoFar all.1, all.2)

/-- What one pass of the scheduler's loop does (60_exceptions.md R440). -/
inductive Event where
  /-- An acceptance, complete. -/
  | accepted (t : State)
  /-- A mode 0 acceptance that goes on to execute the injected instruction `i` (60_exceptions.md R422). -/
  | injected (i : Instr) (t : State)
  /-- The halted idle (60_exceptions.md R443). -/
  | idle (t : State)
  /-- A step of the dispatcher: `i` has been read and executes from `t`. -/
  | instr (i : Instr) (t : State)
deriving DecidableEq, Repr

/-- After a boundary check that accepts nothing: the halted idle up to `target`, or the start of `step()`
(60_exceptions.md R440, 30_encoding.md R90). A pending prefix is consumed, not fetched again. -/
def State.proceed (s : State) (target : Nat) : Event :=
  if s.halt then .idle { s with cycles := target }
  else
    match s.pfx with
    | none => .instr (s.fetchInstr []).1 (s.fetchInstr []).2
    | some xy =>
      let t : State := { s with pfx := none }
      .instr (t.fetchInstr [xy.prefixByte]).1 (t.fetchInstr [xy.prefixByte]).2

/-- The maskable acceptance; in mode 0 `decode_main(INT_DATA)` comes after it (60_exceptions.md R421, R422;
30_encoding.md R125). -/
def State.acceptInt (s : State) : Event :=
  let t := s.accept .int
  match s.im with
  | .im0 => .injected (t.fetchInstr [t.cfg.intData]).1 (t.fetchInstr [t.cfg.intData]).2
  | _ => .accepted t

/-- `boundary()` (60_exceptions.md R416), and what follows it. -/
def State.plan (s : State) (target : Nat) : Event :=
  let t := s.sampleLines
  if t.inhibit then ({ t with inhibit := false } : State).proceed target
  else if t.nmiPending then .accepted (t.accept .nmi)
  else if t.intLine && t.iff1 then t.acceptInt
  else t.proceed target

/-- Stores bytes from an address on, wrapping at the top of memory. -/
def State.pokeBytes (s : State) (a : Word) (bytes : List Byte) : State :=
  match bytes with
  | [] => s
  | v :: rest => (s.poke a v).pokeBytes (a + 1) rest

/-- The bytes of a table word at `PC`, zeros after them up to the longest instruction, and nothing in the way of
fetching them: memory everywhere, no pending interrupt, not halted, no pending prefix. -/
def State.placeAtPc (s : State) (bytes : List Byte) : State :=
  ({ s with
    adapter := { s.adapter with regions := [] }, halt := false, pfx := none, nmiPending := false, intLine := false,
    lineScript := [] } : State).pokeBytes s.pc ((bytes ++ List.replicate 5 0).take (max 5 bytes.length))

end Sys2Proof.Machine
end

