-- ==== Sys2Proof/Machine/General.lean ====
section
/-! DEFINITION. General-purpose arithmetic and CPU control (44_general_cpu.md). -/

namespace Sys2Proof.Machine

open Sys2Proof

/-- `DAA` (44_general_cpu.md R260). -/
def execDaa (s : State) : Outcome := .next (let x := daa8 s.a s.f; (s.setReg .a x.1).setF x.2)

/-- `CPL` (44_general_cpu.md R261). -/
def execCpl (s : State) : Outcome := .next ((s.setReg .a (~~~s.a)).setF (cplFlags s.f (~~~s.a)))

/-- `NEG` (44_general_cpu.md R262): every `y` alike. -/
def execNeg (_y : BitVec 3) (s : State) : Outcome := .next (let x := sub8 0 s.a false; (s.setReg .a x.1).setF x.2)

/-- `CCF` (44_general_cpu.md R263). -/
def execCcf (s : State) : Outcome := .next (s.setF (ccfFlags s.f s.a))

/-- `SCF` (44_general_cpu.md R264). -/
def execScf (s : State) : Outcome := .next (s.setF (scfFlags s.f s.a))

/-- `NOP` (44_general_cpu.md R265). -/
def execNop (s : State) : Outcome := .next (s)

/-- `HALT` (44_general_cpu.md R266). -/
def execHalt (s : State) : Outcome := .next ({ s with halt := true })

/-- `DI` (44_general_cpu.md R267). -/
def execDi (s : State) : Outcome := .next ({ s with iff1 := false, iff2 := false })

/-- `EI` (44_general_cpu.md R269). -/
def execEi (s : State) : Outcome := .next ({ s with iff1 := true, iff2 := true, inhibit := true })

/-- `IM n` (44_general_cpu.md R270). -/
def execImN (y : BitVec 3) (s : State) : Outcome := .next ({ s with im := imOf y })

/-- `NOP*` (44_general_cpu.md R272): the two-byte no-operation. -/
def execEdNop0 (_yz : BitVec 6) (s : State) : Outcome := .next (s)

/-- `NOP*` (44_general_cpu.md R272): the two-byte no-operation. -/
def execEdNop7 (_q : BitVec 1) (s : State) : Outcome := .next (s)

/-- `NOP*` (44_general_cpu.md R272): the two-byte no-operation. -/
def execEdNop8 (_yz : BitVec 5) (s : State) : Outcome := .next (s)

/-- `NOP*` (44_general_cpu.md R272): the two-byte no-operation. -/
def execEdNopA (_y : BitVec 2) (_z : BitVec 2) (s : State) : Outcome := .next (s)

/-- `NOP*` (44_general_cpu.md R272): the two-byte no-operation. -/
def execEdNopC (_yz : BitVec 6) (s : State) : Outcome := .next (s)

end Sys2Proof.Machine
end

