-- ==== Sys2Proof/Machine/Io.lean ====
section
/-! DEFINITION. The input and output group (49_io.md). -/

namespace Sys2Proof.Machine

open Sys2Proof

/-- `IN A,(n)` (49_io.md R380). -/
def execInAN (n : Byte) (s : State) : Outcome := .next (let v := s.ioRead (joinBytes s.a n); (v.2.setReg .a v.1).setWz (joinBytes s.a n + 1))

/-- `IN r,(C)` (49_io.md R381). -/
def execInRC (r : Reg8) (s : State) : Outcome := .next (let v := s.ioRead s.bc; ((v.2.setReg r v.1).setF (inFlags s.f v.1)).setWz (s.bc + 1))

/-- `IN F,(C)` (49_io.md R382). -/
def execInFC (s : State) : Outcome := .next (let v := s.ioRead s.bc; (v.2.setF (inFlags s.f v.1)).setWz (s.bc + 1))

/-- `OUT (n),A` (49_io.md R388). -/
def execOutNA (n : Byte) (s : State) : Outcome := .next ((s.ioWrite (joinBytes s.a n) s.a).setWz (joinBytes s.a (n + 1)))

/-- `OUT (C),r` (49_io.md R389). -/
def execOutCR (r : Reg8) (s : State) : Outcome := .next ((s.ioWrite s.bc (s.getReg r)).setWz (s.bc + 1))

/-- `OUT (C),0` (49_io.md R390). -/
def execOutC0 (s : State) : Outcome := .next ((s.ioWrite s.bc 0).setWz (s.bc + 1))

/-- `INI` (49_io.md R384). -/
def execIni (s : State) : Outcome := .next (s.blockIn true)

/-- `IND` (49_io.md R386). -/
def execInd (s : State) : Outcome := .next (s.blockIn false)

/-- `INIR` (49_io.md R385): one iteration. -/
def execInir (s : State) : Outcome :=
  let t := s.blockIn true
  .next (if t.b != 0 then t.repeatIo else t)

/-- `INDR` (49_io.md R387): one iteration. -/
def execIndr (s : State) : Outcome :=
  let t := s.blockIn false
  .next (if t.b != 0 then t.repeatIo else t)

/-- `OUTI` (49_io.md R391). -/
def execOuti (s : State) : Outcome := .next (s.blockOut true)

/-- `OUTD` (49_io.md R393). -/
def execOutd (s : State) : Outcome := .next (s.blockOut false)

/-- `OTIR` (49_io.md R392): one iteration. -/
def execOtir (s : State) : Outcome :=
  let t := s.blockOut true
  .next (if t.b != 0 then t.repeatIo else t)

/-- `OTDR` (49_io.md R394): one iteration. -/
def execOtdr (s : State) : Outcome :=
  let t := s.blockOut false
  .next (if t.b != 0 then t.repeatIo else t)

end Sys2Proof.Machine
end

