-- ==== Sys2Proof/Machine/Jump.lean ====
section
/-! DEFINITION. The jump, call and return group (48_jump_call.md). `PC` is past the instruction when a meaning begins
(10_state.md R27). -/

namespace Sys2Proof.Machine

open Sys2Proof

/-- The target of a relative jump: `(PC + sext_8(e)) mod 65536`, `PC` after the displacement byte (30_encoding.md
R95). -/
def State.relative (s : State) (e : Byte) : Word := s.pc + signExtend8 e

/-- A taken relative jump: `tick(5); PC <- (PC + e) mod 65536; WZ <- PC` (48_jump_call.md R353). -/
def State.jumpRelative (s : State) (e : Byte) : State := (s.tick 5).jumpTo (s.relative e)

/-- `JP nn` (48_jump_call.md R351). -/
def execJpNn (nn : Word) (s : State) : Outcome := .next (s.jumpTo nn)

/-- `JP cc,nn` (48_jump_call.md R352). -/
def execJpCcNn (cc : Cond) (nn : Word) (s : State) : Outcome := .next (let t := s.setWz nn; if condHolds cc s.f then t.setPc nn else t)

/-- `JR e` (48_jump_call.md R353). -/
def execJrE (e : Byte) (s : State) : Outcome := .next (s.jumpRelative e)

/-- `JR cc,e` (48_jump_call.md R354). -/
def execJrCcE (cc : Cond) (e : Byte) (s : State) : Outcome := .next (if condHolds cc s.f then s.jumpRelative e else s)

/-- `JP (HL)` (48_jump_call.md R355). -/
def execJpHl (s : State) : Outcome := .next (s.setPc s.hl)

/-- `JP (XY)` (48_jump_call.md R356). -/
def execJpXy (xy : Index) (s : State) : Outcome := .next (s.setPc (s.getIndex xy))

/-- `DJNZ e` (48_jump_call.md R357). -/
def execDjnzE (e : Byte) (s : State) : Outcome :=
  let t := (s.tick 1).setReg .b (s.b - 1)
  .next (if t.b != 0 then t.jumpRelative e else t)

/-- `CALL nn` (48_jump_call.md R358). -/
def execCallNn (nn : Word) (s : State) : Outcome := .next ((s.tick 1).callTo nn)

/-- `CALL cc,nn` (48_jump_call.md R359). -/
def execCallCcNn (cc : Cond) (nn : Word) (s : State) : Outcome := .next (let t := s.setWz nn; if condHolds cc s.f then (t.tick 1).callTo nn else t)

/-- `RST p` (48_jump_call.md R366). -/
def execRstP (p : BitVec 3) (s : State) : Outcome := .next ((s.tick 1).callTo (BitVec.ofNat 16 (8 * p.toNat)))

/-- `RET` (48_jump_call.md R360). -/
def execRet (s : State) : Outcome := .next (s.popPc)

/-- `RET cc` (48_jump_call.md R361). -/
def execRetCc (cc : Cond) (s : State) : Outcome := .next (let t := s.tick 1; if condHolds cc s.f then t.popPc else t)

/-- `RETI` (48_jump_call.md R362). -/
def execReti (s : State) : Outcome := .next (s.returnFromInterrupt)

/-- `RETN` (48_jump_call.md R365): every `y` alike. -/
def execRetn (_y : BitVec 3) (s : State) : Outcome := .next (s.returnFromInterrupt)

end Sys2Proof.Machine
end

