-- ==== Sys2Proof/Machine/Load16.lean ====
section
/-! DEFINITION. The 16-bit load group and the stack (41_load16_stack.md). -/

namespace Sys2Proof.Machine

open Sys2Proof

/-- `LD dd,nn` (41_load16_stack.md R160). -/
def execLdDdNn (dd : Pair) (nn : Word) (s : State) : Outcome := .next (s.setPair dd nn)

/-- `LD XY,nn` (41_load16_stack.md R161). -/
def execLdXyNn (xy : Index) (nn : Word) (s : State) : Outcome := .next (s.setIndex xy nn)

/-- `LD HL,(nn)` (41_load16_stack.md R162). -/
def execLdHlMemNn (nn : Word) (s : State) : Outcome := .next (let w := s.memRead16 nn; (w.2.setHl w.1).setWz (nn + 1))

/-- `LD dd,(nn)` (41_load16_stack.md R163). -/
def execLdDdMemNn (dd : Pair) (nn : Word) (s : State) : Outcome := .next (let w := s.memRead16 nn; (w.2.setPair dd w.1).setWz (nn + 1))

/-- `LD XY,(nn)` (41_load16_stack.md R164). -/
def execLdXyMemNn (xy : Index) (nn : Word) (s : State) : Outcome := .next (let w := s.memRead16 nn; (w.2.setIndex xy w.1).setWz (nn + 1))

/-- `LD (nn),HL` (41_load16_stack.md R165). -/
def execLdMemNnHl (nn : Word) (s : State) : Outcome := .next ((s.memWrite16 nn s.hl).setWz (nn + 1))

/-- `LD (nn),dd` (41_load16_stack.md R166). -/
def execLdMemNnDd (nn : Word) (dd : Pair) (s : State) : Outcome := .next ((s.memWrite16 nn (s.getPair dd)).setWz (nn + 1))

/-- `LD (nn),XY` (41_load16_stack.md R167). -/
def execLdMemNnXy (xy : Index) (nn : Word) (s : State) : Outcome := .next ((s.memWrite16 nn (s.getIndex xy)).setWz (nn + 1))

/-- `LD SP,HL` (41_load16_stack.md R168). -/
def execLdSpHl (s : State) : Outcome := .next ((s.tick 2).setSp s.hl)

/-- `LD SP,XY` (41_load16_stack.md R169). -/
def execLdSpXy (xy : Index) (s : State) : Outcome := .next ((s.tick 2).setSp (s.getIndex xy))

/-- `PUSH qq` (41_load16_stack.md R170). -/
def execPushQq (qq : StackPair) (s : State) : Outcome := .next ((s.tick 1).push16 (s.getStackPair qq))

/-- `PUSH XY` (41_load16_stack.md R171). -/
def execPushXy (xy : Index) (s : State) : Outcome := .next ((s.tick 1).push16 (s.getIndex xy))

/-- `POP qq` (41_load16_stack.md R172). -/
def execPopQq (qq : StackPair) (s : State) : Outcome := .next (let w := s.pop16; w.2.setStackPair qq w.1)

/-- `POP XY` (41_load16_stack.md R173). -/
def execPopXy (xy : Index) (s : State) : Outcome := .next (let w := s.pop16; w.2.setIndex xy w.1)

end Sys2Proof.Machine
end

