-- ==== Sys2Proof/Machine/Load8.lean ====
section
/-! DEFINITION. The 8-bit load group (40_load8.md). -/

namespace Sys2Proof.Machine

open Sys2Proof

/-- `LD r,r'` (40_load8.md R130). -/
def execLdRR (dst : Reg8) (src : Reg8) (s : State) : Outcome := .next (s.setReg dst (s.getReg src))

/-- `LD r,n` (40_load8.md R131). -/
def execLdRN (r : Reg8) (n : Byte) (s : State) : Outcome := .next (s.setReg r n)

/-- `LD r,(HL)` (40_load8.md R132). -/
def execLdRMemHl (r : Reg8) (s : State) : Outcome := .next (let v := s.memRead s.hl; v.2.setReg r v.1)

/-- `LD r,(XY+d)` (40_load8.md R133): `r` is a plain register. -/
def execLdRMemXyd (xy : Index) (r : Reg8) (d : Byte) (s : State) : Outcome := .next (let v := (s.useIndex xy d 5).memRead (s.indexAddress xy d); v.2.setReg r v.1)

/-- `LD (HL),r` (40_load8.md R134). -/
def execLdMemHlR (r : Reg8) (s : State) : Outcome := .next (s.memWrite s.hl (s.getReg r))

/-- `LD (XY+d),r` (40_load8.md R135): `r` is a plain register. -/
def execLdMemXydR (xy : Index) (d : Byte) (r : Reg8) (s : State) : Outcome := .next ((s.useIndex xy d 5).memWrite (s.indexAddress xy d) (s.getReg r))

/-- `LD (HL),n` (40_load8.md R136). -/
def execLdMemHlN (n : Byte) (s : State) : Outcome := .next (s.memWrite s.hl n)

/-- `LD (XY+d),n` (40_load8.md R137): 2 internal cycles. -/
def execLdMemXydN (xy : Index) (d : Byte) (n : Byte) (s : State) : Outcome := .next ((s.useIndex xy d 2).memWrite (s.indexAddress xy d) n)

/-- `LD A,(BC)` (40_load8.md R138). -/
def execLdAMemBc (s : State) : Outcome := .next (let v := s.memRead s.bc; (v.2.setReg .a v.1).setWz (s.bc + 1))

/-- `LD A,(DE)` (40_load8.md R139). -/
def execLdAMemDe (s : State) : Outcome := .next (let v := s.memRead s.de; (v.2.setReg .a v.1).setWz (s.de + 1))

/-- `LD A,(nn)` (40_load8.md R140). -/
def execLdAMemNn (nn : Word) (s : State) : Outcome := .next (let v := s.memRead nn; (v.2.setReg .a v.1).setWz (nn + 1))

/-- `LD (BC),A` (40_load8.md R141): `WZ` has no carry into its high byte. -/
def execLdMemBcA (s : State) : Outcome := .next ((s.memWrite s.bc s.a).setWz (joinBytes s.a (s.c + 1)))

/-- `LD (DE),A` (40_load8.md R142): `WZ` has no carry into its high byte. -/
def execLdMemDeA (s : State) : Outcome := .next ((s.memWrite s.de s.a).setWz (joinBytes s.a (s.e + 1)))

/-- `LD (nn),A` (40_load8.md R143): `WZ` has no carry into its high byte. -/
def execLdMemNnA (nn : Word) (s : State) : Outcome := .next ((s.memWrite nn s.a).setWz (joinBytes s.a (loByte nn + 1)))

/-- `LD A,I` (40_load8.md R144). -/
def execLdAI (s : State) : Outcome := .next (((s.tick 1).setReg .a s.i).setF (loadIrFlags s.f s.i s.iff2))

/-- `LD A,R` (40_load8.md R145): `R` after this instruction's own fetches. -/
def execLdARf (s : State) : Outcome := .next (((s.tick 1).setReg .a s.r).setF (loadIrFlags s.f s.r s.iff2))

/-- `LD I,A` (40_load8.md R146). -/
def execLdIA (s : State) : Outcome := .next (({ s with i := s.a } : State).tick 1)

/-- `LD R,A` (40_load8.md R147): all 8 bits. -/
def execLdRfA (s : State) : Outcome := .next (({ s with r := s.a } : State).tick 1)

/-- `LD p,p'` (40_load8.md R148). -/
def execLdPP (xy : Index) (dst : XReg8) (src : XReg8) (s : State) : Outcome := .next (s.setXReg xy dst (s.getXReg xy src))

/-- `LD p,n` (40_load8.md R149). -/
def execLdPN (xy : Index) (p : Half) (n : Byte) (s : State) : Outcome := .next (s.setHalf xy p n)

end Sys2Proof.Machine
end

