-- ==== Sys2Proof/Machine/Rotate.lean ====
section
/-! DEFINITION. The rotate and shift group (46_rotate_shift.md). -/

namespace Sys2Proof.Machine

open Sys2Proof

/-- `RLCA` (46_rotate_shift.md R300). -/
def execRlca (s : State) : Outcome := .next (s.rotAcc .rlc)

/-- `RRCA` (46_rotate_shift.md R301). -/
def execRrca (s : State) : Outcome := .next (s.rotAcc .rrc)

/-- `RLA` (46_rotate_shift.md R302). -/
def execRla (s : State) : Outcome := .next (s.rotAcc .rl)

/-- `RRA` (46_rotate_shift.md R303). -/
def execRra (s : State) : Outcome := .next (s.rotAcc .rr)

/-- `RLC r` (46_rotate_shift.md R312). -/
def execRlcR (r : Reg8) (s : State) : Outcome := .next (s.rotReg r .rlc)

/-- `RLC (HL)` (46_rotate_shift.md R313). -/
def execRlcMemHl (s : State) : Outcome := .next (s.rotMem s.hl .rlc)

/-- `RLC (XY+d)` (46_rotate_shift.md R314). -/
def execRlcMemXyd (xy : Index) (d : Byte) (s : State) : Outcome := .next ((s.useIndex xy d 2).rotMem (s.indexAddress xy d) .rlc)

/-- `RLC (XY+d),r` (46_rotate_shift.md R315). -/
def execRlcMemXydR (xy : Index) (d : Byte) (r : Reg8) (s : State) : Outcome := .next ((s.useIndex xy d 2).rotMemCopy (s.indexAddress xy d) .rlc r)

/-- `RRC r` (46_rotate_shift.md R312). -/
def execRrcR (r : Reg8) (s : State) : Outcome := .next (s.rotReg r .rrc)

/-- `RRC (HL)` (46_rotate_shift.md R313). -/
def execRrcMemHl (s : State) : Outcome := .next (s.rotMem s.hl .rrc)

/-- `RRC (XY+d)` (46_rotate_shift.md R314). -/
def execRrcMemXyd (xy : Index) (d : Byte) (s : State) : Outcome := .next ((s.useIndex xy d 2).rotMem (s.indexAddress xy d) .rrc)

/-- `RRC (XY+d),r` (46_rotate_shift.md R315). -/
def execRrcMemXydR (xy : Index) (d : Byte) (r : Reg8) (s : State) : Outcome := .next ((s.useIndex xy d 2).rotMemCopy (s.indexAddress xy d) .rrc r)

/-- `RL r` (46_rotate_shift.md R312). -/
def execRlR (r : Reg8) (s : State) : Outcome := .next (s.rotReg r .rl)

/-- `RL (HL)` (46_rotate_shift.md R313). -/
def execRlMemHl (s : State) : Outcome := .next (s.rotMem s.hl .rl)

/-- `RL (XY+d)` (46_rotate_shift.md R314). -/
def execRlMemXyd (xy : Index) (d : Byte) (s : State) : Outcome := .next ((s.useIndex xy d 2).rotMem (s.indexAddress xy d) .rl)

/-- `RL (XY+d),r` (46_rotate_shift.md R315). -/
def execRlMemXydR (xy : Index) (d : Byte) (r : Reg8) (s : State) : Outcome := .next ((s.useIndex xy d 2).rotMemCopy (s.indexAddress xy d) .rl r)

/-- `RR r` (46_rotate_shift.md R312). -/
def execRrR (r : Reg8) (s : State) : Outcome := .next (s.rotReg r .rr)

/-- `RR (HL)` (46_rotate_shift.md R313). -/
def execRrMemHl (s : State) : Outcome := .next (s.rotMem s.hl .rr)

/-- `RR (XY+d)` (46_rotate_shift.md R314). -/
def execRrMemXyd (xy : Index) (d : Byte) (s : State) : Outcome := .next ((s.useIndex xy d 2).rotMem (s.indexAddress xy d) .rr)

/-- `RR (XY+d),r` (46_rotate_shift.md R315). -/
def execRrMemXydR (xy : Index) (d : Byte) (r : Reg8) (s : State) : Outcome := .next ((s.useIndex xy d 2).rotMemCopy (s.indexAddress xy d) .rr r)

/-- `SLA r` (46_rotate_shift.md R312). -/
def execSlaR (r : Reg8) (s : State) : Outcome := .next (s.rotReg r .sla)

/-- `SLA (HL)` (46_rotate_shift.md R313). -/
def execSlaMemHl (s : State) : Outcome := .next (s.rotMem s.hl .sla)

/-- `SLA (XY+d)` (46_rotate_shift.md R314). -/
def execSlaMemXyd (xy : Index) (d : Byte) (s : State) : Outcome := .next ((s.useIndex xy d 2).rotMem (s.indexAddress xy d) .sla)

/-- `SLA (XY+d),r` (46_rotate_shift.md R315). -/
def execSlaMemXydR (xy : Index) (d : Byte) (r : Reg8) (s : State) : Outcome := .next ((s.useIndex xy d 2).rotMemCopy (s.indexAddress xy d) .sla r)

/-- `SRA r` (46_rotate_shift.md R312). -/
def execSraR (r : Reg8) (s : State) : Outcome := .next (s.rotReg r .sra)

/-- `SRA (HL)` (46_rotate_shift.md R313). -/
def execSraMemHl (s : State) : Outcome := .next (s.rotMem s.hl .sra)

/-- `SRA (XY+d)` (46_rotate_shift.md R314). -/
def execSraMemXyd (xy : Index) (d : Byte) (s : State) : Outcome := .next ((s.useIndex xy d 2).rotMem (s.indexAddress xy d) .sra)

/-- `SRA (XY+d),r` (46_rotate_shift.md R315). -/
def execSraMemXydR (xy : Index) (d : Byte) (r : Reg8) (s : State) : Outcome := .next ((s.useIndex xy d 2).rotMemCopy (s.indexAddress xy d) .sra r)

/-- `SLL r` (46_rotate_shift.md R312). -/
def execSllR (r : Reg8) (s : State) : Outcome := .next (s.rotReg r .sll)

/-- `SLL (HL)` (46_rotate_shift.md R313). -/
def execSllMemHl (s : State) : Outcome := .next (s.rotMem s.hl .sll)

/-- `SLL (XY+d)` (46_rotate_shift.md R314). -/
def execSllMemXyd (xy : Index) (d : Byte) (s : State) : Outcome := .next ((s.useIndex xy d 2).rotMem (s.indexAddress xy d) .sll)

/-- `SLL (XY+d),r` (46_rotate_shift.md R315). -/
def execSllMemXydR (xy : Index) (d : Byte) (r : Reg8) (s : State) : Outcome := .next ((s.useIndex xy d 2).rotMemCopy (s.indexAddress xy d) .sll r)

/-- `SRL r` (46_rotate_shift.md R312). -/
def execSrlR (r : Reg8) (s : State) : Outcome := .next (s.rotReg r .srl)

/-- `SRL (HL)` (46_rotate_shift.md R313). -/
def execSrlMemHl (s : State) : Outcome := .next (s.rotMem s.hl .srl)

/-- `SRL (XY+d)` (46_rotate_shift.md R314). -/
def execSrlMemXyd (xy : Index) (d : Byte) (s : State) : Outcome := .next ((s.useIndex xy d 2).rotMem (s.indexAddress xy d) .srl)

/-- `SRL (XY+d),r` (46_rotate_shift.md R315). -/
def execSrlMemXydR (xy : Index) (d : Byte) (r : Reg8) (s : State) : Outcome := .next ((s.useIndex xy d 2).rotMemCopy (s.indexAddress xy d) .srl r)

/-- A digit rotate, `rot` being `rld8` or `rrd8` (46_rotate_shift.md R316). -/
def State.digitRotate (s : State) (rot : Byte → Byte → Byte × Byte) : State :=
  let v := s.memRead s.hl
  let x := rot s.a v.1
  ((((v.2.tick 4).memWrite s.hl x.2).setReg .a x.1).setF (digitRotFlags s.f x.1)).setWz (s.hl + 1)

/-- `RLD` (46_rotate_shift.md R316). -/
def execRld (s : State) : Outcome := .next (s.digitRotate rld8)

/-- `RRD` (46_rotate_shift.md R317). -/
def execRrd (s : State) : Outcome := .next (s.digitRotate rrd8)

end Sys2Proof.Machine
end

