-- ==== Sys2Proof/Machine/Entry.lean ====
section
/-! DEFINITION. The prefix rows of the table (30_encoding.md R96, R103 to R105): a prefix in front of an entry
executes that entry, so this file has its own table of the entries' meanings. Sys2Proof/Laws/Entry.lean proves that
it is `exec` on every instruction but the bare prefixes. -/

namespace Sys2Proof.Machine

open Sys2Proof

/-- A repeated index prefix (30_encoding.md R104): the step ends with the later prefix pending, and no interrupt is
accepted before the next one. -/
def State.pendPrefix (s : State) (xy : Index) : State := { s with pfx := some xy, inhibit := true }

/-- `repeated prefix DD` (30_encoding.md R104): the earlier prefix has no effect. -/
def execRepeatedPrefixDd (_xy : Index) (s : State) : Outcome := .next (s.pendPrefix .ix)

/-- `repeated prefix FD` (30_encoding.md R104). -/
def execRepeatedPrefixFd (_xy : Index) (s : State) : Outcome := .next (s.pendPrefix .iy)

/-- Executing the entry an instruction names (`execute ... entry` of 30_encoding.md R90). -/
def execEntry (i : Instr) (s : State) : Outcome :=
  match i with
  | .nop => execNop s
  | .exAfAf => execExAfAf s
  | .djnzE e => execDjnzE e s
  | .jrE e => execJrE e s
  | .jrCcE cc e => execJrCcE cc e s
  | .ldDdNn dd nn => execLdDdNn dd nn s
  | .addHlSs ss => execAddHlSs ss s
  | .ldMemBcA => execLdMemBcA s
  | .ldMemDeA => execLdMemDeA s
  | .ldMemNnHl nn => execLdMemNnHl nn s
  | .ldMemNnA nn => execLdMemNnA nn s
  | .ldAMemBc => execLdAMemBc s
  | .ldAMemDe => execLdAMemDe s
  | .ldHlMemNn nn => execLdHlMemNn nn s
  | .ldAMemNn nn => execLdAMemNn nn s
  | .incSs ss => execIncSs ss s
  | .decSs ss => execDecSs ss s
  | .incR r => execIncR r s
  | .incMemHl => execIncMemHl s
  | .decR r => execDecR r s
  | .decMemHl => execDecMemHl s
  | .ldRN r n => execLdRN r n s
  | .ldMemHlN n => execLdMemHlN n s
  | .rlca => execRlca s
  | .rrca => execRrca s
  | .rla => execRla s
  | .rra => execRra s
  | .daa => execDaa s
  | .cpl => execCpl s
  | .scf => execScf s
  | .ccf => execCcf s
  | .ldRR dst src => execLdRR dst src s
  | .ldRMemHl r => execLdRMemHl r s
  | .ldMemHlR r => execLdMemHlR r s
  | .halt => execHalt s
  | .addAR r => execAddAR r s
  | .addAMemHl => execAddAMemHl s
  | .adcAR r => execAdcAR r s
  | .adcAMemHl => execAdcAMemHl s
  | .subR r => execSubR r s
  | .subMemHl => execSubMemHl s
  | .sbcAR r => execSbcAR r s
  | .sbcAMemHl => execSbcAMemHl s
  | .andR r => execAndR r s
  | .andMemHl => execAndMemHl s
  | .xorR r => execXorR r s
  | .xorMemHl => execXorMemHl s
  | .orR r => execOrR r s
  | .orMemHl => execOrMemHl s
  | .cpR r => execCpR r s
  | .cpMemHl => execCpMemHl s
  | .retCc cc => execRetCc cc s
  | .popQq qq => execPopQq qq s
  | .ret => execRet s
  | .exx => execExx s
  | .jpHl => execJpHl s
  | .ldSpHl => execLdSpHl s
  | .jpCcNn cc nn => execJpCcNn cc nn s
  | .jpNn nn => execJpNn nn s
  | .prefixCb => .refused .barePrefix
  | .outNA n => execOutNA n s
  | .inAN n => execInAN n s
  | .exMemSpHl => execExMemSpHl s
  | .exDeHl => execExDeHl s
  | .di => execDi s
  | .ei => execEi s
  | .callCcNn cc nn => execCallCcNn cc nn s
  | .pushQq qq => execPushQq qq s
  | .callNn nn => execCallNn nn s
  | .prefixDd => .refused .barePrefix
  | .prefixEd => .refused .barePrefix
  | .prefixFd => .refused .barePrefix
  | .addAN n => execAddAN n s
  | .adcAN n => execAdcAN n s
  | .subN n => execSubN n s
  | .sbcAN n => execSbcAN n s
  | .andN n => execAndN n s
  | .xorN n => execXorN n s
  | .orN n => execOrN n s
  | .cpN n => execCpN n s
  | .rstP p => execRstP p s
  | .rlcR r => execRlcR r s
  | .rlcMemHl => execRlcMemHl s
  | .rrcR r => execRrcR r s
  | .rrcMemHl => execRrcMemHl s
  | .rlR r => execRlR r s
  | .rlMemHl => execRlMemHl s
  | .rrR r => execRrR r s
  | .rrMemHl => execRrMemHl s
  | .slaR r => execSlaR r s
  | .slaMemHl => execSlaMemHl s
  | .sraR r => execSraR r s
  | .sraMemHl => execSraMemHl s
  | .sllR r => execSllR r s
  | .sllMemHl => execSllMemHl s
  | .srlR r => execSrlR r s
  | .srlMemHl => execSrlMemHl s
  | .bitBR bit r => execBitBR bit r s
  | .bitBMemHl bit => execBitBMemHl bit s
  | .resBR bit r => execResBR bit r s
  | .resBMemHl bit => execResBMemHl bit s
  | .setBR bit r => execSetBR bit r s
  | .setBMemHl bit => execSetBMemHl bit s
  | .edNop0 yz => execEdNop0 yz s
  | .inRC r => execInRC r s
  | .inFC => execInFC s
  | .outCR r => execOutCR r s
  | .outC0 => execOutC0 s
  | .sbcHlSs ss => execSbcHlSs ss s
  | .adcHlSs ss => execAdcHlSs ss s
  | .ldMemNnDd nn dd => execLdMemNnDd nn dd s
  | .ldDdMemNn dd nn => execLdDdMemNn dd nn s
  | .neg y => execNeg y s
  | .retn y => execRetn y s
  | .reti => execReti s
  | .imN y => execImN y s
  | .ldIA => execLdIA s
  | .ldRfA => execLdRfA s
  | .ldAI => execLdAI s
  | .ldARf => execLdARf s
  | .rrd => execRrd s
  | .rld => execRld s
  | .edNop7 q => execEdNop7 q s
  | .edNop8 yz => execEdNop8 yz s
  | .ldi => execLdi s
  | .cpi => execCpi s
  | .ini => execIni s
  | .outi => execOuti s
  | .ldd => execLdd s
  | .cpd => execCpd s
  | .ind => execInd s
  | .outd => execOutd s
  | .ldir => execLdir s
  | .cpir => execCpir s
  | .inir => execInir s
  | .otir => execOtir s
  | .lddr => execLddr s
  | .cpdr => execCpdr s
  | .indr => execIndr s
  | .otdr => execOtdr s
  | .edNopA y z => execEdNopA y z s
  | .edNopC yz => execEdNopC yz s
  | .addXyPp xy pp => execAddXyPp xy pp s
  | .ldXyNn xy nn => execLdXyNn xy nn s
  | .ldMemNnXy xy nn => execLdMemNnXy xy nn s
  | .incXy xy => execIncXy xy s
  | .incP xy p => execIncP xy p s
  | .decP xy p => execDecP xy p s
  | .ldPN xy p n => execLdPN xy p n s
  | .ldXyMemNn xy nn => execLdXyMemNn xy nn s
  | .decXy xy => execDecXy xy s
  | .incMemXyd xy d => execIncMemXyd xy d s
  | .decMemXyd xy d => execDecMemXyd xy d s
  | .ldMemXydN xy d n => execLdMemXydN xy d n s
  | .ldRMemXyd xy r d => execLdRMemXyd xy r d s
  | .ldMemXydR xy d r => execLdMemXydR xy d r s
  | .ldPP xy dst src => execLdPP xy dst src s
  | .addAP xy p => execAddAP xy p s
  | .addAMemXyd xy d => execAddAMemXyd xy d s
  | .adcAP xy p => execAdcAP xy p s
  | .adcAMemXyd xy d => execAdcAMemXyd xy d s
  | .subP xy p => execSubP xy p s
  | .subMemXyd xy d => execSubMemXyd xy d s
  | .sbcAP xy p => execSbcAP xy p s
  | .sbcAMemXyd xy d => execSbcAMemXyd xy d s
  | .andP xy p => execAndP xy p s
  | .andMemXyd xy d => execAndMemXyd xy d s
  | .xorP xy p => execXorP xy p s
  | .xorMemXyd xy d => execXorMemXyd xy d s
  | .orP xy p => execOrP xy p s
  | .orMemXyd xy d => execOrMemXyd xy d s
  | .cpP xy p => execCpP xy p s
  | .cpMemXyd xy d => execCpMemXyd xy d s
  | .prefixXyCb _ => .refused .barePrefix
  | .repeatedPrefixDd xy => execRepeatedPrefixDd xy s
  | .prefixEdAfterXy _ inner => execEntry inner s
  | .repeatedPrefixFd xy => execRepeatedPrefixFd xy s
  | .popXy xy => execPopXy xy s
  | .exMemSpXy xy => execExMemSpXy xy s
  | .pushXy xy => execPushXy xy s
  | .jpXy xy => execJpXy xy s
  | .ldSpXy xy => execLdSpXy xy s
  | .rlcMemXyd xy d => execRlcMemXyd xy d s
  | .rlcMemXydR xy d r => execRlcMemXydR xy d r s
  | .rrcMemXyd xy d => execRrcMemXyd xy d s
  | .rrcMemXydR xy d r => execRrcMemXydR xy d r s
  | .rlMemXyd xy d => execRlMemXyd xy d s
  | .rlMemXydR xy d r => execRlMemXydR xy d r s
  | .rrMemXyd xy d => execRrMemXyd xy d s
  | .rrMemXydR xy d r => execRrMemXydR xy d r s
  | .slaMemXyd xy d => execSlaMemXyd xy d s
  | .slaMemXydR xy d r => execSlaMemXydR xy d r s
  | .sraMemXyd xy d => execSraMemXyd xy d s
  | .sraMemXydR xy d r => execSraMemXydR xy d r s
  | .sllMemXyd xy d => execSllMemXyd xy d s
  | .sllMemXydR xy d r => execSllMemXydR xy d r s
  | .srlMemXyd xy d => execSrlMemXyd xy d s
  | .srlMemXydR xy d r => execSrlMemXydR xy d r s
  | .bitBMemXyd xy d bit z => execBitBMemXyd xy d bit z s
  | .resBMemXyd xy d bit => execResBMemXyd xy d bit s
  | .resBMemXydR xy d bit r => execResBMemXydR xy d bit r s
  | .setBMemXyd xy d bit => execSetBMemXyd xy d bit s
  | .setBMemXydR xy d bit r => execSetBMemXydR xy d bit r s
  | .asMainSpace _ inner => execEntry inner s

/-- `(as main space)` (30_encoding.md R103 item 5): the main-space entry executes as it stands. -/
def execAsMainSpace (_xy : Index) (inner : Instr) (s : State) : Outcome := execEntry inner s

/-- `prefix ED after XY` (30_encoding.md R105): the index prefix is dropped and the ED-space entry executes. -/
def execPrefixEdAfterXy (_xy : Index) (inner : Instr) (s : State) : Outcome := execEntry inner s

/-- What follows a prefix that has been read (`decode_main`, `decode_xy` of 30_encoding.md R90): the rest of the
instruction is fetched at `PC`, and the entry it selects executes. -/
def State.execAfter (s : State) (supplied : List Byte) : Outcome :=
  let x := s.fetchInstr supplied
  execEntry x.1 x.2

/-- `prefix CB` (30_encoding.md R90): `op2 <- Fetch()`, then the CB-space entry. -/
def execPrefixCb (s : State) : Outcome := s.execAfter [0xCB]

/-- `prefix DD` (30_encoding.md R90): `decode_xy(IX)`. -/
def execPrefixDd (s : State) : Outcome := s.execAfter [0xDD]

/-- `prefix ED` (30_encoding.md R90): `op2 <- Fetch()`, then the ED-space entry. -/
def execPrefixEd (s : State) : Outcome := s.execAfter [0xED]

/-- `prefix FD` (30_encoding.md R90): `decode_xy(IY)`. -/
def execPrefixFd (s : State) : Outcome := s.execAfter [0xFD]

/-- `prefix XY CB` (30_encoding.md R90, R102): `d <- Imm8(); op3 <- Imm8()`, then the XYCB-space entry. -/
def execPrefixXyCb (xy : Index) (s : State) : Outcome := s.execAfter [xy.prefixByte, 0xCB]

end Sys2Proof.Machine
end

