-- ==== Sys2Proof/Machine/Dispatch.lean ====
section
/-! DEFINITION. The meaning of every instruction: one arm a constructor, each one call of the instruction's own
meaning. `exec i s` is what rule R18 of 00_scope.md calls the operation: the bytes of `i` have been read, `PC` is past
them, and `R` and `cycles` have counted them. -/

namespace Sys2Proof.Machine

open Sys2Proof

def exec (i : Instr) (s : State) : Host.Outcome State Fault Refusal :=
  match i with
  | .nop => Sys2Proof.Machine.execNop s
  | .exAfAf => Sys2Proof.Machine.execExAfAf s
  | .djnzE e => Sys2Proof.Machine.execDjnzE e s
  | .jrE e => Sys2Proof.Machine.execJrE e s
  | .jrCcE cc e => Sys2Proof.Machine.execJrCcE cc e s
  | .ldDdNn dd nn => Sys2Proof.Machine.execLdDdNn dd nn s
  | .addHlSs ss => Sys2Proof.Machine.execAddHlSs ss s
  | .ldMemBcA => Sys2Proof.Machine.execLdMemBcA s
  | .ldMemDeA => Sys2Proof.Machine.execLdMemDeA s
  | .ldMemNnHl nn => Sys2Proof.Machine.execLdMemNnHl nn s
  | .ldMemNnA nn => Sys2Proof.Machine.execLdMemNnA nn s
  | .ldAMemBc => Sys2Proof.Machine.execLdAMemBc s
  | .ldAMemDe => Sys2Proof.Machine.execLdAMemDe s
  | .ldHlMemNn nn => Sys2Proof.Machine.execLdHlMemNn nn s
  | .ldAMemNn nn => Sys2Proof.Machine.execLdAMemNn nn s
  | .incSs ss => Sys2Proof.Machine.execIncSs ss s
  | .decSs ss => Sys2Proof.Machine.execDecSs ss s
  | .incR r => Sys2Proof.Machine.execIncR r s
  | .incMemHl => Sys2Proof.Machine.execIncMemHl s
  | .decR r => Sys2Proof.Machine.execDecR r s
  | .decMemHl => Sys2Proof.Machine.execDecMemHl s
  | .ldRN r n => Sys2Proof.Machine.execLdRN r n s
  | .ldMemHlN n => Sys2Proof.Machine.execLdMemHlN n s
  | .rlca => Sys2Proof.Machine.execRlca s
  | .rrca => Sys2Proof.Machine.execRrca s
  | .rla => Sys2Proof.Machine.execRla s
  | .rra => Sys2Proof.Machine.execRra s
  | .daa => Sys2Proof.Machine.execDaa s
  | .cpl => Sys2Proof.Machine.execCpl s
  | .scf => Sys2Proof.Machine.execScf s
  | .ccf => Sys2Proof.Machine.execCcf s
  | .ldRR dst src => Sys2Proof.Machine.execLdRR dst src s
  | .ldRMemHl r => Sys2Proof.Machine.execLdRMemHl r s
  | .ldMemHlR r => Sys2Proof.Machine.execLdMemHlR r s
  | .halt => Sys2Proof.Machine.execHalt s
  | .addAR r => Sys2Proof.Machine.execAddAR r s
  | .addAMemHl => Sys2Proof.Machine.execAddAMemHl s
  | .adcAR r => Sys2Proof.Machine.execAdcAR r s
  | .adcAMemHl => Sys2Proof.Machine.execAdcAMemHl s
  | .subR r => Sys2Proof.Machine.execSubR r s
  | .subMemHl => Sys2Proof.Machine.execSubMemHl s
  | .sbcAR r => Sys2Proof.Machine.execSbcAR r s
  | .sbcAMemHl => Sys2Proof.Machine.execSbcAMemHl s
  | .andR r => Sys2Proof.Machine.execAndR r s
  | .andMemHl => Sys2Proof.Machine.execAndMemHl s
  | .xorR r => Sys2Proof.Machine.execXorR r s
  | .xorMemHl => Sys2Proof.Machine.execXorMemHl s
  | .orR r => Sys2Proof.Machine.execOrR r s
  | .orMemHl => Sys2Proof.Machine.execOrMemHl s
  | .cpR r => Sys2Proof.Machine.execCpR r s
  | .cpMemHl => Sys2Proof.Machine.execCpMemHl s
  | .retCc cc => Sys2Proof.Machine.execRetCc cc s
  | .popQq qq => Sys2Proof.Machine.execPopQq qq s
  | .ret => Sys2Proof.Machine.execRet s
  | .exx => Sys2Proof.Machine.execExx s
  | .jpHl => Sys2Proof.Machine.execJpHl s
  | .ldSpHl => Sys2Proof.Machine.execLdSpHl s
  | .jpCcNn cc nn => Sys2Proof.Machine.execJpCcNn cc nn s
  | .jpNn nn => Sys2Proof.Machine.execJpNn nn s
  | .prefixCb => Sys2Proof.Machine.execPrefixCb s
  | .outNA n => Sys2Proof.Machine.execOutNA n s
  | .inAN n => Sys2Proof.Machine.execInAN n s
  | .exMemSpHl => Sys2Proof.Machine.execExMemSpHl s
  | .exDeHl => Sys2Proof.Machine.execExDeHl s
  | .di => Sys2Proof.Machine.execDi s
  | .ei => Sys2Proof.Machine.execEi s
  | .callCcNn cc nn => Sys2Proof.Machine.execCallCcNn cc nn s
  | .pushQq qq => Sys2Proof.Machine.execPushQq qq s
  | .callNn nn => Sys2Proof.Machine.execCallNn nn s
  | .prefixDd => Sys2Proof.Machine.execPrefixDd s
  | .prefixEd => Sys2Proof.Machine.execPrefixEd s
  | .prefixFd => Sys2Proof.Machine.execPrefixFd s
  | .addAN n => Sys2Proof.Machine.execAddAN n s
  | .adcAN n => Sys2Proof.Machine.execAdcAN n s
  | .subN n => Sys2Proof.Machine.execSubN n s
  | .sbcAN n => Sys2Proof.Machine.execSbcAN n s
  | .andN n => Sys2Proof.Machine.execAndN n s
  | .xorN n => Sys2Proof.Machine.execXorN n s
  | .orN n => Sys2Proof.Machine.execOrN n s
  | .cpN n => Sys2Proof.Machine.execCpN n s
  | .rstP p => Sys2Proof.Machine.execRstP p s
  | .rlcR r => Sys2Proof.Machine.execRlcR r s
  | .rlcMemHl => Sys2Proof.Machine.execRlcMemHl s
  | .rrcR r => Sys2Proof.Machine.execRrcR r s
  | .rrcMemHl => Sys2Proof.Machine.execRrcMemHl s
  | .rlR r => Sys2Proof.Machine.execRlR r s
  | .rlMemHl => Sys2Proof.Machine.execRlMemHl s
  | .rrR r => Sys2Proof.Machine.execRrR r s
  | .rrMemHl => Sys2Proof.Machine.execRrMemHl s
  | .slaR r => Sys2Proof.Machine.execSlaR r s
  | .slaMemHl => Sys2Proof.Machine.execSlaMemHl s
  | .sraR r => Sys2Proof.Machine.execSraR r s
  | .sraMemHl => Sys2Proof.Machine.execSraMemHl s
  | .sllR r => Sys2Proof.Machine.execSllR r s
  | .sllMemHl => Sys2Proof.Machine.execSllMemHl s
  | .srlR r => Sys2Proof.Machine.execSrlR r s
  | .srlMemHl => Sys2Proof.Machine.execSrlMemHl s
  | .bitBR bit r => Sys2Proof.Machine.execBitBR bit r s
  | .bitBMemHl bit => Sys2Proof.Machine.execBitBMemHl bit s
  | .resBR bit r => Sys2Proof.Machine.execResBR bit r s
  | .resBMemHl bit => Sys2Proof.Machine.execResBMemHl bit s
  | .setBR bit r => Sys2Proof.Machine.execSetBR bit r s
  | .setBMemHl bit => Sys2Proof.Machine.execSetBMemHl bit s
  | .edNop0 yz => Sys2Proof.Machine.execEdNop0 yz s
  | .inRC r => Sys2Proof.Machine.execInRC r s
  | .inFC => Sys2Proof.Machine.execInFC s
  | .outCR r => Sys2Proof.Machine.execOutCR r s
  | .outC0 => Sys2Proof.Machine.execOutC0 s
  | .sbcHlSs ss => Sys2Proof.Machine.execSbcHlSs ss s
  | .adcHlSs ss => Sys2Proof.Machine.execAdcHlSs ss s
  | .ldMemNnDd nn dd => Sys2Proof.Machine.execLdMemNnDd nn dd s
  | .ldDdMemNn dd nn => Sys2Proof.Machine.execLdDdMemNn dd nn s
  | .neg y => Sys2Proof.Machine.execNeg y s
  | .retn y => Sys2Proof.Machine.execRetn y s
  | .reti => Sys2Proof.Machine.execReti s
  | .imN y => Sys2Proof.Machine.execImN y s
  | .ldIA => Sys2Proof.Machine.execLdIA s
  | .ldRfA => Sys2Proof.Machine.execLdRfA s
  | .ldAI => Sys2Proof.Machine.execLdAI s
  | .ldARf => Sys2Proof.Machine.execLdARf s
  | .rrd => Sys2Proof.Machine.execRrd s
  | .rld => Sys2Proof.Machine.execRld s
  | .edNop7 q => Sys2Proof.Machine.execEdNop7 q s
  | .edNop8 yz => Sys2Proof.Machine.execEdNop8 yz s
  | .ldi => Sys2Proof.Machine.execLdi s
  | .cpi => Sys2Proof.Machine.execCpi s
  | .ini => Sys2Proof.Machine.execIni s
  | .outi => Sys2Proof.Machine.execOuti s
  | .ldd => Sys2Proof.Machine.execLdd s
  | .cpd => Sys2Proof.Machine.execCpd s
  | .ind => Sys2Proof.Machine.execInd s
  | .outd => Sys2Proof.Machine.execOutd s
  | .ldir => Sys2Proof.Machine.execLdir s
  | .cpir => Sys2Proof.Machine.execCpir s
  | .inir => Sys2Proof.Machine.execInir s
  | .otir => Sys2Proof.Machine.execOtir s
  | .lddr => Sys2Proof.Machine.execLddr s
  | .cpdr => Sys2Proof.Machine.execCpdr s
  | .indr => Sys2Proof.Machine.execIndr s
  | .otdr => Sys2Proof.Machine.execOtdr s
  | .edNopA y z => Sys2Proof.Machine.execEdNopA y z s
  | .edNopC yz => Sys2Proof.Machine.execEdNopC yz s
  | .addXyPp xy pp => Sys2Proof.Machine.execAddXyPp xy pp s
  | .ldXyNn xy nn => Sys2Proof.Machine.execLdXyNn xy nn s
  | .ldMemNnXy xy nn => Sys2Proof.Machine.execLdMemNnXy xy nn s
  | .incXy xy => Sys2Proof.Machine.execIncXy xy s
  | .incP xy p => Sys2Proof.Machine.execIncP xy p s
  | .decP xy p => Sys2Proof.Machine.execDecP xy p s
  | .ldPN xy p n => Sys2Proof.Machine.execLdPN xy p n s
  | .ldXyMemNn xy nn => Sys2Proof.Machine.execLdXyMemNn xy nn s
  | .decXy xy => Sys2Proof.Machine.execDecXy xy s
  | .incMemXyd xy d => Sys2Proof.Machine.execIncMemXyd xy d s
  | .decMemXyd xy d => Sys2Proof.Machine.execDecMemXyd xy d s
  | .ldMemXydN xy d n => Sys2Proof.Machine.execLdMemXydN xy d n s
  | .ldRMemXyd xy r d => Sys2Proof.Machine.execLdRMemXyd xy r d s
  | .ldMemXydR xy d r => Sys2Proof.Machine.execLdMemXydR xy d r s
  | .ldPP xy dst src => Sys2Proof.Machine.execLdPP xy dst src s
  | .addAP xy p => Sys2Proof.Machine.execAddAP xy p s
  | .addAMemXyd xy d => Sys2Proof.Machine.execAddAMemXyd xy d s
  | .adcAP xy p => Sys2Proof.Machine.execAdcAP xy p s
  | .adcAMemXyd xy d => Sys2Proof.Machine.execAdcAMemXyd xy d s
  | .subP xy p => Sys2Proof.Machine.execSubP xy p s
  | .subMemXyd xy d => Sys2Proof.Machine.execSubMemXyd xy d s
  | .sbcAP xy p => Sys2Proof.Machine.execSbcAP xy p s
  | .sbcAMemXyd xy d => Sys2Proof.Machine.execSbcAMemXyd xy d s
  | .andP xy p => Sys2Proof.Machine.execAndP xy p s
  | .andMemXyd xy d => Sys2Proof.Machine.execAndMemXyd xy d s
  | .xorP xy p => Sys2Proof.Machine.execXorP xy p s
  | .xorMemXyd xy d => Sys2Proof.Machine.execXorMemXyd xy d s
  | .orP xy p => Sys2Proof.Machine.execOrP xy p s
  | .orMemXyd xy d => Sys2Proof.Machine.execOrMemXyd xy d s
  | .cpP xy p => Sys2Proof.Machine.execCpP xy p s
  | .cpMemXyd xy d => Sys2Proof.Machine.execCpMemXyd xy d s
  | .prefixXyCb xy => Sys2Proof.Machine.execPrefixXyCb xy s
  | .repeatedPrefixDd xy => Sys2Proof.Machine.execRepeatedPrefixDd xy s
  | .prefixEdAfterXy xy inner => Sys2Proof.Machine.execPrefixEdAfterXy xy inner s
  | .repeatedPrefixFd xy => Sys2Proof.Machine.execRepeatedPrefixFd xy s
  | .popXy xy => Sys2Proof.Machine.execPopXy xy s
  | .exMemSpXy xy => Sys2Proof.Machine.execExMemSpXy xy s
  | .pushXy xy => Sys2Proof.Machine.execPushXy xy s
  | .jpXy xy => Sys2Proof.Machine.execJpXy xy s
  | .ldSpXy xy => Sys2Proof.Machine.execLdSpXy xy s
  | .rlcMemXyd xy d => Sys2Proof.Machine.execRlcMemXyd xy d s
  | .rlcMemXydR xy d r => Sys2Proof.Machine.execRlcMemXydR xy d r s
  | .rrcMemXyd xy d => Sys2Proof.Machine.execRrcMemXyd xy d s
  | .rrcMemXydR xy d r => Sys2Proof.Machine.execRrcMemXydR xy d r s
  | .rlMemXyd xy d => Sys2Proof.Machine.execRlMemXyd xy d s
  | .rlMemXydR xy d r => Sys2Proof.Machine.execRlMemXydR xy d r s
  | .rrMemXyd xy d => Sys2Proof.Machine.execRrMemXyd xy d s
  | .rrMemXydR xy d r => Sys2Proof.Machine.execRrMemXydR xy d r s
  | .slaMemXyd xy d => Sys2Proof.Machine.execSlaMemXyd xy d s
  | .slaMemXydR xy d r => Sys2Proof.Machine.execSlaMemXydR xy d r s
  | .sraMemXyd xy d => Sys2Proof.Machine.execSraMemXyd xy d s
  | .sraMemXydR xy d r => Sys2Proof.Machine.execSraMemXydR xy d r s
  | .sllMemXyd xy d => Sys2Proof.Machine.execSllMemXyd xy d s
  | .sllMemXydR xy d r => Sys2Proof.Machine.execSllMemXydR xy d r s
  | .srlMemXyd xy d => Sys2Proof.Machine.execSrlMemXyd xy d s
  | .srlMemXydR xy d r => Sys2Proof.Machine.execSrlMemXydR xy d r s
  | .bitBMemXyd xy d bit z => Sys2Proof.Machine.execBitBMemXyd xy d bit z s
  | .resBMemXyd xy d bit => Sys2Proof.Machine.execResBMemXyd xy d bit s
  | .resBMemXydR xy d bit r => Sys2Proof.Machine.execResBMemXydR xy d bit r s
  | .setBMemXyd xy d bit => Sys2Proof.Machine.execSetBMemXyd xy d bit s
  | .setBMemXydR xy d bit r => Sys2Proof.Machine.execSetBMemXydR xy d bit r s
  | .asMainSpace xy inner => Sys2Proof.Machine.execAsMainSpace xy inner s

end Sys2Proof.Machine
end

