-- ==== Sys2Proof/Machine/Step.lean ====
section
/-! DEFINITION. One step of the machine: `runUntil(cycles + 1)`, which "executes exactly one step or one acceptance"
(60_exceptions.md R453), or passes one cycle of the halted idle (R443). -/

namespace Sys2Proof.Machine

open Sys2Proof

def step (s : State) : Host.Outcome State Fault Refusal :=
  match s.plan (s.cycles + 1) with
  | .accepted t => .next t
  | .injected i t => exec i t
  | .idle t => .next t
  | .instr i t => exec i t

/-- The table word `w` stored where `step` fetches its next instruction. -/
def State.withFetchWord (s : State) (nbits w : Nat) : State := s.placeAtPc (tableBytes (nbits / 8) w)

end Sys2Proof.Machine
end

