-- ==== Sys2Proof/Machine/HostOps.lean ====
section
/-! DEFINITION. The host operations of 60_exceptions.md R455 beside `runUntil`: what the outside world can do to the
core between two steps. DESIGN CHOICE, log 3: a host operation comes before every change of the interrupt inputs that no
boundary check has sampled yet, that is, before every entry left in `lineScript`. -/

namespace Sys2Proof.Machine

open Sys2Proof

/-- `create(config, adapter)` (60_exceptions.md R455): refused, as `none`, when a cost is 0 (00_scope.md R4, 60 R411). -/
def State.create (cfg : CoreConfig) (adapter : Adapter) : Option State :=
  if cfg.valid then some (.created cfg adapter) else none

/-- `reset(T0)` (70_reset_and_hazards.md R470): every item of the core's state but `INT_LINE`, and nothing else.
DESIGN CHOICE, log 3: an entry of `lineScript` not yet sampled stays, and a non-maskable request in it counts as signalled
since the reset (R471), not as the pending one that the reset discards. -/
def State.resetCore (s : State) (t0 : Nat) : State := { s with toCoreState := .atReset t0 s.intLine }

/-- `signalNMI()` (60_exceptions.md R413), before the entries left in `lineScript` (DESIGN CHOICE, log 3). -/
def State.signalNmi (s : State) : State := { s with nmiPending := true }

/-- `setINT(level)` (60_exceptions.md R413). DESIGN CHOICE, log 3: a level in an entry of `lineScript` not yet sampled comes
after this one. -/
def State.setInt (s : State) (level : Bool) : State := { s with intLine := level }

/-- `saveState()` (60_exceptions.md R456): every item of 10_state.md R20, and nothing of the adapter. Log 8.
DESIGN CHOICE, log 3: without the entries of `lineScript` not yet sampled. -/
def State.save (s : State) : CoreState := s.toCoreState

/-- `restoreState(snapshot)` (60_exceptions.md R456): the whole core state at once.
DESIGN CHOICE, log 3: an entry of `lineScript` not yet sampled stays, and counts as a change after the restore. -/
def State.restore (s : State) (snapshot : CoreState) : State := { s with toCoreState := snapshot }

end Sys2Proof.Machine
end

