-- ==== Sys2Proof/Machine/Scheduler.lean ====
section
/-! DEFINITION. `runUntil` (60_exceptions.md R440 to R445): steps of the dispatcher, each behind a boundary check,
until the cycle counter reaches the target, the machine halts, or an interrupt is accepted. -/

namespace Sys2Proof.Machine

open Sys2Proof

/-- At most `passes` passes of the loop of 60_exceptions.md R440. -/
def State.runLoop (s : State) (passes target : Nat) : Outcome :=
  match passes with
  | 0 => .next s
  | k + 1 =>
    if s.cycles < target then
      match s.plan target with
      | .accepted t => .next t
      | .injected i t => exec i t
      | .idle t => .next t
      | .instr i t =>
        match exec i t with
        | .next u => if u.halt then .next u else u.runLoop k target
        | other => other
    else .next s

/-- `runUntil(target)` (60_exceptions.md R440). Every pass of the loop adds at least one cycle or returns (R442), so
`target - cycles` passes are enough; without one cycle to go the call does nothing (R445). By how much a call can overshoot
(R441): `State.runUntil_overshoot` of Laws/Cost.lean, and log 14. -/
def State.runUntil (s : State) (target : Nat) : Outcome := s.runLoop (target - s.cycles) target

end Sys2Proof.Machine
end

