-- ==== Sys2Proof/Safety.lean ====
section
/-! DEFINITION. What counts as a safe run, and the terms the statements are made in: the invariant of the machine, the
fields of an encoding as the spec writes them, what a rule of an instruction says, and the conversation between the
core and its adapter. Nothing here is used by the machine itself. -/

namespace Sys2Proof.Machine

open Sys2Proof

/-! ### Safe runs -/

/-- A run is safe as long as every step answers a next state; by 00_scope.md R15 and R17 every run is. -/
def Outcome.isNext : Outcome → Bool
  | .next _ => true
  | _ => false

/-- What holds of every state a run goes through: memory is in canonical form; the costs are positive (00_scope.md R4);
`IFF1` is never set without `IFF2` (10_state.md R34); a pending prefix comes with `INHIBIT` (30_encoding.md R104); and
`INHIBIT` never meets `HALT` (60_exceptions.md R443). -/
def State.Inv (s : State) : Prop :=
  s.mem.wf = true ∧ s.cfg.valid = true ∧ (s.iff1 = true → s.iff2 = true) ∧
    (s.pfx ≠ none → s.inhibit = true) ∧ ¬(s.inhibit = true ∧ s.halt = true)

end Sys2Proof.Machine

namespace Sys2Proof

/-! ### Encodings as the spec writes them (30_encoding.md R92 to R94) -/

/-- An opcode byte from its fields `x`, `y`, `z`. -/
def fieldsByte (x : BitVec 2) (y z : BitVec 3) : Byte := x ++ y ++ z

/-- The field `y` made of `p` and `q`. -/
def fieldY (p : BitVec 2) (q : BitVec 1) : BitVec 3 := p ++ q

/-- The index of a register in `r8` (R93). -/
def Reg8.field : Reg8 → BitVec 3
  | .b => 0
  | .c => 1
  | .d => 2
  | .e => 3
  | .h => 4
  | .l => 5
  | .a => 7

/-- The index of a half in the substituted table of R103 item 3. -/
def Half.field : Half → BitVec 3
  | .high => 4
  | .low => 5

/-- The index of a register in `x8` (40_load8.md R148). -/
def XReg8.field : XReg8 → BitVec 3
  | .b => 0
  | .c => 1
  | .d => 2
  | .e => 3
  | .half p => p.field
  | .a => 7

/-- The index of a pair in `rp` (R93). -/
def Pair.field : Pair → BitVec 2
  | .bc => 0
  | .de => 1
  | .hl => 2
  | .sp => 3

/-- The index of the source of `ADD XY,pp` (45_alu16.md R284). -/
def XPair.field : XPair → BitVec 2
  | .bc => 0
  | .de => 1
  | .xy => 2
  | .sp => 3

/-- The index of a pair in `rp2` (R93). -/
def StackPair.field : StackPair → BitVec 2
  | .bc => 0
  | .de => 1
  | .hl => 2
  | .af => 3

/-- The index of a condition in `cc` (R93). -/
def Cond.field : Cond → BitVec 3
  | .nz => 0
  | .z => 1
  | .nc => 2
  | .c => 3
  | .po => 4
  | .pe => 5
  | .p => 6
  | .m => 7

/-- The index of an operation in `alu` (R93). -/
def AluOp.field : AluOp → BitVec 3
  | .add => 0
  | .adc => 1
  | .sub => 2
  | .sbc => 3
  | .and => 4
  | .xor => 5
  | .or => 6
  | .cp => 7

/-- The index of an operation in `rot` (R93). -/
def RotOp.field : RotOp → BitVec 3
  | .rlc => 0
  | .rrc => 1
  | .rl => 2
  | .rr => 3
  | .sla => 4
  | .sra => 5
  | .sll => 6
  | .srl => 7

/-! ### Families of instructions that one rule covers -/

/-- `alu[y]` with each of its five sources (43_alu8.md R230 to R234). -/
def aluForm : AluOp → Src8 → Instr
  | .add, .reg r => .addAR r
  | .add, .imm n => .addAN n
  | .add, .memHl => .addAMemHl
  | .add, .memIdx xy d => .addAMemXyd xy d
  | .add, .half xy p => .addAP xy p
  | .adc, .reg r => .adcAR r
  | .adc, .imm n => .adcAN n
  | .adc, .memHl => .adcAMemHl
  | .adc, .memIdx xy d => .adcAMemXyd xy d
  | .adc, .half xy p => .adcAP xy p
  | .sub, .reg r => .subR r
  | .sub, .imm n => .subN n
  | .sub, .memHl => .subMemHl
  | .sub, .memIdx xy d => .subMemXyd xy d
  | .sub, .half xy p => .subP xy p
  | .sbc, .reg r => .sbcAR r
  | .sbc, .imm n => .sbcAN n
  | .sbc, .memHl => .sbcAMemHl
  | .sbc, .memIdx xy d => .sbcAMemXyd xy d
  | .sbc, .half xy p => .sbcAP xy p
  | .and, .reg r => .andR r
  | .and, .imm n => .andN n
  | .and, .memHl => .andMemHl
  | .and, .memIdx xy d => .andMemXyd xy d
  | .and, .half xy p => .andP xy p
  | .xor, .reg r => .xorR r
  | .xor, .imm n => .xorN n
  | .xor, .memHl => .xorMemHl
  | .xor, .memIdx xy d => .xorMemXyd xy d
  | .xor, .half xy p => .xorP xy p
  | .or, .reg r => .orR r
  | .or, .imm n => .orN n
  | .or, .memHl => .orMemHl
  | .or, .memIdx xy d => .orMemXyd xy d
  | .or, .half xy p => .orP xy p
  | .cp, .reg r => .cpR r
  | .cp, .imm n => .cpN n
  | .cp, .memHl => .cpMemHl
  | .cp, .memIdx xy d => .cpMemXyd xy d
  | .cp, .half xy p => .cpP xy p

/-- `rot[y] r` (46_rotate_shift.md R312). -/
def rotRegForm : RotOp → Reg8 → Instr
  | .rlc, r => .rlcR r
  | .rrc, r => .rrcR r
  | .rl, r => .rlR r
  | .rr, r => .rrR r
  | .sla, r => .slaR r
  | .sra, r => .sraR r
  | .sll, r => .sllR r
  | .srl, r => .srlR r

/-- `rot[y] (HL)` (46_rotate_shift.md R313). -/
def rotHlForm : RotOp → Instr
  | .rlc => .rlcMemHl
  | .rrc => .rrcMemHl
  | .rl => .rlMemHl
  | .rr => .rrMemHl
  | .sla => .slaMemHl
  | .sra => .sraMemHl
  | .sll => .sllMemHl
  | .srl => .srlMemHl

/-- `rot[y] (XY+d)` (46_rotate_shift.md R314). -/
def rotIdxForm : RotOp → Index → Byte → Instr
  | .rlc, xy, d => .rlcMemXyd xy d
  | .rrc, xy, d => .rrcMemXyd xy d
  | .rl, xy, d => .rlMemXyd xy d
  | .rr, xy, d => .rrMemXyd xy d
  | .sla, xy, d => .slaMemXyd xy d
  | .sra, xy, d => .sraMemXyd xy d
  | .sll, xy, d => .sllMemXyd xy d
  | .srl, xy, d => .srlMemXyd xy d

/-- `rot[y] (XY+d),r` (46_rotate_shift.md R315). -/
def rotCopyForm : RotOp → Index → Byte → Reg8 → Instr
  | .rlc, xy, d, r => .rlcMemXydR xy d r
  | .rrc, xy, d, r => .rrcMemXydR xy d r
  | .rl, xy, d, r => .rlMemXydR xy d r
  | .rr, xy, d, r => .rrMemXydR xy d r
  | .sla, xy, d, r => .slaMemXydR xy d r
  | .sra, xy, d, r => .sraMemXydR xy d r
  | .sll, xy, d, r => .sllMemXydR xy d r
  | .srl, xy, d, r => .srlMemXydR xy d r

/-- The instruction a wrapped entry executes in the end: an index prefix in front is taken off (30_encoding.md R103
item 5, R105). -/
def Instr.entry : Instr → Instr
  | .asMainSpace _ inner => inner.entry
  | .prefixEdAfterXy _ inner => inner.entry
  | i => i

/-- `RES b` (`set` false) and `SET b` (`set` true) on a register (47_bit.md R334). -/
def bitRegForm (set : Bool) (b : BitVec 3) (r : Reg8) : Instr := if set then .setBR b r else .resBR b r

/-- `RES b,(HL)` and `SET b,(HL)` (47_bit.md R335). -/
def bitHlForm (set : Bool) (b : BitVec 3) : Instr := if set then .setBMemHl b else .resBMemHl b

/-- `RES b,(XY+d)` and `SET b,(XY+d)` (47_bit.md R336, R337). -/
def bitIdxForm (set : Bool) (b : BitVec 3) (xy : Index) (d : Byte) : Instr :=
  if set then .setBMemXyd xy d b else .resBMemXyd xy d b

/-- `RES b,(XY+d),r` and `SET b,(XY+d),r` (47_bit.md R338, R339). -/
def bitCopyForm (set : Bool) (b : BitVec 3) (xy : Index) (d : Byte) (r : Reg8) : Instr :=
  if set then .setBMemXydR xy d b r else .resBMemXydR xy d b r

/-- `LDI`, `LDD`, `LDIR`, `LDDR`: upwards or downwards, once or repeating (42_exchange_block.md R195 to R198). -/
def blockLoadForm : (up rep : Bool) → Instr
  | true, false => .ldi
  | false, false => .ldd
  | true, true => .ldir
  | false, true => .lddr

/-- `CPI`, `CPD`, `CPIR`, `CPDR` (42_exchange_block.md R199 to R202). -/
def blockCompareForm : (up rep : Bool) → Instr
  | true, false => .cpi
  | false, false => .cpd
  | true, true => .cpir
  | false, true => .cpdr

/-- `INI`, `IND`, `INIR`, `INDR` (49_io.md R384 to R387). -/
def blockInForm : (up rep : Bool) → Instr
  | true, false => .ini
  | false, false => .ind
  | true, true => .inir
  | false, true => .indr

/-- `OUTI`, `OUTD`, `OTIR`, `OTDR` (49_io.md R391 to R394). -/
def blockOutForm : (up rep : Bool) → Instr
  | true, false => .outi
  | false, false => .outd
  | true, true => .otir
  | false, true => .otdr

/-- The opcode byte of a block instruction: `A0`, `A8`, `B0`, `B8` and the three columns after each. -/
def blockByte (up rep : Bool) (column : BitVec 3) : Byte :=
  match up, rep with
  | true, false => fieldsByte 0b10 0b100 column
  | false, false => fieldsByte 0b10 0b101 column
  | true, true => fieldsByte 0b10 0b110 column
  | false, true => fieldsByte 0b10 0b111 column

/-- The instructions that do not write `F`: the list that ends 10_state.md R26, with `OUT (C),0` (49_io.md R390),
`NOP*` (44_general_cpu.md R272) and a repeated prefix (30_encoding.md R104). -/
def Instr.keepsFlags (i : Instr) : Bool :=
  match i.entry with
  | .ldRR _ _ | .ldRN _ _ | .ldRMemHl _ | .ldRMemXyd _ _ _ | .ldMemHlR _ | .ldMemXydR _ _ _ | .ldMemHlN _
  | .ldMemXydN _ _ _ | .ldAMemBc | .ldAMemDe | .ldAMemNn _ | .ldMemBcA | .ldMemDeA | .ldMemNnA _ | .ldIA | .ldRfA
  | .ldPP _ _ _ | .ldPN _ _ _ | .ldDdNn _ _ | .ldXyNn _ _ | .ldHlMemNn _ | .ldDdMemNn _ _ | .ldXyMemNn _ _
  | .ldMemNnHl _ | .ldMemNnDd _ _ | .ldMemNnXy _ _ | .ldSpHl | .ldSpXy _ => true
  | .pushQq _ | .pushXy _ | .popXy _ => true
  | .popQq qq => qq != .af
  | .exDeHl | .exx | .exMemSpHl | .exMemSpXy _ => true
  | .incSs _ | .decSs _ | .incXy _ | .decXy _ => true
  | .resBR _ _ | .resBMemHl _ | .resBMemXyd _ _ _ | .resBMemXydR _ _ _ _
  | .setBR _ _ | .setBMemHl _ | .setBMemXyd _ _ _ | .setBMemXydR _ _ _ _ => true
  | .jpNn _ | .jpCcNn _ _ | .jrE _ | .jrCcE _ _ | .jpHl | .jpXy _ | .djnzE _ | .callNn _ | .callCcNn _ _ | .rstP _
  | .ret | .retCc _ | .reti | .retn _ => true
  | .nop | .halt | .di | .ei | .imN _ => true
  | .inAN _ | .outNA _ | .outCR _ | .outC0 => true
  | .edNop0 _ | .edNop7 _ | .edNop8 _ | .edNopA _ _ | .edNopC _ | .repeatedPrefixDd _ | .repeatedPrefixFd _ => true
  | _ => false

/-- The instructions that write `WZ`: the list of 10_state.md R28, those that write it only when they jump or repeat
among them. -/
def Instr.writesWz (i : Instr) : Bool :=
  match i.entry with
  | .ldAMemBc | .ldAMemDe | .ldAMemNn _ | .ldMemBcA | .ldMemDeA | .ldMemNnA _ => true
  | .ldHlMemNn _ | .ldDdMemNn _ _ | .ldXyMemNn _ _ | .ldMemNnHl _ | .ldMemNnDd _ _ | .ldMemNnXy _ _ => true
  | .exMemSpHl | .exMemSpXy _ => true
  | .addHlSs _ | .addXyPp _ _ | .adcHlSs _ | .sbcHlSs _ => true
  | .rld | .rrd => true
  | .jrE _ | .jrCcE _ _ | .djnzE _ | .jpNn _ | .jpCcNn _ _ | .callNn _ | .callCcNn _ _ | .ret | .retCc _ | .reti
  | .retn _ | .rstP _ => true
  | .ldRMemXyd _ _ _ | .ldMemXydR _ _ _ | .ldMemXydN _ _ _ | .incMemXyd _ _ | .decMemXyd _ _ | .addAMemXyd _ _
  | .adcAMemXyd _ _ | .subMemXyd _ _ | .sbcAMemXyd _ _ | .andMemXyd _ _ | .xorMemXyd _ _ | .orMemXyd _ _
  | .cpMemXyd _ _ => true
  | .rlcMemXyd _ _ | .rlcMemXydR _ _ _ | .rrcMemXyd _ _ | .rrcMemXydR _ _ _ | .rlMemXyd _ _ | .rlMemXydR _ _ _
  | .rrMemXyd _ _ | .rrMemXydR _ _ _ | .slaMemXyd _ _ | .slaMemXydR _ _ _ | .sraMemXyd _ _ | .sraMemXydR _ _ _
  | .sllMemXyd _ _ | .sllMemXydR _ _ _ | .srlMemXyd _ _ | .srlMemXydR _ _ _ | .bitBMemXyd _ _ _ _
  | .resBMemXyd _ _ _ | .resBMemXydR _ _ _ _ | .setBMemXyd _ _ _ | .setBMemXydR _ _ _ _ => true
  | .cpi | .cpd | .cpir | .cpdr | .ldir | .lddr => true
  | .inAN _ | .outNA _ | .inRC _ | .inFC | .outCR _ | .outC0 => true
  | .ini | .ind | .inir | .indr | .outi | .outd | .otir | .otdr => true
  | _ => false

end Sys2Proof

namespace Sys2Proof.Machine

open Sys2Proof

/-! ### The flag byte, bit by bit -/

/-- All eight flags of a flag byte (10_state.md R25). -/
def HasFlags (f : Byte) (s z y h x pv n c : Bool) : Prop :=
  f.getLsbD 7 = s ∧ f.getLsbD 6 = z ∧ f.getLsbD 5 = y ∧ f.getLsbD 4 = h ∧
    f.getLsbD 3 = x ∧ f.getLsbD 2 = pv ∧ f.getLsbD 1 = n ∧ f.getLsbD 0 = c

/-- The number of 1 bits of a byte. -/
def onesOf (v : Byte) : Nat := ((List.range 8).filter (fun k => v.getLsbD k)).length

/-- `par(v)` of 00_scope.md R16. -/
def hasEvenOnes (v : Byte) : Bool := decide (onesOf v % 2 = 0)

/-! ### Results, as the spec describes them -/

/-- An 8-bit addition of `a`, `v` and the carry `cin` gives `res` and the flag byte `f` (43_alu8.md R220): `C` when the
sum exceeds 255, `H` when the low halves carry into bit 4, `PV` when equal signs give the other one. -/
def AddResult (a v : Byte) (cin : Bool) (res f : Byte) : Prop :=
  res.toNat = (a.toNat + v.toNat + cin.toNat) % 256 ∧
  HasFlags f (res.getLsbD 7) (res == 0) (res.getLsbD 5)
    (decide (15 < a.toNat % 16 + v.toNat % 16 + cin.toNat)) (res.getLsbD 3)
    (a.getLsbD 7 == v.getLsbD 7 && res.getLsbD 7 != a.getLsbD 7) false
    (decide (255 < a.toNat + v.toNat + cin.toNat))

/-- An 8-bit subtraction (43_alu8.md R222): `C` when there is a borrow, `H` when bit 4 is borrowed from, `PV` when
different signs give a result whose sign is not that of `a`. -/
def SubResult (a v : Byte) (cin : Bool) (res f : Byte) : Prop :=
  (res.toNat + v.toNat + cin.toNat) % 256 = a.toNat ∧
  HasFlags f (res.getLsbD 7) (res == 0) (res.getLsbD 5)
    (decide (a.toNat % 16 < v.toNat % 16 + cin.toNat)) (res.getLsbD 3)
    (a.getLsbD 7 != v.getLsbD 7 && res.getLsbD 7 != a.getLsbD 7) true
    (decide (a.toNat < v.toNat + cin.toNat))

/-- A logical operation with result `res` (43_alu8.md R224 to R226): `PV` is parity, `N` and `C` are 0. -/
def LogicFlags (res : Byte) (h : Bool) (f : Byte) : Prop :=
  HasFlags f (res.getLsbD 7) (res == 0) (res.getLsbD 5) h (res.getLsbD 3) (hasEvenOnes res) false false

/-- `alu[y]` on the accumulator `a`, the flag byte `f` and the operand `v` gives the accumulator `a'` and the flag byte
`f'` (43_alu8.md R220 to R227). -/
def AluResult (op : AluOp) (a f v a' f' : Byte) : Prop :=
  match op with
  | .add => AddResult a v false a' f'
  | .adc => AddResult a v (f.getLsbD 0) a' f'
  | .sub => SubResult a v false a' f'
  | .sbc => SubResult a v (f.getLsbD 0) a' f'
  | .and => a' = a &&& v ∧ LogicFlags a' true f'
  | .xor => a' = a ^^^ v ∧ LogicFlags a' false f'
  | .or => a' = a ||| v ∧ LogicFlags a' false f'
  | .cp => a' = a ∧ ∃ res g, SubResult a v false res g ∧
      HasFlags f' (g.getLsbD 7) (g.getLsbD 6) (v.getLsbD 5) (g.getLsbD 4) (v.getLsbD 3) (g.getLsbD 2) (g.getLsbD 1)
        (g.getLsbD 0)

/-- `inc8` of `v` gives `res` and, from the flag byte `f`, the flag byte `f'` (43_alu8.md R239). -/
def IncResult (f v res f' : Byte) : Prop :=
  res.toNat = (v.toNat + 1) % 256 ∧
  HasFlags f' (res.getLsbD 7) (res == 0) (res.getLsbD 5) (decide (v.toNat % 16 = 15)) (res.getLsbD 3)
    (decide (v.toNat = 127)) false (f.getLsbD 0)

/-- `dec8` (43_alu8.md R240). -/
def DecResult (f v res f' : Byte) : Prop :=
  (res.toNat + 1) % 256 = v.toNat ∧
  HasFlags f' (res.getLsbD 7) (res == 0) (res.getLsbD 5) (decide (v.toNat % 16 = 0)) (res.getLsbD 3)
    (decide (v.toNat = 128)) true (f.getLsbD 0)

/-- A 16-bit addition with carry `cin` gives `res` and `f'` (45_alu16.md R281). -/
def Adc16Result (a v : Word) (cin : Bool) (res : Word) (f' : Byte) : Prop :=
  res.toNat = (a.toNat + v.toNat + cin.toNat) % 65536 ∧
  HasFlags f' (res.getLsbD 15) (res == 0) (res.getLsbD 13)
    (decide (4095 < a.toNat % 4096 + v.toNat % 4096 + cin.toNat)) (res.getLsbD 11)
    (a.getLsbD 15 == v.getLsbD 15 && res.getLsbD 15 != a.getLsbD 15) false
    (decide (65535 < a.toNat + v.toNat + cin.toNat))

/-- A 16-bit addition without carry, from the flag byte `f` (45_alu16.md R280): `S`, `Z`, `PV` keep their value. -/
def Add16Result (f : Byte) (a v res : Word) (f' : Byte) : Prop :=
  res.toNat = (a.toNat + v.toNat) % 65536 ∧
  HasFlags f' (f.getLsbD 7) (f.getLsbD 6) (res.getLsbD 13) (decide (4095 < a.toNat % 4096 + v.toNat % 4096))
    (res.getLsbD 11) (f.getLsbD 2) false (decide (65535 < a.toNat + v.toNat))

/-- A 16-bit subtraction with borrow `cin` (45_alu16.md R282). -/
def Sbc16Result (a v : Word) (cin : Bool) (res : Word) (f' : Byte) : Prop :=
  (res.toNat + v.toNat + cin.toNat) % 65536 = a.toNat ∧
  HasFlags f' (res.getLsbD 15) (res == 0) (res.getLsbD 13)
    (decide (a.toNat % 4096 < v.toNat % 4096 + cin.toNat)) (res.getLsbD 11)
    (a.getLsbD 15 != v.getLsbD 15 && res.getLsbD 15 != a.getLsbD 15) true
    (decide (a.toNat < v.toNat + cin.toNat))

/-- The bit a rotate or shift moves out (46_rotate_shift.md R304 to R311). -/
def carriedOut (op : RotOp) (v : Byte) : Bool :=
  match op with
  | .rlc | .rl | .sla | .sll => v.getLsbD 7
  | .rrc | .rr | .sra | .srl => v.getLsbD 0

/-- `v` rotated or shifted by one place, `c` being the old carry (46_rotate_shift.md R304 to R311). -/
def rotated (op : RotOp) (v : Byte) (c : Bool) : Byte :=
  match op with
  | .rlc => v.rotateLeft 1
  | .rrc => v.rotateRight 1
  | .rl => (v ++ BitVec.ofBool c).extractLsb' 0 8
  | .rr => (BitVec.ofBool c ++ v).extractLsb' 1 8
  | .sla => (v ++ 0#1).extractLsb' 0 8
  | .sra => v.sshiftRight 1
  | .sll => (v ++ 1#1).extractLsb' 0 8
  | .srl => (0#1 ++ v).extractLsb' 1 8

/-- The flags of a CB-space rotate or shift of `v` with the old carry `c` (46_rotate_shift.md section 2). -/
def RotFlags (op : RotOp) (v : Byte) (c : Bool) (f' : Byte) : Prop :=
  let res := rotated op v c
  HasFlags f' (res.getLsbD 7) (res == 0) (res.getLsbD 5) false (res.getLsbD 3) (hasEvenOnes res) false (carriedOut op v)

/-- The flags of `BIT b` on `v` (47_bit.md R330), `X` and `Y` taken from `xysrc`. -/
def BitTestFlags (f : Byte) (b : BitVec 3) (v xysrc f' : Byte) : Prop :=
  HasFlags f' (decide (b = 7) && v.getLsbD 7) (!v.getLsbD b.toNat) (xysrc.getLsbD 5) true (xysrc.getLsbD 3)
    (!v.getLsbD b.toNat) false (f.getLsbD 0)

/-- `v` with its bit `b` made `x`, every other bit as it was (47_bit.md R334). -/
def IsWithBit (b : BitVec 3) (x : Bool) (v res : Byte) : Prop :=
  ∀ k : Nat, k < 8 → res.getLsbD k = if k = b.toNat then x else v.getLsbD k

/-- When a condition holds of a flag byte (48_jump_call.md R350). -/
def condTrue (cc : Cond) (f : Byte) : Prop :=
  match cc with
  | .nz => f.getLsbD 6 = false
  | .z => f.getLsbD 6 = true
  | .nc => f.getLsbD 0 = false
  | .c => f.getLsbD 0 = true
  | .po => f.getLsbD 2 = false
  | .pe => f.getLsbD 2 = true
  | .p => f.getLsbD 7 = false
  | .m => f.getLsbD 7 = true

/-- `bioflags(v, k)` with `b` the count after its decrement (49_io.md R383). -/
def BlockIoFlags (b v : Byte) (k : Nat) (f' : Byte) : Prop :=
  HasFlags f' (b.getLsbD 7) (b == 0) (b.getLsbD 5) (decide (255 < k)) (b.getLsbD 3)
    (hasEvenOnes (BitVec.ofNat 8 (k % 8) ^^^ b)) (v.getLsbD 7) (decide (255 < k))

/-! ### The conversation with the adapter (20_memory.md R62 to R66, R75) -/

/-- What one call costs (20_memory.md R65). -/
def BusAccess.cost (cfg : CoreConfig) : BusAccess → Nat
  | .fetch _ _ => cfg.tFetch
  | .read _ _ => cfg.tMem
  | .write _ _ => cfg.tMem
  | .ioRead _ _ => cfg.tIo
  | .ioWrite _ _ => cfg.tIo

/-- The cost of some calls and `ticks` internal cycles: the formula of 70_reset_and_hazards.md R474. -/
def costOf (cfg : CoreConfig) (calls : List BusAccess) (ticks : Nat) : Nat :=
  (calls.map (BusAccess.cost cfg)).sum + ticks

/-- The state `n` internal cycles later (00_scope.md R13). -/
def State.later (s : State) (n : Nat) : State := { s with cycles := s.cycles + n }

/-- The adapter gives an answer of its own, the byte `v`, to a call of the kind `kind` for `a`: the next one in the queue
`q`, which leaves `q'`; or, when the queue is empty, the free value for the calls made so far (20_memory.md R66). -/
def OwnAnswer (history : List BusAccess) (q : List Byte) (kind : ReadKind) (a : Word) (v : Byte) (q' : List Byte) :
    Prop :=
  match q with
  | [] => v = Config.answer history kind a ∧ q' = []
  | x :: rest => v = x ∧ q' = rest

/-- The adapter answers the byte `v` to a `fetchOpcode` or a `read` of `a`: what stands there, in plain memory and ROM;
else an answer of its own. -/
def MemAnswer (ad : Adapter) (history : List BusAccess) (m : Memory) (q : List Byte) (kind : ReadKind) (a : Word)
    (v : Byte) (q' : List Byte) : Prop :=
  match ad.placeOf a with
  | .ram => v = m.read a.toNat ∧ q' = q
  | .rom => v = m.read a.toNat ∧ q' = q
  | .device => OwnAnswer history q kind a v q'

/-- What one call of the adapter can be and do: `history` are the calls before it, `m` and `q` its memory and its queue
of answers, `m'` and `q'` those after it. A `write` to plain memory leaves every other address as it was, and a `write`
elsewhere, as every other call, all of them. -/
def CallDoes (ad : Adapter) (history : List BusAccess) (m : Memory) (q : List Byte) (call : BusAccess) (m' : Memory)
    (q' : List Byte) : Prop :=
  match call with
  | .fetch a v => m' = m ∧ MemAnswer ad history m q .fetch a v q'
  | .read a v => m' = m ∧ MemAnswer ad history m q .read a v q'
  | .write a v => q' = q ∧ ∀ k : Nat, m'.read k = if k = a.toNat ∧ ad.placeOf a = .ram then v else m.read k
  | .ioRead p v => m' = m ∧ (match ad.ports with
    | .constant w => v = w ∧ q' = q
    | .device => OwnAnswer history q .ioRead p v q')
  | .ioWrite _ _ => m' = m ∧ q' = q

/-- What a sequence of calls, oldest first, can be and do. -/
def CallsDo (ad : Adapter) (history : List BusAccess) (m : Memory) (q : List Byte) (calls : List BusAccess)
    (m' : Memory) (q' : List Byte) : Prop :=
  match calls with
  | [] => m' = m ∧ q' = q
  | call :: rest => ∃ m1 q1, CallDoes ad history m q call m1 q1 ∧ CallsDo ad (call :: history) m1 q1 rest m' q'

/-- `u` is `s` after the adapter was called with `calls`, oldest first, giving the answers they show, and `ticks`
internal cycles went by: what that did to the adapter's memory and answers, to the record of the calls and to the cycle
counter, and nothing else. -/
def State.After (s : State) (calls : List BusAccess) (ticks : Nat) (u : State) : Prop :=
  u = { s with
    bus := calls.reverse ++ s.bus, cycles := s.cycles + costOf s.cfg calls ticks, mem := u.mem, answers := u.answers } ∧
  CallsDo s.adapter s.bus s.mem s.answers calls u.mem u.answers

/-- A plain memory (`RAM64K`) that holds `m` gives the answers in `calls`, oldest first, and holds `m'` after them
(20_memory.md R75, R76). -/
def Memory.Answers (m : Memory) (calls : List BusAccess) (m' : Memory) : Prop :=
  match calls with
  | [] => m' = m
  | .fetch a v :: rest => v = m.read a.toNat ∧ Memory.Answers m rest m'
  | .read a v :: rest => v = m.read a.toNat ∧ Memory.Answers m rest m'
  | .write a v :: rest => Memory.Answers (m.write a.toNat v) rest m'
  | .ioRead _ _ :: rest => Memory.Answers m rest m'
  | .ioWrite _ _ :: rest => Memory.Answers m rest m'

/-! ### What the rule of an instruction says -/

/-- The bytes `bytes` are the instruction `i`, whatever comes after them; the first `nF` are read with `Fetch()`, the
next `nM` with `Imm8()` (30_encoding.md R94). -/
def Encodes (bytes : List Byte) (nF nM : Nat) (i : Instr) : Prop :=
  bytes.length = nF + nM ∧ i.fetches = (nF, nM) ∧ ∀ rest, decode (bytes ++ rest) = .ok (i, rest)

/-- In every state `i` answers a next state, related to that state by `effect`. -/
def Executes (i : Instr) (effect : State → State → Prop) : Prop :=
  ∀ s, ∃ t, exec i s = .next t ∧ effect s t

/-- The rule of one instruction, in the form the spec gives each: its bytes and how they are fetched, and its effect.
Under an index prefix that changes nothing in it (30_encoding.md R103 item 5, R105) it has the same effect, one
`Fetch()` longer. -/
def HasRule (i : Instr) (bytes : List Byte) (nF nM : Nat) (effect : State → State → Prop) : Prop :=
  Encodes bytes nF nM i ∧ Executes i effect ∧
  (i.unchangedByIndex = true → ∀ xy, Encodes (xy.prefixByte :: bytes) (nF + 1) nM (.asMainSpace xy i) ∧
    Executes (.asMainSpace xy i) effect) ∧
  (i.space = .ed → ∀ xy, Encodes (xy.prefixByte :: bytes) (nF + 1) nM (.prefixEdAfterXy xy i) ∧
    Executes (.prefixEdAfterXy xy i) effect)

/-- The calls that read `bytes` from the address `pc` on: the first `nF` with `Fetch()`, the others with `Imm8()`. -/
def readingCalls (pc : Word) (nF : Nat) (bytes : List Byte) : List BusAccess :=
  match bytes, nF with
  | [], _ => []
  | v :: rest, 0 => .read pc v :: readingCalls (pc + 1) 0 rest
  | v :: rest, n + 1 => .fetch pc v :: readingCalls (pc + 1) n rest

/-- `u` is `s` after the instruction `i` has been read, its first bytes `supplied` from elsewhere: the others are what the
adapter answers at `PC` and after it, one call a byte, each with the access of the format (30_encoding.md R94); `R`
counts the `Fetch()` calls modulo 128 (10_state.md R24), `PC` the bytes (R27). -/
def State.HasRead (s : State) (supplied : List Byte) (i : Instr) (u : State) : Prop :=
  ∃ bytes v, decode (supplied ++ bytes) = .ok (i, []) ∧ i.isBarePrefix = false ∧
    s.After (readingCalls s.pc (i.fetches.1 - supplied.length) bytes) 0 v ∧
    u = { v with
      pc := s.pc + BitVec.ofNat 16 bytes.length
      r := BitVec.ofNat 8 (s.r.toNat / 128 * 128 + (s.r.toNat % 128 + (i.fetches.1 - supplied.length)) % 128) }

end Sys2Proof.Machine

namespace Sys2Proof

/-! ### What a pass of the scheduler can cost (60_exceptions.md R441) -/

/-- The costs of the reference configuration (00_scope.md R4), whatever `INT_DATA` is. -/
def CoreConfig.HasReferenceCosts (cfg : CoreConfig) : Prop := cfg.tFetch = 4 ∧ cfg.tMem = 3 ∧ cfg.tIo = 4

/-- The largest total of the space of an instruction in the table of 70_reset_and_hazards.md R476, whose last rows add one
more `Fetch()` to it behind an ignored or a dropped index prefix (30_encoding.md R103 item 5, R105). -/
def Instr.largestCost : Instr → Nat
  | .asMainSpace _ inner | .prefixEdAfterXy _ inner => 4 + inner.largestCost
  | i =>
    match i.space with
    | .main | .cb => 19
    | .ed => 21
    | .xy | .xycb => 23

/-- An index prefix dropped before `ED` (30_encoding.md R105). -/
def Instr.dropsPrefix : Instr → Bool
  | .prefixEdAfterXy _ _ => true
  | _ => false

end Sys2Proof

namespace Sys2Proof.Machine

open Sys2Proof

/-- The state a pass of the loop of 60_exceptions.md R440 ends in. -/
def Event.outcome : Event → Outcome
  | .accepted t | .idle t => .next t
  | .injected i t | .instr i t => exec i t

/-- Whether the pass is an acceptance, after which `runUntil` returns early (60_exceptions.md R440). -/
def Event.isAcceptance : Event → Bool
  | .accepted _ | .injected _ _ => true
  | .idle _ | .instr _ _ => false

/-- The `K` of 60_exceptions.md R441 for one pass: the largest cost of its instruction, and 2 more when that is injected, the
first fetch being part of `2 + T_FETCH` (R422); of an acceptance, that of mode 2 (R424, R476); the halted idle does not
overshoot (R443). -/
def Event.largestCost : Event → Nat
  | .accepted _ => 19
  | .injected i _ => 2 + i.largestCost
  | .idle _ => 1
  | .instr i _ => i.largestCost

/-- The passes that by the rules of their own can cost more than the 23 cycles of 60_exceptions.md R441: an index prefix
dropped before `ED` (30_encoding.md R105), and an index prefix injected in mode 0 (60_exceptions.md R422). DESIGN CHOICE,
log 14. -/
def Event.isCostlier : Event → Bool
  | .accepted _ | .idle _ => false
  | .injected i _ => i.space == .xy || i.space == .xycb
  | .instr i _ => i.dropsPrefix

end Sys2Proof.Machine
end

