-- ==== Sys2Proof/Certificates/Slice0/Obligations.lean ====
section
/-! DEFINITION. The statements about the machine that are to be proved. In the statement of an instruction's rule
(`HasRule`, Sys2Proof/Safety.lean) `s` is the state in which the bytes of the instruction have been read (00_scope.md
R18): `PC` is past them, `R` and `cycles` have counted them; `t` is the next state, and whatever `t` is not said to
change is as in `s`. How the bytes are read is `StepRunsTheDecodedInstruction`. `s.After calls n u` says that `u` is `s` after
those calls of the adapter, with the answers they show, and `n` internal cycles: the adapter is any (20_memory.md R66),
with plain memory, ROM and devices anywhere, and where it is plain memory a call to write changes the byte at its
address and no other. -/

open Sys2Proof Sys2Proof.Machine

/-! ### 8-bit loads (40_load8.md) -/

/-- R130, R131, R148, R149: the loads between registers and of an immediate byte. -/
def Obligations.RegisterLoadsCopyOneByte : Prop :=
  (∀ r r', HasRule (.ldRR r r') [fieldsByte 0b01 r.field r'.field] 1 0 (fun s t => t = s.setReg r (s.getReg r'))) ∧
  (∀ r n, HasRule (.ldRN r n) [fieldsByte 0b00 r.field 0b110, n] 1 1 (fun s t => t = s.setReg r n)) ∧
  (∀ xy p x, HasRule (.ldPP xy (.half p) x) [xy.prefixByte, fieldsByte 0b01 p.field x.field] 2 0
    (fun s t => t = s.setHalf xy p (s.getXReg xy x))) ∧
  (∀ xy x p, HasRule (.ldPP xy x (.half p)) [xy.prefixByte, fieldsByte 0b01 x.field p.field] 2 0
    (fun s t => t = s.setXReg xy x (s.getHalf xy p))) ∧
  (∀ xy p n, HasRule (.ldPN xy p n) [xy.prefixByte, fieldsByte 0b00 p.field 0b110, n] 2 1
    (fun s t => t = s.setHalf xy p n))

/-- R132, R133, R138, R139, R140: the loads of one byte from memory. -/
def Obligations.MemoryLoadsReadOneByte : Prop :=
  (∀ r, HasRule (.ldRMemHl r) [fieldsByte 0b01 r.field 0b110] 1 0 (fun s t =>
    ∃ v u, s.After [.read s.hl v] 0 u ∧ t = u.setReg r v)) ∧
  (∀ xy r d, HasRule (.ldRMemXyd xy r d) [xy.prefixByte, fieldsByte 0b01 r.field 0b110, d] 2 1 (fun s t =>
    let a := s.getIndex xy + d.signExtend 16
    ∃ v u, s.After [.read a v] 5 u ∧ t = { u.setReg r v with wz := a })) ∧
  HasRule .ldAMemBc [0x0A] 1 0 (fun s t =>
    ∃ v u, s.After [.read s.bc v] 0 u ∧ t = { u with a := v, wz := s.bc + 1 }) ∧
  HasRule .ldAMemDe [0x1A] 1 0 (fun s t =>
    ∃ v u, s.After [.read s.de v] 0 u ∧ t = { u with a := v, wz := s.de + 1 }) ∧
  (∀ nn, HasRule (.ldAMemNn nn) [0x3A, loByte nn, hiByte nn] 1 2 (fun s t =>
    ∃ v u, s.After [.read nn v] 0 u ∧ t = { u with a := v, wz := nn + 1 }))

/-- R134 to R137, R141 to R143: the stores of one byte. -/
def Obligations.MemoryStoresWriteOneByte : Prop :=
  (∀ r, HasRule (.ldMemHlR r) [fieldsByte 0b01 0b110 r.field] 1 0 (fun s t =>
    s.After [.write s.hl (s.getReg r)] 0 t)) ∧
  (∀ xy d r, HasRule (.ldMemXydR xy d r) [xy.prefixByte, fieldsByte 0b01 0b110 r.field, d] 2 1 (fun s t =>
    let a := s.getIndex xy + d.signExtend 16
    ∃ u, s.After [.write a (s.getReg r)] 5 u ∧ t = { u with wz := a })) ∧
  (∀ n, HasRule (.ldMemHlN n) [0x36, n] 1 1 (fun s t => s.After [.write s.hl n] 0 t)) ∧
  (∀ xy d n, HasRule (.ldMemXydN xy d n) [xy.prefixByte, 0x36, d, n] 2 2 (fun s t =>
    let a := s.getIndex xy + d.signExtend 16
    ∃ u, s.After [.write a n] 2 u ∧ t = { u with wz := a })) ∧
  HasRule .ldMemBcA [0x02] 1 0 (fun s t =>
    ∃ u, s.After [.write s.bc s.a] 0 u ∧ t = { u with wz := s.a ++ (s.c + 1) }) ∧
  HasRule .ldMemDeA [0x12] 1 0 (fun s t =>
    ∃ u, s.After [.write s.de s.a] 0 u ∧ t = { u with wz := s.a ++ (s.e + 1) }) ∧
  (∀ nn, HasRule (.ldMemNnA nn) [0x32, loByte nn, hiByte nn] 1 2 (fun s t =>
    ∃ u, s.After [.write nn s.a] 0 u ∧ t = { u with wz := s.a ++ (loByte nn + 1) }))

/-- R144 to R147: the moves between `A` and `I`, `R`. -/
def Obligations.AccumulatorMovesToAndFromIAndR : Prop :=
  HasRule .ldAI [0xED, 0x57] 2 0 (fun s t => t = { s.later 1 with a := s.i, f := t.f } ∧
    HasFlags t.f (s.i.getLsbD 7) (s.i == 0) (s.i.getLsbD 5) false (s.i.getLsbD 3) s.iff2 false (s.f.getLsbD 0)) ∧
  HasRule .ldARf [0xED, 0x5F] 2 0 (fun s t => t = { s.later 1 with a := s.r, f := t.f } ∧
    HasFlags t.f (s.r.getLsbD 7) (s.r == 0) (s.r.getLsbD 5) false (s.r.getLsbD 3) s.iff2 false (s.f.getLsbD 0)) ∧
  HasRule .ldIA [0xED, 0x47] 2 0 (fun s t => t = { s.later 1 with i := s.a }) ∧
  HasRule .ldRfA [0xED, 0x4F] 2 0 (fun s t => t = { s.later 1 with r := s.a })

/-! ### 16-bit loads and the stack (41_load16_stack.md) -/

/-- R160 to R164: the 16-bit loads of an immediate and from memory, low byte first. -/
def Obligations.WordLoadsReadLowByteFirst : Prop :=
  (∀ dd nn, HasRule (.ldDdNn dd nn) [fieldsByte 0b00 (fieldY dd.field 0) 0b001, loByte nn, hiByte nn] 1 2
    (fun s t => t = s.setPair dd nn)) ∧
  (∀ xy nn, HasRule (.ldXyNn xy nn) [xy.prefixByte, 0x21, loByte nn, hiByte nn] 2 2
    (fun s t => t = s.setIndex xy nn)) ∧
  (∀ nn, HasRule (.ldHlMemNn nn) [0x2A, loByte nn, hiByte nn] 1 2 (fun s t =>
    ∃ lo hi u, s.After [.read nn lo, .read (nn + 1) hi] 0 u ∧ t = { u with l := lo, h := hi, wz := nn + 1 })) ∧
  (∀ dd nn, HasRule (.ldDdMemNn dd nn) [0xED, fieldsByte 0b01 (fieldY dd.field 1) 0b011, loByte nn, hiByte nn] 2 2
    (fun s t => ∃ lo hi u, s.After [.read nn lo, .read (nn + 1) hi] 0 u ∧
      t = { u.setPair dd (hi ++ lo) with wz := nn + 1 })) ∧
  (∀ xy nn, HasRule (.ldXyMemNn xy nn) [xy.prefixByte, 0x2A, loByte nn, hiByte nn] 2 2
    (fun s t => ∃ lo hi u, s.After [.read nn lo, .read (nn + 1) hi] 0 u ∧
      t = { u.setIndex xy (hi ++ lo) with wz := nn + 1 }))

/-- R165 to R167: the 16-bit stores, low byte first. -/
def Obligations.WordStoresWriteLowByteFirst : Prop :=
  (∀ nn, HasRule (.ldMemNnHl nn) [0x22, loByte nn, hiByte nn] 1 2 (fun s t =>
    ∃ u, s.After [.write nn s.l, .write (nn + 1) s.h] 0 u ∧ t = { u with wz := nn + 1 })) ∧
  (∀ nn dd, HasRule (.ldMemNnDd nn dd) [0xED, fieldsByte 0b01 (fieldY dd.field 0) 0b011, loByte nn, hiByte nn] 2 2
    (fun s t => ∃ u, s.After [.write nn (loByte (s.getPair dd)), .write (nn + 1) (hiByte (s.getPair dd))] 0 u ∧
      t = { u with wz := nn + 1 })) ∧
  (∀ xy nn, HasRule (.ldMemNnXy xy nn) [xy.prefixByte, 0x22, loByte nn, hiByte nn] 2 2 (fun s t =>
    ∃ u, s.After [.write nn (loByte (s.getIndex xy)), .write (nn + 1) (hiByte (s.getIndex xy))] 0 u ∧
      t = { u with wz := nn + 1 }))

/-- R168 to R173: the loads of `SP`, the pushes (high byte first, downwards) and the pops (low byte first, upwards). -/
def Obligations.StackInstructionsMoveSp : Prop :=
  HasRule .ldSpHl [0xF9] 1 0 (fun s t => t = { s.later 2 with sp := s.hl }) ∧
  (∀ xy, HasRule (.ldSpXy xy) [xy.prefixByte, 0xF9] 2 0 (fun s t => t = { s.later 2 with sp := s.getIndex xy })) ∧
  (∀ qq, HasRule (.pushQq qq) [fieldsByte 0b11 (fieldY qq.field 0) 0b101] 1 0 (fun s t =>
    let w := s.getStackPair qq
    ∃ u, s.After [.write (s.sp - 1) (hiByte w), .write (s.sp - 2) (loByte w)] 1 u ∧ t = { u with sp := s.sp - 2 })) ∧
  (∀ xy, HasRule (.pushXy xy) [xy.prefixByte, 0xE5] 2 0 (fun s t =>
    let w := s.getIndex xy
    ∃ u, s.After [.write (s.sp - 1) (hiByte w), .write (s.sp - 2) (loByte w)] 1 u ∧ t = { u with sp := s.sp - 2 })) ∧
  (∀ qq, HasRule (.popQq qq) [fieldsByte 0b11 (fieldY qq.field 0) 0b001] 1 0 (fun s t =>
    ∃ lo hi u, s.After [.read s.sp lo, .read (s.sp + 1) hi] 0 u ∧
      t = ({ u with sp := s.sp + 2 } : State).setStackPair qq (hi ++ lo))) ∧
  (∀ xy, HasRule (.popXy xy) [xy.prefixByte, 0xE1] 2 0 (fun s t =>
    ∃ lo hi u, s.After [.read s.sp lo, .read (s.sp + 1) hi] 0 u ∧
      t = ({ u with sp := s.sp + 2 } : State).setIndex xy (hi ++ lo)))

/-- A pop right after a push gives back the word pushed, flags and all, wherever the stack is, as long as the adapter
answers for both stack bytes as plain memory. R170 and R172 give the two instructions, R174 only the order of their
accesses; that a read gives back the byte last written is no rule of the core (R66: it assumes nothing of the kind): it is
what the model's adapter does at an address of the kind `Place.ram`, the model's choice, log 1, after `RAM64K` of R75. -/
def Obligations.PopAfterPushGivesTheWordBack : Prop :=
  ∀ (s : State) (qq qq' : StackPair), s.adapter.placeOf (s.sp - 1) = .ram → s.adapter.placeOf (s.sp - 2) = .ram →
    ∃ t u, exec (.pushQq qq) s = .next t ∧ exec (.popQq qq') t = .next u ∧
      u.getStackPair qq' = s.getStackPair qq ∧ u.sp = s.sp

/-! ### Exchange, block transfer and block search (42_exchange_block.md) -/

/-- R190 to R194: the exchanges. -/
def Obligations.ExchangesSwapTheirOperands : Prop :=
  HasRule .exDeHl [0xEB] 1 0 (fun s t => t = { s with d := s.h, e := s.l, h := s.d, l := s.e }) ∧
  HasRule .exAfAf [0x08] 1 0 (fun s t => t = { s with a := s.altA, f := s.altF, altA := s.a, altF := s.f }) ∧
  HasRule .exx [0xD9] 1 0 (fun s t => t = { s with
    b := s.altB, c := s.altC, d := s.altD, e := s.altE, h := s.altH, l := s.altL,
    altB := s.b, altC := s.c, altD := s.d, altE := s.e, altH := s.h, altL := s.l }) ∧
  HasRule .exMemSpHl [0xE3] 1 0 (fun s t => ∃ lo hi u,
    s.After [.read s.sp lo, .read (s.sp + 1) hi, .write (s.sp + 1) s.h, .write s.sp s.l] 3 u ∧
    t = { u with h := hi, l := lo, wz := hi ++ lo }) ∧
  (∀ xy, HasRule (.exMemSpXy xy) [xy.prefixByte, 0xE3] 2 0 (fun s t =>
    let old := s.getIndex xy
    ∃ lo hi u,
      s.After [.read s.sp lo, .read (s.sp + 1) hi, .write (s.sp + 1) (hiByte old), .write s.sp (loByte old)] 3 u ∧
      t = { u.setIndex xy (hi ++ lo) with wz := hi ++ lo }))

/-- R195 to R198: one iteration of a block transfer; the repeating forms go back to their `ED` byte while `BC` is not 0.
`s.pc` is the address after the two bytes. -/
def Obligations.BlockTransferMovesOneByte : Prop :=
  ∀ up rep, HasRule (blockLoadForm up rep) [0xED, blockByte up rep 0] 2 0 (fun s t =>
    let bc := s.bc - 1
    let hl := if up then s.hl + 1 else s.hl - 1
    let de := if up then s.de + 1 else s.de - 1
    let again := rep && bc != 0
    ∃ v u, s.After [.read s.hl v, .write s.de v] (if again then 7 else 2) u ∧
      t = { u with
        h := hiByte hl, l := loByte hl, d := hiByte de, e := loByte de, b := hiByte bc, c := loByte bc, f := t.f,
        pc := if again then s.pc - 2 else s.pc, wz := if again then s.pc - 1 else s.wz } ∧
      HasFlags t.f (s.f.getLsbD 7) (s.f.getLsbD 6) ((v + s.a).getLsbD 1) false ((v + s.a).getLsbD 3) (bc != 0) false
        (s.f.getLsbD 0))

/-- R199 to R202: one iteration of a block search; the repeating forms go back while `BC` is not 0 and the bytes
differ. -/
def Obligations.BlockSearchComparesOneByte : Prop :=
  ∀ up rep, HasRule (blockCompareForm up rep) [0xED, blockByte up rep 1] 2 0 (fun s t => ∃ v u,
    let bc := s.bc - 1
    let hl := if up then s.hl + 1 else s.hl - 1
    let res := s.a - v
    let hf := decide (s.a.toNat % 16 < v.toNat % 16)
    let n := if hf then res - 1 else res
    let again := rep && bc != 0 && res != 0
    s.After [.read s.hl v] (if again then 10 else 5) u ∧
    t = { u with
      h := hiByte hl, l := loByte hl, b := hiByte bc, c := loByte bc, f := t.f,
      pc := if again then s.pc - 2 else s.pc,
      wz := if again then s.pc - 1 else if up then s.wz + 1 else s.wz - 1 } ∧
    HasFlags t.f (res.getLsbD 7) (res == 0) (n.getLsbD 1) hf (n.getLsbD 3) (bc != 0) true (s.f.getLsbD 0))

/-! ### 8-bit arithmetic and logic (43_alu8.md) -/

/-- R230, R231, R234 over R220 to R227: the eight operations with a register, an immediate byte and an index half. -/
def Obligations.AluOnRegistersAndImmediates : Prop :=
  (∀ op r, HasRule (aluForm op (.reg r)) [fieldsByte 0b10 op.field r.field] 1 0 (fun s t =>
    t = { s with a := t.a, f := t.f } ∧ AluResult op s.a s.f (s.getReg r) t.a t.f)) ∧
  (∀ op n, HasRule (aluForm op (.imm n)) [fieldsByte 0b11 op.field 0b110, n] 1 1 (fun s t =>
    t = { s with a := t.a, f := t.f } ∧ AluResult op s.a s.f n t.a t.f)) ∧
  (∀ op xy p, HasRule (aluForm op (.half xy p)) [xy.prefixByte, fieldsByte 0b10 op.field p.field] 2 0 (fun s t =>
    t = { s with a := t.a, f := t.f } ∧ AluResult op s.a s.f (s.getHalf xy p) t.a t.f))

/-- R232, R233 over R220 to R227: the eight operations with a byte of memory. -/
def Obligations.AluOnMemoryBytes : Prop :=
  (∀ op, HasRule (aluForm op .memHl) [fieldsByte 0b10 op.field 0b110] 1 0 (fun s t =>
    ∃ v u, s.After [.read s.hl v] 0 u ∧ t = { u with a := t.a, f := t.f } ∧ AluResult op s.a s.f v t.a t.f)) ∧
  (∀ op xy d, HasRule (aluForm op (.memIdx xy d)) [xy.prefixByte, fieldsByte 0b10 op.field 0b110, d] 2 1 (fun s t =>
    let a := s.getIndex xy + d.signExtend 16
    ∃ v u, s.After [.read a v] 5 u ∧ t = { u with a := t.a, f := t.f, wz := a } ∧
      AluResult op s.a s.f v t.a t.f))

/-- R220 and R222 together, the property of D0 that 90_conflicts.md C5 mends: subtracting what was added restores the
accumulator, and the carry left is the carry of the addition. -/
def Obligations.SubtractUndoesAdd : Prop :=
  ∀ (s : State) (n : Byte), ∃ t u, exec (.addAN n) s = .next t ∧ exec (.subN n) t = .next u ∧
    u.a = s.a ∧ u.f.getLsbD 0 = t.f.getLsbD 0 ∧ t.f.getLsbD 0 = decide (255 < s.a.toNat + n.toNat)

/-- R239 to R248: the increments and decrements of 8-bit operands. -/
def Obligations.ByteIncrementsAndDecrements : Prop :=
  (∀ r, HasRule (.incR r) [fieldsByte 0b00 r.field 0b100] 1 0 (fun s t =>
    ∃ res, t = { s.setReg r res with f := t.f } ∧ IncResult s.f (s.getReg r) res t.f)) ∧
  (∀ r, HasRule (.decR r) [fieldsByte 0b00 r.field 0b101] 1 0 (fun s t =>
    ∃ res, t = { s.setReg r res with f := t.f } ∧ DecResult s.f (s.getReg r) res t.f)) ∧
  (∀ xy p, HasRule (.incP xy p) [xy.prefixByte, fieldsByte 0b00 p.field 0b100] 2 0 (fun s t =>
    ∃ res, t = { s.setHalf xy p res with f := t.f } ∧ IncResult s.f (s.getHalf xy p) res t.f)) ∧
  (∀ xy p, HasRule (.decP xy p) [xy.prefixByte, fieldsByte 0b00 p.field 0b101] 2 0 (fun s t =>
    ∃ res, t = { s.setHalf xy p res with f := t.f } ∧ DecResult s.f (s.getHalf xy p) res t.f)) ∧
  HasRule .incMemHl [0x34] 1 0 (fun s t => ∃ v res u, s.After [.read s.hl v, .write s.hl res] 1 u ∧
    t = { u with f := t.f } ∧ IncResult s.f v res t.f) ∧
  HasRule .decMemHl [0x35] 1 0 (fun s t => ∃ v res u, s.After [.read s.hl v, .write s.hl res] 1 u ∧
    t = { u with f := t.f } ∧ DecResult s.f v res t.f) ∧
  (∀ xy d, HasRule (.incMemXyd xy d) [xy.prefixByte, 0x34, d] 2 1 (fun s t =>
    let a := s.getIndex xy + d.signExtend 16
    ∃ v res u, s.After [.read a v, .write a res] 6 u ∧ t = { u with f := t.f, wz := a } ∧ IncResult s.f v res t.f)) ∧
  (∀ xy d, HasRule (.decMemXyd xy d) [xy.prefixByte, 0x35, d] 2 1 (fun s t =>
    let a := s.getIndex xy + d.signExtend 16
    ∃ v res u, s.After [.read a v, .write a res] 6 u ∧ t = { u with f := t.f, wz := a } ∧ DecResult s.f v res t.f))

/-! ### General purpose (44_general_cpu.md) -/

/-- R260: `DAA`, with the equivalent statement of `H` that the rule gives. -/
def Obligations.DaaAdjustsTheAccumulator : Prop :=
  HasRule .daa [0x27] 1 0 (fun s t =>
    let low := s.a.toNat % 16
    let fixLow := s.f.getLsbD 4 || decide (9 < low)
    let fixHigh := s.f.getLsbD 0 || decide (0x99 < s.a.toNat)
    let corr := (if fixLow then 0x06 else 0) + (if fixHigh then 0x60 else 0)
    let subtract := s.f.getLsbD 1
    t = { s with a := t.a, f := t.f } ∧
    t.a.toNat = (if subtract then s.a.toNat + 256 - corr else s.a.toNat + corr) % 256 ∧
    HasFlags t.f (t.a.getLsbD 7) (t.a == 0) (t.a.getLsbD 5)
      (if subtract then s.f.getLsbD 4 && decide (low < 6) else decide (9 < low))
      (t.a.getLsbD 3) (hasEvenOnes t.a) subtract fixHigh)

/-- What `DAA` is for (44_general_cpu.md R260): adding two packed decimal bytes and adjusting gives their decimal sum: two
decimal digits in the accumulator, the carry being the hundred. -/
def Obligations.AddThenDaaAddsDecimals : Prop :=
  ∀ (s : State) (n : Byte), s.a.toNat % 16 ≤ 9 → s.a.toNat / 16 ≤ 9 → n.toNat % 16 ≤ 9 → n.toNat / 16 ≤ 9 →
    ∃ t u, exec (.adcAN n) s = .next t ∧ exec .daa t = .next u ∧ u.a.toNat % 16 ≤ 9 ∧ u.a.toNat / 16 ≤ 9 ∧
      (10 * (s.a.toNat / 16) + s.a.toNat % 16) + (10 * (n.toNat / 16) + n.toNat % 16) + (s.f.getLsbD 0).toNat =
        100 * (u.f.getLsbD 0).toNat + 10 * (u.a.toNat / 16) + u.a.toNat % 16

/-- R261 to R264: `CPL`, `NEG`, `CCF`, `SCF`. -/
def Obligations.ComplementNegateAndCarryInstructions : Prop :=
  HasRule .cpl [0x2F] 1 0 (fun s t => t = { s with a := t.a, f := t.f } ∧ t.a.toNat = 255 - s.a.toNat ∧
    HasFlags t.f (s.f.getLsbD 7) (s.f.getLsbD 6) (t.a.getLsbD 5) true (t.a.getLsbD 3) (s.f.getLsbD 2) true
      (s.f.getLsbD 0)) ∧
  (∀ y, HasRule (.neg y) [0xED, fieldsByte 0b01 y 0b100] 2 0 (fun s t =>
    t = { s with a := t.a, f := t.f } ∧ SubResult 0 s.a false t.a t.f ∧
    t.f.getLsbD 0 = (s.a != 0) ∧ t.f.getLsbD 2 = (s.a == 0x80))) ∧
  HasRule .ccf [0x3F] 1 0 (fun s t => t = { s with f := t.f } ∧
    HasFlags t.f (s.f.getLsbD 7) (s.f.getLsbD 6) (s.a.getLsbD 5) (s.f.getLsbD 0) (s.a.getLsbD 3) (s.f.getLsbD 2)
      false (!s.f.getLsbD 0)) ∧
  HasRule .scf [0x37] 1 0 (fun s t => t = { s with f := t.f } ∧
    HasFlags t.f (s.f.getLsbD 7) (s.f.getLsbD 6) (s.a.getLsbD 5) false (s.a.getLsbD 3) (s.f.getLsbD 2) false true)

/-- R265, R266, R267, R269, R270, R272: `NOP`, `HALT`, `DI`, `EI`, `IM n` and every `NOP*`. -/
def Obligations.ControlInstructionsSetTheirBits : Prop :=
  HasRule .nop [0x00] 1 0 (fun s t => t = s) ∧
  HasRule .halt [0x76] 1 0 (fun s t => t = { s with halt := true }) ∧
  HasRule .di [0xF3] 1 0 (fun s t => t = { s with iff1 := false, iff2 := false }) ∧
  HasRule .ei [0xFB] 1 0 (fun s t => t = { s with iff1 := true, iff2 := true, inhibit := true }) ∧
  (∀ y, HasRule (.imN y) [0xED, fieldsByte 0b01 y 0b110] 2 0 (fun s t =>
    t = { s with im := [.im0, .im0, .im1, .im2, .im0, .im0, .im1, .im2].getD y.toNat .im0 })) ∧
  (∀ yz, HasRule (.edNop0 yz) [0xED, 0b00#2 ++ yz] 2 0 (fun s t => t = s)) ∧
  (∀ q, HasRule (.edNop7 q) [0xED, fieldsByte 0b01 (fieldY 0b11 q) 0b111] 2 0 (fun s t => t = s)) ∧
  (∀ yz, HasRule (.edNop8 yz) [0xED, 0b100#3 ++ yz] 2 0 (fun s t => t = s)) ∧
  (∀ y z, HasRule (.edNopA y z) [0xED, fieldsByte 0b10 (0b1#1 ++ y) (0b1#1 ++ z)] 2 0 (fun s t => t = s)) ∧
  (∀ yz, HasRule (.edNopC yz) [0xED, 0b11#2 ++ yz] 2 0 (fun s t => t = s))

/-! ### 16-bit arithmetic (45_alu16.md) -/

/-- R280 to R286: the 16-bit additions and subtractions. -/
def Obligations.WordAdditionsAndSubtractions : Prop :=
  (∀ ss, HasRule (.addHlSs ss) [fieldsByte 0b00 (fieldY ss.field 1) 0b001] 1 0 (fun s t =>
    ∃ res, t = { (s.later 7).setHl res with f := t.f, wz := s.hl + 1 } ∧
      Add16Result s.f s.hl (s.getPair ss) res t.f)) ∧
  (∀ xy pp, HasRule (.addXyPp xy pp) [xy.prefixByte, fieldsByte 0b00 (fieldY pp.field 1) 0b001] 2 0 (fun s t =>
    ∃ res, t = { (s.later 7).setIndex xy res with f := t.f, wz := s.getIndex xy + 1 } ∧
      Add16Result s.f (s.getIndex xy) (s.getXPair xy pp) res t.f)) ∧
  (∀ ss, HasRule (.adcHlSs ss) [0xED, fieldsByte 0b01 (fieldY ss.field 1) 0b010] 2 0 (fun s t =>
    ∃ res, t = { (s.later 7).setHl res with f := t.f, wz := s.hl + 1 } ∧
      Adc16Result s.hl (s.getPair ss) (s.f.getLsbD 0) res t.f)) ∧
  (∀ ss, HasRule (.sbcHlSs ss) [0xED, fieldsByte 0b01 (fieldY ss.field 0) 0b010] 2 0 (fun s t =>
    ∃ res, t = { (s.later 7).setHl res with f := t.f, wz := s.hl + 1 } ∧
      Sbc16Result s.hl (s.getPair ss) (s.f.getLsbD 0) res t.f))

/-- R287 to R290: the 16-bit increments and decrements, which write no flag. -/
def Obligations.WordIncrementsAndDecrements : Prop :=
  (∀ ss, HasRule (.incSs ss) [fieldsByte 0b00 (fieldY ss.field 0) 0b011] 1 0 (fun s t =>
    t = (s.later 2).setPair ss (s.getPair ss + 1))) ∧
  (∀ ss, HasRule (.decSs ss) [fieldsByte 0b00 (fieldY ss.field 1) 0b011] 1 0 (fun s t =>
    t = (s.later 2).setPair ss (s.getPair ss - 1))) ∧
  (∀ xy, HasRule (.incXy xy) [xy.prefixByte, 0x23] 2 0 (fun s t =>
    t = (s.later 2).setIndex xy (s.getIndex xy + 1))) ∧
  (∀ xy, HasRule (.decXy xy) [xy.prefixByte, 0x2B] 2 0 (fun s t =>
    t = (s.later 2).setIndex xy (s.getIndex xy - 1)))

/-! ### Rotates and shifts (46_rotate_shift.md) -/

/-- R300 to R303: the accumulator rotates, which keep `S`, `Z` and `PV`. -/
def Obligations.AccumulatorRotatesKeepSignZeroParity : Prop :=
  ∀ op byte i, (op, byte, i) ∈ [(RotOp.rlc, 0x07, Instr.rlca), (.rrc, 0x0F, .rrca), (.rl, 0x17, .rla),
      (.rr, 0x1F, .rra)] →
    HasRule i [byte] 1 0 (fun s t =>
      t = { s with a := rotated op s.a (s.f.getLsbD 0), f := t.f } ∧
      HasFlags t.f (s.f.getLsbD 7) (s.f.getLsbD 6) (t.a.getLsbD 5) false (t.a.getLsbD 3) (s.f.getLsbD 2) false
        (carriedOut op s.a))

/-- R304 to R315: the eight rotates and shifts with each of their four operand forms. -/
def Obligations.EveryRotateFormMovesOneBit : Prop :=
  (∀ op r, HasRule (rotRegForm op r) [0xCB, fieldsByte 0b00 op.field r.field] 2 0 (fun s t =>
    let c := s.f.getLsbD 0
    t = { s.setReg r (rotated op (s.getReg r) c) with f := t.f } ∧ RotFlags op (s.getReg r) c t.f)) ∧
  (∀ op, HasRule (rotHlForm op) [0xCB, fieldsByte 0b00 op.field 0b110] 2 0 (fun s t =>
    let c := s.f.getLsbD 0
    ∃ v u, s.After [.read s.hl v, .write s.hl (rotated op v c)] 1 u ∧ t = { u with f := t.f } ∧ RotFlags op v c t.f)) ∧
  (∀ op xy d, HasRule (rotIdxForm op xy d) [xy.prefixByte, 0xCB, d, fieldsByte 0b00 op.field 0b110] 2 2 (fun s t =>
    let c := s.f.getLsbD 0
    let a := s.getIndex xy + d.signExtend 16
    ∃ v u, s.After [.read a v, .write a (rotated op v c)] 3 u ∧ t = { u with f := t.f, wz := a } ∧
      RotFlags op v c t.f)) ∧
  (∀ op xy d r, HasRule (rotCopyForm op xy d r) [xy.prefixByte, 0xCB, d, fieldsByte 0b00 op.field r.field] 2 2
    (fun s t =>
      let c := s.f.getLsbD 0
      let a := s.getIndex xy + d.signExtend 16
      ∃ v u, s.After [.read a v, .write a (rotated op v c)] 3 u ∧
        t = { u.setReg r (rotated op v c) with f := t.f, wz := a } ∧ RotFlags op v c t.f))

/-- R316, R317: the digit rotates. -/
def Obligations.DigitRotatesMoveNibbles : Prop :=
  HasRule .rld [0xED, 0x6F] 2 0 (fun s t => ∃ v u,
    s.After [.read s.hl v, .write s.hl (v.extractLsb' 0 4 ++ s.a.extractLsb' 0 4)] 4 u ∧
    t = { u with a := s.a.extractLsb' 4 4 ++ v.extractLsb' 4 4, f := t.f, wz := s.hl + 1 } ∧
    HasFlags t.f (t.a.getLsbD 7) (t.a == 0) (t.a.getLsbD 5) false (t.a.getLsbD 3) (hasEvenOnes t.a) false
      (s.f.getLsbD 0)) ∧
  HasRule .rrd [0xED, 0x67] 2 0 (fun s t => ∃ v u,
    s.After [.read s.hl v, .write s.hl (s.a.extractLsb' 0 4 ++ v.extractLsb' 4 4)] 4 u ∧
    t = { u with a := s.a.extractLsb' 4 4 ++ v.extractLsb' 0 4, f := t.f, wz := s.hl + 1 } ∧
    HasFlags t.f (t.a.getLsbD 7) (t.a == 0) (t.a.getLsbD 5) false (t.a.getLsbD 3) (hasEvenOnes t.a) false
      (s.f.getLsbD 0))

/-! ### Bits (47_bit.md) -/

/-- R330 to R333: `BIT` on its three operand forms; `X` and `Y` come from the register, from `WZ`, or from the effective
address. -/
def Obligations.BitTestsWriteOnlyFlags : Prop :=
  (∀ b r, HasRule (.bitBR b r) [0xCB, fieldsByte 0b01 b r.field] 2 0 (fun s t =>
    t = { s with f := t.f } ∧ BitTestFlags s.f b (s.getReg r) (s.getReg r) t.f)) ∧
  (∀ b, HasRule (.bitBMemHl b) [0xCB, fieldsByte 0b01 b 0b110] 2 0 (fun s t =>
    ∃ v u, s.After [.read s.hl v] 1 u ∧ t = { u with f := t.f } ∧ BitTestFlags s.f b v (hiByte s.wz) t.f)) ∧
  (∀ xy d b z, HasRule (.bitBMemXyd xy d b z) [xy.prefixByte, 0xCB, d, fieldsByte 0b01 b z] 2 2 (fun s t =>
    let a := s.getIndex xy + d.signExtend 16
    ∃ v u, s.After [.read a v] 3 u ∧ t = { u with f := t.f, wz := a } ∧ BitTestFlags s.f b v (hiByte a) t.f))

/-- R334 to R339: `RES` (`x` false) and `SET` (`x` true) on their four operand forms. -/
def Obligations.SetAndResetChangeOneBit : Prop :=
  (∀ x b r, HasRule (bitRegForm x b r) [0xCB, fieldsByte (if x then 0b11 else 0b10) b r.field] 2 0 (fun s t =>
    ∃ res, t = s.setReg r res ∧ IsWithBit b x (s.getReg r) res)) ∧
  (∀ x b, HasRule (bitHlForm x b) [0xCB, fieldsByte (if x then 0b11 else 0b10) b 0b110] 2 0 (fun s t =>
    ∃ v res, s.After [.read s.hl v, .write s.hl res] 1 t ∧ IsWithBit b x v res)) ∧
  (∀ x b xy d, HasRule (bitIdxForm x b xy d)
      [xy.prefixByte, 0xCB, d, fieldsByte (if x then 0b11 else 0b10) b 0b110] 2 2 (fun s t =>
    let a := s.getIndex xy + d.signExtend 16
    ∃ v res u, s.After [.read a v, .write a res] 3 u ∧ t = { u with wz := a } ∧ IsWithBit b x v res)) ∧
  (∀ x b xy d r, HasRule (bitCopyForm x b xy d r)
      [xy.prefixByte, 0xCB, d, fieldsByte (if x then 0b11 else 0b10) b r.field] 2 2 (fun s t =>
    let a := s.getIndex xy + d.signExtend 16
    ∃ v res u, s.After [.read a v, .write a res] 3 u ∧ t = { u.setReg r res with wz := a } ∧ IsWithBit b x v res))

/-! ### Jumps, calls and returns (48_jump_call.md) -/

/-- R350 to R357: the jumps. `JR cc` has the first four conditions only. `s.pc` is the address after the instruction. -/
def Obligations.JumpsGoToTheirTargets : Prop :=
  (∀ nn, HasRule (.jpNn nn) [0xC3, loByte nn, hiByte nn] 1 2 (fun s t => t = { s with pc := nn, wz := nn })) ∧
  (∀ cc nn, HasRule (.jpCcNn cc nn) [fieldsByte 0b11 cc.field 0b010, loByte nn, hiByte nn] 1 2 (fun s t =>
    (condTrue cc s.f → t = { s with pc := nn, wz := nn }) ∧ (¬condTrue cc s.f → t = { s with wz := nn }))) ∧
  (∀ e, HasRule (.jrE e) [0x18, e] 1 1 (fun s t =>
    let target := s.pc + e.signExtend 16
    t = { s.later 5 with pc := target, wz := target })) ∧
  (∀ cc e, cc ∈ [Cond.nz, .z, .nc, .c] →
    HasRule (.jrCcE cc e) [fieldsByte 0b00 (cc.field + 4) 0b000, e] 1 1 (fun s t =>
      let target := s.pc + e.signExtend 16
      (condTrue cc s.f → t = { s.later 5 with pc := target, wz := target }) ∧
      (¬condTrue cc s.f → t = s))) ∧
  HasRule .jpHl [0xE9] 1 0 (fun s t => t = { s with pc := s.hl }) ∧
  (∀ xy, HasRule (.jpXy xy) [xy.prefixByte, 0xE9] 2 0 (fun s t => t = { s with pc := s.getIndex xy })) ∧
  (∀ e, HasRule (.djnzE e) [0x10, e] 1 1 (fun s t =>
    let target := s.pc + e.signExtend 16
    (s.b ≠ 1 → t = { s.later 6 with b := s.b - 1, pc := target, wz := target }) ∧
    (s.b = 1 → t = { s.later 1 with b := 0 })))

/-- R358 to R362, R365, R366: the calls and the returns. -/
def Obligations.CallsAndReturnsUseTheStack : Prop :=
  let called := fun (target : Word) (s t : State) =>
    ∃ u, s.After [.write (s.sp - 1) (hiByte s.pc), .write (s.sp - 2) (loByte s.pc)] 1 u ∧
      t = { u with sp := s.sp - 2, pc := target, wz := target }
  let returned := fun (ticks : Nat) (s t : State) =>
    ∃ lo hi u, s.After [.read s.sp lo, .read (s.sp + 1) hi] ticks u ∧
      t = { u with sp := s.sp + 2, pc := hi ++ lo, wz := hi ++ lo }
  (∀ nn, HasRule (.callNn nn) [0xCD, loByte nn, hiByte nn] 1 2 (called nn)) ∧
  (∀ cc nn, HasRule (.callCcNn cc nn) [fieldsByte 0b11 cc.field 0b100, loByte nn, hiByte nn] 1 2 (fun s t =>
    (condTrue cc s.f → called nn s t) ∧ (¬condTrue cc s.f → t = { s with wz := nn }))) ∧
  (∀ y, HasRule (.rstP y) [fieldsByte 0b11 y 0b111] 1 0 (called (BitVec.ofNat 16 (8 * y.toNat)))) ∧
  HasRule .ret [0xC9] 1 0 (returned 0) ∧
  (∀ cc, HasRule (.retCc cc) [fieldsByte 0b11 cc.field 0b000] 1 0 (fun s t =>
    (condTrue cc s.f → returned 1 s t) ∧ (¬condTrue cc s.f → t = s.later 1))) ∧
  HasRule .reti [0xED, 0x4D] 2 0 (fun s t => returned 0 { s with iff1 := s.iff2 } t) ∧
  (∀ y : BitVec 3, y ≠ 1 → HasRule (.retn y) [0xED, fieldsByte 0b01 y 0b101] 2 0 (fun s t =>
    returned 0 { s with iff1 := s.iff2 } t))

/-- A return right after a call comes back to the byte after the call, with `SP` as it was, wherever the stack is, as
long as the adapter answers for both stack bytes as plain memory. R358 and R360 give the two instructions; that the return
reads back what the call stored is no rule of the core (R66: it assumes nothing of the kind): it is what the model's adapter
does at an address of the kind `Place.ram`, the model's choice, log 1, after `RAM64K` of R75. -/
def Obligations.ReturnComesBackAfterTheCall : Prop :=
  ∀ (s : State) (nn : Word), s.adapter.placeOf (s.sp - 1) = .ram → s.adapter.placeOf (s.sp - 2) = .ram →
    ∃ t u, exec (.callNn nn) s = .next t ∧ t.pc = nn ∧ exec .ret t = .next u ∧ u.pc = s.pc ∧ u.sp = s.sp

/-! ### Input and output (49_io.md) -/

/-- R380 to R382, R388 to R390: the single inputs and outputs. -/
def Obligations.PortInstructionsMakeOnePortCall : Prop :=
  (∀ n, HasRule (.inAN n) [0xDB, n] 1 1 (fun s t =>
    ∃ v u, s.After [.ioRead (s.a ++ n) v] 0 u ∧ t = { u with a := v, wz := (s.a ++ n) + 1 })) ∧
  (∀ r, HasRule (.inRC r) [0xED, fieldsByte 0b01 r.field 0b000] 2 0 (fun s t =>
    ∃ v u, s.After [.ioRead s.bc v] 0 u ∧ t = { u.setReg r v with f := t.f, wz := s.bc + 1 } ∧
      HasFlags t.f (v.getLsbD 7) (v == 0) (v.getLsbD 5) false (v.getLsbD 3) (hasEvenOnes v) false (s.f.getLsbD 0))) ∧
  HasRule .inFC [0xED, 0x70] 2 0 (fun s t =>
    ∃ v u, s.After [.ioRead s.bc v] 0 u ∧ t = { u with f := t.f, wz := s.bc + 1 } ∧
      HasFlags t.f (v.getLsbD 7) (v == 0) (v.getLsbD 5) false (v.getLsbD 3) (hasEvenOnes v) false (s.f.getLsbD 0)) ∧
  (∀ n, HasRule (.outNA n) [0xD3, n] 1 1 (fun s t =>
    ∃ u, s.After [.ioWrite (s.a ++ n) s.a] 0 u ∧ t = { u with wz := s.a ++ (n + 1) })) ∧
  (∀ r, HasRule (.outCR r) [0xED, fieldsByte 0b01 r.field 0b001] 2 0 (fun s t =>
    ∃ u, s.After [.ioWrite s.bc (s.getReg r)] 0 u ∧ t = { u with wz := s.bc + 1 })) ∧
  HasRule .outC0 [0xED, 0x71] 2 0 (fun s t =>
    ∃ u, s.After [.ioWrite s.bc 0] 0 u ∧ t = { u with wz := s.bc + 1 })

/-- R383 to R387: one iteration of a block input; the port address has the old `B`. -/
def Obligations.BlockInputReadsOnePort : Prop :=
  ∀ up rep, HasRule (blockInForm up rep) [0xED, blockByte up rep 2] 2 0 (fun s t =>
    let b := s.b - 1
    let hl := if up then s.hl + 1 else s.hl - 1
    let again := rep && b != 0
    ∃ v u, s.After [.ioRead s.bc v, .write s.hl v] (if again then 6 else 1) u ∧
      t = { u with
        h := hiByte hl, l := loByte hl, b := b, f := t.f, wz := if up then s.bc + 1 else s.bc - 1,
        pc := if again then s.pc - 2 else s.pc } ∧
      BlockIoFlags b v (v.toNat + (if up then s.c + 1 else s.c - 1).toNat) t.f)

/-- R383, R391 to R394: one iteration of a block output; the port address has the new `B`. -/
def Obligations.BlockOutputWritesOnePort : Prop :=
  ∀ up rep, HasRule (blockOutForm up rep) [0xED, blockByte up rep 3] 2 0 (fun s t =>
    let b := s.b - 1
    let port := b ++ s.c
    let hl := if up then s.hl + 1 else s.hl - 1
    let again := rep && b != 0
    ∃ v u, s.After [.read s.hl v, .ioWrite port v] (if again then 6 else 1) u ∧
      t = { u with
        h := hiByte hl, l := loByte hl, b := b, f := t.f, wz := if up then port + 1 else port - 1,
        pc := if again then s.pc - 2 else s.pc } ∧
      BlockIoFlags b v (v.toNat + (loByte hl).toNat) t.f)

/-! ### Prefixes (30_encoding.md) -/

/-- R103 item 5, R105: behind an index prefix that changes nothing in it, a main-space instruction means what it means
alone, and so does every ED-space instruction. -/
def Obligations.IgnoredPrefixLeavesTheMeaning : Prop :=
  ∀ (xy : Index) (i : Instr) (s : State),
    (i.unchangedByIndex = true → exec (.asMainSpace xy i) s = exec i s) ∧
    (i.space = .ed → exec (.prefixEdAfterXy xy i) s = exec i s)

/-- R104: a repeated index prefix ends its step with the later prefix pending and the next boundary held off. -/
def Obligations.RepeatedPrefixPendsTheLaterOne : Prop :=
  ∀ xy : Index,
    HasRule (.repeatedPrefixDd xy) [xy.prefixByte, 0xDD] 2 0 (fun s t =>
      t = { s with pfx := some .ix, inhibit := true }) ∧
    HasRule (.repeatedPrefixFd xy) [xy.prefixByte, 0xFD] 2 0 (fun s t =>
      t = { s with pfx := some .iy, inhibit := true })

/-- R90, R96: a prefix byte that has been read goes on to read the rest of the instruction at `PC` and executes the
entry that selects. `pre` are the prefix bytes already read; there always is an instruction that can be read. -/
def Obligations.PrefixByteExecutesTheEntryItSelects : Prop :=
  ∀ p pre, (p, pre) ∈ [(Instr.prefixCb, [0xCB#8]), (.prefixDd, [0xDD]), (.prefixEd, [0xED]), (.prefixFd, [0xFD]),
      (.prefixXyCb .ix, [0xDD, 0xCB]), (.prefixXyCb .iy, [0xFD, 0xCB])] →
    decode pre = .ok (p, []) ∧
    ∀ s : State, (∃ i u, s.HasRead pre i u) ∧
      ∀ i u, s.HasRead pre i u → ∃ t, exec p s = .next t ∧ exec i u = .next t

/-! ### Encoding and decoding -/

/-- R90 to R105: decoding the bytes of a well-formed instruction gives it back, whatever follows them; a prefix byte alone
is its own row. -/
def Obligations.DecodeGivesBackTheEncodedInstruction : Prop :=
  ∀ i : Instr, i.wellFormed = true →
    (i.isBarePrefix = false → ∀ rest, decode (encode i ++ rest) = .ok (i, rest)) ∧
    (i.isBarePrefix = true → decode (encode i) = .ok (i, []))

/-- R90 to R105: no bit of the bytes is dropped: whatever is decoded encodes to the bytes it was decoded from, and is
well formed. -/
def Obligations.EncodeGivesBackTheDecodedBytes : Prop :=
  ∀ (bytes : List Byte) (i : Instr) (rest : List Byte), decode bytes = .ok (i, rest) →
    i.wellFormed = true ∧ encode i ++ rest = bytes

/-- R91, R116 to R118: five bytes are always an instruction, one to four bytes long, or five with a dropped index
prefix. -/
def Obligations.EveryByteSequenceDecodes : Prop :=
  ∀ bytes : List Byte, 5 ≤ bytes.length → ∃ i rest, decode bytes = .ok (i, rest) ∧ i.isBarePrefix = false ∧
    1 ≤ i.length ∧ i.length ≤ 5 ∧ (i.length = 5 → ∃ xy inner, i = .prefixEdAfterXy xy inner)

/-- Words written out bit by bit from the spec's encodings, one or more a family (R98 to R105). -/
def Obligations.SampleWordsDecodeAsTheSpecSays : Prop :=
  decode [0b01000001#8] = .ok (.ldRR .b .c, []) ∧
  decode [0b11011101, 0b01100110, 0b00000101#8] = .ok (.ldRMemXyd .ix .h 0x05, []) ∧
  decode [0b11101101, 0b01111011, 0x00, 0x40#8] = .ok (.ldDdMemNn .sp 0x4000, []) ∧
  decode [0b11101101, 0b10110000#8] = .ok (.ldir, []) ∧
  decode [0b10011010#8] = .ok (.sbcAR .d, []) ∧
  decode [0b11111101, 0b10000101#8] = .ok (.addAP .iy .low, []) ∧
  decode [0b11101101, 0b01111110#8] = .ok (.imN 7, []) ∧
  decode [0b11011101, 0b00101001#8] = .ok (.addXyPp .ix .xy, []) ∧
  decode [0b11011101, 0b11001011, 0x01, 0b00110100#8] = .ok (.sllMemXydR .ix 0x01 .h, []) ∧
  decode [0b11001011, 0b01111110#8] = .ok (.bitBMemHl 7, []) ∧
  decode [0b00111000, 0x7F#8] = .ok (.jrCcE .c 0x7F, []) ∧
  decode [0b11101101, 0b01110001#8] = .ok (.outC0, []) ∧
  decode [0b11011101, 0b11101011#8] = .ok (.asMainSpace .ix .exDeHl, []) ∧
  decode [0b11011101, 0b11111101#8] = .ok (.repeatedPrefixFd .ix, [])

/-! ### Registers and memory -/

/-- 10_state.md R21, R93: writing a register, a pair or a half changes it and what shares its storage, and nothing
else; a pair is its two halves. -/
def Obligations.PairsAreTheirHalves : Prop :=
  (∀ (s : State) r r' v, (s.setReg r v).getReg r' = if r' = r then v else s.getReg r') ∧
  (∀ (s : State) r v, { s.setReg r v with a := s.a, b := s.b, c := s.c, d := s.d, e := s.e, h := s.h, l := s.l } = s) ∧
  (∀ (s : State) (w : Word),
    s.setPair .bc w = (s.setReg .b (hiByte w)).setReg .c (loByte w) ∧
    s.setPair .de w = (s.setReg .d (hiByte w)).setReg .e (loByte w) ∧
    s.setPair .hl w = (s.setReg .h (hiByte w)).setReg .l (loByte w) ∧
    s.setPair .sp w = { s with sp := w } ∧
    s.setStackPair .bc w = s.setPair .bc w ∧ s.setStackPair .de w = s.setPair .de w ∧
    s.setStackPair .hl w = s.setPair .hl w ∧
    s.setStackPair .af w = { s.setReg .a (hiByte w) with f := loByte w }) ∧
  (∀ (s : State) (p : Pair) (w : Word), (s.setPair p w).getPair p = w) ∧
  (∀ (s : State) (qq : StackPair) (w : Word), (s.setStackPair qq w).getStackPair qq = w) ∧
  (∀ (s : State) (w : Word), s.setIndex .ix w = { s with ix := w } ∧ s.setIndex .iy w = { s with iy := w }) ∧
  (∀ (s : State) xy p v, (s.setHalf xy p v).getHalf xy p = v ∧
    (∀ p', p' ≠ p → (s.setHalf xy p v).getHalf xy p' = s.getHalf xy p') ∧
    s.setHalf xy p v = s.setIndex xy ((s.setHalf xy p v).getIndex xy))

/-- 20_memory.md R60, R75: memory is what its 65536 addresses hold: two memories in canonical form that read alike are the
same. -/
def Obligations.MemoryIsWhatItsAddressesHold : Prop :=
  ∀ m m' : Memory, m.wf = true → m'.wf = true → (∀ a : Word, m.read a.toNat = m'.read a.toNat) → m = m'

/-! ### The step -/

/-- R90, with R8, R11, R24 and R27: when a boundary accepts nothing, the machine is not halted and no prefix is pending,
a step reads an instruction at `PC`, byte by byte as the adapter answers (R66), each with the access of its format, and
executes it. `u` is the state with the environment's change of the inputs seen (log 3), `v` the one with the instruction
read. There always is an instruction that can be read. Where the adapter is plain memory, the bytes read are those that
stand at `PC` and after it. -/
def Obligations.StepRunsTheDecodedInstruction : Prop :=
  ∀ s : State,
    let u := s.sampleLines
    (u.inhibit = true ∨ (u.nmiPending = false ∧ (u.intLine && u.iff1) = false)) → u.halt = false → u.pfx = none →
    (∃ i v, ({ u with inhibit := false } : State).HasRead [] i v) ∧
    ∀ i v, ({ u with inhibit := false } : State).HasRead [] i v → step s = exec i v

/-- R90, R104: a step with a prefix pending takes it as read, and goes on with the byte at `PC`. -/
def Obligations.StepResumesAfterAPendingPrefix : Prop :=
  ∀ (s : State) (xy : Index),
    let u := s.sampleLines
    u.inhibit = true → u.halt = false → u.pfx = some xy →
    (∃ i v, ({ u with inhibit := false, pfx := none } : State).HasRead [xy.prefixByte] i v) ∧
    ∀ i v, ({ u with inhibit := false, pfx := none } : State).HasRead [xy.prefixByte] i v → step s = exec i v

/-- R416: the boundary check, the whole of it: `INHIBIT` holds off both inputs once; else the non-maskable one comes
first; else the maskable one, if enabled; else nothing is accepted. -/
def Obligations.BoundaryCheckFollowsItsPriority : Prop :=
  ∀ (s : State) (target : Nat),
    let u := s.sampleLines
    (u.inhibit = true → s.plan target = ({ u with inhibit := false } : State).proceed target) ∧
    (u.inhibit = false → u.nmiPending = true → s.plan target = .accepted (u.accept .nmi)) ∧
    (u.inhibit = false → u.nmiPending = false → u.intLine = true → u.iff1 = true → s.plan target = u.acceptInt) ∧
    (u.inhibit = false → u.nmiPending = false → (u.intLine = false ∨ u.iff1 = false) →
      s.plan target = u.proceed target)

/-- R419, R420, R425: accepting the non-maskable interrupt. -/
def Obligations.NonMaskableInterruptIsAccepted : Prop :=
  ∀ s : State,
    let u := s.sampleLines
    u.inhibit = false → u.nmiPending = true →
    ∃ t v, step s = .next t ∧ u.After [.write (u.sp - 1) (hiByte u.pc), .write (u.sp - 2) (loByte u.pc)] 5 v ∧
      t = { v with
        nmiPending := false, halt := false, iff1 := false, sp := u.sp - 2, pc := 0x0066, wz := 0x0066,
        r := BitVec.ofNat 8 (u.r.toNat / 128 * 128 + (u.r.toNat % 128 + 1) % 128) }

/-- R419, R421, R423, R424, R425: accepting the maskable interrupt in modes 1 and 2. -/
def Obligations.MaskableInterruptIsAccepted : Prop :=
  ∀ s : State,
    let u := s.sampleLines
    let r' := BitVec.ofNat 8 (u.r.toNat / 128 * 128 + (u.r.toNat % 128 + 1) % 128)
    let pushed := [BusAccess.write (u.sp - 1) (hiByte u.pc), .write (u.sp - 2) (loByte u.pc)]
    u.inhibit = false → u.nmiPending = false → u.intLine = true → u.iff1 = true →
    (u.im = .im1 → ∃ t v, step s = .next t ∧ u.After pushed 7 v ∧
      t = { v with
        halt := false, iff1 := false, iff2 := false, sp := u.sp - 2, pc := 0x0038, wz := 0x0038, r := r' }) ∧
    (u.im = .im2 → ∃ t lo hi v, step s = .next t ∧
      (let a := u.i ++ u.cfg.intData
       u.After (pushed ++ [.read a lo, .read (a + 1) hi]) 7 v) ∧
      t = { v with
        halt := false, iff1 := false, iff2 := false, sp := u.sp - 2, pc := hi ++ lo, wz := hi ++ lo, r := r' })

/-- R419, R421, R422, R125: in mode 0 the byte `INT_DATA` is executed as the first byte of an instruction that was not
fetched; the rest of it is read at `PC`. -/
def Obligations.ModeZeroExecutesTheSuppliedByte : Prop :=
  ∀ s : State,
    let u := s.sampleLines
    let v : State := { u.later (2 + u.cfg.tFetch) with
      halt := false, iff1 := false, iff2 := false,
      r := BitVec.ofNat 8 (u.r.toNat / 128 * 128 + (u.r.toNat % 128 + 1) % 128) }
    u.inhibit = false → u.nmiPending = false → u.intLine = true → u.iff1 = true → u.im = .im0 →
    (∃ i w, v.HasRead [u.cfg.intData] i w) ∧
    ∀ i w, v.HasRead [u.cfg.intData] i w → ∃ t, step s = .next t ∧ exec i w = .next t

/-- R269, R39: after `EI` the next boundary accepts nothing, whatever is pending, and the instruction that follows
executes. `INHIBIT` is then 0 again unless that instruction sets it. -/
def Obligations.EnableTakesEffectOneInstructionLate : Prop :=
  ∀ s t : State, exec .ei s = .next t → t.halt = false → t.pfx = none →
    t.iff1 = true ∧ (∃ i v, ({ t.sampleLines with inhibit := false } : State).HasRead [] i v) ∧
    ∀ i v, ({ t.sampleLines with inhibit := false } : State).HasRead [] i v → step t = exec i v

/-- R36, R443: a halted machine that accepts nothing only lets the time go by, up to the target exactly. -/
def Obligations.HaltedMachineOnlyLetsTimePass : Prop :=
  ∀ (s : State) (target : Nat),
    let u := s.sampleLines
    u.halt = true → (u.inhibit = true ∨ (u.nmiPending = false ∧ (u.intLine && u.iff1) = false)) →
    s.cycles < target → s.runUntil target = .next { u with inhibit := false, cycles := target }

/-- R440, R445, R442: `runUntil` as the loop of the spec: without time to go it does nothing; with time to go it makes
one pass and, when that pass neither accepts nor idles nor halts, goes on from there. The costs are positive (R4). -/
def Obligations.RunUntilIsTheSchedulersLoop : Prop :=
  ∀ (s : State) (target : Nat), s.cfg.valid = true →
    (target ≤ s.cycles → s.runUntil target = .next s) ∧
    (s.cycles < target →
      (∀ t, s.plan target = .accepted t → s.runUntil target = .next t) ∧
      (∀ i t, s.plan target = .injected i t → s.runUntil target = exec i t) ∧
      (∀ t, s.plan target = .idle t → s.runUntil target = .next t) ∧
      (∀ i t u, s.plan target = .instr i t → exec i t = .next u →
        s.runUntil target = if u.halt then .next u else u.runUntil target))

/-- R453: one step is what `runUntil(cycles + 1)` does. -/
def Obligations.StepIsRunUntilOneCycleMore : Prop :=
  ∀ s : State, step s = s.runUntil (s.cycles + 1)

/-! ### Whole-machine rules -/

/-- R15, R17, R116, R410: every well-formed instruction and every step answers a next state. -/
def Obligations.NothingFaultsOrIsRefused : Prop :=
  (∀ (i : Instr) (s : State), i.wellFormed = true → ∃ t, exec i s = .next t) ∧
  (∀ s : State, ∃ t, step s = .next t)

/-- What every step keeps (`State.Inv`): 20_memory.md R75, 00_scope.md R4, 10_state.md R34, 30_encoding.md R104,
60_exceptions.md R443. -/
def Obligations.StepKeepsTheInvariant : Prop :=
  ∀ s t : State, s.Inv → step s = .next t → t.Inv

/-- The invariant holds after reset, and after `create` with every valid configuration. -/
def Obligations.ResetMeetsTheInvariant : Prop :=
  State.reset.Inv ∧ ∀ cfg adapter s, State.create cfg adapter = some s → s.Inv

/-- R41, R442: every step takes time. -/
def Obligations.EveryStepTakesTime : Prop :=
  ∀ s t : State, s.cfg.valid = true → step s = .next t → s.cycles < t.cycles

/-- R64, R65, R66, R72, R75, R76, R474: a step makes some calls of the adapter, the adapter answers each of them as it is at
that moment and is changed by nothing else, and the time that passes is the cost of the calls and some internal cycles.
Where the adapter is `RAM64K`, memory is plain memory, every port reads as the byte stated, and no call changes an
interrupt input (R75). How the adapter is represented is the model's choice: logs 1, 2 and 4. -/
def Obligations.EveryAccessGoesThroughTheAdapter : Prop :=
  ∀ s t : State, step s = .next t → ∃ calls ticks,
    t.bus = calls.reverse ++ s.bus ∧ CallsDo s.adapter s.bus s.mem s.answers calls t.mem t.answers ∧
    t.adapter = s.adapter ∧ t.cfg = s.cfg ∧ t.cycles = s.cycles + costOf s.cfg calls ticks ∧
    t.intLine = s.sampleLines.intLine ∧ (t.nmiPending = true → s.sampleLines.nmiPending = true) ∧
    (∀ w, s.adapter = .ram64k w → s.mem.Answers calls t.mem ∧ t.answers = s.answers ∧
      ∀ p v, .ioRead p v ∈ calls → v = w)

/-- R475: the registers, the flags, memory and the calls of a step do not depend on the cost parameters or on the
counter. -/
def Obligations.EffectsDoNotDependOnTheCosts : Prop :=
  let alike := fun s s' : State => s' = { s with
    cycles := s'.cycles
    cfg := { s.cfg with tFetch := s'.cfg.tFetch, tMem := s'.cfg.tMem, tIo := s'.cfg.tIo } }
  ∀ s s' : State, alike s s' → ∃ t t', step s = .next t ∧ step s' = .next t' ∧ alike t t'

/-- 10_state.md R22, R26, R28, R35, R36: only the exchanges touch the alternate bank; the instructions R26 lists do not
write `F`; only those R28 lists write `WZ`; only `IM n` writes `IM`, only `HALT` writes `HALT`, only `LD I,A` writes `I`,
only `LD R,A` writes `R` after the bytes are read, and only `EI`, `DI`, `RETN` and `RETI` write the enables. -/
def Obligations.OnlyTheListedInstructionsWrite : Prop :=
  ∀ (i : Instr) (s t : State), i.isBarePrefix = false → exec i s = .next t →
    (i.entry ≠ .exAfAf → t.altA = s.altA ∧ t.altF = s.altF) ∧
    (i.entry ≠ .exx → t.altB = s.altB ∧ t.altC = s.altC ∧ t.altD = s.altD ∧ t.altE = s.altE ∧ t.altH = s.altH ∧
      t.altL = s.altL) ∧
    (i.keepsFlags = true → t.f = s.f) ∧
    (i.writesWz = false → t.wz = s.wz) ∧
    ((∀ y, i.entry ≠ .imN y) → t.im = s.im) ∧
    (i.entry ≠ .halt → t.halt = s.halt) ∧
    (i.entry ≠ .ldIA → t.i = s.i) ∧
    (i.entry ≠ .ldRfA → t.r = s.r) ∧
    (i.entry ≠ .ei → i.entry ≠ .di → t.iff2 = s.iff2 ∧
      (i.entry ≠ .reti → (∀ y, i.entry ≠ .retn y) → t.iff1 = s.iff1)) ∧
    t.intLine = s.intLine ∧ t.nmiPending = s.nmiPending ∧ t.lineScript = s.lineScript ∧ t.adapter = s.adapter ∧
      t.cfg = s.cfg

/-! ### Reset and the host's operations -/

/-- What reset leaves, the inputs and the adapter apart (10_state.md section 8, 70_reset_and_hazards.md section 1). `PC`,
`SP`, the enables and `HALT` are the source's values; the others are the spec's own choice (its decision D12, "a choice,
not an architected fact"), which the model takes over (log 7). -/
def Obligations.ResetLeavesTheArchitectedValues : Prop :=
  ∀ (s : State) (t0 : Nat),
    let t := s.resetCore t0
    t.pc = 0x0000 ∧ t.sp = 0xFFFF ∧ t.iff1 = false ∧ t.iff2 = false ∧ t.halt = false ∧ t.nmiPending = false ∧
    t.im = .im0 ∧ t.i = 0 ∧ t.r = 0 ∧ t.inhibit = false ∧ t.pfx = none ∧ t.wz = 0xFFFF ∧ t.cycles = t0 ∧
    (∀ r, t.getReg r = 0xFF) ∧ t.f = 0xFF ∧ t.altA = 0xFF ∧ t.altF = 0xFF ∧ t.altB = 0xFF ∧ t.altC = 0xFF ∧
    t.altD = 0xFF ∧ t.altE = 0xFF ∧ t.altH = 0xFF ∧ t.altL = 0xFF ∧ t.ix = 0xFFFF ∧ t.iy = 0xFFFF ∧
    t.intLine = s.intLine ∧ t.mem = s.mem ∧ t.answers = s.answers ∧ t.adapter = s.adapter ∧ t.bus = s.bus ∧ t.cfg = s.cfg

/-- R413, R414, R455, R456: the other operations of the host: creating a core (refused for a cost of 0), the two
inputs, saving and restoring a snapshot. -/
def Obligations.HostOperationsDoWhatTheyName : Prop :=
  (∀ cfg adapter, (State.create cfg adapter = none ↔ cfg.tFetch = 0 ∨ cfg.tMem = 0 ∨ cfg.tIo = 0) ∧
    ∀ s, State.create cfg adapter = some s → s.cfg = cfg ∧ s.adapter = adapter) ∧
  (∀ s : State, s.signalNmi.signalNmi = s.signalNmi ∧ s.signalNmi = { s with nmiPending := true }) ∧
  (∀ (s : State) level, s.setInt level = { s with intLine := level }) ∧
  (∀ s u : State, (u.restore s.save).save = s.save ∧ (u.restore s.save).mem = u.mem ∧
    (u.restore s.save).adapter = u.adapter ∧ s.restore s.save = s) ∧
  (∀ (s : State) x rest, s.lineScript = x :: rest → s.sampleLines =
    { s with lineScript := rest, nmiPending := s.nmiPending || x.nmi, intLine := x.int.getD s.intLine }) ∧
  (∀ s : State, s.lineScript = [] → s.sampleLines = s)
end

