-- ==== Sys2Proof/Laws/Memory.lean ====
section
/-! SUPPORT. Memory: reading after writing, and the canonical form, which every memory operation keeps. -/

namespace Sys2Proof.Machine

open Sys2Proof

/-! ### Reading after writing -/

theorem Memory.read_place (m : Memory) (k : Nat) (v : Byte) (a : Nat) (h : ∀ c ∈ m, c.1 ≠ k) :
    Memory.read (Memory.place (k, v) m) a = if k = a then v else Memory.read m a := by
  induction m with
  | nil => rfl
  | cons x rest ih =>
    obtain ⟨j, w⟩ := x
    have hj : j ≠ k := h (j, w) (by simp)
    have ih' := ih (fun c hc => h c (by simp [hc]))
    by_cases hlt : k < j
    · simp [Memory.place, hlt, Memory.read]
    · simp only [Memory.place, hlt, if_false, Memory.read, ih']
      by_cases hja : j = a
      · subst hja; simp [Ne.symm hj]
      · simp [hja]

theorem Memory.read_filter (m : Memory) (k a : Nat) :
    Memory.read (m.filter (fun c => c.1 != k)) a = if k = a then Memory.unlisted else Memory.read m a := by
  induction m with
  | nil => simp [Memory.read]
  | cons x rest ih =>
    obtain ⟨j, w⟩ := x
    by_cases hj : j = k
    · subst hj
      simp only [List.filter_cons, bne_self_eq_false, Bool.false_eq_true, if_false, ih, Memory.read]
      by_cases h : j = a <;> simp [h]
    · simp only [List.filter_cons, bne_iff_ne, ne_eq, hj, not_false_eq_true, if_true, Memory.read, ih]
      by_cases h : j = a
      · subst h; simp [Ne.symm hj]
      · simp [h]

/-- Reading after a write: the byte written at its own address, and every other byte as it was (20_memory.md R75). -/
theorem Memory.read_write (m : Memory) (k : Nat) (v : Byte) (a : Nat) :
    (m.write k v).read a = if k = a then v else m.read a := by
  simp only [Memory.write]
  split
  · next h => rw [Memory.read_filter]; simp [h]
  · rw [Memory.read_place, Memory.read_filter]
    · split <;> rfl
    · intro c hc; simpa using (List.mem_filter.mp hc).2

@[simp] theorem Memory.read_write_same (m : Memory) (a : Nat) (v : Byte) : (m.write a v).read a = v := by
  simp [Memory.read_write]

theorem Memory.read_write_ne (m : Memory) {k a : Nat} (v : Byte) (h : k ≠ a) : (m.write k v).read a = m.read a := by
  simp [Memory.read_write, h]

/-! ### The canonical form -/

theorem Memory.wfFrom_mono {lo hi : Nat} (h : lo ≤ hi) (m : Memory) (hm : Memory.wfFrom hi m = true) :
    Memory.wfFrom lo m = true := by
  cases m with
  | nil => rfl
  | cons x rest =>
    simp only [Memory.wfFrom, Bool.and_eq_true, decide_eq_true_eq] at hm ⊢
    exact ⟨⟨⟨by omega, hm.1.1.2⟩, hm.1.2⟩, hm.2⟩

theorem Memory.wfFrom_filter (lo : Nat) (m : Memory) (p : Host.Cell → Bool) (hm : Memory.wfFrom lo m = true) :
    Memory.wfFrom lo (m.filter p) = true := by
  induction m generalizing lo with
  | nil => rfl
  | cons x rest ih =>
    simp only [Memory.wfFrom, Bool.and_eq_true, decide_eq_true_eq] at hm
    by_cases hp : p x
    · simp only [List.filter_cons, hp, if_true, Memory.wfFrom, Bool.and_eq_true, decide_eq_true_eq]
      exact ⟨hm.1, ih _ hm.2⟩
    · simp only [List.filter_cons, hp, Bool.false_eq_true, if_false]
      exact Memory.wfFrom_mono (by omega) _ (ih _ hm.2)

theorem Memory.wfFrom_place (lo : Nat) (m : Memory) (k : Nat) (v : Byte) (hlo : lo ≤ k) (hk : k < 65536)
    (hv : v ≠ Memory.unlisted) (hne : ∀ c ∈ m, c.1 ≠ k) (hm : Memory.wfFrom lo m = true) :
    Memory.wfFrom lo (Memory.place (k, v) m) = true := by
  induction m generalizing lo with
  | nil => simp [Memory.place, Memory.wfFrom, hlo, hk, hv]
  | cons x rest ih =>
    simp only [Memory.wfFrom, Bool.and_eq_true, decide_eq_true_eq] at hm
    have hx : x.1 ≠ k := hne x (by simp)
    by_cases hlt : k < x.1
    · simp only [Memory.place, hlt, if_true, Memory.wfFrom, Bool.and_eq_true, decide_eq_true_eq]
      exact ⟨⟨⟨hlo, hk⟩, hv⟩, ⟨⟨by omega, hm.1.1.2⟩, hm.1.2⟩, hm.2⟩
    · simp only [Memory.place, hlt, if_false, Memory.wfFrom, Bool.and_eq_true, decide_eq_true_eq]
      exact ⟨hm.1, ih _ (by omega) (fun c hc => hne c (by simp [hc])) hm.2⟩

/-- A write keeps the canonical form. -/
theorem Memory.wf_write (m : Memory) (a : Word) (v : Byte) (hm : m.wf = true) : (m.write a.toNat v).wf = true := by
  simp only [Memory.write, Memory.wf] at *
  split
  · exact Memory.wfFrom_filter _ _ _ hm
  · next hv =>
    refine Memory.wfFrom_place _ _ _ _ (Nat.zero_le _) a.isLt hv ?_ (Memory.wfFrom_filter _ _ _ hm)
    intro c hc; simpa using (List.mem_filter.mp hc).2

/-- Memory after reset is in canonical form. -/
theorem Memory.wf_reset : State.reset.mem.wf = true := rfl

theorem State.wf_poke (s : State) (a : Word) (v : Byte) (h : s.mem.wf = true) : (s.poke a v).mem.wf = true :=
  Memory.wf_write _ _ _ h

/-- Whatever the adapter does with a write, it keeps the canonical form. -/
theorem Adapter.wf_store (ad : Adapter) (m : Memory) (a : Word) (v : Byte) (h : m.wf = true) :
    (ad.store m a v).wf = true := by
  unfold Adapter.store
  split
  · exact Memory.wf_write _ _ _ h
  · exact h
  · exact h

/-- What each address reads as after a write: plain memory has taken the byte, and nothing else is changed. -/
theorem Adapter.read_store (ad : Adapter) (m : Memory) (a : Word) (v : Byte) (k : Nat) :
    (ad.store m a v).read k = if k = a.toNat ∧ ad.placeOf a = .ram then v else m.read k := by
  unfold Adapter.store
  cases h : ad.placeOf a <;> simp [Memory.read_write, eq_comm]

/-- The reference adapter is plain memory everywhere (20_memory.md R75). -/
@[simp] theorem Adapter.placeOf_ram64k (w : Byte) (a : Word) : (Adapter.ram64k w).placeOf a = .ram := rfl

@[simp] theorem Adapter.isDevice_ram64k (w : Byte) (a : Word) : (Adapter.ram64k w).isDevice a = false := rfl

@[simp] theorem Adapter.store_ram64k (w : Byte) (m : Memory) (a : Word) (v : Byte) :
    (Adapter.ram64k w).store m a v = m.write a.toNat v := rfl

theorem State.wf_memWrite (s : State) (a : Word) (v : Byte) (h : s.mem.wf = true) : (s.memWrite a v).mem.wf = true :=
  Adapter.wf_store _ _ _ _ h

theorem State.wf_memWrite16 (s : State) (a w : Word) (h : s.mem.wf = true) : (s.memWrite16 a w).mem.wf = true :=
  State.wf_memWrite _ _ _ (State.wf_memWrite _ _ _ h)

theorem State.wf_push16 (s : State) (w : Word) (h : s.mem.wf = true) : (s.push16 w).mem.wf = true :=
  State.wf_memWrite _ _ _ (State.wf_memWrite _ _ _ h)

end Sys2Proof.Machine
end

