-- ==== Sys2Proof/Laws/State.lean ====
section
/-! SUPPORT. One lemma for each field of the state under each named update: a field the update writes, with its new
value, and every other field as it was. -/

namespace Sys2Proof.Machine

open Sys2Proof

/-! ### `setF` -/

@[simp] theorem State.setF_a (s : State) (v : Byte) : (s.setF v).a = s.a := rfl
@[simp] theorem State.setF_f (s : State) (v : Byte) : (s.setF v).f = v := rfl
@[simp] theorem State.setF_b (s : State) (v : Byte) : (s.setF v).b = s.b := rfl
@[simp] theorem State.setF_c (s : State) (v : Byte) : (s.setF v).c = s.c := rfl
@[simp] theorem State.setF_d (s : State) (v : Byte) : (s.setF v).d = s.d := rfl
@[simp] theorem State.setF_e (s : State) (v : Byte) : (s.setF v).e = s.e := rfl
@[simp] theorem State.setF_h (s : State) (v : Byte) : (s.setF v).h = s.h := rfl
@[simp] theorem State.setF_l (s : State) (v : Byte) : (s.setF v).l = s.l := rfl
@[simp] theorem State.setF_altA (s : State) (v : Byte) : (s.setF v).altA = s.altA := rfl
@[simp] theorem State.setF_altF (s : State) (v : Byte) : (s.setF v).altF = s.altF := rfl
@[simp] theorem State.setF_altB (s : State) (v : Byte) : (s.setF v).altB = s.altB := rfl
@[simp] theorem State.setF_altC (s : State) (v : Byte) : (s.setF v).altC = s.altC := rfl
@[simp] theorem State.setF_altD (s : State) (v : Byte) : (s.setF v).altD = s.altD := rfl
@[simp] theorem State.setF_altE (s : State) (v : Byte) : (s.setF v).altE = s.altE := rfl
@[simp] theorem State.setF_altH (s : State) (v : Byte) : (s.setF v).altH = s.altH := rfl
@[simp] theorem State.setF_altL (s : State) (v : Byte) : (s.setF v).altL = s.altL := rfl
@[simp] theorem State.setF_ix (s : State) (v : Byte) : (s.setF v).ix = s.ix := rfl
@[simp] theorem State.setF_iy (s : State) (v : Byte) : (s.setF v).iy = s.iy := rfl
@[simp] theorem State.setF_sp (s : State) (v : Byte) : (s.setF v).sp = s.sp := rfl
@[simp] theorem State.setF_pc (s : State) (v : Byte) : (s.setF v).pc = s.pc := rfl
@[simp] theorem State.setF_i (s : State) (v : Byte) : (s.setF v).i = s.i := rfl
@[simp] theorem State.setF_r (s : State) (v : Byte) : (s.setF v).r = s.r := rfl
@[simp] theorem State.setF_iff1 (s : State) (v : Byte) : (s.setF v).iff1 = s.iff1 := rfl
@[simp] theorem State.setF_iff2 (s : State) (v : Byte) : (s.setF v).iff2 = s.iff2 := rfl
@[simp] theorem State.setF_im (s : State) (v : Byte) : (s.setF v).im = s.im := rfl
@[simp] theorem State.setF_halt (s : State) (v : Byte) : (s.setF v).halt = s.halt := rfl
@[simp] theorem State.setF_nmiPending (s : State) (v : Byte) : (s.setF v).nmiPending = s.nmiPending := rfl
@[simp] theorem State.setF_intLine (s : State) (v : Byte) : (s.setF v).intLine = s.intLine := rfl
@[simp] theorem State.setF_inhibit (s : State) (v : Byte) : (s.setF v).inhibit = s.inhibit := rfl
@[simp] theorem State.setF_pfx (s : State) (v : Byte) : (s.setF v).pfx = s.pfx := rfl
@[simp] theorem State.setF_wz (s : State) (v : Byte) : (s.setF v).wz = s.wz := rfl
@[simp] theorem State.setF_cycles (s : State) (v : Byte) : (s.setF v).cycles = s.cycles := rfl
@[simp] theorem State.setF_cfg (s : State) (v : Byte) : (s.setF v).cfg = s.cfg := rfl
@[simp] theorem State.setF_adapter (s : State) (v : Byte) : (s.setF v).adapter = s.adapter := rfl
@[simp] theorem State.setF_mem (s : State) (v : Byte) : (s.setF v).mem = s.mem := rfl
@[simp] theorem State.setF_answers (s : State) (v : Byte) : (s.setF v).answers = s.answers := rfl
@[simp] theorem State.setF_lineScript (s : State) (v : Byte) : (s.setF v).lineScript = s.lineScript := rfl
@[simp] theorem State.setF_bus (s : State) (v : Byte) : (s.setF v).bus = s.bus := rfl

/-! ### `setSp` -/

@[simp] theorem State.setSp_a (s : State) (w : Word) : (s.setSp w).a = s.a := rfl
@[simp] theorem State.setSp_f (s : State) (w : Word) : (s.setSp w).f = s.f := rfl
@[simp] theorem State.setSp_b (s : State) (w : Word) : (s.setSp w).b = s.b := rfl
@[simp] theorem State.setSp_c (s : State) (w : Word) : (s.setSp w).c = s.c := rfl
@[simp] theorem State.setSp_d (s : State) (w : Word) : (s.setSp w).d = s.d := rfl
@[simp] theorem State.setSp_e (s : State) (w : Word) : (s.setSp w).e = s.e := rfl
@[simp] theorem State.setSp_h (s : State) (w : Word) : (s.setSp w).h = s.h := rfl
@[simp] theorem State.setSp_l (s : State) (w : Word) : (s.setSp w).l = s.l := rfl
@[simp] theorem State.setSp_altA (s : State) (w : Word) : (s.setSp w).altA = s.altA := rfl
@[simp] theorem State.setSp_altF (s : State) (w : Word) : (s.setSp w).altF = s.altF := rfl
@[simp] theorem State.setSp_altB (s : State) (w : Word) : (s.setSp w).altB = s.altB := rfl
@[simp] theorem State.setSp_altC (s : State) (w : Word) : (s.setSp w).altC = s.altC := rfl
@[simp] theorem State.setSp_altD (s : State) (w : Word) : (s.setSp w).altD = s.altD := rfl
@[simp] theorem State.setSp_altE (s : State) (w : Word) : (s.setSp w).altE = s.altE := rfl
@[simp] theorem State.setSp_altH (s : State) (w : Word) : (s.setSp w).altH = s.altH := rfl
@[simp] theorem State.setSp_altL (s : State) (w : Word) : (s.setSp w).altL = s.altL := rfl
@[simp] theorem State.setSp_ix (s : State) (w : Word) : (s.setSp w).ix = s.ix := rfl
@[simp] theorem State.setSp_iy (s : State) (w : Word) : (s.setSp w).iy = s.iy := rfl
@[simp] theorem State.setSp_sp (s : State) (w : Word) : (s.setSp w).sp = w := rfl
@[simp] theorem State.setSp_pc (s : State) (w : Word) : (s.setSp w).pc = s.pc := rfl
@[simp] theorem State.setSp_i (s : State) (w : Word) : (s.setSp w).i = s.i := rfl
@[simp] theorem State.setSp_r (s : State) (w : Word) : (s.setSp w).r = s.r := rfl
@[simp] theorem State.setSp_iff1 (s : State) (w : Word) : (s.setSp w).iff1 = s.iff1 := rfl
@[simp] theorem State.setSp_iff2 (s : State) (w : Word) : (s.setSp w).iff2 = s.iff2 := rfl
@[simp] theorem State.setSp_im (s : State) (w : Word) : (s.setSp w).im = s.im := rfl
@[simp] theorem State.setSp_halt (s : State) (w : Word) : (s.setSp w).halt = s.halt := rfl
@[simp] theorem State.setSp_nmiPending (s : State) (w : Word) : (s.setSp w).nmiPending = s.nmiPending := rfl
@[simp] theorem State.setSp_intLine (s : State) (w : Word) : (s.setSp w).intLine = s.intLine := rfl
@[simp] theorem State.setSp_inhibit (s : State) (w : Word) : (s.setSp w).inhibit = s.inhibit := rfl
@[simp] theorem State.setSp_pfx (s : State) (w : Word) : (s.setSp w).pfx = s.pfx := rfl
@[simp] theorem State.setSp_wz (s : State) (w : Word) : (s.setSp w).wz = s.wz := rfl
@[simp] theorem State.setSp_cycles (s : State) (w : Word) : (s.setSp w).cycles = s.cycles := rfl
@[simp] theorem State.setSp_cfg (s : State) (w : Word) : (s.setSp w).cfg = s.cfg := rfl
@[simp] theorem State.setSp_adapter (s : State) (w : Word) : (s.setSp w).adapter = s.adapter := rfl
@[simp] theorem State.setSp_mem (s : State) (w : Word) : (s.setSp w).mem = s.mem := rfl
@[simp] theorem State.setSp_answers (s : State) (w : Word) : (s.setSp w).answers = s.answers := rfl
@[simp] theorem State.setSp_lineScript (s : State) (w : Word) : (s.setSp w).lineScript = s.lineScript := rfl
@[simp] theorem State.setSp_bus (s : State) (w : Word) : (s.setSp w).bus = s.bus := rfl

/-! ### `setPc` -/

@[simp] theorem State.setPc_a (s : State) (w : Word) : (s.setPc w).a = s.a := rfl
@[simp] theorem State.setPc_f (s : State) (w : Word) : (s.setPc w).f = s.f := rfl
@[simp] theorem State.setPc_b (s : State) (w : Word) : (s.setPc w).b = s.b := rfl
@[simp] theorem State.setPc_c (s : State) (w : Word) : (s.setPc w).c = s.c := rfl
@[simp] theorem State.setPc_d (s : State) (w : Word) : (s.setPc w).d = s.d := rfl
@[simp] theorem State.setPc_e (s : State) (w : Word) : (s.setPc w).e = s.e := rfl
@[simp] theorem State.setPc_h (s : State) (w : Word) : (s.setPc w).h = s.h := rfl
@[simp] theorem State.setPc_l (s : State) (w : Word) : (s.setPc w).l = s.l := rfl
@[simp] theorem State.setPc_altA (s : State) (w : Word) : (s.setPc w).altA = s.altA := rfl
@[simp] theorem State.setPc_altF (s : State) (w : Word) : (s.setPc w).altF = s.altF := rfl
@[simp] theorem State.setPc_altB (s : State) (w : Word) : (s.setPc w).altB = s.altB := rfl
@[simp] theorem State.setPc_altC (s : State) (w : Word) : (s.setPc w).altC = s.altC := rfl
@[simp] theorem State.setPc_altD (s : State) (w : Word) : (s.setPc w).altD = s.altD := rfl
@[simp] theorem State.setPc_altE (s : State) (w : Word) : (s.setPc w).altE = s.altE := rfl
@[simp] theorem State.setPc_altH (s : State) (w : Word) : (s.setPc w).altH = s.altH := rfl
@[simp] theorem State.setPc_altL (s : State) (w : Word) : (s.setPc w).altL = s.altL := rfl
@[simp] theorem State.setPc_ix (s : State) (w : Word) : (s.setPc w).ix = s.ix := rfl
@[simp] theorem State.setPc_iy (s : State) (w : Word) : (s.setPc w).iy = s.iy := rfl
@[simp] theorem State.setPc_sp (s : State) (w : Word) : (s.setPc w).sp = s.sp := rfl
@[simp] theorem State.setPc_pc (s : State) (w : Word) : (s.setPc w).pc = w := rfl
@[simp] theorem State.setPc_i (s : State) (w : Word) : (s.setPc w).i = s.i := rfl
@[simp] theorem State.setPc_r (s : State) (w : Word) : (s.setPc w).r = s.r := rfl
@[simp] theorem State.setPc_iff1 (s : State) (w : Word) : (s.setPc w).iff1 = s.iff1 := rfl
@[simp] theorem State.setPc_iff2 (s : State) (w : Word) : (s.setPc w).iff2 = s.iff2 := rfl
@[simp] theorem State.setPc_im (s : State) (w : Word) : (s.setPc w).im = s.im := rfl
@[simp] theorem State.setPc_halt (s : State) (w : Word) : (s.setPc w).halt = s.halt := rfl
@[simp] theorem State.setPc_nmiPending (s : State) (w : Word) : (s.setPc w).nmiPending = s.nmiPending := rfl
@[simp] theorem State.setPc_intLine (s : State) (w : Word) : (s.setPc w).intLine = s.intLine := rfl
@[simp] theorem State.setPc_inhibit (s : State) (w : Word) : (s.setPc w).inhibit = s.inhibit := rfl
@[simp] theorem State.setPc_pfx (s : State) (w : Word) : (s.setPc w).pfx = s.pfx := rfl
@[simp] theorem State.setPc_wz (s : State) (w : Word) : (s.setPc w).wz = s.wz := rfl
@[simp] theorem State.setPc_cycles (s : State) (w : Word) : (s.setPc w).cycles = s.cycles := rfl
@[simp] theorem State.setPc_cfg (s : State) (w : Word) : (s.setPc w).cfg = s.cfg := rfl
@[simp] theorem State.setPc_adapter (s : State) (w : Word) : (s.setPc w).adapter = s.adapter := rfl
@[simp] theorem State.setPc_mem (s : State) (w : Word) : (s.setPc w).mem = s.mem := rfl
@[simp] theorem State.setPc_answers (s : State) (w : Word) : (s.setPc w).answers = s.answers := rfl
@[simp] theorem State.setPc_lineScript (s : State) (w : Word) : (s.setPc w).lineScript = s.lineScript := rfl
@[simp] theorem State.setPc_bus (s : State) (w : Word) : (s.setPc w).bus = s.bus := rfl

/-! ### `setWz` -/

@[simp] theorem State.setWz_a (s : State) (w : Word) : (s.setWz w).a = s.a := rfl
@[simp] theorem State.setWz_f (s : State) (w : Word) : (s.setWz w).f = s.f := rfl
@[simp] theorem State.setWz_b (s : State) (w : Word) : (s.setWz w).b = s.b := rfl
@[simp] theorem State.setWz_c (s : State) (w : Word) : (s.setWz w).c = s.c := rfl
@[simp] theorem State.setWz_d (s : State) (w : Word) : (s.setWz w).d = s.d := rfl
@[simp] theorem State.setWz_e (s : State) (w : Word) : (s.setWz w).e = s.e := rfl
@[simp] theorem State.setWz_h (s : State) (w : Word) : (s.setWz w).h = s.h := rfl
@[simp] theorem State.setWz_l (s : State) (w : Word) : (s.setWz w).l = s.l := rfl
@[simp] theorem State.setWz_altA (s : State) (w : Word) : (s.setWz w).altA = s.altA := rfl
@[simp] theorem State.setWz_altF (s : State) (w : Word) : (s.setWz w).altF = s.altF := rfl
@[simp] theorem State.setWz_altB (s : State) (w : Word) : (s.setWz w).altB = s.altB := rfl
@[simp] theorem State.setWz_altC (s : State) (w : Word) : (s.setWz w).altC = s.altC := rfl
@[simp] theorem State.setWz_altD (s : State) (w : Word) : (s.setWz w).altD = s.altD := rfl
@[simp] theorem State.setWz_altE (s : State) (w : Word) : (s.setWz w).altE = s.altE := rfl
@[simp] theorem State.setWz_altH (s : State) (w : Word) : (s.setWz w).altH = s.altH := rfl
@[simp] theorem State.setWz_altL (s : State) (w : Word) : (s.setWz w).altL = s.altL := rfl
@[simp] theorem State.setWz_ix (s : State) (w : Word) : (s.setWz w).ix = s.ix := rfl
@[simp] theorem State.setWz_iy (s : State) (w : Word) : (s.setWz w).iy = s.iy := rfl
@[simp] theorem State.setWz_sp (s : State) (w : Word) : (s.setWz w).sp = s.sp := rfl
@[simp] theorem State.setWz_pc (s : State) (w : Word) : (s.setWz w).pc = s.pc := rfl
@[simp] theorem State.setWz_i (s : State) (w : Word) : (s.setWz w).i = s.i := rfl
@[simp] theorem State.setWz_r (s : State) (w : Word) : (s.setWz w).r = s.r := rfl
@[simp] theorem State.setWz_iff1 (s : State) (w : Word) : (s.setWz w).iff1 = s.iff1 := rfl
@[simp] theorem State.setWz_iff2 (s : State) (w : Word) : (s.setWz w).iff2 = s.iff2 := rfl
@[simp] theorem State.setWz_im (s : State) (w : Word) : (s.setWz w).im = s.im := rfl
@[simp] theorem State.setWz_halt (s : State) (w : Word) : (s.setWz w).halt = s.halt := rfl
@[simp] theorem State.setWz_nmiPending (s : State) (w : Word) : (s.setWz w).nmiPending = s.nmiPending := rfl
@[simp] theorem State.setWz_intLine (s : State) (w : Word) : (s.setWz w).intLine = s.intLine := rfl
@[simp] theorem State.setWz_inhibit (s : State) (w : Word) : (s.setWz w).inhibit = s.inhibit := rfl
@[simp] theorem State.setWz_pfx (s : State) (w : Word) : (s.setWz w).pfx = s.pfx := rfl
@[simp] theorem State.setWz_wz (s : State) (w : Word) : (s.setWz w).wz = w := rfl
@[simp] theorem State.setWz_cycles (s : State) (w : Word) : (s.setWz w).cycles = s.cycles := rfl
@[simp] theorem State.setWz_cfg (s : State) (w : Word) : (s.setWz w).cfg = s.cfg := rfl
@[simp] theorem State.setWz_adapter (s : State) (w : Word) : (s.setWz w).adapter = s.adapter := rfl
@[simp] theorem State.setWz_mem (s : State) (w : Word) : (s.setWz w).mem = s.mem := rfl
@[simp] theorem State.setWz_answers (s : State) (w : Word) : (s.setWz w).answers = s.answers := rfl
@[simp] theorem State.setWz_lineScript (s : State) (w : Word) : (s.setWz w).lineScript = s.lineScript := rfl
@[simp] theorem State.setWz_bus (s : State) (w : Word) : (s.setWz w).bus = s.bus := rfl

/-! ### `setBc` -/

@[simp] theorem State.setBc_a (s : State) (w : Word) : (s.setBc w).a = s.a := rfl
@[simp] theorem State.setBc_f (s : State) (w : Word) : (s.setBc w).f = s.f := rfl
@[simp] theorem State.setBc_b (s : State) (w : Word) : (s.setBc w).b = hiByte w := rfl
@[simp] theorem State.setBc_c (s : State) (w : Word) : (s.setBc w).c = loByte w := rfl
@[simp] theorem State.setBc_d (s : State) (w : Word) : (s.setBc w).d = s.d := rfl
@[simp] theorem State.setBc_e (s : State) (w : Word) : (s.setBc w).e = s.e := rfl
@[simp] theorem State.setBc_h (s : State) (w : Word) : (s.setBc w).h = s.h := rfl
@[simp] theorem State.setBc_l (s : State) (w : Word) : (s.setBc w).l = s.l := rfl
@[simp] theorem State.setBc_altA (s : State) (w : Word) : (s.setBc w).altA = s.altA := rfl
@[simp] theorem State.setBc_altF (s : State) (w : Word) : (s.setBc w).altF = s.altF := rfl
@[simp] theorem State.setBc_altB (s : State) (w : Word) : (s.setBc w).altB = s.altB := rfl
@[simp] theorem State.setBc_altC (s : State) (w : Word) : (s.setBc w).altC = s.altC := rfl
@[simp] theorem State.setBc_altD (s : State) (w : Word) : (s.setBc w).altD = s.altD := rfl
@[simp] theorem State.setBc_altE (s : State) (w : Word) : (s.setBc w).altE = s.altE := rfl
@[simp] theorem State.setBc_altH (s : State) (w : Word) : (s.setBc w).altH = s.altH := rfl
@[simp] theorem State.setBc_altL (s : State) (w : Word) : (s.setBc w).altL = s.altL := rfl
@[simp] theorem State.setBc_ix (s : State) (w : Word) : (s.setBc w).ix = s.ix := rfl
@[simp] theorem State.setBc_iy (s : State) (w : Word) : (s.setBc w).iy = s.iy := rfl
@[simp] theorem State.setBc_sp (s : State) (w : Word) : (s.setBc w).sp = s.sp := rfl
@[simp] theorem State.setBc_pc (s : State) (w : Word) : (s.setBc w).pc = s.pc := rfl
@[simp] theorem State.setBc_i (s : State) (w : Word) : (s.setBc w).i = s.i := rfl
@[simp] theorem State.setBc_r (s : State) (w : Word) : (s.setBc w).r = s.r := rfl
@[simp] theorem State.setBc_iff1 (s : State) (w : Word) : (s.setBc w).iff1 = s.iff1 := rfl
@[simp] theorem State.setBc_iff2 (s : State) (w : Word) : (s.setBc w).iff2 = s.iff2 := rfl
@[simp] theorem State.setBc_im (s : State) (w : Word) : (s.setBc w).im = s.im := rfl
@[simp] theorem State.setBc_halt (s : State) (w : Word) : (s.setBc w).halt = s.halt := rfl
@[simp] theorem State.setBc_nmiPending (s : State) (w : Word) : (s.setBc w).nmiPending = s.nmiPending := rfl
@[simp] theorem State.setBc_intLine (s : State) (w : Word) : (s.setBc w).intLine = s.intLine := rfl
@[simp] theorem State.setBc_inhibit (s : State) (w : Word) : (s.setBc w).inhibit = s.inhibit := rfl
@[simp] theorem State.setBc_pfx (s : State) (w : Word) : (s.setBc w).pfx = s.pfx := rfl
@[simp] theorem State.setBc_wz (s : State) (w : Word) : (s.setBc w).wz = s.wz := rfl
@[simp] theorem State.setBc_cycles (s : State) (w : Word) : (s.setBc w).cycles = s.cycles := rfl
@[simp] theorem State.setBc_cfg (s : State) (w : Word) : (s.setBc w).cfg = s.cfg := rfl
@[simp] theorem State.setBc_adapter (s : State) (w : Word) : (s.setBc w).adapter = s.adapter := rfl
@[simp] theorem State.setBc_mem (s : State) (w : Word) : (s.setBc w).mem = s.mem := rfl
@[simp] theorem State.setBc_answers (s : State) (w : Word) : (s.setBc w).answers = s.answers := rfl
@[simp] theorem State.setBc_lineScript (s : State) (w : Word) : (s.setBc w).lineScript = s.lineScript := rfl
@[simp] theorem State.setBc_bus (s : State) (w : Word) : (s.setBc w).bus = s.bus := rfl

/-! ### `setDe` -/

@[simp] theorem State.setDe_a (s : State) (w : Word) : (s.setDe w).a = s.a := rfl
@[simp] theorem State.setDe_f (s : State) (w : Word) : (s.setDe w).f = s.f := rfl
@[simp] theorem State.setDe_b (s : State) (w : Word) : (s.setDe w).b = s.b := rfl
@[simp] theorem State.setDe_c (s : State) (w : Word) : (s.setDe w).c = s.c := rfl
@[simp] theorem State.setDe_d (s : State) (w : Word) : (s.setDe w).d = hiByte w := rfl
@[simp] theorem State.setDe_e (s : State) (w : Word) : (s.setDe w).e = loByte w := rfl
@[simp] theorem State.setDe_h (s : State) (w : Word) : (s.setDe w).h = s.h := rfl
@[simp] theorem State.setDe_l (s : State) (w : Word) : (s.setDe w).l = s.l := rfl
@[simp] theorem State.setDe_altA (s : State) (w : Word) : (s.setDe w).altA = s.altA := rfl
@[simp] theorem State.setDe_altF (s : State) (w : Word) : (s.setDe w).altF = s.altF := rfl
@[simp] theorem State.setDe_altB (s : State) (w : Word) : (s.setDe w).altB = s.altB := rfl
@[simp] theorem State.setDe_altC (s : State) (w : Word) : (s.setDe w).altC = s.altC := rfl
@[simp] theorem State.setDe_altD (s : State) (w : Word) : (s.setDe w).altD = s.altD := rfl
@[simp] theorem State.setDe_altE (s : State) (w : Word) : (s.setDe w).altE = s.altE := rfl
@[simp] theorem State.setDe_altH (s : State) (w : Word) : (s.setDe w).altH = s.altH := rfl
@[simp] theorem State.setDe_altL (s : State) (w : Word) : (s.setDe w).altL = s.altL := rfl
@[simp] theorem State.setDe_ix (s : State) (w : Word) : (s.setDe w).ix = s.ix := rfl
@[simp] theorem State.setDe_iy (s : State) (w : Word) : (s.setDe w).iy = s.iy := rfl
@[simp] theorem State.setDe_sp (s : State) (w : Word) : (s.setDe w).sp = s.sp := rfl
@[simp] theorem State.setDe_pc (s : State) (w : Word) : (s.setDe w).pc = s.pc := rfl
@[simp] theorem State.setDe_i (s : State) (w : Word) : (s.setDe w).i = s.i := rfl
@[simp] theorem State.setDe_r (s : State) (w : Word) : (s.setDe w).r = s.r := rfl
@[simp] theorem State.setDe_iff1 (s : State) (w : Word) : (s.setDe w).iff1 = s.iff1 := rfl
@[simp] theorem State.setDe_iff2 (s : State) (w : Word) : (s.setDe w).iff2 = s.iff2 := rfl
@[simp] theorem State.setDe_im (s : State) (w : Word) : (s.setDe w).im = s.im := rfl
@[simp] theorem State.setDe_halt (s : State) (w : Word) : (s.setDe w).halt = s.halt := rfl
@[simp] theorem State.setDe_nmiPending (s : State) (w : Word) : (s.setDe w).nmiPending = s.nmiPending := rfl
@[simp] theorem State.setDe_intLine (s : State) (w : Word) : (s.setDe w).intLine = s.intLine := rfl
@[simp] theorem State.setDe_inhibit (s : State) (w : Word) : (s.setDe w).inhibit = s.inhibit := rfl
@[simp] theorem State.setDe_pfx (s : State) (w : Word) : (s.setDe w).pfx = s.pfx := rfl
@[simp] theorem State.setDe_wz (s : State) (w : Word) : (s.setDe w).wz = s.wz := rfl
@[simp] theorem State.setDe_cycles (s : State) (w : Word) : (s.setDe w).cycles = s.cycles := rfl
@[simp] theorem State.setDe_cfg (s : State) (w : Word) : (s.setDe w).cfg = s.cfg := rfl
@[simp] theorem State.setDe_adapter (s : State) (w : Word) : (s.setDe w).adapter = s.adapter := rfl
@[simp] theorem State.setDe_mem (s : State) (w : Word) : (s.setDe w).mem = s.mem := rfl
@[simp] theorem State.setDe_answers (s : State) (w : Word) : (s.setDe w).answers = s.answers := rfl
@[simp] theorem State.setDe_lineScript (s : State) (w : Word) : (s.setDe w).lineScript = s.lineScript := rfl
@[simp] theorem State.setDe_bus (s : State) (w : Word) : (s.setDe w).bus = s.bus := rfl

/-! ### `setHl` -/

@[simp] theorem State.setHl_a (s : State) (w : Word) : (s.setHl w).a = s.a := rfl
@[simp] theorem State.setHl_f (s : State) (w : Word) : (s.setHl w).f = s.f := rfl
@[simp] theorem State.setHl_b (s : State) (w : Word) : (s.setHl w).b = s.b := rfl
@[simp] theorem State.setHl_c (s : State) (w : Word) : (s.setHl w).c = s.c := rfl
@[simp] theorem State.setHl_d (s : State) (w : Word) : (s.setHl w).d = s.d := rfl
@[simp] theorem State.setHl_e (s : State) (w : Word) : (s.setHl w).e = s.e := rfl
@[simp] theorem State.setHl_h (s : State) (w : Word) : (s.setHl w).h = hiByte w := rfl
@[simp] theorem State.setHl_l (s : State) (w : Word) : (s.setHl w).l = loByte w := rfl
@[simp] theorem State.setHl_altA (s : State) (w : Word) : (s.setHl w).altA = s.altA := rfl
@[simp] theorem State.setHl_altF (s : State) (w : Word) : (s.setHl w).altF = s.altF := rfl
@[simp] theorem State.setHl_altB (s : State) (w : Word) : (s.setHl w).altB = s.altB := rfl
@[simp] theorem State.setHl_altC (s : State) (w : Word) : (s.setHl w).altC = s.altC := rfl
@[simp] theorem State.setHl_altD (s : State) (w : Word) : (s.setHl w).altD = s.altD := rfl
@[simp] theorem State.setHl_altE (s : State) (w : Word) : (s.setHl w).altE = s.altE := rfl
@[simp] theorem State.setHl_altH (s : State) (w : Word) : (s.setHl w).altH = s.altH := rfl
@[simp] theorem State.setHl_altL (s : State) (w : Word) : (s.setHl w).altL = s.altL := rfl
@[simp] theorem State.setHl_ix (s : State) (w : Word) : (s.setHl w).ix = s.ix := rfl
@[simp] theorem State.setHl_iy (s : State) (w : Word) : (s.setHl w).iy = s.iy := rfl
@[simp] theorem State.setHl_sp (s : State) (w : Word) : (s.setHl w).sp = s.sp := rfl
@[simp] theorem State.setHl_pc (s : State) (w : Word) : (s.setHl w).pc = s.pc := rfl
@[simp] theorem State.setHl_i (s : State) (w : Word) : (s.setHl w).i = s.i := rfl
@[simp] theorem State.setHl_r (s : State) (w : Word) : (s.setHl w).r = s.r := rfl
@[simp] theorem State.setHl_iff1 (s : State) (w : Word) : (s.setHl w).iff1 = s.iff1 := rfl
@[simp] theorem State.setHl_iff2 (s : State) (w : Word) : (s.setHl w).iff2 = s.iff2 := rfl
@[simp] theorem State.setHl_im (s : State) (w : Word) : (s.setHl w).im = s.im := rfl
@[simp] theorem State.setHl_halt (s : State) (w : Word) : (s.setHl w).halt = s.halt := rfl
@[simp] theorem State.setHl_nmiPending (s : State) (w : Word) : (s.setHl w).nmiPending = s.nmiPending := rfl
@[simp] theorem State.setHl_intLine (s : State) (w : Word) : (s.setHl w).intLine = s.intLine := rfl
@[simp] theorem State.setHl_inhibit (s : State) (w : Word) : (s.setHl w).inhibit = s.inhibit := rfl
@[simp] theorem State.setHl_pfx (s : State) (w : Word) : (s.setHl w).pfx = s.pfx := rfl
@[simp] theorem State.setHl_wz (s : State) (w : Word) : (s.setHl w).wz = s.wz := rfl
@[simp] theorem State.setHl_cycles (s : State) (w : Word) : (s.setHl w).cycles = s.cycles := rfl
@[simp] theorem State.setHl_cfg (s : State) (w : Word) : (s.setHl w).cfg = s.cfg := rfl
@[simp] theorem State.setHl_adapter (s : State) (w : Word) : (s.setHl w).adapter = s.adapter := rfl
@[simp] theorem State.setHl_mem (s : State) (w : Word) : (s.setHl w).mem = s.mem := rfl
@[simp] theorem State.setHl_answers (s : State) (w : Word) : (s.setHl w).answers = s.answers := rfl
@[simp] theorem State.setHl_lineScript (s : State) (w : Word) : (s.setHl w).lineScript = s.lineScript := rfl
@[simp] theorem State.setHl_bus (s : State) (w : Word) : (s.setHl w).bus = s.bus := rfl

/-! ### `setAf` -/

@[simp] theorem State.setAf_a (s : State) (w : Word) : (s.setAf w).a = hiByte w := rfl
@[simp] theorem State.setAf_f (s : State) (w : Word) : (s.setAf w).f = loByte w := rfl
@[simp] theorem State.setAf_b (s : State) (w : Word) : (s.setAf w).b = s.b := rfl
@[simp] theorem State.setAf_c (s : State) (w : Word) : (s.setAf w).c = s.c := rfl
@[simp] theorem State.setAf_d (s : State) (w : Word) : (s.setAf w).d = s.d := rfl
@[simp] theorem State.setAf_e (s : State) (w : Word) : (s.setAf w).e = s.e := rfl
@[simp] theorem State.setAf_h (s : State) (w : Word) : (s.setAf w).h = s.h := rfl
@[simp] theorem State.setAf_l (s : State) (w : Word) : (s.setAf w).l = s.l := rfl
@[simp] theorem State.setAf_altA (s : State) (w : Word) : (s.setAf w).altA = s.altA := rfl
@[simp] theorem State.setAf_altF (s : State) (w : Word) : (s.setAf w).altF = s.altF := rfl
@[simp] theorem State.setAf_altB (s : State) (w : Word) : (s.setAf w).altB = s.altB := rfl
@[simp] theorem State.setAf_altC (s : State) (w : Word) : (s.setAf w).altC = s.altC := rfl
@[simp] theorem State.setAf_altD (s : State) (w : Word) : (s.setAf w).altD = s.altD := rfl
@[simp] theorem State.setAf_altE (s : State) (w : Word) : (s.setAf w).altE = s.altE := rfl
@[simp] theorem State.setAf_altH (s : State) (w : Word) : (s.setAf w).altH = s.altH := rfl
@[simp] theorem State.setAf_altL (s : State) (w : Word) : (s.setAf w).altL = s.altL := rfl
@[simp] theorem State.setAf_ix (s : State) (w : Word) : (s.setAf w).ix = s.ix := rfl
@[simp] theorem State.setAf_iy (s : State) (w : Word) : (s.setAf w).iy = s.iy := rfl
@[simp] theorem State.setAf_sp (s : State) (w : Word) : (s.setAf w).sp = s.sp := rfl
@[simp] theorem State.setAf_pc (s : State) (w : Word) : (s.setAf w).pc = s.pc := rfl
@[simp] theorem State.setAf_i (s : State) (w : Word) : (s.setAf w).i = s.i := rfl
@[simp] theorem State.setAf_r (s : State) (w : Word) : (s.setAf w).r = s.r := rfl
@[simp] theorem State.setAf_iff1 (s : State) (w : Word) : (s.setAf w).iff1 = s.iff1 := rfl
@[simp] theorem State.setAf_iff2 (s : State) (w : Word) : (s.setAf w).iff2 = s.iff2 := rfl
@[simp] theorem State.setAf_im (s : State) (w : Word) : (s.setAf w).im = s.im := rfl
@[simp] theorem State.setAf_halt (s : State) (w : Word) : (s.setAf w).halt = s.halt := rfl
@[simp] theorem State.setAf_nmiPending (s : State) (w : Word) : (s.setAf w).nmiPending = s.nmiPending := rfl
@[simp] theorem State.setAf_intLine (s : State) (w : Word) : (s.setAf w).intLine = s.intLine := rfl
@[simp] theorem State.setAf_inhibit (s : State) (w : Word) : (s.setAf w).inhibit = s.inhibit := rfl
@[simp] theorem State.setAf_pfx (s : State) (w : Word) : (s.setAf w).pfx = s.pfx := rfl
@[simp] theorem State.setAf_wz (s : State) (w : Word) : (s.setAf w).wz = s.wz := rfl
@[simp] theorem State.setAf_cycles (s : State) (w : Word) : (s.setAf w).cycles = s.cycles := rfl
@[simp] theorem State.setAf_cfg (s : State) (w : Word) : (s.setAf w).cfg = s.cfg := rfl
@[simp] theorem State.setAf_adapter (s : State) (w : Word) : (s.setAf w).adapter = s.adapter := rfl
@[simp] theorem State.setAf_mem (s : State) (w : Word) : (s.setAf w).mem = s.mem := rfl
@[simp] theorem State.setAf_answers (s : State) (w : Word) : (s.setAf w).answers = s.answers := rfl
@[simp] theorem State.setAf_lineScript (s : State) (w : Word) : (s.setAf w).lineScript = s.lineScript := rfl
@[simp] theorem State.setAf_bus (s : State) (w : Word) : (s.setAf w).bus = s.bus := rfl

/-! ### `tick` -/

@[simp] theorem State.tick_a (s : State) (n : Nat) : (s.tick n).a = s.a := rfl
@[simp] theorem State.tick_f (s : State) (n : Nat) : (s.tick n).f = s.f := rfl
@[simp] theorem State.tick_b (s : State) (n : Nat) : (s.tick n).b = s.b := rfl
@[simp] theorem State.tick_c (s : State) (n : Nat) : (s.tick n).c = s.c := rfl
@[simp] theorem State.tick_d (s : State) (n : Nat) : (s.tick n).d = s.d := rfl
@[simp] theorem State.tick_e (s : State) (n : Nat) : (s.tick n).e = s.e := rfl
@[simp] theorem State.tick_h (s : State) (n : Nat) : (s.tick n).h = s.h := rfl
@[simp] theorem State.tick_l (s : State) (n : Nat) : (s.tick n).l = s.l := rfl
@[simp] theorem State.tick_altA (s : State) (n : Nat) : (s.tick n).altA = s.altA := rfl
@[simp] theorem State.tick_altF (s : State) (n : Nat) : (s.tick n).altF = s.altF := rfl
@[simp] theorem State.tick_altB (s : State) (n : Nat) : (s.tick n).altB = s.altB := rfl
@[simp] theorem State.tick_altC (s : State) (n : Nat) : (s.tick n).altC = s.altC := rfl
@[simp] theorem State.tick_altD (s : State) (n : Nat) : (s.tick n).altD = s.altD := rfl
@[simp] theorem State.tick_altE (s : State) (n : Nat) : (s.tick n).altE = s.altE := rfl
@[simp] theorem State.tick_altH (s : State) (n : Nat) : (s.tick n).altH = s.altH := rfl
@[simp] theorem State.tick_altL (s : State) (n : Nat) : (s.tick n).altL = s.altL := rfl
@[simp] theorem State.tick_ix (s : State) (n : Nat) : (s.tick n).ix = s.ix := rfl
@[simp] theorem State.tick_iy (s : State) (n : Nat) : (s.tick n).iy = s.iy := rfl
@[simp] theorem State.tick_sp (s : State) (n : Nat) : (s.tick n).sp = s.sp := rfl
@[simp] theorem State.tick_pc (s : State) (n : Nat) : (s.tick n).pc = s.pc := rfl
@[simp] theorem State.tick_i (s : State) (n : Nat) : (s.tick n).i = s.i := rfl
@[simp] theorem State.tick_r (s : State) (n : Nat) : (s.tick n).r = s.r := rfl
@[simp] theorem State.tick_iff1 (s : State) (n : Nat) : (s.tick n).iff1 = s.iff1 := rfl
@[simp] theorem State.tick_iff2 (s : State) (n : Nat) : (s.tick n).iff2 = s.iff2 := rfl
@[simp] theorem State.tick_im (s : State) (n : Nat) : (s.tick n).im = s.im := rfl
@[simp] theorem State.tick_halt (s : State) (n : Nat) : (s.tick n).halt = s.halt := rfl
@[simp] theorem State.tick_nmiPending (s : State) (n : Nat) : (s.tick n).nmiPending = s.nmiPending := rfl
@[simp] theorem State.tick_intLine (s : State) (n : Nat) : (s.tick n).intLine = s.intLine := rfl
@[simp] theorem State.tick_inhibit (s : State) (n : Nat) : (s.tick n).inhibit = s.inhibit := rfl
@[simp] theorem State.tick_pfx (s : State) (n : Nat) : (s.tick n).pfx = s.pfx := rfl
@[simp] theorem State.tick_wz (s : State) (n : Nat) : (s.tick n).wz = s.wz := rfl
@[simp] theorem State.tick_cycles (s : State) (n : Nat) : (s.tick n).cycles = s.cycles + n := rfl
@[simp] theorem State.tick_cfg (s : State) (n : Nat) : (s.tick n).cfg = s.cfg := rfl
@[simp] theorem State.tick_adapter (s : State) (n : Nat) : (s.tick n).adapter = s.adapter := rfl
@[simp] theorem State.tick_mem (s : State) (n : Nat) : (s.tick n).mem = s.mem := rfl
@[simp] theorem State.tick_answers (s : State) (n : Nat) : (s.tick n).answers = s.answers := rfl
@[simp] theorem State.tick_lineScript (s : State) (n : Nat) : (s.tick n).lineScript = s.lineScript := rfl
@[simp] theorem State.tick_bus (s : State) (n : Nat) : (s.tick n).bus = s.bus := rfl

/-! ### `note` -/

@[simp] theorem State.note_a (s : State) (x : BusAccess) : (s.note x).a = s.a := rfl
@[simp] theorem State.note_f (s : State) (x : BusAccess) : (s.note x).f = s.f := rfl
@[simp] theorem State.note_b (s : State) (x : BusAccess) : (s.note x).b = s.b := rfl
@[simp] theorem State.note_c (s : State) (x : BusAccess) : (s.note x).c = s.c := rfl
@[simp] theorem State.note_d (s : State) (x : BusAccess) : (s.note x).d = s.d := rfl
@[simp] theorem State.note_e (s : State) (x : BusAccess) : (s.note x).e = s.e := rfl
@[simp] theorem State.note_h (s : State) (x : BusAccess) : (s.note x).h = s.h := rfl
@[simp] theorem State.note_l (s : State) (x : BusAccess) : (s.note x).l = s.l := rfl
@[simp] theorem State.note_altA (s : State) (x : BusAccess) : (s.note x).altA = s.altA := rfl
@[simp] theorem State.note_altF (s : State) (x : BusAccess) : (s.note x).altF = s.altF := rfl
@[simp] theorem State.note_altB (s : State) (x : BusAccess) : (s.note x).altB = s.altB := rfl
@[simp] theorem State.note_altC (s : State) (x : BusAccess) : (s.note x).altC = s.altC := rfl
@[simp] theorem State.note_altD (s : State) (x : BusAccess) : (s.note x).altD = s.altD := rfl
@[simp] theorem State.note_altE (s : State) (x : BusAccess) : (s.note x).altE = s.altE := rfl
@[simp] theorem State.note_altH (s : State) (x : BusAccess) : (s.note x).altH = s.altH := rfl
@[simp] theorem State.note_altL (s : State) (x : BusAccess) : (s.note x).altL = s.altL := rfl
@[simp] theorem State.note_ix (s : State) (x : BusAccess) : (s.note x).ix = s.ix := rfl
@[simp] theorem State.note_iy (s : State) (x : BusAccess) : (s.note x).iy = s.iy := rfl
@[simp] theorem State.note_sp (s : State) (x : BusAccess) : (s.note x).sp = s.sp := rfl
@[simp] theorem State.note_pc (s : State) (x : BusAccess) : (s.note x).pc = s.pc := rfl
@[simp] theorem State.note_i (s : State) (x : BusAccess) : (s.note x).i = s.i := rfl
@[simp] theorem State.note_r (s : State) (x : BusAccess) : (s.note x).r = s.r := rfl
@[simp] theorem State.note_iff1 (s : State) (x : BusAccess) : (s.note x).iff1 = s.iff1 := rfl
@[simp] theorem State.note_iff2 (s : State) (x : BusAccess) : (s.note x).iff2 = s.iff2 := rfl
@[simp] theorem State.note_im (s : State) (x : BusAccess) : (s.note x).im = s.im := rfl
@[simp] theorem State.note_halt (s : State) (x : BusAccess) : (s.note x).halt = s.halt := rfl
@[simp] theorem State.note_nmiPending (s : State) (x : BusAccess) : (s.note x).nmiPending = s.nmiPending := rfl
@[simp] theorem State.note_intLine (s : State) (x : BusAccess) : (s.note x).intLine = s.intLine := rfl
@[simp] theorem State.note_inhibit (s : State) (x : BusAccess) : (s.note x).inhibit = s.inhibit := rfl
@[simp] theorem State.note_pfx (s : State) (x : BusAccess) : (s.note x).pfx = s.pfx := rfl
@[simp] theorem State.note_wz (s : State) (x : BusAccess) : (s.note x).wz = s.wz := rfl
@[simp] theorem State.note_cycles (s : State) (x : BusAccess) : (s.note x).cycles = s.cycles := rfl
@[simp] theorem State.note_cfg (s : State) (x : BusAccess) : (s.note x).cfg = s.cfg := rfl
@[simp] theorem State.note_adapter (s : State) (x : BusAccess) : (s.note x).adapter = s.adapter := rfl
@[simp] theorem State.note_mem (s : State) (x : BusAccess) : (s.note x).mem = s.mem := rfl
@[simp] theorem State.note_answers (s : State) (x : BusAccess) : (s.note x).answers = s.answers := rfl
@[simp] theorem State.note_lineScript (s : State) (x : BusAccess) : (s.note x).lineScript = s.lineScript := rfl
@[simp] theorem State.note_bus (s : State) (x : BusAccess) : (s.note x).bus = x :: s.bus := rfl

/-! ### `bumpR` -/

@[simp] theorem State.bumpR_a (s : State) : (s.bumpR).a = s.a := rfl
@[simp] theorem State.bumpR_f (s : State) : (s.bumpR).f = s.f := rfl
@[simp] theorem State.bumpR_b (s : State) : (s.bumpR).b = s.b := rfl
@[simp] theorem State.bumpR_c (s : State) : (s.bumpR).c = s.c := rfl
@[simp] theorem State.bumpR_d (s : State) : (s.bumpR).d = s.d := rfl
@[simp] theorem State.bumpR_e (s : State) : (s.bumpR).e = s.e := rfl
@[simp] theorem State.bumpR_h (s : State) : (s.bumpR).h = s.h := rfl
@[simp] theorem State.bumpR_l (s : State) : (s.bumpR).l = s.l := rfl
@[simp] theorem State.bumpR_altA (s : State) : (s.bumpR).altA = s.altA := rfl
@[simp] theorem State.bumpR_altF (s : State) : (s.bumpR).altF = s.altF := rfl
@[simp] theorem State.bumpR_altB (s : State) : (s.bumpR).altB = s.altB := rfl
@[simp] theorem State.bumpR_altC (s : State) : (s.bumpR).altC = s.altC := rfl
@[simp] theorem State.bumpR_altD (s : State) : (s.bumpR).altD = s.altD := rfl
@[simp] theorem State.bumpR_altE (s : State) : (s.bumpR).altE = s.altE := rfl
@[simp] theorem State.bumpR_altH (s : State) : (s.bumpR).altH = s.altH := rfl
@[simp] theorem State.bumpR_altL (s : State) : (s.bumpR).altL = s.altL := rfl
@[simp] theorem State.bumpR_ix (s : State) : (s.bumpR).ix = s.ix := rfl
@[simp] theorem State.bumpR_iy (s : State) : (s.bumpR).iy = s.iy := rfl
@[simp] theorem State.bumpR_sp (s : State) : (s.bumpR).sp = s.sp := rfl
@[simp] theorem State.bumpR_pc (s : State) : (s.bumpR).pc = s.pc := rfl
@[simp] theorem State.bumpR_i (s : State) : (s.bumpR).i = s.i := rfl
@[simp] theorem State.bumpR_r (s : State) : (s.bumpR).r = (s.r &&& 0x80) ||| ((s.r + 1) &&& 0x7F) := rfl
@[simp] theorem State.bumpR_iff1 (s : State) : (s.bumpR).iff1 = s.iff1 := rfl
@[simp] theorem State.bumpR_iff2 (s : State) : (s.bumpR).iff2 = s.iff2 := rfl
@[simp] theorem State.bumpR_im (s : State) : (s.bumpR).im = s.im := rfl
@[simp] theorem State.bumpR_halt (s : State) : (s.bumpR).halt = s.halt := rfl
@[simp] theorem State.bumpR_nmiPending (s : State) : (s.bumpR).nmiPending = s.nmiPending := rfl
@[simp] theorem State.bumpR_intLine (s : State) : (s.bumpR).intLine = s.intLine := rfl
@[simp] theorem State.bumpR_inhibit (s : State) : (s.bumpR).inhibit = s.inhibit := rfl
@[simp] theorem State.bumpR_pfx (s : State) : (s.bumpR).pfx = s.pfx := rfl
@[simp] theorem State.bumpR_wz (s : State) : (s.bumpR).wz = s.wz := rfl
@[simp] theorem State.bumpR_cycles (s : State) : (s.bumpR).cycles = s.cycles := rfl
@[simp] theorem State.bumpR_cfg (s : State) : (s.bumpR).cfg = s.cfg := rfl
@[simp] theorem State.bumpR_adapter (s : State) : (s.bumpR).adapter = s.adapter := rfl
@[simp] theorem State.bumpR_mem (s : State) : (s.bumpR).mem = s.mem := rfl
@[simp] theorem State.bumpR_answers (s : State) : (s.bumpR).answers = s.answers := rfl
@[simp] theorem State.bumpR_lineScript (s : State) : (s.bumpR).lineScript = s.lineScript := rfl
@[simp] theorem State.bumpR_bus (s : State) : (s.bumpR).bus = s.bus := rfl

/-! ### `poke` -/

@[simp] theorem State.poke_a (s : State) (a : Word) (v : Byte) : (s.poke a v).a = s.a := rfl
@[simp] theorem State.poke_f (s : State) (a : Word) (v : Byte) : (s.poke a v).f = s.f := rfl
@[simp] theorem State.poke_b (s : State) (a : Word) (v : Byte) : (s.poke a v).b = s.b := rfl
@[simp] theorem State.poke_c (s : State) (a : Word) (v : Byte) : (s.poke a v).c = s.c := rfl
@[simp] theorem State.poke_d (s : State) (a : Word) (v : Byte) : (s.poke a v).d = s.d := rfl
@[simp] theorem State.poke_e (s : State) (a : Word) (v : Byte) : (s.poke a v).e = s.e := rfl
@[simp] theorem State.poke_h (s : State) (a : Word) (v : Byte) : (s.poke a v).h = s.h := rfl
@[simp] theorem State.poke_l (s : State) (a : Word) (v : Byte) : (s.poke a v).l = s.l := rfl
@[simp] theorem State.poke_altA (s : State) (a : Word) (v : Byte) : (s.poke a v).altA = s.altA := rfl
@[simp] theorem State.poke_altF (s : State) (a : Word) (v : Byte) : (s.poke a v).altF = s.altF := rfl
@[simp] theorem State.poke_altB (s : State) (a : Word) (v : Byte) : (s.poke a v).altB = s.altB := rfl
@[simp] theorem State.poke_altC (s : State) (a : Word) (v : Byte) : (s.poke a v).altC = s.altC := rfl
@[simp] theorem State.poke_altD (s : State) (a : Word) (v : Byte) : (s.poke a v).altD = s.altD := rfl
@[simp] theorem State.poke_altE (s : State) (a : Word) (v : Byte) : (s.poke a v).altE = s.altE := rfl
@[simp] theorem State.poke_altH (s : State) (a : Word) (v : Byte) : (s.poke a v).altH = s.altH := rfl
@[simp] theorem State.poke_altL (s : State) (a : Word) (v : Byte) : (s.poke a v).altL = s.altL := rfl
@[simp] theorem State.poke_ix (s : State) (a : Word) (v : Byte) : (s.poke a v).ix = s.ix := rfl
@[simp] theorem State.poke_iy (s : State) (a : Word) (v : Byte) : (s.poke a v).iy = s.iy := rfl
@[simp] theorem State.poke_sp (s : State) (a : Word) (v : Byte) : (s.poke a v).sp = s.sp := rfl
@[simp] theorem State.poke_pc (s : State) (a : Word) (v : Byte) : (s.poke a v).pc = s.pc := rfl
@[simp] theorem State.poke_i (s : State) (a : Word) (v : Byte) : (s.poke a v).i = s.i := rfl
@[simp] theorem State.poke_r (s : State) (a : Word) (v : Byte) : (s.poke a v).r = s.r := rfl
@[simp] theorem State.poke_iff1 (s : State) (a : Word) (v : Byte) : (s.poke a v).iff1 = s.iff1 := rfl
@[simp] theorem State.poke_iff2 (s : State) (a : Word) (v : Byte) : (s.poke a v).iff2 = s.iff2 := rfl
@[simp] theorem State.poke_im (s : State) (a : Word) (v : Byte) : (s.poke a v).im = s.im := rfl
@[simp] theorem State.poke_halt (s : State) (a : Word) (v : Byte) : (s.poke a v).halt = s.halt := rfl
@[simp] theorem State.poke_nmiPending (s : State) (a : Word) (v : Byte) : (s.poke a v).nmiPending = s.nmiPending := rfl
@[simp] theorem State.poke_intLine (s : State) (a : Word) (v : Byte) : (s.poke a v).intLine = s.intLine := rfl
@[simp] theorem State.poke_inhibit (s : State) (a : Word) (v : Byte) : (s.poke a v).inhibit = s.inhibit := rfl
@[simp] theorem State.poke_pfx (s : State) (a : Word) (v : Byte) : (s.poke a v).pfx = s.pfx := rfl
@[simp] theorem State.poke_wz (s : State) (a : Word) (v : Byte) : (s.poke a v).wz = s.wz := rfl
@[simp] theorem State.poke_cycles (s : State) (a : Word) (v : Byte) : (s.poke a v).cycles = s.cycles := rfl
@[simp] theorem State.poke_cfg (s : State) (a : Word) (v : Byte) : (s.poke a v).cfg = s.cfg := rfl
@[simp] theorem State.poke_adapter (s : State) (a : Word) (v : Byte) : (s.poke a v).adapter = s.adapter := rfl
@[simp] theorem State.poke_mem (s : State) (a : Word) (v : Byte) : (s.poke a v).mem = s.mem.write a.toNat v := rfl
@[simp] theorem State.poke_answers (s : State) (a : Word) (v : Byte) : (s.poke a v).answers = s.answers := rfl
@[simp] theorem State.poke_lineScript (s : State) (a : Word) (v : Byte) : (s.poke a v).lineScript = s.lineScript := rfl
@[simp] theorem State.poke_bus (s : State) (a : Word) (v : Byte) : (s.poke a v).bus = s.bus := rfl

/-! ### `useAnswer` -/

@[simp] theorem State.useAnswer_a (s : State) (own : Bool) : (s.useAnswer own).a = s.a := rfl
@[simp] theorem State.useAnswer_f (s : State) (own : Bool) : (s.useAnswer own).f = s.f := rfl
@[simp] theorem State.useAnswer_b (s : State) (own : Bool) : (s.useAnswer own).b = s.b := rfl
@[simp] theorem State.useAnswer_c (s : State) (own : Bool) : (s.useAnswer own).c = s.c := rfl
@[simp] theorem State.useAnswer_d (s : State) (own : Bool) : (s.useAnswer own).d = s.d := rfl
@[simp] theorem State.useAnswer_e (s : State) (own : Bool) : (s.useAnswer own).e = s.e := rfl
@[simp] theorem State.useAnswer_h (s : State) (own : Bool) : (s.useAnswer own).h = s.h := rfl
@[simp] theorem State.useAnswer_l (s : State) (own : Bool) : (s.useAnswer own).l = s.l := rfl
@[simp] theorem State.useAnswer_altA (s : State) (own : Bool) : (s.useAnswer own).altA = s.altA := rfl
@[simp] theorem State.useAnswer_altF (s : State) (own : Bool) : (s.useAnswer own).altF = s.altF := rfl
@[simp] theorem State.useAnswer_altB (s : State) (own : Bool) : (s.useAnswer own).altB = s.altB := rfl
@[simp] theorem State.useAnswer_altC (s : State) (own : Bool) : (s.useAnswer own).altC = s.altC := rfl
@[simp] theorem State.useAnswer_altD (s : State) (own : Bool) : (s.useAnswer own).altD = s.altD := rfl
@[simp] theorem State.useAnswer_altE (s : State) (own : Bool) : (s.useAnswer own).altE = s.altE := rfl
@[simp] theorem State.useAnswer_altH (s : State) (own : Bool) : (s.useAnswer own).altH = s.altH := rfl
@[simp] theorem State.useAnswer_altL (s : State) (own : Bool) : (s.useAnswer own).altL = s.altL := rfl
@[simp] theorem State.useAnswer_ix (s : State) (own : Bool) : (s.useAnswer own).ix = s.ix := rfl
@[simp] theorem State.useAnswer_iy (s : State) (own : Bool) : (s.useAnswer own).iy = s.iy := rfl
@[simp] theorem State.useAnswer_sp (s : State) (own : Bool) : (s.useAnswer own).sp = s.sp := rfl
@[simp] theorem State.useAnswer_pc (s : State) (own : Bool) : (s.useAnswer own).pc = s.pc := rfl
@[simp] theorem State.useAnswer_i (s : State) (own : Bool) : (s.useAnswer own).i = s.i := rfl
@[simp] theorem State.useAnswer_r (s : State) (own : Bool) : (s.useAnswer own).r = s.r := rfl
@[simp] theorem State.useAnswer_iff1 (s : State) (own : Bool) : (s.useAnswer own).iff1 = s.iff1 := rfl
@[simp] theorem State.useAnswer_iff2 (s : State) (own : Bool) : (s.useAnswer own).iff2 = s.iff2 := rfl
@[simp] theorem State.useAnswer_im (s : State) (own : Bool) : (s.useAnswer own).im = s.im := rfl
@[simp] theorem State.useAnswer_halt (s : State) (own : Bool) : (s.useAnswer own).halt = s.halt := rfl
@[simp] theorem State.useAnswer_nmiPending (s : State) (own : Bool) : (s.useAnswer own).nmiPending = s.nmiPending := rfl
@[simp] theorem State.useAnswer_intLine (s : State) (own : Bool) : (s.useAnswer own).intLine = s.intLine := rfl
@[simp] theorem State.useAnswer_inhibit (s : State) (own : Bool) : (s.useAnswer own).inhibit = s.inhibit := rfl
@[simp] theorem State.useAnswer_pfx (s : State) (own : Bool) : (s.useAnswer own).pfx = s.pfx := rfl
@[simp] theorem State.useAnswer_wz (s : State) (own : Bool) : (s.useAnswer own).wz = s.wz := rfl
@[simp] theorem State.useAnswer_cycles (s : State) (own : Bool) : (s.useAnswer own).cycles = s.cycles := rfl
@[simp] theorem State.useAnswer_cfg (s : State) (own : Bool) : (s.useAnswer own).cfg = s.cfg := rfl
@[simp] theorem State.useAnswer_adapter (s : State) (own : Bool) : (s.useAnswer own).adapter = s.adapter := rfl
@[simp] theorem State.useAnswer_mem (s : State) (own : Bool) : (s.useAnswer own).mem = s.mem := rfl
@[simp] theorem State.useAnswer_answers (s : State) (own : Bool) : (s.useAnswer own).answers = if own then s.answers.tail else s.answers := rfl
@[simp] theorem State.useAnswer_lineScript (s : State) (own : Bool) : (s.useAnswer own).lineScript = s.lineScript := rfl
@[simp] theorem State.useAnswer_bus (s : State) (own : Bool) : (s.useAnswer own).bus = s.bus := rfl

/-! ### `jumpTo` -/

@[simp] theorem State.jumpTo_a (s : State) (w : Word) : (s.jumpTo w).a = s.a := rfl
@[simp] theorem State.jumpTo_f (s : State) (w : Word) : (s.jumpTo w).f = s.f := rfl
@[simp] theorem State.jumpTo_b (s : State) (w : Word) : (s.jumpTo w).b = s.b := rfl
@[simp] theorem State.jumpTo_c (s : State) (w : Word) : (s.jumpTo w).c = s.c := rfl
@[simp] theorem State.jumpTo_d (s : State) (w : Word) : (s.jumpTo w).d = s.d := rfl
@[simp] theorem State.jumpTo_e (s : State) (w : Word) : (s.jumpTo w).e = s.e := rfl
@[simp] theorem State.jumpTo_h (s : State) (w : Word) : (s.jumpTo w).h = s.h := rfl
@[simp] theorem State.jumpTo_l (s : State) (w : Word) : (s.jumpTo w).l = s.l := rfl
@[simp] theorem State.jumpTo_altA (s : State) (w : Word) : (s.jumpTo w).altA = s.altA := rfl
@[simp] theorem State.jumpTo_altF (s : State) (w : Word) : (s.jumpTo w).altF = s.altF := rfl
@[simp] theorem State.jumpTo_altB (s : State) (w : Word) : (s.jumpTo w).altB = s.altB := rfl
@[simp] theorem State.jumpTo_altC (s : State) (w : Word) : (s.jumpTo w).altC = s.altC := rfl
@[simp] theorem State.jumpTo_altD (s : State) (w : Word) : (s.jumpTo w).altD = s.altD := rfl
@[simp] theorem State.jumpTo_altE (s : State) (w : Word) : (s.jumpTo w).altE = s.altE := rfl
@[simp] theorem State.jumpTo_altH (s : State) (w : Word) : (s.jumpTo w).altH = s.altH := rfl
@[simp] theorem State.jumpTo_altL (s : State) (w : Word) : (s.jumpTo w).altL = s.altL := rfl
@[simp] theorem State.jumpTo_ix (s : State) (w : Word) : (s.jumpTo w).ix = s.ix := rfl
@[simp] theorem State.jumpTo_iy (s : State) (w : Word) : (s.jumpTo w).iy = s.iy := rfl
@[simp] theorem State.jumpTo_sp (s : State) (w : Word) : (s.jumpTo w).sp = s.sp := rfl
@[simp] theorem State.jumpTo_pc (s : State) (w : Word) : (s.jumpTo w).pc = w := rfl
@[simp] theorem State.jumpTo_i (s : State) (w : Word) : (s.jumpTo w).i = s.i := rfl
@[simp] theorem State.jumpTo_r (s : State) (w : Word) : (s.jumpTo w).r = s.r := rfl
@[simp] theorem State.jumpTo_iff1 (s : State) (w : Word) : (s.jumpTo w).iff1 = s.iff1 := rfl
@[simp] theorem State.jumpTo_iff2 (s : State) (w : Word) : (s.jumpTo w).iff2 = s.iff2 := rfl
@[simp] theorem State.jumpTo_im (s : State) (w : Word) : (s.jumpTo w).im = s.im := rfl
@[simp] theorem State.jumpTo_halt (s : State) (w : Word) : (s.jumpTo w).halt = s.halt := rfl
@[simp] theorem State.jumpTo_nmiPending (s : State) (w : Word) : (s.jumpTo w).nmiPending = s.nmiPending := rfl
@[simp] theorem State.jumpTo_intLine (s : State) (w : Word) : (s.jumpTo w).intLine = s.intLine := rfl
@[simp] theorem State.jumpTo_inhibit (s : State) (w : Word) : (s.jumpTo w).inhibit = s.inhibit := rfl
@[simp] theorem State.jumpTo_pfx (s : State) (w : Word) : (s.jumpTo w).pfx = s.pfx := rfl
@[simp] theorem State.jumpTo_wz (s : State) (w : Word) : (s.jumpTo w).wz = w := rfl
@[simp] theorem State.jumpTo_cycles (s : State) (w : Word) : (s.jumpTo w).cycles = s.cycles := rfl
@[simp] theorem State.jumpTo_cfg (s : State) (w : Word) : (s.jumpTo w).cfg = s.cfg := rfl
@[simp] theorem State.jumpTo_adapter (s : State) (w : Word) : (s.jumpTo w).adapter = s.adapter := rfl
@[simp] theorem State.jumpTo_mem (s : State) (w : Word) : (s.jumpTo w).mem = s.mem := rfl
@[simp] theorem State.jumpTo_answers (s : State) (w : Word) : (s.jumpTo w).answers = s.answers := rfl
@[simp] theorem State.jumpTo_lineScript (s : State) (w : Word) : (s.jumpTo w).lineScript = s.lineScript := rfl
@[simp] theorem State.jumpTo_bus (s : State) (w : Word) : (s.jumpTo w).bus = s.bus := rfl

/-! ### `acknowledge` -/

@[simp] theorem State.acknowledge_a (s : State) : (s.acknowledge).a = s.a := rfl
@[simp] theorem State.acknowledge_f (s : State) : (s.acknowledge).f = s.f := rfl
@[simp] theorem State.acknowledge_b (s : State) : (s.acknowledge).b = s.b := rfl
@[simp] theorem State.acknowledge_c (s : State) : (s.acknowledge).c = s.c := rfl
@[simp] theorem State.acknowledge_d (s : State) : (s.acknowledge).d = s.d := rfl
@[simp] theorem State.acknowledge_e (s : State) : (s.acknowledge).e = s.e := rfl
@[simp] theorem State.acknowledge_h (s : State) : (s.acknowledge).h = s.h := rfl
@[simp] theorem State.acknowledge_l (s : State) : (s.acknowledge).l = s.l := rfl
@[simp] theorem State.acknowledge_altA (s : State) : (s.acknowledge).altA = s.altA := rfl
@[simp] theorem State.acknowledge_altF (s : State) : (s.acknowledge).altF = s.altF := rfl
@[simp] theorem State.acknowledge_altB (s : State) : (s.acknowledge).altB = s.altB := rfl
@[simp] theorem State.acknowledge_altC (s : State) : (s.acknowledge).altC = s.altC := rfl
@[simp] theorem State.acknowledge_altD (s : State) : (s.acknowledge).altD = s.altD := rfl
@[simp] theorem State.acknowledge_altE (s : State) : (s.acknowledge).altE = s.altE := rfl
@[simp] theorem State.acknowledge_altH (s : State) : (s.acknowledge).altH = s.altH := rfl
@[simp] theorem State.acknowledge_altL (s : State) : (s.acknowledge).altL = s.altL := rfl
@[simp] theorem State.acknowledge_ix (s : State) : (s.acknowledge).ix = s.ix := rfl
@[simp] theorem State.acknowledge_iy (s : State) : (s.acknowledge).iy = s.iy := rfl
@[simp] theorem State.acknowledge_sp (s : State) : (s.acknowledge).sp = s.sp := rfl
@[simp] theorem State.acknowledge_pc (s : State) : (s.acknowledge).pc = s.pc := rfl
@[simp] theorem State.acknowledge_i (s : State) : (s.acknowledge).i = s.i := rfl
@[simp] theorem State.acknowledge_r (s : State) : (s.acknowledge).r = (s.r &&& 0x80) ||| ((s.r + 1) &&& 0x7F) := rfl
@[simp] theorem State.acknowledge_iff1 (s : State) : (s.acknowledge).iff1 = s.iff1 := rfl
@[simp] theorem State.acknowledge_iff2 (s : State) : (s.acknowledge).iff2 = s.iff2 := rfl
@[simp] theorem State.acknowledge_im (s : State) : (s.acknowledge).im = s.im := rfl
@[simp] theorem State.acknowledge_halt (s : State) : (s.acknowledge).halt = false := rfl
@[simp] theorem State.acknowledge_nmiPending (s : State) : (s.acknowledge).nmiPending = s.nmiPending := rfl
@[simp] theorem State.acknowledge_intLine (s : State) : (s.acknowledge).intLine = s.intLine := rfl
@[simp] theorem State.acknowledge_inhibit (s : State) : (s.acknowledge).inhibit = s.inhibit := rfl
@[simp] theorem State.acknowledge_pfx (s : State) : (s.acknowledge).pfx = s.pfx := rfl
@[simp] theorem State.acknowledge_wz (s : State) : (s.acknowledge).wz = s.wz := rfl
@[simp] theorem State.acknowledge_cycles (s : State) : (s.acknowledge).cycles = s.cycles := rfl
@[simp] theorem State.acknowledge_cfg (s : State) : (s.acknowledge).cfg = s.cfg := rfl
@[simp] theorem State.acknowledge_adapter (s : State) : (s.acknowledge).adapter = s.adapter := rfl
@[simp] theorem State.acknowledge_mem (s : State) : (s.acknowledge).mem = s.mem := rfl
@[simp] theorem State.acknowledge_answers (s : State) : (s.acknowledge).answers = s.answers := rfl
@[simp] theorem State.acknowledge_lineScript (s : State) : (s.acknowledge).lineScript = s.lineScript := rfl
@[simp] theorem State.acknowledge_bus (s : State) : (s.acknowledge).bus = s.bus := rfl

/-! ### `pendPrefix` -/

@[simp] theorem State.pendPrefix_a (s : State) (xy : Index) : (s.pendPrefix xy).a = s.a := rfl
@[simp] theorem State.pendPrefix_f (s : State) (xy : Index) : (s.pendPrefix xy).f = s.f := rfl
@[simp] theorem State.pendPrefix_b (s : State) (xy : Index) : (s.pendPrefix xy).b = s.b := rfl
@[simp] theorem State.pendPrefix_c (s : State) (xy : Index) : (s.pendPrefix xy).c = s.c := rfl
@[simp] theorem State.pendPrefix_d (s : State) (xy : Index) : (s.pendPrefix xy).d = s.d := rfl
@[simp] theorem State.pendPrefix_e (s : State) (xy : Index) : (s.pendPrefix xy).e = s.e := rfl
@[simp] theorem State.pendPrefix_h (s : State) (xy : Index) : (s.pendPrefix xy).h = s.h := rfl
@[simp] theorem State.pendPrefix_l (s : State) (xy : Index) : (s.pendPrefix xy).l = s.l := rfl
@[simp] theorem State.pendPrefix_altA (s : State) (xy : Index) : (s.pendPrefix xy).altA = s.altA := rfl
@[simp] theorem State.pendPrefix_altF (s : State) (xy : Index) : (s.pendPrefix xy).altF = s.altF := rfl
@[simp] theorem State.pendPrefix_altB (s : State) (xy : Index) : (s.pendPrefix xy).altB = s.altB := rfl
@[simp] theorem State.pendPrefix_altC (s : State) (xy : Index) : (s.pendPrefix xy).altC = s.altC := rfl
@[simp] theorem State.pendPrefix_altD (s : State) (xy : Index) : (s.pendPrefix xy).altD = s.altD := rfl
@[simp] theorem State.pendPrefix_altE (s : State) (xy : Index) : (s.pendPrefix xy).altE = s.altE := rfl
@[simp] theorem State.pendPrefix_altH (s : State) (xy : Index) : (s.pendPrefix xy).altH = s.altH := rfl
@[simp] theorem State.pendPrefix_altL (s : State) (xy : Index) : (s.pendPrefix xy).altL = s.altL := rfl
@[simp] theorem State.pendPrefix_ix (s : State) (xy : Index) : (s.pendPrefix xy).ix = s.ix := rfl
@[simp] theorem State.pendPrefix_iy (s : State) (xy : Index) : (s.pendPrefix xy).iy = s.iy := rfl
@[simp] theorem State.pendPrefix_sp (s : State) (xy : Index) : (s.pendPrefix xy).sp = s.sp := rfl
@[simp] theorem State.pendPrefix_pc (s : State) (xy : Index) : (s.pendPrefix xy).pc = s.pc := rfl
@[simp] theorem State.pendPrefix_i (s : State) (xy : Index) : (s.pendPrefix xy).i = s.i := rfl
@[simp] theorem State.pendPrefix_r (s : State) (xy : Index) : (s.pendPrefix xy).r = s.r := rfl
@[simp] theorem State.pendPrefix_iff1 (s : State) (xy : Index) : (s.pendPrefix xy).iff1 = s.iff1 := rfl
@[simp] theorem State.pendPrefix_iff2 (s : State) (xy : Index) : (s.pendPrefix xy).iff2 = s.iff2 := rfl
@[simp] theorem State.pendPrefix_im (s : State) (xy : Index) : (s.pendPrefix xy).im = s.im := rfl
@[simp] theorem State.pendPrefix_halt (s : State) (xy : Index) : (s.pendPrefix xy).halt = s.halt := rfl
@[simp] theorem State.pendPrefix_nmiPending (s : State) (xy : Index) : (s.pendPrefix xy).nmiPending = s.nmiPending := rfl
@[simp] theorem State.pendPrefix_intLine (s : State) (xy : Index) : (s.pendPrefix xy).intLine = s.intLine := rfl
@[simp] theorem State.pendPrefix_inhibit (s : State) (xy : Index) : (s.pendPrefix xy).inhibit = true := rfl
@[simp] theorem State.pendPrefix_pfx (s : State) (xy : Index) : (s.pendPrefix xy).pfx = some xy := rfl
@[simp] theorem State.pendPrefix_wz (s : State) (xy : Index) : (s.pendPrefix xy).wz = s.wz := rfl
@[simp] theorem State.pendPrefix_cycles (s : State) (xy : Index) : (s.pendPrefix xy).cycles = s.cycles := rfl
@[simp] theorem State.pendPrefix_cfg (s : State) (xy : Index) : (s.pendPrefix xy).cfg = s.cfg := rfl
@[simp] theorem State.pendPrefix_adapter (s : State) (xy : Index) : (s.pendPrefix xy).adapter = s.adapter := rfl
@[simp] theorem State.pendPrefix_mem (s : State) (xy : Index) : (s.pendPrefix xy).mem = s.mem := rfl
@[simp] theorem State.pendPrefix_answers (s : State) (xy : Index) : (s.pendPrefix xy).answers = s.answers := rfl
@[simp] theorem State.pendPrefix_lineScript (s : State) (xy : Index) : (s.pendPrefix xy).lineScript = s.lineScript := rfl
@[simp] theorem State.pendPrefix_bus (s : State) (xy : Index) : (s.pendPrefix xy).bus = s.bus := rfl

/-! ### `memWrite` -/

@[simp] theorem State.memWrite_a (s : State) (a : Word) (v : Byte) : (s.memWrite a v).a = s.a := rfl
@[simp] theorem State.memWrite_f (s : State) (a : Word) (v : Byte) : (s.memWrite a v).f = s.f := rfl
@[simp] theorem State.memWrite_b (s : State) (a : Word) (v : Byte) : (s.memWrite a v).b = s.b := rfl
@[simp] theorem State.memWrite_c (s : State) (a : Word) (v : Byte) : (s.memWrite a v).c = s.c := rfl
@[simp] theorem State.memWrite_d (s : State) (a : Word) (v : Byte) : (s.memWrite a v).d = s.d := rfl
@[simp] theorem State.memWrite_e (s : State) (a : Word) (v : Byte) : (s.memWrite a v).e = s.e := rfl
@[simp] theorem State.memWrite_h (s : State) (a : Word) (v : Byte) : (s.memWrite a v).h = s.h := rfl
@[simp] theorem State.memWrite_l (s : State) (a : Word) (v : Byte) : (s.memWrite a v).l = s.l := rfl
@[simp] theorem State.memWrite_altA (s : State) (a : Word) (v : Byte) : (s.memWrite a v).altA = s.altA := rfl
@[simp] theorem State.memWrite_altF (s : State) (a : Word) (v : Byte) : (s.memWrite a v).altF = s.altF := rfl
@[simp] theorem State.memWrite_altB (s : State) (a : Word) (v : Byte) : (s.memWrite a v).altB = s.altB := rfl
@[simp] theorem State.memWrite_altC (s : State) (a : Word) (v : Byte) : (s.memWrite a v).altC = s.altC := rfl
@[simp] theorem State.memWrite_altD (s : State) (a : Word) (v : Byte) : (s.memWrite a v).altD = s.altD := rfl
@[simp] theorem State.memWrite_altE (s : State) (a : Word) (v : Byte) : (s.memWrite a v).altE = s.altE := rfl
@[simp] theorem State.memWrite_altH (s : State) (a : Word) (v : Byte) : (s.memWrite a v).altH = s.altH := rfl
@[simp] theorem State.memWrite_altL (s : State) (a : Word) (v : Byte) : (s.memWrite a v).altL = s.altL := rfl
@[simp] theorem State.memWrite_ix (s : State) (a : Word) (v : Byte) : (s.memWrite a v).ix = s.ix := rfl
@[simp] theorem State.memWrite_iy (s : State) (a : Word) (v : Byte) : (s.memWrite a v).iy = s.iy := rfl
@[simp] theorem State.memWrite_sp (s : State) (a : Word) (v : Byte) : (s.memWrite a v).sp = s.sp := rfl
@[simp] theorem State.memWrite_pc (s : State) (a : Word) (v : Byte) : (s.memWrite a v).pc = s.pc := rfl
@[simp] theorem State.memWrite_i (s : State) (a : Word) (v : Byte) : (s.memWrite a v).i = s.i := rfl
@[simp] theorem State.memWrite_r (s : State) (a : Word) (v : Byte) : (s.memWrite a v).r = s.r := rfl
@[simp] theorem State.memWrite_iff1 (s : State) (a : Word) (v : Byte) : (s.memWrite a v).iff1 = s.iff1 := rfl
@[simp] theorem State.memWrite_iff2 (s : State) (a : Word) (v : Byte) : (s.memWrite a v).iff2 = s.iff2 := rfl
@[simp] theorem State.memWrite_im (s : State) (a : Word) (v : Byte) : (s.memWrite a v).im = s.im := rfl
@[simp] theorem State.memWrite_halt (s : State) (a : Word) (v : Byte) : (s.memWrite a v).halt = s.halt := rfl
@[simp] theorem State.memWrite_nmiPending (s : State) (a : Word) (v : Byte) : (s.memWrite a v).nmiPending = s.nmiPending := rfl
@[simp] theorem State.memWrite_intLine (s : State) (a : Word) (v : Byte) : (s.memWrite a v).intLine = s.intLine := rfl
@[simp] theorem State.memWrite_inhibit (s : State) (a : Word) (v : Byte) : (s.memWrite a v).inhibit = s.inhibit := rfl
@[simp] theorem State.memWrite_pfx (s : State) (a : Word) (v : Byte) : (s.memWrite a v).pfx = s.pfx := rfl
@[simp] theorem State.memWrite_wz (s : State) (a : Word) (v : Byte) : (s.memWrite a v).wz = s.wz := rfl
@[simp] theorem State.memWrite_cycles (s : State) (a : Word) (v : Byte) : (s.memWrite a v).cycles = s.cycles + s.cfg.tMem := rfl
@[simp] theorem State.memWrite_cfg (s : State) (a : Word) (v : Byte) : (s.memWrite a v).cfg = s.cfg := rfl
@[simp] theorem State.memWrite_adapter (s : State) (a : Word) (v : Byte) : (s.memWrite a v).adapter = s.adapter := rfl
@[simp] theorem State.memWrite_mem (s : State) (a : Word) (v : Byte) : (s.memWrite a v).mem = s.adapter.store s.mem a v := rfl
@[simp] theorem State.memWrite_answers (s : State) (a : Word) (v : Byte) : (s.memWrite a v).answers = s.answers := rfl
@[simp] theorem State.memWrite_lineScript (s : State) (a : Word) (v : Byte) : (s.memWrite a v).lineScript = s.lineScript := rfl
@[simp] theorem State.memWrite_bus (s : State) (a : Word) (v : Byte) : (s.memWrite a v).bus = .write a v :: s.bus := rfl

/-! ### `ioWrite` -/

@[simp] theorem State.ioWrite_a (s : State) (port : Word) (v : Byte) : (s.ioWrite port v).a = s.a := rfl
@[simp] theorem State.ioWrite_f (s : State) (port : Word) (v : Byte) : (s.ioWrite port v).f = s.f := rfl
@[simp] theorem State.ioWrite_b (s : State) (port : Word) (v : Byte) : (s.ioWrite port v).b = s.b := rfl
@[simp] theorem State.ioWrite_c (s : State) (port : Word) (v : Byte) : (s.ioWrite port v).c = s.c := rfl
@[simp] theorem State.ioWrite_d (s : State) (port : Word) (v : Byte) : (s.ioWrite port v).d = s.d := rfl
@[simp] theorem State.ioWrite_e (s : State) (port : Word) (v : Byte) : (s.ioWrite port v).e = s.e := rfl
@[simp] theorem State.ioWrite_h (s : State) (port : Word) (v : Byte) : (s.ioWrite port v).h = s.h := rfl
@[simp] theorem State.ioWrite_l (s : State) (port : Word) (v : Byte) : (s.ioWrite port v).l = s.l := rfl
@[simp] theorem State.ioWrite_altA (s : State) (port : Word) (v : Byte) : (s.ioWrite port v).altA = s.altA := rfl
@[simp] theorem State.ioWrite_altF (s : State) (port : Word) (v : Byte) : (s.ioWrite port v).altF = s.altF := rfl
@[simp] theorem State.ioWrite_altB (s : State) (port : Word) (v : Byte) : (s.ioWrite port v).altB = s.altB := rfl
@[simp] theorem State.ioWrite_altC (s : State) (port : Word) (v : Byte) : (s.ioWrite port v).altC = s.altC := rfl
@[simp] theorem State.ioWrite_altD (s : State) (port : Word) (v : Byte) : (s.ioWrite port v).altD = s.altD := rfl
@[simp] theorem State.ioWrite_altE (s : State) (port : Word) (v : Byte) : (s.ioWrite port v).altE = s.altE := rfl
@[simp] theorem State.ioWrite_altH (s : State) (port : Word) (v : Byte) : (s.ioWrite port v).altH = s.altH := rfl
@[simp] theorem State.ioWrite_altL (s : State) (port : Word) (v : Byte) : (s.ioWrite port v).altL = s.altL := rfl
@[simp] theorem State.ioWrite_ix (s : State) (port : Word) (v : Byte) : (s.ioWrite port v).ix = s.ix := rfl
@[simp] theorem State.ioWrite_iy (s : State) (port : Word) (v : Byte) : (s.ioWrite port v).iy = s.iy := rfl
@[simp] theorem State.ioWrite_sp (s : State) (port : Word) (v : Byte) : (s.ioWrite port v).sp = s.sp := rfl
@[simp] theorem State.ioWrite_pc (s : State) (port : Word) (v : Byte) : (s.ioWrite port v).pc = s.pc := rfl
@[simp] theorem State.ioWrite_i (s : State) (port : Word) (v : Byte) : (s.ioWrite port v).i = s.i := rfl
@[simp] theorem State.ioWrite_r (s : State) (port : Word) (v : Byte) : (s.ioWrite port v).r = s.r := rfl
@[simp] theorem State.ioWrite_iff1 (s : State) (port : Word) (v : Byte) : (s.ioWrite port v).iff1 = s.iff1 := rfl
@[simp] theorem State.ioWrite_iff2 (s : State) (port : Word) (v : Byte) : (s.ioWrite port v).iff2 = s.iff2 := rfl
@[simp] theorem State.ioWrite_im (s : State) (port : Word) (v : Byte) : (s.ioWrite port v).im = s.im := rfl
@[simp] theorem State.ioWrite_halt (s : State) (port : Word) (v : Byte) : (s.ioWrite port v).halt = s.halt := rfl
@[simp] theorem State.ioWrite_nmiPending (s : State) (port : Word) (v : Byte) : (s.ioWrite port v).nmiPending = s.nmiPending := rfl
@[simp] theorem State.ioWrite_intLine (s : State) (port : Word) (v : Byte) : (s.ioWrite port v).intLine = s.intLine := rfl
@[simp] theorem State.ioWrite_inhibit (s : State) (port : Word) (v : Byte) : (s.ioWrite port v).inhibit = s.inhibit := rfl
@[simp] theorem State.ioWrite_pfx (s : State) (port : Word) (v : Byte) : (s.ioWrite port v).pfx = s.pfx := rfl
@[simp] theorem State.ioWrite_wz (s : State) (port : Word) (v : Byte) : (s.ioWrite port v).wz = s.wz := rfl
@[simp] theorem State.ioWrite_cycles (s : State) (port : Word) (v : Byte) : (s.ioWrite port v).cycles = s.cycles + s.cfg.tIo := rfl
@[simp] theorem State.ioWrite_cfg (s : State) (port : Word) (v : Byte) : (s.ioWrite port v).cfg = s.cfg := rfl
@[simp] theorem State.ioWrite_adapter (s : State) (port : Word) (v : Byte) : (s.ioWrite port v).adapter = s.adapter := rfl
@[simp] theorem State.ioWrite_mem (s : State) (port : Word) (v : Byte) : (s.ioWrite port v).mem = s.mem := rfl
@[simp] theorem State.ioWrite_answers (s : State) (port : Word) (v : Byte) : (s.ioWrite port v).answers = s.answers := rfl
@[simp] theorem State.ioWrite_lineScript (s : State) (port : Word) (v : Byte) : (s.ioWrite port v).lineScript = s.lineScript := rfl
@[simp] theorem State.ioWrite_bus (s : State) (port : Word) (v : Byte) : (s.ioWrite port v).bus = .ioWrite port v :: s.bus := rfl

/-! ### `setReg`: what no choice of its operand writes -/

@[simp] theorem State.setReg_f (s : State) (x : Reg8) (v : Byte) : (s.setReg x v).f = s.f := by cases x <;> rfl
@[simp] theorem State.setReg_altA (s : State) (x : Reg8) (v : Byte) : (s.setReg x v).altA = s.altA := by cases x <;> rfl
@[simp] theorem State.setReg_altF (s : State) (x : Reg8) (v : Byte) : (s.setReg x v).altF = s.altF := by cases x <;> rfl
@[simp] theorem State.setReg_altB (s : State) (x : Reg8) (v : Byte) : (s.setReg x v).altB = s.altB := by cases x <;> rfl
@[simp] theorem State.setReg_altC (s : State) (x : Reg8) (v : Byte) : (s.setReg x v).altC = s.altC := by cases x <;> rfl
@[simp] theorem State.setReg_altD (s : State) (x : Reg8) (v : Byte) : (s.setReg x v).altD = s.altD := by cases x <;> rfl
@[simp] theorem State.setReg_altE (s : State) (x : Reg8) (v : Byte) : (s.setReg x v).altE = s.altE := by cases x <;> rfl
@[simp] theorem State.setReg_altH (s : State) (x : Reg8) (v : Byte) : (s.setReg x v).altH = s.altH := by cases x <;> rfl
@[simp] theorem State.setReg_altL (s : State) (x : Reg8) (v : Byte) : (s.setReg x v).altL = s.altL := by cases x <;> rfl
@[simp] theorem State.setReg_ix (s : State) (x : Reg8) (v : Byte) : (s.setReg x v).ix = s.ix := by cases x <;> rfl
@[simp] theorem State.setReg_iy (s : State) (x : Reg8) (v : Byte) : (s.setReg x v).iy = s.iy := by cases x <;> rfl
@[simp] theorem State.setReg_sp (s : State) (x : Reg8) (v : Byte) : (s.setReg x v).sp = s.sp := by cases x <;> rfl
@[simp] theorem State.setReg_pc (s : State) (x : Reg8) (v : Byte) : (s.setReg x v).pc = s.pc := by cases x <;> rfl
@[simp] theorem State.setReg_i (s : State) (x : Reg8) (v : Byte) : (s.setReg x v).i = s.i := by cases x <;> rfl
@[simp] theorem State.setReg_r (s : State) (x : Reg8) (v : Byte) : (s.setReg x v).r = s.r := by cases x <;> rfl
@[simp] theorem State.setReg_iff1 (s : State) (x : Reg8) (v : Byte) : (s.setReg x v).iff1 = s.iff1 := by cases x <;> rfl
@[simp] theorem State.setReg_iff2 (s : State) (x : Reg8) (v : Byte) : (s.setReg x v).iff2 = s.iff2 := by cases x <;> rfl
@[simp] theorem State.setReg_im (s : State) (x : Reg8) (v : Byte) : (s.setReg x v).im = s.im := by cases x <;> rfl
@[simp] theorem State.setReg_halt (s : State) (x : Reg8) (v : Byte) : (s.setReg x v).halt = s.halt := by cases x <;> rfl
@[simp] theorem State.setReg_nmiPending (s : State) (x : Reg8) (v : Byte) : (s.setReg x v).nmiPending = s.nmiPending := by cases x <;> rfl
@[simp] theorem State.setReg_intLine (s : State) (x : Reg8) (v : Byte) : (s.setReg x v).intLine = s.intLine := by cases x <;> rfl
@[simp] theorem State.setReg_inhibit (s : State) (x : Reg8) (v : Byte) : (s.setReg x v).inhibit = s.inhibit := by cases x <;> rfl
@[simp] theorem State.setReg_pfx (s : State) (x : Reg8) (v : Byte) : (s.setReg x v).pfx = s.pfx := by cases x <;> rfl
@[simp] theorem State.setReg_wz (s : State) (x : Reg8) (v : Byte) : (s.setReg x v).wz = s.wz := by cases x <;> rfl
@[simp] theorem State.setReg_cycles (s : State) (x : Reg8) (v : Byte) : (s.setReg x v).cycles = s.cycles := by cases x <;> rfl
@[simp] theorem State.setReg_cfg (s : State) (x : Reg8) (v : Byte) : (s.setReg x v).cfg = s.cfg := by cases x <;> rfl
@[simp] theorem State.setReg_adapter (s : State) (x : Reg8) (v : Byte) : (s.setReg x v).adapter = s.adapter := by cases x <;> rfl
@[simp] theorem State.setReg_mem (s : State) (x : Reg8) (v : Byte) : (s.setReg x v).mem = s.mem := by cases x <;> rfl
@[simp] theorem State.setReg_answers (s : State) (x : Reg8) (v : Byte) : (s.setReg x v).answers = s.answers := by cases x <;> rfl
@[simp] theorem State.setReg_lineScript (s : State) (x : Reg8) (v : Byte) : (s.setReg x v).lineScript = s.lineScript := by cases x <;> rfl
@[simp] theorem State.setReg_bus (s : State) (x : Reg8) (v : Byte) : (s.setReg x v).bus = s.bus := by cases x <;> rfl

/-! ### `setIndex`: what no choice of its operand writes -/

@[simp] theorem State.setIndex_a (s : State) (xy : Index) (w : Word) : (s.setIndex xy w).a = s.a := by cases xy <;> rfl
@[simp] theorem State.setIndex_f (s : State) (xy : Index) (w : Word) : (s.setIndex xy w).f = s.f := by cases xy <;> rfl
@[simp] theorem State.setIndex_b (s : State) (xy : Index) (w : Word) : (s.setIndex xy w).b = s.b := by cases xy <;> rfl
@[simp] theorem State.setIndex_c (s : State) (xy : Index) (w : Word) : (s.setIndex xy w).c = s.c := by cases xy <;> rfl
@[simp] theorem State.setIndex_d (s : State) (xy : Index) (w : Word) : (s.setIndex xy w).d = s.d := by cases xy <;> rfl
@[simp] theorem State.setIndex_e (s : State) (xy : Index) (w : Word) : (s.setIndex xy w).e = s.e := by cases xy <;> rfl
@[simp] theorem State.setIndex_h (s : State) (xy : Index) (w : Word) : (s.setIndex xy w).h = s.h := by cases xy <;> rfl
@[simp] theorem State.setIndex_l (s : State) (xy : Index) (w : Word) : (s.setIndex xy w).l = s.l := by cases xy <;> rfl
@[simp] theorem State.setIndex_altA (s : State) (xy : Index) (w : Word) : (s.setIndex xy w).altA = s.altA := by cases xy <;> rfl
@[simp] theorem State.setIndex_altF (s : State) (xy : Index) (w : Word) : (s.setIndex xy w).altF = s.altF := by cases xy <;> rfl
@[simp] theorem State.setIndex_altB (s : State) (xy : Index) (w : Word) : (s.setIndex xy w).altB = s.altB := by cases xy <;> rfl
@[simp] theorem State.setIndex_altC (s : State) (xy : Index) (w : Word) : (s.setIndex xy w).altC = s.altC := by cases xy <;> rfl
@[simp] theorem State.setIndex_altD (s : State) (xy : Index) (w : Word) : (s.setIndex xy w).altD = s.altD := by cases xy <;> rfl
@[simp] theorem State.setIndex_altE (s : State) (xy : Index) (w : Word) : (s.setIndex xy w).altE = s.altE := by cases xy <;> rfl
@[simp] theorem State.setIndex_altH (s : State) (xy : Index) (w : Word) : (s.setIndex xy w).altH = s.altH := by cases xy <;> rfl
@[simp] theorem State.setIndex_altL (s : State) (xy : Index) (w : Word) : (s.setIndex xy w).altL = s.altL := by cases xy <;> rfl
@[simp] theorem State.setIndex_sp (s : State) (xy : Index) (w : Word) : (s.setIndex xy w).sp = s.sp := by cases xy <;> rfl
@[simp] theorem State.setIndex_pc (s : State) (xy : Index) (w : Word) : (s.setIndex xy w).pc = s.pc := by cases xy <;> rfl
@[simp] theorem State.setIndex_i (s : State) (xy : Index) (w : Word) : (s.setIndex xy w).i = s.i := by cases xy <;> rfl
@[simp] theorem State.setIndex_r (s : State) (xy : Index) (w : Word) : (s.setIndex xy w).r = s.r := by cases xy <;> rfl
@[simp] theorem State.setIndex_iff1 (s : State) (xy : Index) (w : Word) : (s.setIndex xy w).iff1 = s.iff1 := by cases xy <;> rfl
@[simp] theorem State.setIndex_iff2 (s : State) (xy : Index) (w : Word) : (s.setIndex xy w).iff2 = s.iff2 := by cases xy <;> rfl
@[simp] theorem State.setIndex_im (s : State) (xy : Index) (w : Word) : (s.setIndex xy w).im = s.im := by cases xy <;> rfl
@[simp] theorem State.setIndex_halt (s : State) (xy : Index) (w : Word) : (s.setIndex xy w).halt = s.halt := by cases xy <;> rfl
@[simp] theorem State.setIndex_nmiPending (s : State) (xy : Index) (w : Word) : (s.setIndex xy w).nmiPending = s.nmiPending := by cases xy <;> rfl
@[simp] theorem State.setIndex_intLine (s : State) (xy : Index) (w : Word) : (s.setIndex xy w).intLine = s.intLine := by cases xy <;> rfl
@[simp] theorem State.setIndex_inhibit (s : State) (xy : Index) (w : Word) : (s.setIndex xy w).inhibit = s.inhibit := by cases xy <;> rfl
@[simp] theorem State.setIndex_pfx (s : State) (xy : Index) (w : Word) : (s.setIndex xy w).pfx = s.pfx := by cases xy <;> rfl
@[simp] theorem State.setIndex_wz (s : State) (xy : Index) (w : Word) : (s.setIndex xy w).wz = s.wz := by cases xy <;> rfl
@[simp] theorem State.setIndex_cycles (s : State) (xy : Index) (w : Word) : (s.setIndex xy w).cycles = s.cycles := by cases xy <;> rfl
@[simp] theorem State.setIndex_cfg (s : State) (xy : Index) (w : Word) : (s.setIndex xy w).cfg = s.cfg := by cases xy <;> rfl
@[simp] theorem State.setIndex_adapter (s : State) (xy : Index) (w : Word) : (s.setIndex xy w).adapter = s.adapter := by cases xy <;> rfl
@[simp] theorem State.setIndex_mem (s : State) (xy : Index) (w : Word) : (s.setIndex xy w).mem = s.mem := by cases xy <;> rfl
@[simp] theorem State.setIndex_answers (s : State) (xy : Index) (w : Word) : (s.setIndex xy w).answers = s.answers := by cases xy <;> rfl
@[simp] theorem State.setIndex_lineScript (s : State) (xy : Index) (w : Word) : (s.setIndex xy w).lineScript = s.lineScript := by cases xy <;> rfl
@[simp] theorem State.setIndex_bus (s : State) (xy : Index) (w : Word) : (s.setIndex xy w).bus = s.bus := by cases xy <;> rfl

/-! ### `setHalf`: what no choice of its operand writes -/

@[simp] theorem State.setHalf_a (s : State) (xy : Index) (p : Half) (v : Byte) : (s.setHalf xy p v).a = s.a := by cases xy <;> cases p <;> rfl
@[simp] theorem State.setHalf_f (s : State) (xy : Index) (p : Half) (v : Byte) : (s.setHalf xy p v).f = s.f := by cases xy <;> cases p <;> rfl
@[simp] theorem State.setHalf_b (s : State) (xy : Index) (p : Half) (v : Byte) : (s.setHalf xy p v).b = s.b := by cases xy <;> cases p <;> rfl
@[simp] theorem State.setHalf_c (s : State) (xy : Index) (p : Half) (v : Byte) : (s.setHalf xy p v).c = s.c := by cases xy <;> cases p <;> rfl
@[simp] theorem State.setHalf_d (s : State) (xy : Index) (p : Half) (v : Byte) : (s.setHalf xy p v).d = s.d := by cases xy <;> cases p <;> rfl
@[simp] theorem State.setHalf_e (s : State) (xy : Index) (p : Half) (v : Byte) : (s.setHalf xy p v).e = s.e := by cases xy <;> cases p <;> rfl
@[simp] theorem State.setHalf_h (s : State) (xy : Index) (p : Half) (v : Byte) : (s.setHalf xy p v).h = s.h := by cases xy <;> cases p <;> rfl
@[simp] theorem State.setHalf_l (s : State) (xy : Index) (p : Half) (v : Byte) : (s.setHalf xy p v).l = s.l := by cases xy <;> cases p <;> rfl
@[simp] theorem State.setHalf_altA (s : State) (xy : Index) (p : Half) (v : Byte) : (s.setHalf xy p v).altA = s.altA := by cases xy <;> cases p <;> rfl
@[simp] theorem State.setHalf_altF (s : State) (xy : Index) (p : Half) (v : Byte) : (s.setHalf xy p v).altF = s.altF := by cases xy <;> cases p <;> rfl
@[simp] theorem State.setHalf_altB (s : State) (xy : Index) (p : Half) (v : Byte) : (s.setHalf xy p v).altB = s.altB := by cases xy <;> cases p <;> rfl
@[simp] theorem State.setHalf_altC (s : State) (xy : Index) (p : Half) (v : Byte) : (s.setHalf xy p v).altC = s.altC := by cases xy <;> cases p <;> rfl
@[simp] theorem State.setHalf_altD (s : State) (xy : Index) (p : Half) (v : Byte) : (s.setHalf xy p v).altD = s.altD := by cases xy <;> cases p <;> rfl
@[simp] theorem State.setHalf_altE (s : State) (xy : Index) (p : Half) (v : Byte) : (s.setHalf xy p v).altE = s.altE := by cases xy <;> cases p <;> rfl
@[simp] theorem State.setHalf_altH (s : State) (xy : Index) (p : Half) (v : Byte) : (s.setHalf xy p v).altH = s.altH := by cases xy <;> cases p <;> rfl
@[simp] theorem State.setHalf_altL (s : State) (xy : Index) (p : Half) (v : Byte) : (s.setHalf xy p v).altL = s.altL := by cases xy <;> cases p <;> rfl
@[simp] theorem State.setHalf_sp (s : State) (xy : Index) (p : Half) (v : Byte) : (s.setHalf xy p v).sp = s.sp := by cases xy <;> cases p <;> rfl
@[simp] theorem State.setHalf_pc (s : State) (xy : Index) (p : Half) (v : Byte) : (s.setHalf xy p v).pc = s.pc := by cases xy <;> cases p <;> rfl
@[simp] theorem State.setHalf_i (s : State) (xy : Index) (p : Half) (v : Byte) : (s.setHalf xy p v).i = s.i := by cases xy <;> cases p <;> rfl
@[simp] theorem State.setHalf_r (s : State) (xy : Index) (p : Half) (v : Byte) : (s.setHalf xy p v).r = s.r := by cases xy <;> cases p <;> rfl
@[simp] theorem State.setHalf_iff1 (s : State) (xy : Index) (p : Half) (v : Byte) : (s.setHalf xy p v).iff1 = s.iff1 := by cases xy <;> cases p <;> rfl
@[simp] theorem State.setHalf_iff2 (s : State) (xy : Index) (p : Half) (v : Byte) : (s.setHalf xy p v).iff2 = s.iff2 := by cases xy <;> cases p <;> rfl
@[simp] theorem State.setHalf_im (s : State) (xy : Index) (p : Half) (v : Byte) : (s.setHalf xy p v).im = s.im := by cases xy <;> cases p <;> rfl
@[simp] theorem State.setHalf_halt (s : State) (xy : Index) (p : Half) (v : Byte) : (s.setHalf xy p v).halt = s.halt := by cases xy <;> cases p <;> rfl
@[simp] theorem State.setHalf_nmiPending (s : State) (xy : Index) (p : Half) (v : Byte) : (s.setHalf xy p v).nmiPending = s.nmiPending := by cases xy <;> cases p <;> rfl
@[simp] theorem State.setHalf_intLine (s : State) (xy : Index) (p : Half) (v : Byte) : (s.setHalf xy p v).intLine = s.intLine := by cases xy <;> cases p <;> rfl
@[simp] theorem State.setHalf_inhibit (s : State) (xy : Index) (p : Half) (v : Byte) : (s.setHalf xy p v).inhibit = s.inhibit := by cases xy <;> cases p <;> rfl
@[simp] theorem State.setHalf_pfx (s : State) (xy : Index) (p : Half) (v : Byte) : (s.setHalf xy p v).pfx = s.pfx := by cases xy <;> cases p <;> rfl
@[simp] theorem State.setHalf_wz (s : State) (xy : Index) (p : Half) (v : Byte) : (s.setHalf xy p v).wz = s.wz := by cases xy <;> cases p <;> rfl
@[simp] theorem State.setHalf_cycles (s : State) (xy : Index) (p : Half) (v : Byte) : (s.setHalf xy p v).cycles = s.cycles := by cases xy <;> cases p <;> rfl
@[simp] theorem State.setHalf_cfg (s : State) (xy : Index) (p : Half) (v : Byte) : (s.setHalf xy p v).cfg = s.cfg := by cases xy <;> cases p <;> rfl
@[simp] theorem State.setHalf_adapter (s : State) (xy : Index) (p : Half) (v : Byte) : (s.setHalf xy p v).adapter = s.adapter := by cases xy <;> cases p <;> rfl
@[simp] theorem State.setHalf_mem (s : State) (xy : Index) (p : Half) (v : Byte) : (s.setHalf xy p v).mem = s.mem := by cases xy <;> cases p <;> rfl
@[simp] theorem State.setHalf_answers (s : State) (xy : Index) (p : Half) (v : Byte) : (s.setHalf xy p v).answers = s.answers := by cases xy <;> cases p <;> rfl
@[simp] theorem State.setHalf_lineScript (s : State) (xy : Index) (p : Half) (v : Byte) : (s.setHalf xy p v).lineScript = s.lineScript := by cases xy <;> cases p <;> rfl
@[simp] theorem State.setHalf_bus (s : State) (xy : Index) (p : Half) (v : Byte) : (s.setHalf xy p v).bus = s.bus := by cases xy <;> cases p <;> rfl

/-! ### `setPair`: what no choice of its operand writes -/

@[simp] theorem State.setPair_a (s : State) (p : Pair) (w : Word) : (s.setPair p w).a = s.a := by cases p <;> rfl
@[simp] theorem State.setPair_f (s : State) (p : Pair) (w : Word) : (s.setPair p w).f = s.f := by cases p <;> rfl
@[simp] theorem State.setPair_altA (s : State) (p : Pair) (w : Word) : (s.setPair p w).altA = s.altA := by cases p <;> rfl
@[simp] theorem State.setPair_altF (s : State) (p : Pair) (w : Word) : (s.setPair p w).altF = s.altF := by cases p <;> rfl
@[simp] theorem State.setPair_altB (s : State) (p : Pair) (w : Word) : (s.setPair p w).altB = s.altB := by cases p <;> rfl
@[simp] theorem State.setPair_altC (s : State) (p : Pair) (w : Word) : (s.setPair p w).altC = s.altC := by cases p <;> rfl
@[simp] theorem State.setPair_altD (s : State) (p : Pair) (w : Word) : (s.setPair p w).altD = s.altD := by cases p <;> rfl
@[simp] theorem State.setPair_altE (s : State) (p : Pair) (w : Word) : (s.setPair p w).altE = s.altE := by cases p <;> rfl
@[simp] theorem State.setPair_altH (s : State) (p : Pair) (w : Word) : (s.setPair p w).altH = s.altH := by cases p <;> rfl
@[simp] theorem State.setPair_altL (s : State) (p : Pair) (w : Word) : (s.setPair p w).altL = s.altL := by cases p <;> rfl
@[simp] theorem State.setPair_ix (s : State) (p : Pair) (w : Word) : (s.setPair p w).ix = s.ix := by cases p <;> rfl
@[simp] theorem State.setPair_iy (s : State) (p : Pair) (w : Word) : (s.setPair p w).iy = s.iy := by cases p <;> rfl
@[simp] theorem State.setPair_pc (s : State) (p : Pair) (w : Word) : (s.setPair p w).pc = s.pc := by cases p <;> rfl
@[simp] theorem State.setPair_i (s : State) (p : Pair) (w : Word) : (s.setPair p w).i = s.i := by cases p <;> rfl
@[simp] theorem State.setPair_r (s : State) (p : Pair) (w : Word) : (s.setPair p w).r = s.r := by cases p <;> rfl
@[simp] theorem State.setPair_iff1 (s : State) (p : Pair) (w : Word) : (s.setPair p w).iff1 = s.iff1 := by cases p <;> rfl
@[simp] theorem State.setPair_iff2 (s : State) (p : Pair) (w : Word) : (s.setPair p w).iff2 = s.iff2 := by cases p <;> rfl
@[simp] theorem State.setPair_im (s : State) (p : Pair) (w : Word) : (s.setPair p w).im = s.im := by cases p <;> rfl
@[simp] theorem State.setPair_halt (s : State) (p : Pair) (w : Word) : (s.setPair p w).halt = s.halt := by cases p <;> rfl
@[simp] theorem State.setPair_nmiPending (s : State) (p : Pair) (w : Word) : (s.setPair p w).nmiPending = s.nmiPending := by cases p <;> rfl
@[simp] theorem State.setPair_intLine (s : State) (p : Pair) (w : Word) : (s.setPair p w).intLine = s.intLine := by cases p <;> rfl
@[simp] theorem State.setPair_inhibit (s : State) (p : Pair) (w : Word) : (s.setPair p w).inhibit = s.inhibit := by cases p <;> rfl
@[simp] theorem State.setPair_pfx (s : State) (p : Pair) (w : Word) : (s.setPair p w).pfx = s.pfx := by cases p <;> rfl
@[simp] theorem State.setPair_wz (s : State) (p : Pair) (w : Word) : (s.setPair p w).wz = s.wz := by cases p <;> rfl
@[simp] theorem State.setPair_cycles (s : State) (p : Pair) (w : Word) : (s.setPair p w).cycles = s.cycles := by cases p <;> rfl
@[simp] theorem State.setPair_cfg (s : State) (p : Pair) (w : Word) : (s.setPair p w).cfg = s.cfg := by cases p <;> rfl
@[simp] theorem State.setPair_adapter (s : State) (p : Pair) (w : Word) : (s.setPair p w).adapter = s.adapter := by cases p <;> rfl
@[simp] theorem State.setPair_mem (s : State) (p : Pair) (w : Word) : (s.setPair p w).mem = s.mem := by cases p <;> rfl
@[simp] theorem State.setPair_answers (s : State) (p : Pair) (w : Word) : (s.setPair p w).answers = s.answers := by cases p <;> rfl
@[simp] theorem State.setPair_lineScript (s : State) (p : Pair) (w : Word) : (s.setPair p w).lineScript = s.lineScript := by cases p <;> rfl
@[simp] theorem State.setPair_bus (s : State) (p : Pair) (w : Word) : (s.setPair p w).bus = s.bus := by cases p <;> rfl

/-! ### `setStackPair`: what no choice of its operand writes -/

@[simp] theorem State.setStackPair_altA (s : State) (p : StackPair) (w : Word) : (s.setStackPair p w).altA = s.altA := by cases p <;> rfl
@[simp] theorem State.setStackPair_altF (s : State) (p : StackPair) (w : Word) : (s.setStackPair p w).altF = s.altF := by cases p <;> rfl
@[simp] theorem State.setStackPair_altB (s : State) (p : StackPair) (w : Word) : (s.setStackPair p w).altB = s.altB := by cases p <;> rfl
@[simp] theorem State.setStackPair_altC (s : State) (p : StackPair) (w : Word) : (s.setStackPair p w).altC = s.altC := by cases p <;> rfl
@[simp] theorem State.setStackPair_altD (s : State) (p : StackPair) (w : Word) : (s.setStackPair p w).altD = s.altD := by cases p <;> rfl
@[simp] theorem State.setStackPair_altE (s : State) (p : StackPair) (w : Word) : (s.setStackPair p w).altE = s.altE := by cases p <;> rfl
@[simp] theorem State.setStackPair_altH (s : State) (p : StackPair) (w : Word) : (s.setStackPair p w).altH = s.altH := by cases p <;> rfl
@[simp] theorem State.setStackPair_altL (s : State) (p : StackPair) (w : Word) : (s.setStackPair p w).altL = s.altL := by cases p <;> rfl
@[simp] theorem State.setStackPair_ix (s : State) (p : StackPair) (w : Word) : (s.setStackPair p w).ix = s.ix := by cases p <;> rfl
@[simp] theorem State.setStackPair_iy (s : State) (p : StackPair) (w : Word) : (s.setStackPair p w).iy = s.iy := by cases p <;> rfl
@[simp] theorem State.setStackPair_sp (s : State) (p : StackPair) (w : Word) : (s.setStackPair p w).sp = s.sp := by cases p <;> rfl
@[simp] theorem State.setStackPair_pc (s : State) (p : StackPair) (w : Word) : (s.setStackPair p w).pc = s.pc := by cases p <;> rfl
@[simp] theorem State.setStackPair_i (s : State) (p : StackPair) (w : Word) : (s.setStackPair p w).i = s.i := by cases p <;> rfl
@[simp] theorem State.setStackPair_r (s : State) (p : StackPair) (w : Word) : (s.setStackPair p w).r = s.r := by cases p <;> rfl
@[simp] theorem State.setStackPair_iff1 (s : State) (p : StackPair) (w : Word) : (s.setStackPair p w).iff1 = s.iff1 := by cases p <;> rfl
@[simp] theorem State.setStackPair_iff2 (s : State) (p : StackPair) (w : Word) : (s.setStackPair p w).iff2 = s.iff2 := by cases p <;> rfl
@[simp] theorem State.setStackPair_im (s : State) (p : StackPair) (w : Word) : (s.setStackPair p w).im = s.im := by cases p <;> rfl
@[simp] theorem State.setStackPair_halt (s : State) (p : StackPair) (w : Word) : (s.setStackPair p w).halt = s.halt := by cases p <;> rfl
@[simp] theorem State.setStackPair_nmiPending (s : State) (p : StackPair) (w : Word) : (s.setStackPair p w).nmiPending = s.nmiPending := by cases p <;> rfl
@[simp] theorem State.setStackPair_intLine (s : State) (p : StackPair) (w : Word) : (s.setStackPair p w).intLine = s.intLine := by cases p <;> rfl
@[simp] theorem State.setStackPair_inhibit (s : State) (p : StackPair) (w : Word) : (s.setStackPair p w).inhibit = s.inhibit := by cases p <;> rfl
@[simp] theorem State.setStackPair_pfx (s : State) (p : StackPair) (w : Word) : (s.setStackPair p w).pfx = s.pfx := by cases p <;> rfl
@[simp] theorem State.setStackPair_wz (s : State) (p : StackPair) (w : Word) : (s.setStackPair p w).wz = s.wz := by cases p <;> rfl
@[simp] theorem State.setStackPair_cycles (s : State) (p : StackPair) (w : Word) : (s.setStackPair p w).cycles = s.cycles := by cases p <;> rfl
@[simp] theorem State.setStackPair_cfg (s : State) (p : StackPair) (w : Word) : (s.setStackPair p w).cfg = s.cfg := by cases p <;> rfl
@[simp] theorem State.setStackPair_adapter (s : State) (p : StackPair) (w : Word) : (s.setStackPair p w).adapter = s.adapter := by cases p <;> rfl
@[simp] theorem State.setStackPair_mem (s : State) (p : StackPair) (w : Word) : (s.setStackPair p w).mem = s.mem := by cases p <;> rfl
@[simp] theorem State.setStackPair_answers (s : State) (p : StackPair) (w : Word) : (s.setStackPair p w).answers = s.answers := by cases p <;> rfl
@[simp] theorem State.setStackPair_lineScript (s : State) (p : StackPair) (w : Word) : (s.setStackPair p w).lineScript = s.lineScript := by cases p <;> rfl
@[simp] theorem State.setStackPair_bus (s : State) (p : StackPair) (w : Word) : (s.setStackPair p w).bus = s.bus := by cases p <;> rfl

/-! ### `setXReg`: what no choice of its operand writes -/

@[simp] theorem State.setXReg_f (s : State) (xy : Index) (x : XReg8) (v : Byte) : (s.setXReg xy x v).f = s.f := by cases x <;> simp [State.setXReg]
@[simp] theorem State.setXReg_altA (s : State) (xy : Index) (x : XReg8) (v : Byte) : (s.setXReg xy x v).altA = s.altA := by cases x <;> simp [State.setXReg]
@[simp] theorem State.setXReg_altF (s : State) (xy : Index) (x : XReg8) (v : Byte) : (s.setXReg xy x v).altF = s.altF := by cases x <;> simp [State.setXReg]
@[simp] theorem State.setXReg_altB (s : State) (xy : Index) (x : XReg8) (v : Byte) : (s.setXReg xy x v).altB = s.altB := by cases x <;> simp [State.setXReg]
@[simp] theorem State.setXReg_altC (s : State) (xy : Index) (x : XReg8) (v : Byte) : (s.setXReg xy x v).altC = s.altC := by cases x <;> simp [State.setXReg]
@[simp] theorem State.setXReg_altD (s : State) (xy : Index) (x : XReg8) (v : Byte) : (s.setXReg xy x v).altD = s.altD := by cases x <;> simp [State.setXReg]
@[simp] theorem State.setXReg_altE (s : State) (xy : Index) (x : XReg8) (v : Byte) : (s.setXReg xy x v).altE = s.altE := by cases x <;> simp [State.setXReg]
@[simp] theorem State.setXReg_altH (s : State) (xy : Index) (x : XReg8) (v : Byte) : (s.setXReg xy x v).altH = s.altH := by cases x <;> simp [State.setXReg]
@[simp] theorem State.setXReg_altL (s : State) (xy : Index) (x : XReg8) (v : Byte) : (s.setXReg xy x v).altL = s.altL := by cases x <;> simp [State.setXReg]
@[simp] theorem State.setXReg_sp (s : State) (xy : Index) (x : XReg8) (v : Byte) : (s.setXReg xy x v).sp = s.sp := by cases x <;> simp [State.setXReg]
@[simp] theorem State.setXReg_pc (s : State) (xy : Index) (x : XReg8) (v : Byte) : (s.setXReg xy x v).pc = s.pc := by cases x <;> simp [State.setXReg]
@[simp] theorem State.setXReg_i (s : State) (xy : Index) (x : XReg8) (v : Byte) : (s.setXReg xy x v).i = s.i := by cases x <;> simp [State.setXReg]
@[simp] theorem State.setXReg_r (s : State) (xy : Index) (x : XReg8) (v : Byte) : (s.setXReg xy x v).r = s.r := by cases x <;> simp [State.setXReg]
@[simp] theorem State.setXReg_iff1 (s : State) (xy : Index) (x : XReg8) (v : Byte) : (s.setXReg xy x v).iff1 = s.iff1 := by cases x <;> simp [State.setXReg]
@[simp] theorem State.setXReg_iff2 (s : State) (xy : Index) (x : XReg8) (v : Byte) : (s.setXReg xy x v).iff2 = s.iff2 := by cases x <;> simp [State.setXReg]
@[simp] theorem State.setXReg_im (s : State) (xy : Index) (x : XReg8) (v : Byte) : (s.setXReg xy x v).im = s.im := by cases x <;> simp [State.setXReg]
@[simp] theorem State.setXReg_halt (s : State) (xy : Index) (x : XReg8) (v : Byte) : (s.setXReg xy x v).halt = s.halt := by cases x <;> simp [State.setXReg]
@[simp] theorem State.setXReg_nmiPending (s : State) (xy : Index) (x : XReg8) (v : Byte) : (s.setXReg xy x v).nmiPending = s.nmiPending := by cases x <;> simp [State.setXReg]
@[simp] theorem State.setXReg_intLine (s : State) (xy : Index) (x : XReg8) (v : Byte) : (s.setXReg xy x v).intLine = s.intLine := by cases x <;> simp [State.setXReg]
@[simp] theorem State.setXReg_inhibit (s : State) (xy : Index) (x : XReg8) (v : Byte) : (s.setXReg xy x v).inhibit = s.inhibit := by cases x <;> simp [State.setXReg]
@[simp] theorem State.setXReg_pfx (s : State) (xy : Index) (x : XReg8) (v : Byte) : (s.setXReg xy x v).pfx = s.pfx := by cases x <;> simp [State.setXReg]
@[simp] theorem State.setXReg_wz (s : State) (xy : Index) (x : XReg8) (v : Byte) : (s.setXReg xy x v).wz = s.wz := by cases x <;> simp [State.setXReg]
@[simp] theorem State.setXReg_cycles (s : State) (xy : Index) (x : XReg8) (v : Byte) : (s.setXReg xy x v).cycles = s.cycles := by cases x <;> simp [State.setXReg]
@[simp] theorem State.setXReg_cfg (s : State) (xy : Index) (x : XReg8) (v : Byte) : (s.setXReg xy x v).cfg = s.cfg := by cases x <;> simp [State.setXReg]
@[simp] theorem State.setXReg_adapter (s : State) (xy : Index) (x : XReg8) (v : Byte) : (s.setXReg xy x v).adapter = s.adapter := by cases x <;> simp [State.setXReg]
@[simp] theorem State.setXReg_mem (s : State) (xy : Index) (x : XReg8) (v : Byte) : (s.setXReg xy x v).mem = s.mem := by cases x <;> simp [State.setXReg]
@[simp] theorem State.setXReg_answers (s : State) (xy : Index) (x : XReg8) (v : Byte) : (s.setXReg xy x v).answers = s.answers := by cases x <;> simp [State.setXReg]
@[simp] theorem State.setXReg_lineScript (s : State) (xy : Index) (x : XReg8) (v : Byte) : (s.setXReg xy x v).lineScript = s.lineScript := by cases x <;> simp [State.setXReg]
@[simp] theorem State.setXReg_bus (s : State) (xy : Index) (x : XReg8) (v : Byte) : (s.setXReg xy x v).bus = s.bus := by cases x <;> simp [State.setXReg]

/-! ### Reading back what was written -/

@[simp] theorem State.getReg_setReg_same (s : State) (x : Reg8) (v : Byte) : (s.setReg x v).getReg x = v := by cases x <;> rfl

theorem State.getReg_setReg_ne (s : State) {x y : Reg8} (v : Byte) (h : y ≠ x) : (s.setReg x v).getReg y = s.getReg y := by
  cases x <;> cases y <;> first | rfl | exact absurd rfl h

@[simp] theorem State.getIndex_setIndex_same (s : State) (xy : Index) (w : Word) : (s.setIndex xy w).getIndex xy = w := by cases xy <;> rfl

theorem State.getIndex_setIndex_ne (s : State) {x y : Index} (w : Word) (h : y ≠ x) : (s.setIndex x w).getIndex y = s.getIndex y := by
  cases x <;> cases y <;> first | rfl | exact absurd rfl h

@[simp] theorem joinBytes_halves (w : Word) : joinBytes (hiByte w) (loByte w) = w := by
  refine BitVec.eq_of_getLsbD_eq fun i hi => ?_
  simp only [joinBytes, hiByte, loByte]
  rw [BitVec.getLsbD_append]
  by_cases h : i < 8
  · simp [h]
  · have hk : 8 + (i - 8) = i := by omega
    simp only [h, decide_false, BitVec.getLsbD_extractLsb']
    simp [hk]; omega

@[simp] theorem hiByte_joinBytes (h l : Byte) : hiByte (joinBytes h l) = h := by
  refine BitVec.eq_of_getLsbD_eq fun i hi => ?_
  simp only [joinBytes, hiByte, BitVec.getLsbD_extractLsb', hi, decide_true, Bool.true_and]
  rw [BitVec.getLsbD_append]; simp

@[simp] theorem loByte_joinBytes (h l : Byte) : loByte (joinBytes h l) = l := by
  refine BitVec.eq_of_getLsbD_eq fun i hi => ?_
  simp only [joinBytes, loByte, BitVec.getLsbD_extractLsb', hi, decide_true, Bool.true_and]
  rw [BitVec.getLsbD_append]; simp [hi]

@[simp] theorem State.getPair_setPair_same (s : State) (p : Pair) (w : Word) : (s.setPair p w).getPair p = w := by
  cases p <;> simp [State.setPair, State.getPair, State.bc, State.de, State.hl, State.setBc, State.setDe, State.setHl, State.setSp]

@[simp] theorem State.getStackPair_setStackPair_same (s : State) (p : StackPair) (w : Word) :
    (s.setStackPair p w).getStackPair p = w := by
  cases p <;> simp [State.setStackPair, State.getStackPair, State.bc, State.de, State.hl, State.af, State.setBc, State.setDe, State.setHl, State.setAf]

@[simp] theorem State.getHalf_setHalf_same (s : State) (xy : Index) (p : Half) (v : Byte) : (s.setHalf xy p v).getHalf xy p = v := by
  cases p <;> simp [State.setHalf, State.getHalf]

end Sys2Proof.Machine
end

