-- ==== Sys2Proof/Laws/Ops.lean ====
section
/-! SUPPORT. What each shared operation does, all of it, as one equation: every field it writes with its new value. A
proof cites these and leaves the operations folded. -/

namespace Sys2Proof.Machine

open Sys2Proof

/-! ### The primitives of 00_scope.md R8 to R14 -/

theorem State.fetch_eq (s : State) : s.fetch = (s.memValue .fetch s.pc,
    { s with pc := s.pc + 1, r := (s.r &&& 0x80) ||| ((s.r + 1) &&& 0x7F),
             answers := if s.adapter.isDevice s.pc then s.answers.tail else s.answers,
             bus := .fetch s.pc (s.memValue .fetch s.pc) :: s.bus, cycles := s.cycles + s.cfg.tFetch }) := by
  simp only [State.fetch, State.setPc, State.bumpR, State.useAnswer, State.note, State.tick]

theorem State.memRead_eq (s : State) (a : Word) : s.memRead a = (s.memValue .read a,
    { s with answers := if s.adapter.isDevice a then s.answers.tail else s.answers,
             bus := .read a (s.memValue .read a) :: s.bus, cycles := s.cycles + s.cfg.tMem }) := by
  simp only [State.memRead, State.useAnswer, State.note, State.tick]

theorem State.memRead16_eq (s : State) (a : Word) : s.memRead16 a =
    (joinBytes ((s.memRead a).2.memRead (a + 1)).1 (s.memRead a).1, ((s.memRead a).2.memRead (a + 1)).2) := rfl

theorem State.memWrite_eq (s : State) (a : Word) (v : Byte) : s.memWrite a v =
    { s with mem := s.adapter.store s.mem a v, bus := .write a v :: s.bus, cycles := s.cycles + s.cfg.tMem } := by
  simp only [State.memWrite, State.note, State.tick]

theorem State.memWrite16_eq (s : State) (a w : Word) : s.memWrite16 a w =
    { s with mem := s.adapter.store (s.adapter.store s.mem a (loByte w)) (a + 1) (hiByte w),
             bus := .write (a + 1) (hiByte w) :: .write a (loByte w) :: s.bus,
             cycles := s.cycles + s.cfg.tMem + s.cfg.tMem } := by
  simp only [State.memWrite16, State.memWrite_eq]

theorem State.imm8_eq (s : State) : s.imm8 = (s.memValue .read s.pc,
    { s with pc := s.pc + 1, answers := if s.adapter.isDevice s.pc then s.answers.tail else s.answers,
             bus := .read s.pc (s.memValue .read s.pc) :: s.bus, cycles := s.cycles + s.cfg.tMem }) := by
  simp only [State.imm8, State.setPc, State.memRead_eq, State.memValue, State.nextAnswer]

theorem State.ioRead_eq (s : State) (port : Word) : s.ioRead port = (s.portValue port,
    { s with answers := if s.adapter.ownPorts then s.answers.tail else s.answers,
             bus := .ioRead port (s.portValue port) :: s.bus, cycles := s.cycles + s.cfg.tIo }) := by
  simp only [State.ioRead, State.useAnswer, State.note, State.tick]

theorem State.ioWrite_eq (s : State) (port : Word) (v : Byte) : s.ioWrite port v =
    { s with bus := .ioWrite port v :: s.bus, cycles := s.cycles + s.cfg.tIo } := by
  simp only [State.ioWrite, State.note, State.tick]

theorem State.push16_eq (s : State) (w : Word) : s.push16 w =
    { s with sp := s.sp - 1 - 1,
             mem := s.adapter.store (s.adapter.store s.mem (s.sp - 1) (hiByte w)) (s.sp - 1 - 1) (loByte w),
             bus := .write (s.sp - 1 - 1) (loByte w) :: .write (s.sp - 1) (hiByte w) :: s.bus,
             cycles := s.cycles + s.cfg.tMem + s.cfg.tMem } := by
  simp only [State.push16, State.setSp, State.memWrite_eq]

/-- A pop reads the two bytes, low byte first, and moves `SP` past them. -/
theorem State.pop16_eq (s : State) : s.pop16 =
    ((s.memRead16 s.sp).1, { (s.memRead16 s.sp).2 with sp := s.sp + 1 + 1 }) := by
  simp only [State.pop16, State.setSp, State.memRead16, State.memRead_eq, State.memValue, State.nextAnswer]

theorem State.callTo_eq (s : State) (target : Word) : s.callTo target =
    { s with sp := s.sp - 1 - 1, pc := target, wz := target,
             mem := s.adapter.store (s.adapter.store s.mem (s.sp - 1) (hiByte s.pc)) (s.sp - 1 - 1) (loByte s.pc),
             bus := .write (s.sp - 1 - 1) (loByte s.pc) :: .write (s.sp - 1) (hiByte s.pc) :: s.bus,
             cycles := s.cycles + s.cfg.tMem + s.cfg.tMem } := by
  simp only [State.callTo, State.push16_eq, State.jumpTo, State.setPc, State.setWz]

theorem State.popPc_eq (s : State) : s.popPc =
    { (s.memRead16 s.sp).2 with sp := s.sp + 1 + 1, pc := (s.memRead16 s.sp).1, wz := (s.memRead16 s.sp).1 } := by
  simp only [State.popPc, State.pop16_eq, State.jumpTo, State.setPc, State.setWz]

/-! ### Taking an interrupt and returning from one -/

theorem State.accept_nmi_eq (s : State) : s.accept .nmi =
    { s with nmiPending := false, halt := false, r := (s.r &&& 0x80) ||| ((s.r + 1) &&& 0x7F), iff1 := false,
             sp := s.sp - 1 - 1, pc := 0x0066, wz := 0x0066,
             mem := s.adapter.store (s.adapter.store s.mem (s.sp - 1) (hiByte s.pc)) (s.sp - 1 - 1) (loByte s.pc),
             bus := .write (s.sp - 1 - 1) (loByte s.pc) :: .write (s.sp - 1) (hiByte s.pc) :: s.bus,
             cycles := s.cycles + 5 + s.cfg.tMem + s.cfg.tMem } := by
  simp only [State.accept, State.acknowledge, State.bumpR, State.tick, State.callTo_eq]

theorem State.accept_int_mode0 (s : State) (h : s.im = .im0) : s.accept .int =
    { s with halt := false, r := (s.r &&& 0x80) ||| ((s.r + 1) &&& 0x7F), iff1 := false, iff2 := false,
             cycles := s.cycles + 2 + s.cfg.tFetch } := by
  simp only [State.accept, State.acknowledge, State.bumpR, State.tick, h]

theorem State.accept_int_mode1 (s : State) (h : s.im = .im1) : s.accept .int =
    { s with halt := false, r := (s.r &&& 0x80) ||| ((s.r + 1) &&& 0x7F), iff1 := false, iff2 := false,
             sp := s.sp - 1 - 1, pc := 0x0038, wz := 0x0038,
             mem := s.adapter.store (s.adapter.store s.mem (s.sp - 1) (hiByte s.pc)) (s.sp - 1 - 1) (loByte s.pc),
             bus := .write (s.sp - 1 - 1) (loByte s.pc) :: .write (s.sp - 1) (hiByte s.pc) :: s.bus,
             cycles := s.cycles + 7 + s.cfg.tMem + s.cfg.tMem } := by
  simp only [State.accept, State.acknowledge, State.bumpR, State.tick, State.callTo_eq, h]

/-- The state a mode 2 acceptance reads its vector in: everything but the jump is done. -/
theorem State.accept_int_mode2 (s : State) (h : s.im = .im2) :
    let u := (({ s.acknowledge with iff1 := false, iff2 := false } : State).tick 7).push16 s.pc
    let v := u.memRead16 (joinBytes s.i s.cfg.intData)
    s.accept .int = v.2.jumpTo v.1 := by
  simp only [State.accept, State.acknowledge, State.bumpR, State.tick, State.push16_eq, State.jumpTo, State.setPc,
    State.setWz, h]

theorem State.returnFromInterrupt_eq (s : State) : s.returnFromInterrupt =
    { (s.memRead16 s.sp).2 with
      iff1 := s.iff2, sp := s.sp + 1 + 1, pc := (s.memRead16 s.sp).1, wz := (s.memRead16 s.sp).1 } := by
  simp only [State.returnFromInterrupt, State.popPc_eq, State.memRead16, State.memRead_eq, State.memValue,
    State.nextAnswer]

/-! ### Operand forms and the shared effects of the families -/

theorem State.modify_eq (s : State) (a : Word) (g : Byte → Byte) : s.modify a g =
    { s with mem := s.adapter.store s.mem a (g (s.memValue .read a)),
             answers := if s.adapter.isDevice a then s.answers.tail else s.answers,
             bus := .write a (g (s.memValue .read a)) :: .read a (s.memValue .read a) :: s.bus,
             cycles := s.cycles + s.cfg.tMem + 1 + s.cfg.tMem } := by
  simp only [State.modify, State.memRead_eq, State.tick, State.memWrite_eq]

/-- A read-modify-write that `modify` does with the byte there is, and then the flags. -/
theorem State.stepMem_eq (s : State) (a : Word) (step : Byte → Byte → Byte × Byte) : s.stepMem a step =
    { s.modify a (fun v => (step s.f v).1) with f := (step s.f (s.memValue .read a)).2 } := by
  simp only [State.stepMem, State.setF]

theorem State.rotMem_eq (s : State) (a : Word) (op : RotOp) : s.rotMem a op =
    { s.modify a (fun v => (rot8 op v (flagC s.f)).1) with
      f := rotFlags (rot8 op (s.memValue .read a) (flagC s.f)).1 (rot8 op (s.memValue .read a) (flagC s.f)).2 } := by
  simp only [State.rotMem, State.setF]

theorem State.rotAcc_eq (s : State) (op : RotOp) : s.rotAcc op =
    { s with a := (rot8 op s.a (flagC s.f)).1,
             f := accRotFlags s.f (rot8 op s.a (flagC s.f)).1 (rot8 op s.a (flagC s.f)).2 } := by
  simp only [State.rotAcc, State.setReg, State.setF]

theorem State.useIndex_eq (s : State) (xy : Index) (d : Byte) (k : Nat) : s.useIndex xy d k =
    { s with cycles := s.cycles + k, wz := s.indexAddress xy d } := by
  simp only [State.useIndex, State.tick, State.setWz]

/-- `EA(XY, k)` comes before the access, and what the adapter answers does not depend on it. -/
@[simp] theorem State.memValue_useIndex (s : State) (xy : Index) (d : Byte) (k : Nat) (kind : ReadKind) (a : Word) :
    (s.useIndex xy d k).memValue kind a = s.memValue kind a := rfl

theorem State.readSource_memHl (s : State) : s.readSource .memHl = s.memRead s.hl := rfl

theorem State.readSource_memIdx (s : State) (xy : Index) (d : Byte) :
    s.readSource (.memIdx xy d) = (s.useIndex xy d 5).memRead (s.indexAddress xy d) := rfl

theorem State.blockLoad_eq (s : State) (up : Bool) : s.blockLoad up =
    { (s.memRead s.hl).2.memWrite s.de (s.memRead s.hl).1 with
      h := hiByte (s.hl + blockStep up), l := loByte (s.hl + blockStep up),
      d := hiByte (s.de + blockStep up), e := loByte (s.de + blockStep up),
      b := hiByte (s.bc - 1), c := loByte (s.bc - 1),
      f := blockLoadFlags s.f s.a (s.memValue .read s.hl) (s.bc - 1),
      cycles := s.cycles + s.cfg.tMem + s.cfg.tMem + 2 } := by
  simp only [State.blockLoad, State.memRead_eq, State.memWrite_eq, State.tick, State.setHl, State.setDe,
    State.setBc, State.setF]

theorem State.blockCompare_eq (s : State) (up : Bool) : s.blockCompare up =
    { (s.memRead s.hl).2 with
      h := hiByte (s.hl + blockStep up), l := loByte (s.hl + blockStep up),
      b := hiByte (s.bc - 1), c := loByte (s.bc - 1),
      f := blockCompareFlags s.f s.a (s.memValue .read s.hl) (s.bc - 1), wz := s.wz + blockStep up,
      cycles := s.cycles + s.cfg.tMem + 5 } := by
  simp only [State.blockCompare, State.memRead_eq, State.tick, State.setHl, State.setBc, State.setF,
    State.setWz]

theorem State.blockIn_eq (s : State) (up : Bool) :
    let v := s.portValue s.bc
    s.blockIn up =
    { (s.ioRead s.bc).2.memWrite s.hl v with
      h := hiByte (s.hl + blockStep up), l := loByte (s.hl + blockStep up), b := s.b - 1,
      f := blockIoFlags (s.b - 1) v (v.toNat + (s.c + loByte (blockStep up)).toNat), wz := s.bc + blockStep up,
      cycles := s.cycles + 1 + s.cfg.tIo + s.cfg.tMem } := by
  simp only [State.blockIn, State.ioRead_eq, State.memWrite_eq, State.portValue, State.nextAnswer, State.tick,
    State.setHl, State.setReg, State.setF, State.setWz, State.bc, State.hl]

theorem State.blockOut_eq (s : State) (up : Bool) :
    let port := joinBytes (s.b - 1) s.c
    let v := s.memValue .read s.hl
    s.blockOut up =
    { (s.memRead s.hl).2.ioWrite port v with
      h := hiByte (s.hl + blockStep up), l := loByte (s.hl + blockStep up), b := s.b - 1,
      f := blockIoFlags (s.b - 1) v (v.toNat + (loByte (s.hl + blockStep up)).toNat),
      wz := port + blockStep up, cycles := s.cycles + 1 + s.cfg.tMem + s.cfg.tIo } := by
  simp only [State.blockOut, State.ioWrite_eq, State.memRead_eq, State.memValue, State.nextAnswer, State.tick,
    State.setHl, State.setReg, State.setF, State.setWz, State.hl]
  rfl

theorem State.repeatBlock_eq (s : State) : s.repeatBlock =
    { s with pc := s.pc - 2, wz := s.pc - 2 + 1, cycles := s.cycles + 5 } := by
  simp only [State.repeatBlock, State.tick, State.setPc, State.setWz]

theorem State.repeatIo_eq (s : State) : s.repeatIo = { s with pc := s.pc - 2, cycles := s.cycles + 5 } := by
  simp only [State.repeatIo, State.tick, State.setPc]

/-! ### The boundary check -/

/-- What a boundary check leads to: exactly one of these. -/
theorem State.plan_cases (s : State) (target : Nat) :
    (s.sampleLines.inhibit = true ∧
      s.plan target = ({ s.sampleLines with inhibit := false } : State).proceed target) ∨
    (s.sampleLines.inhibit = false ∧ s.sampleLines.nmiPending = true ∧
      s.plan target = .accepted (s.sampleLines.accept .nmi)) ∨
    (s.sampleLines.inhibit = false ∧ s.sampleLines.nmiPending = false ∧
      (s.sampleLines.intLine && s.sampleLines.iff1) = true ∧ s.plan target = s.sampleLines.acceptInt) ∨
    (s.sampleLines.inhibit = false ∧ s.sampleLines.nmiPending = false ∧
      (s.sampleLines.intLine && s.sampleLines.iff1) = false ∧ s.plan target = s.sampleLines.proceed target) := by
  unfold State.plan
  cases h1 : s.sampleLines.inhibit <;> cases h2 : s.sampleLines.nmiPending <;>
    cases h3 : (s.sampleLines.intLine && s.sampleLines.iff1) <;> simp [h1, h2, h3]

end Sys2Proof.Machine
end

