-- ==== Sys2Proof/Laws/Calls.lean ====
section
/-! SUPPORT. The conversation with the adapter: every primitive that makes a call is one step of it (`State.After`), steps
join, and what the adapter answers is determined. -/

namespace Sys2Proof.Machine

open Sys2Proof

/-! ### The answers -/

theorem ownAnswer_iff (history : List BusAccess) (q : List Byte) (kind : ReadKind) (a : Word) (v : Byte)
    (q' : List Byte) :
    OwnAnswer history q kind a v q' ↔ v = q.headD (Config.answer history kind a) ∧ q' = q.tail := by
  cases q <;> exact Iff.rfl

/-- What the adapter answers to a `fetchOpcode` or a `read`, and the answers it has left. -/
theorem State.memAnswer_iff (s : State) (kind : ReadKind) (a : Word) (v : Byte) (q' : List Byte) :
    MemAnswer s.adapter s.bus s.mem s.answers kind a v q' ↔
      v = s.memValue kind a ∧ q' = (if s.adapter.isDevice a then s.answers.tail else s.answers) := by
  unfold MemAnswer State.memValue State.nextAnswer Adapter.isDevice
  cases s.adapter.placeOf a <;> simp [ownAnswer_iff]

/-- What the adapter answers to an `ioRead`, and the answers it has left. -/
theorem State.portAnswer_iff (s : State) (p : Word) (v : Byte) (m' : Memory) (q' : List Byte) :
    CallDoes s.adapter s.bus s.mem s.answers (.ioRead p v) m' q' ↔
      m' = s.mem ∧ v = s.portValue p ∧ q' = (if s.adapter.ownPorts then s.answers.tail else s.answers) := by
  unfold CallDoes State.portValue State.nextAnswer Adapter.ownPorts
  cases s.adapter.ports <;> simp [ownAnswer_iff]

/-! ### Joining -/

theorem CallsDo.append {ad : Adapter} {history : List BusAccess} {m : Memory} {q : List Byte} {xs ys : List BusAccess}
    {m1 m2 : Memory} {q1 q2 : List Byte} (h : CallsDo ad history m q xs m1 q1)
    (h' : CallsDo ad (xs.reverse ++ history) m1 q1 ys m2 q2) : CallsDo ad history m q (xs ++ ys) m2 q2 := by
  induction xs generalizing history m q with
  | nil => obtain ⟨rfl, rfl⟩ := h; exact h'
  | cons x xs ih =>
    obtain ⟨m0, q0, hx, hxs⟩ := h
    refine ⟨m0, q0, hx, ih hxs ?_⟩
    simpa using h'

/-- Calls that are two sequences, one after the other. -/
theorem CallsDo.split {ad : Adapter} {history : List BusAccess} {m m2 : Memory} {q q2 : List Byte}
    {xs ys : List BusAccess} (h : CallsDo ad history m q (xs ++ ys) m2 q2) :
    ∃ m1 q1, CallsDo ad history m q xs m1 q1 ∧ CallsDo ad (xs.reverse ++ history) m1 q1 ys m2 q2 := by
  induction xs generalizing history m q with
  | nil => exact ⟨m, q, ⟨rfl, rfl⟩, h⟩
  | cons x xs ih =>
    obtain ⟨m0, q0, hx, hxs⟩ := h
    obtain ⟨m1, q1, h1, h2⟩ := ih hxs
    exact ⟨m1, q1, ⟨m0, q0, hx, h1⟩, by simpa using h2⟩

/-- One call. -/
theorem CallsDo.one {ad : Adapter} {history : List BusAccess} {m : Memory} {q : List Byte} {x : BusAccess} {m' : Memory}
    {q' : List Byte} (h : CallDoes ad history m q x m' q') : CallsDo ad history m q [x] m' q' := ⟨m', q', h, rfl, rfl⟩

theorem costOf_append (cfg : CoreConfig) (xs ys : List BusAccess) (n k : Nat) :
    costOf cfg (xs ++ ys) (n + k) = costOf cfg xs n + costOf cfg ys k := by
  simp only [costOf, List.map_append, List.sum_append]; omega

theorem State.After.trans {s u v : State} {xs ys : List BusAccess} {n k : Nat} (h : s.After xs n u) (h' : u.After ys k v) :
    s.After (xs ++ ys) (n + k) v := by
  obtain ⟨hu, hc⟩ := h
  obtain ⟨hv, hc'⟩ := h'
  rw [hu] at hv hc'
  refine ⟨?_, hc.append hc'⟩
  rw [hv, costOf_append]
  simp [Nat.add_assoc]

/-- A conversation that is two, one after the other. -/
theorem State.After.split {s v : State} {xs ys : List BusAccess} (h : s.After (xs ++ ys) 0 v) :
    ∃ u, s.After xs 0 u ∧ u.After ys 0 v := by
  obtain ⟨hv, hc⟩ := h
  obtain ⟨m1, q1, h1, h2⟩ := hc.split
  refine ⟨{ s with
    bus := xs.reverse ++ s.bus, cycles := s.cycles + costOf s.cfg xs 0, mem := m1, answers := q1 }, ⟨rfl, h1⟩, ?_, h2⟩
  rw [hv]
  simp [costOf, Nat.add_assoc]

/-- What the core does between its calls to anything but its record and its clock stays outside the conversation: `g` is
such an update, the same before as after. -/
theorem State.After.update {s u : State} {calls : List BusAccess} {n : Nat} (h : s.After calls n u)
    (g : CoreState → CoreState) (hg : ∀ c k, g { c with cycles := k } = { g c with cycles := k }) :
    ({ s with toCoreState := g s.toCoreState } : State).After calls n { u with toCoreState := g u.toCoreState } := by
  obtain ⟨hu, hc⟩ := h
  have hcyc : (g s.toCoreState).cycles = s.cycles := by
    have := congrArg CoreState.cycles (hg s.toCoreState s.cycles); exact this
  refine ⟨?_, hc⟩
  rw [hu, hg]
  simp [hcyc]

/-! ### The primitives of 00_scope.md R8 to R14 -/

theorem State.tick_after (s : State) (n : Nat) : s.After [] n (s.tick n) :=
  ⟨by simp [State.tick, costOf], rfl, rfl⟩

theorem State.memRead_after (s : State) (a : Word) : s.After [.read a (s.memRead a).1] 0 (s.memRead a).2 := by
  rw [State.memRead_eq]
  exact ⟨by simp [costOf, BusAccess.cost], .one ⟨rfl, (s.memAnswer_iff _ _ _ _).mpr ⟨rfl, rfl⟩⟩⟩

theorem State.memWrite_after (s : State) (a : Word) (v : Byte) : s.After [.write a v] 0 (s.memWrite a v) := by
  rw [State.memWrite_eq]
  exact ⟨by simp [costOf, BusAccess.cost], .one ⟨rfl, Adapter.read_store _ _ _ _⟩⟩

theorem State.ioRead_after (s : State) (p : Word) : s.After [.ioRead p (s.ioRead p).1] 0 (s.ioRead p).2 := by
  rw [State.ioRead_eq]
  exact ⟨by simp [costOf, BusAccess.cost], .one ((s.portAnswer_iff _ _ _ _).mpr ⟨rfl, rfl, rfl⟩)⟩

theorem State.ioWrite_after (s : State) (p : Word) (v : Byte) : s.After [.ioWrite p v] 0 (s.ioWrite p v) := by
  rw [State.ioWrite_eq]
  exact ⟨by simp [costOf, BusAccess.cost], .one ⟨rfl, rfl⟩⟩

theorem State.memRead16_after (s : State) (a : Word) :
    s.After [.read a (s.memRead a).1, .read (a + 1) ((s.memRead a).2.memRead (a + 1)).1] 0 (s.memRead16 a).2 :=
  (s.memRead_after a).trans ((s.memRead a).2.memRead_after (a + 1))

theorem State.memWrite16_after (s : State) (a w : Word) :
    s.After [.write a (loByte w), .write (a + 1) (hiByte w)] 0 (s.memWrite16 a w) :=
  (s.memWrite_after a _).trans ((s.memWrite a _).memWrite_after (a + 1) _)

/-- A read, one internal cycle, a write of the byte computed: the read-modify-write (20_memory.md R69). -/
theorem State.modify_after (s : State) (a : Word) (g : Byte → Byte) :
    s.After [.read a (s.memRead a).1, .write a (g (s.memRead a).1)] 1 (s.modify a g) :=
  ((s.memRead_after a).trans (State.tick_after _ 1)).trans (State.memWrite_after _ a _)

/-- A fetch, but for `PC` and `R`. -/
theorem State.fetch_after (s : State) :
    s.After [.fetch s.pc s.fetch.1] 0 { s.fetch.2 with pc := s.pc, r := s.r } := by
  rw [State.fetch_eq]
  exact ⟨by simp [costOf, BusAccess.cost], .one ⟨rfl, (s.memAnswer_iff _ _ _ _).mpr ⟨rfl, rfl⟩⟩⟩

/-- An operand byte, but for `PC`. -/
theorem State.imm8_after (s : State) : s.After [.read s.pc s.imm8.1] 0 { s.imm8.2 with pc := s.pc } := by
  rw [State.imm8_eq]
  exact ⟨by simp [costOf, BusAccess.cost], .one ⟨rfl, (s.memAnswer_iff _ _ _ _).mpr ⟨rfl, rfl⟩⟩⟩

end Sys2Proof.Machine
end

