-- ==== Sys2Proof/Laws/Entry.lean ====
section
/-! SUPPORT. The second table of meanings, of what stands behind a prefix, is the first one. -/

namespace Sys2Proof.Machine

open Sys2Proof

/-- Behind a prefix, an instruction means what it means alone (all but a prefix byte whose entry is still to come). -/
theorem execEntry_eq_exec (i : Instr) (s : State) (h : i.isBarePrefix = false) : execEntry i s = exec i s := by
  cases i <;> first | rfl | (simp [Instr.isBarePrefix] at h)

end Sys2Proof.Machine
end

