-- ==== Sys2Proof/Laws/Decode.lean ====
section
/-! SUPPORT. Decoding a list of bytes comes down to `decodeBytes` on its first five, and behind a prefix byte to
the table of its space. -/

namespace Sys2Proof

/-- A list of bytes that decodes is a prefix alone, or at least as long as its instruction. -/
theorem decode_ok_iff (bytes : List Byte) (i : Instr) (rest : List Byte) :
    decode bytes = .ok (i, rest) ↔
      (barePrefixOf bytes = some i ∧ rest = []) ∨
      (barePrefixOf bytes = none ∧ bytes ≠ [] ∧
        decodeBytes (bytes.getD 0 0) (bytes.getD 1 0) (bytes.getD 2 0) (bytes.getD 3 0) (bytes.getD 4 0) = i ∧
        i.length ≤ bytes.length ∧ rest = bytes.drop i.length) := by
  unfold decode
  cases hb : barePrefixOf bytes with
  | some p => simp [eq_comm]
  | none =>
    simp only [reduceCtorEq, false_and, false_or, true_and, ne_eq]
    by_cases hn : bytes = []
    · simp [hn]
    · simp only [hn, if_false, not_false_eq_true, true_and]
      by_cases hl : (decodeBytes (bytes.getD 0 0) (bytes.getD 1 0) (bytes.getD 2 0) (bytes.getD 3 0)
          (bytes.getD 4 0)).length ≤ bytes.length
      · simp only [hl, if_true, Except.ok.injEq, Prod.mk.injEq]
        exact ⟨fun ⟨h1, h2⟩ => h1 ▸ ⟨rfl, hl, h2.symm⟩, fun ⟨h1, _, h2⟩ => ⟨h1, h1 ▸ h2.symm⟩⟩
      · simp only [hl, if_false, reduceCtorEq, false_iff]
        exact fun ⟨h1, h2, _⟩ => hl (h1 ▸ h2)

/-- The bytes `bs` of an instruction decode to it whatever follows them, when `decodeBytes` says so of every
continuation and no prefix stands alone. -/
theorem decode_append {bs : List Byte} {i : Instr} {rest : List Byte} (hl : bs.length = i.length) (hn : bs ≠ [])
    (hb : barePrefixOf (bs ++ rest) = none)
    (hd : decodeBytes ((bs ++ rest).getD 0 0) ((bs ++ rest).getD 1 0) ((bs ++ rest).getD 2 0) ((bs ++ rest).getD 3 0)
      ((bs ++ rest).getD 4 0) = i) :
    decode (bs ++ rest) = .ok (i, rest) := by
  rw [decode_ok_iff]
  refine .inr ⟨hb, by simp [hn], hd, by simp [hl], ?_⟩
  rw [← hl, List.drop_left]

/-! ### Behind a prefix byte -/

theorem decodeBytes_cb (b1 b2 b3 b4 : Byte) : decodeBytes 0xCB b1 b2 b3 b4 = decodeCb b1 := rfl

theorem decodeBytes_ed (b1 b2 b3 b4 : Byte) : decodeBytes 0xED b1 b2 b3 b4 = decodeEd b1 b2 b3 := rfl

theorem decodeBytes_xy (xy : Index) (b1 b2 b3 b4 : Byte) :
    decodeBytes xy.prefixByte b1 b2 b3 b4 = decodeXy xy b1 b2 b3 b4 := by
  cases xy <;> rfl

theorem decodeXy_ed (xy : Index) (b1 b2 b3 : Byte) :
    decodeXy xy 0xED b1 b2 b3 = .prefixEdAfterXy xy (decodeEd b1 b2 b3) := rfl

end Sys2Proof
end

