-- ==== Sys2Proof/Laws/Reading.lean ====
section
/-! SUPPORT. Reading an instruction: `fetchInstr` does what `State.HasRead` says, and nothing else does. -/

namespace Sys2Proof

/-! ### The opcode bytes decide how the others are read -/

/-- What holds of `BitVec.ofNat 8 n` for each `n` below 256 holds of every byte. -/
theorem all_bytes {P : Byte → Prop} (h : ∀ n, n < 256 → P (BitVec.ofNat 8 n)) (b : Byte) : P b := by
  have hb := h b.toNat b.isLt
  rwa [BitVec.ofNat_toNat, BitVec.setWidth_eq] at hb

theorem decodeCb_fetches (op : Byte) : (decodeCb op).fetches = (2, 0) ∧ (decodeCb op).isBarePrefix = false := by
  unfold decodeCb decodeRotSlot
  repeat' split
  all_goals exact ⟨rfl, rfl⟩

theorem decodeEd_fetches (op b1 b2 : Byte) :
    (decodeEd op b1 b2).fetches = (2, (decodeEd op 0 0).fetches.2) ∧ (decodeEd op b1 b2).isBarePrefix = false := by
  unfold decodeEd decodeEd1 decodeEd2
  repeat' split
  all_goals exact ⟨rfl, rfl⟩

theorem decodeXyCb_fetches (xy : Index) (d op : Byte) :
    (decodeXyCb xy d op).fetches = (2, 2) ∧ (decodeXyCb xy d op).isBarePrefix = false := by
  unfold decodeXyCb decodeRotIdx
  repeat' split
  all_goals exact ⟨rfl, rfl⟩

theorem decodeXy_fetches (xy : Index) (op b1 b2 b3 : Byte) : op ≠ 0xED →
    (decodeXy xy op b1 b2 b3).fetches = (2, (decodeXy xy op 0 0 0).fetches.2) ∧
      (decodeXy xy op b1 b2 b3).isBarePrefix = false := by
  have hcb : (decodeXy xy 0xCB b1 b2 b3).fetches = (2, (decodeXy xy 0xCB 0 0 0).fetches.2) ∧
      (decodeXy xy 0xCB b1 b2 b3).isBarePrefix = false := by
    have h := decodeXyCb_fetches xy b1 b2
    exact ⟨h.1.trans (congrArg (fun k => (2, k.2)) (decodeXyCb_fetches xy 0 0).1).symm, h.2⟩
  revert op
  refine all_bytes fun n hn => ?_
  interval_cases n
  all_goals first
    | exact fun _ => ⟨rfl, rfl⟩
    | exact fun _ => hcb
    | exact fun h => (h rfl).elim

theorem decodeBytes_fetches (op b1 b2 b3 b4 : Byte) : Machine.moreOpcode [op] = false →
    (decodeBytes op b1 b2 b3 b4).fetches = (1, (decodeBytes op 0 0 0 0).fetches.2) ∧
      (decodeBytes op b1 b2 b3 b4).isBarePrefix = false := by
  revert op
  refine all_bytes fun n hn => ?_
  interval_cases n
  all_goals first
    | exact fun _ => ⟨rfl, rfl⟩
    | exact fun h => absurd h (by decide)

end Sys2Proof

namespace Sys2Proof.Machine

open Sys2Proof

/-- The opcode bytes of an instruction, all of them and no more. -/
def OpcodeBytes (o : List Byte) : Prop := moreOpcode o = false ∧ ∀ k, k < o.length → moreOpcode (o.take k) = true

/-- No further opcode byte follows three. -/
theorem moreOpcode_long {o : List Byte} (h : 3 ≤ o.length) : moreOpcode o = false := by
  match o, h with
  | [_, _, _], _ => rfl
  | _ :: _ :: _ :: _ :: _, _ => rfl

/-- The four forms opcode bytes have (30_encoding.md R90, R96). -/
theorem OpcodeBytes.forms {o : List Byte} (h : OpcodeBytes o) :
    (∃ x, o = [x] ∧ moreOpcode [x] = false) ∨ (∃ y, o = [0xCB, y] ∨ o = [0xED, y]) ∨
      (∃ xy y, o = [Index.prefixByte xy, y] ∧ y ≠ 0xED) ∨ ∃ xy z, o = [Index.prefixByte xy, 0xED, z] := by
  obtain ⟨hdone, hmore⟩ := h
  match o with
  | [] => exact absurd hdone (by decide)
  | [x] => exact .inl ⟨x, rfl, hdone⟩
  | [x, y] =>
    have h1 := hmore 1 (by simp)
    simp only [moreOpcode, List.take_succ_cons, List.take_zero, Bool.or_eq_true, beq_iff_eq] at h1
    simp only [moreOpcode, Bool.and_eq_false_iff, Bool.or_eq_false_iff, beq_eq_false_iff_ne] at hdone
    rcases h1 with ((rfl | rfl) | rfl) | rfl
    · exact .inr (.inl ⟨y, .inl rfl⟩)
    · exact .inr (.inl ⟨y, .inr rfl⟩)
    · exact .inr (.inr (.inl ⟨.ix, y, rfl, by simpa using hdone⟩))
    · exact .inr (.inr (.inl ⟨.iy, y, rfl, by simpa using hdone⟩))
  | [x, y, z] =>
    have h2 := hmore 2 (by simp)
    simp only [moreOpcode, List.take_succ_cons, List.take_zero, Bool.and_eq_true, Bool.or_eq_true, beq_iff_eq] at h2
    obtain ⟨rfl | rfl, rfl⟩ := h2
    · exact .inr (.inr (.inr ⟨.ix, z, rfl⟩))
    · exact .inr (.inr (.inr ⟨.iy, z, rfl⟩))
  | x :: y :: z :: w :: rest =>
    exact absurd (hmore 3 (by simp)) (by simp [moreOpcode])

theorem decodeSoFar_cb (y : Byte) (rest : List Byte) : decodeSoFar (0xCB :: y :: rest) = decodeCb y :=
  decodeBytes_cb _ _ _ _

theorem decodeSoFar_ed (y : Byte) (rest : List Byte) :
    decodeSoFar (0xED :: y :: rest) = decodeEd y (rest.getD 0 0) (rest.getD 1 0) := decodeBytes_ed _ _ _ _

theorem decodeSoFar_xy (xy : Index) (y : Byte) (rest : List Byte) : decodeSoFar (xy.prefixByte :: y :: rest) =
    decodeXy xy y (rest.getD 0 0) (rest.getD 1 0) (rest.getD 2 0) := decodeBytes_xy xy _ _ _ _

/-- Once the opcode bytes are there, how many operand bytes follow does not depend on what they are. -/
theorem OpcodeBytes.fetches {o : List Byte} (h : OpcodeBytes o) (rest : List Byte) :
    (decodeSoFar (o ++ rest)).fetches = (o.length, (decodeSoFar o).fetches.2) ∧
      (decodeSoFar (o ++ rest)).isBarePrefix = false := by
  rcases h.forms with ⟨x, rfl, hx⟩ | ⟨y, rfl | rfl⟩ | ⟨xy, y, rfl, hy⟩ | ⟨xy, z, rfl⟩
  · exact decodeBytes_fetches x _ _ _ _ hx
  all_goals simp only [List.cons_append, List.nil_append, decodeSoFar_cb, decodeSoFar_ed, decodeSoFar_xy, decodeXy_ed]
  · simp [decodeCb_fetches]
  · exact decodeEd_fetches y _ _
  · exact decodeXy_fetches xy y _ _ _ hy
  · have hed := (decodeEd_fetches z (rest.getD 0 0) (rest.getD 1 0)).1
    exact ⟨congrArg (fun k => (1 + k.1, k.2)) hed, rfl⟩

/-- Opcode bytes and as many operand bytes as they ask for are no prefix alone. -/
theorem OpcodeBytes.not_barePrefix {o ops : List Byte} (h : OpcodeBytes o)
    (hl : ops.length = (decodeSoFar o).fetches.2) : barePrefixOf (o ++ ops) = none := by
  rcases h.forms with ⟨x, rfl, hx⟩ | ⟨y, rfl | rfl⟩ | ⟨xy, y, rfl, hy⟩ | ⟨xy, z, rfl⟩
  · simp only [moreOpcode, Bool.or_eq_false_iff, beq_eq_false_iff_ne] at hx
    obtain ⟨⟨⟨h1, h2⟩, h3⟩, h4⟩ := hx
    have h1 : x ≠ 203#8 := h1
    have h2 : x ≠ 237#8 := h2
    have h3 : x ≠ 221#8 := h3
    have h4 : x ≠ 253#8 := h4
    simp [barePrefixOf, h1, h2, h3, h4]
  · simp [barePrefixOf]
  · simp [barePrefixOf]
  · have hcb : y = 0xCB → ops ≠ [] := by
      rintro rfl rfl
      rw [decodeSoFar_xy] at hl
      exact absurd (hl.trans (congrArg Prod.snd (decodeXyCb_fetches xy 0 0).1)) (by decide)
    cases xy <;> simp [barePrefixOf, Index.prefixByte] <;> exact hcb
  · cases xy <;> simp [barePrefixOf, Index.prefixByte]

/-- Opcode bytes and as many operand bytes as they ask for are one instruction. -/
theorem OpcodeBytes.decode {o ops : List Byte} (h : OpcodeBytes o) (hl : ops.length = (decodeSoFar o).fetches.2) :
    Sys2Proof.decode (o ++ ops) = .ok (decodeSoFar (o ++ ops), []) := by
  have hlen : (decodeSoFar (o ++ ops)).length = (o ++ ops).length := by
    rw [Instr.length, (h.fetches ops).1, List.length_append, hl]
  have hne : o ++ ops ≠ [] := fun hn =>
    absurd ((List.append_eq_nil_iff.mp hn).1 ▸ h.1) (by decide)
  rw [decode_ok_iff]
  exact .inr ⟨h.not_barePrefix hl, hne, rfl, hlen.le, by rw [hlen, List.drop_length]⟩

/-- A list of bytes that is one instruction is its opcode bytes and as many operand bytes as they ask for. -/
theorem exists_opcodeBytes {bs : List Byte} {i : Instr} (h : Sys2Proof.decode bs = .ok (i, []))
    (hi : i.isBarePrefix = false) :
    ∃ o ops, bs = o ++ ops ∧ OpcodeBytes o ∧ ops.length = (decodeSoFar o).fetches.2 ∧ i = decodeSoFar bs := by
  have main : ∃ o ops, bs = o ++ ops ∧ OpcodeBytes o ∧ i = decodeSoFar bs ∧ i.length = bs.length := by
    rw [decode_ok_iff] at h
    rcases h with ⟨hb, -⟩ | ⟨hb, hn, hd, hl, hr⟩
    · exfalso
      unfold barePrefixOf at hb
      repeat' split at hb
      all_goals first
        | (cases hb; exact absurd hi (by decide))
        | cases hb
    have hlen : i.length = bs.length := le_antisymm hl (by simpa using List.drop_eq_nil_iff.mp hr.symm)
    have hi' : i = decodeSoFar bs := hd.symm
    suffices hs : ∃ o ops, bs = o ++ ops ∧ OpcodeBytes o by
      obtain ⟨o, ops, h1, h2⟩ := hs
      exact ⟨o, ops, h1, h2, hi', hlen⟩
    have one : ∀ x, OpcodeBytes [x] ∨ moreOpcode [x] = true := fun x => by
      cases hx : moreOpcode [x] with
      | true => exact .inr rfl
      | false => exact .inl ⟨hx, fun k hk => by
          obtain rfl : k = 0 := by simpa using hk
          rfl⟩
    match bs, hn with
    | [x], _ =>
      rcases one x with hx | hx
      · exact ⟨[x], [], rfl, hx⟩
      · simp only [moreOpcode, Bool.or_eq_true, beq_iff_eq] at hx
        rcases hx with ((rfl | rfl) | rfl) | rfl <;> simp [barePrefixOf] at hb
    | x :: y :: rest, _ =>
      rcases one x with hx | hx
      · exact ⟨[x], y :: rest, rfl, hx⟩
      have two : moreOpcode [x, y] = false → OpcodeBytes [x, y] := fun hy => ⟨hy, fun k hk => by
        match k, hk with
        | 0, _ => rfl
        | 1, _ => exact hx⟩
      cases hy : moreOpcode [x, y] with
      | false => exact ⟨[x, y], rest, rfl, two hy⟩
      | true =>
        match rest with
        | [] =>
          exfalso
          simp only [moreOpcode, Bool.and_eq_true, Bool.or_eq_true, beq_iff_eq] at hy
          obtain ⟨rfl | rfl, rfl⟩ := hy
          · rw [hi'] at hlen; exact absurd hlen (by decide)
          · rw [hi'] at hlen; exact absurd hlen (by decide)
        | z :: rest =>
          refine ⟨[x, y, z], rest, rfl, moreOpcode_long (by simp), fun k hk => ?_⟩
          match k, hk with
          | 0, _ => rfl
          | 1, _ => exact hx
          | 2, _ => exact hy
  obtain ⟨o, ops, rfl, ho, hi', hlen⟩ := main
  refine ⟨o, ops, rfl, ho, ?_, hi'⟩
  rw [hi', Instr.length, (ho.fetches ops).1, List.length_append] at hlen
  exact (Nat.add_left_cancel hlen).symm

/-! ### One byte of the conversation -/

/-- The refresh counter after one more fetch (10_state.md R24). -/
theorem refresh_succ (r : Byte) (n : Nat) :
    (BitVec.ofNat 8 (r.toNat / 128 * 128 + (r.toNat % 128 + n) % 128) &&& 0x80#8) |||
      ((BitVec.ofNat 8 (r.toNat / 128 * 128 + (r.toNat % 128 + n) % 128) + 1) &&& 0x7F#8) =
    BitVec.ofNat 8 (r.toNat / 128 * 128 + (r.toNat % 128 + (n + 1)) % 128) := by
  have key : ∀ v : Byte, (v &&& 0x80#8) ||| ((v + 1) &&& 0x7F#8) =
      BitVec.ofNat 8 (v.toNat / 128 * 128 + (v.toNat % 128 + 1) % 128) := by decide
  have hr := r.isLt
  rw [key, BitVec.toNat_ofNat]
  congr 1
  omega

/-- No fetch leaves `R` as it is. -/
theorem refresh_zero (r : Byte) : BitVec.ofNat 8 (r.toNat / 128 * 128 + r.toNat % 128 % 128) = r := by
  have hr := r.isLt
  apply BitVec.eq_of_toNat_eq
  rw [BitVec.toNat_ofNat]
  omega

/-- `R` after `n` fetches (10_state.md R24). -/
def counted (r : Byte) (n : Nat) : Byte := BitVec.ofNat 8 (r.toNat / 128 * 128 + (r.toNat % 128 + n) % 128)

theorem counted_zero (r : Byte) : counted r 0 = r := refresh_zero r

theorem counted_one (r : Byte) : (r &&& 0x80) ||| ((r + 1) &&& 0x7F) = counted r 1 := by
  have h := refresh_succ r 0
  rwa [Nat.add_zero, refresh_zero] at h

theorem counted_add (r : Byte) (n m : Nat) : counted (counted r n) m = counted r (n + m) := by
  have hr := r.isLt
  unfold counted
  rw [BitVec.toNat_ofNat]
  congr 1
  omega

theorem pc_succ (w : Word) (n : Nat) : w + 1 + BitVec.ofNat 16 n = w + BitVec.ofNat 16 (n + 1) := by
  rw [Nat.add_comm n, BitVec.ofNat_add, ← BitVec.add_assoc]
  rfl

theorem pc_add (w : Word) (n m : Nat) : w + BitVec.ofNat 16 n + BitVec.ofNat 16 m = w + BitVec.ofNat 16 (n + m) := by
  rw [BitVec.add_assoc, ← BitVec.ofNat_add]

/-- `v` with `PC` past `n` bytes and `R` having counted `nF` of them. -/
def State.past (v : State) (nF n : Nat) : State :=
  { v with pc := v.pc + BitVec.ofNat 16 n, r := counted v.r nF }

theorem State.past_zero (v : State) : v.past 0 0 = v := by
  simp only [State.past, counted_zero, BitVec.add_zero]

/-- A first `fetchOpcode`: it is the call of `fetch`, and the calls after it go on from there. -/
theorem State.After.fetch_cons {s v : State} {b : Byte} {rest : List BusAccess} (h : s.After (.fetch s.pc b :: rest) 0 v) :
    b = s.fetch.1 ∧ s.fetch.2.After rest 0 { v with pc := s.fetch.2.pc, r := s.fetch.2.r } := by
  obtain ⟨hv, m1, q1, ⟨rfl, ha⟩, hr⟩ := h
  obtain ⟨rfl, rfl⟩ := (s.memAnswer_iff _ _ _ _).mp ha
  rw [State.fetch_eq]
  refine ⟨rfl, ?_, hr⟩
  rw [hv]
  simp [costOf, BusAccess.cost, Nat.add_assoc]

/-- A first `Imm8()`, likewise. -/
theorem State.After.imm8_cons {s v : State} {b : Byte} {rest : List BusAccess} (h : s.After (.read s.pc b :: rest) 0 v) :
    b = s.imm8.1 ∧ s.imm8.2.After rest 0 { v with pc := s.imm8.2.pc } := by
  obtain ⟨hv, m1, q1, ⟨rfl, ha⟩, hr⟩ := h
  obtain ⟨rfl, rfl⟩ := (s.memAnswer_iff _ _ _ _).mp ha
  rw [State.imm8_eq]
  refine ⟨rfl, ?_, hr⟩
  rw [hv]
  simp [costOf, BusAccess.cost, Nat.add_assoc]

/-- Calls leave `PC` and `R` alone. -/
theorem State.After.pc_eq {s v : State} {calls : List BusAccess} {n : Nat} (h : s.After calls n v) : v.pc = s.pc := by
  rw [h.1]

theorem State.After.r_eq {s v : State} {calls : List BusAccess} {n : Nat} (h : s.After calls n v) : v.r = s.r := by
  rw [h.1]

/-- No call, no change. -/
theorem State.After.nil_eq {s v : State} (h : s.After [] 0 v) : v = s := by
  obtain ⟨hv, hm, hq⟩ := h
  rw [hv, hm, hq]
  rfl

/-! ### The opcode bytes -/

/-- What `fetchOpcode` does, the bytes it fetches given: those calls, `PC` past them and `R` having counted them. -/
theorem State.fetchOpcode_eq {s v : State} {n : Nat} {got bytes : List Byte} (hn : bytes.length ≤ n)
    (hdone : moreOpcode (got ++ bytes) = false)
    (hmore : ∀ k, k < bytes.length → moreOpcode (got ++ bytes.take k) = true)
    (h : s.After (readingCalls s.pc bytes.length bytes) 0 v) :
    s.fetchOpcode n got = (got ++ bytes, v.past bytes.length bytes.length) := by
  induction bytes generalizing s v n got with
  | nil =>
    obtain rfl := h.nil_eq
    rw [List.append_nil] at hdone
    cases n <;> simp [State.fetchOpcode, hdone, State.past_zero]
  | cons b rest ih =>
    obtain ⟨k, rfl⟩ : ∃ k, n = k + 1 := ⟨n - 1, by simp at hn; omega⟩
    obtain ⟨hb, hr⟩ := h.fetch_cons
    have h0 := hmore 0 (by simp)
    rw [List.take_zero, List.append_nil] at h0
    have hpc : s.fetch.2.pc = s.pc + 1 := by rw [State.fetch_eq]
    have hrr : s.fetch.2.r = counted s.r 1 := by rw [State.fetch_eq]; exact counted_one s.r
    rw [State.fetchOpcode, if_pos h0, ← hb]
    rw [← hpc] at hr
    rw [ih (by simpa using hn) (by simpa using hdone) (fun j hj => by simpa using hmore (j + 1) (by simpa using hj)) hr]
    simp only [State.past, hpc, hrr, h.pc_eq, h.r_eq, counted_add, List.append_assoc, List.singleton_append,
      List.length_cons, Nat.add_comm 1, pc_succ]

/-- One more `fetchOpcode` in front of a conversation. -/
theorem State.exists_fetch_cons {s v : State} {calls : List BusAccess} (h : s.fetch.2.After calls 0 v) :
    ∃ u, s.After (.fetch s.pc s.fetch.1 :: calls) 0 u :=
  ⟨_, s.fetch_after.trans (h.update (fun c => { c with pc := s.pc, r := s.r }) (fun _ _ => rfl))⟩

/-- One more `Imm8()` in front of a conversation. -/
theorem State.exists_imm8_cons {s v : State} {calls : List BusAccess} (h : s.imm8.2.After calls 0 v) :
    ∃ u, s.After (.read s.pc s.imm8.1 :: calls) 0 u :=
  ⟨_, s.imm8_after.trans (h.update (fun c => { c with pc := s.pc }) (fun _ _ => rfl))⟩

/-- There always are opcode bytes to fetch. -/
theorem State.exists_opcode (s : State) (n : Nat) (got : List Byte) (hn : 3 ≤ n + got.length) :
    ∃ bytes v, bytes.length ≤ n ∧ moreOpcode (got ++ bytes) = false ∧
      (∀ k, k < bytes.length → moreOpcode (got ++ bytes.take k) = true) ∧
      s.After (readingCalls s.pc bytes.length bytes) 0 v := by
  cases hm : moreOpcode got with
  | false => exact ⟨[], s, by simp, by simpa using hm, by simp, s.tick_after 0⟩
  | true =>
    induction n generalizing s got with
    | zero => rw [moreOpcode_long (by omega)] at hm; cases hm
    | succ n ih =>
      have hpc : s.fetch.2.pc = s.pc + 1 := by rw [State.fetch_eq]
      have step : ∃ bytes v, bytes.length ≤ n ∧ moreOpcode ((got ++ [s.fetch.1]) ++ bytes) = false ∧
          (∀ k, k < bytes.length → moreOpcode ((got ++ [s.fetch.1]) ++ bytes.take k) = true) ∧
          s.fetch.2.After (readingCalls s.fetch.2.pc bytes.length bytes) 0 v := by
        cases hm' : moreOpcode (got ++ [s.fetch.1]) with
        | false => exact ⟨[], s.fetch.2, by simp, by simpa using hm', by simp, s.fetch.2.tick_after 0⟩
        | true => exact ih s.fetch.2 (got ++ [s.fetch.1]) (by simp; omega) hm'
      obtain ⟨bytes, v, hl, hdone, hmore, hv⟩ := step
      rw [hpc] at hv
      obtain ⟨u, hu⟩ := State.exists_fetch_cons hv
      refine ⟨s.fetch.1 :: bytes, u, by simpa using hl, by simpa using hdone, fun k hk => ?_, hu⟩
      match k, hk with
      | 0, _ => simpa using hm
      | k + 1, hk => simpa using hmore k (by simpa using hk)

/-! ### The operand bytes -/

/-- What `readOperands` does, the bytes it reads given. -/
theorem State.readOperands_eq {s v : State} {got bytes : List Byte}
    (h : s.After (readingCalls s.pc 0 bytes) 0 v) :
    s.readOperands bytes.length got = (got ++ bytes, v.past 0 bytes.length) := by
  induction bytes generalizing s v got with
  | nil =>
    obtain rfl := h.nil_eq
    simp [State.readOperands, State.past_zero]
  | cons b rest ih =>
    obtain ⟨hb, hr⟩ := h.imm8_cons
    have hpc : s.imm8.2.pc = s.pc + 1 := by rw [State.imm8_eq]
    rw [← hpc] at hr
    rw [List.length_cons, State.readOperands, ← hb, ih hr]
    simp only [State.past, hpc, h.pc_eq, counted_zero, List.append_assoc, List.singleton_append, pc_succ]

/-- There always are operand bytes to read. -/
theorem State.exists_operands (s : State) (n : Nat) :
    ∃ bytes v, bytes.length = n ∧ s.After (readingCalls s.pc 0 bytes) 0 v := by
  induction n generalizing s with
  | zero => exact ⟨[], s, rfl, s.tick_after 0⟩
  | succ n ih =>
    have hpc : s.imm8.2.pc = s.pc + 1 := by rw [State.imm8_eq]
    obtain ⟨bytes, v, hl, hv⟩ := ih s.imm8.2
    rw [hpc] at hv
    obtain ⟨u, hu⟩ := State.exists_imm8_cons hv
    exact ⟨s.imm8.1 :: bytes, u, by simp [hl], hu⟩

/-! ### The instruction -/

/-- The calls that read opcode bytes and operand bytes are those that read the ones and then the others. -/
theorem readingCalls_append (pc : Word) (xs ys : List Byte) : readingCalls pc xs.length (xs ++ ys) =
    readingCalls pc xs.length xs ++ readingCalls (pc + BitVec.ofNat 16 xs.length) 0 ys := by
  induction xs generalizing pc with
  | nil => simp [readingCalls]
  | cons x xs ih =>
    simp only [List.cons_append, List.length_cons, readingCalls, ih, pc_succ]

/-- Bytes supplied that do not reach past the opcode bytes. -/
def Supplied (supplied : List Byte) : Prop := ∀ k, k < supplied.length → moreOpcode (supplied.take k) = true

/-- Bytes supplied are among the opcode bytes, and if more are to be fetched they are not all of them. -/
theorem OpcodeBytes.supplied_le {o ops supplied bytes : List Byte} (h : OpcodeBytes o) (hs : Supplied supplied)
    (ho : supplied ++ bytes = o ++ ops) :
    supplied.length ≤ o.length ∧ (moreOpcode supplied = true → supplied.length < o.length) := by
  have hle : supplied.length ≤ o.length := by
    by_contra hlt
    have h1 := hs o.length (by omega)
    have h2 : supplied.take o.length = o := by
      have h3 := congrArg (List.take o.length) ho
      rwa [List.take_append_of_le_length (by omega), List.take_left] at h3
    rw [h2, h.1] at h1
    cases h1
  refine ⟨hle, fun hm => hle.lt_of_ne fun he => ?_⟩
  have h3 := congrArg (List.take o.length) ho
  rw [List.take_left, ← he, List.take_left] at h3
  rw [h3, h.1] at hm
  cases hm

/-- What reading an instruction is, and nothing else: `fetchInstr` gives the instruction and the state that
`State.HasRead` speaks of. -/
theorem State.HasRead.fetchInstr_eq {s u : State} {supplied : List Byte} {i : Instr} (hs : Supplied supplied)
    (h : s.HasRead supplied i u) : s.fetchInstr supplied = (i, u) := by
  obtain ⟨bytes, v, hd, hi, hv, rfl⟩ := h
  obtain ⟨o, ops, ho, hop, hl, rfl⟩ := exists_opcodeBytes hd hi
  have hle := (hop.supplied_le hs ho).1
  obtain ⟨b1, rfl⟩ : ∃ b1, o = supplied ++ b1 := by
    refine ⟨o.drop supplied.length, ?_⟩
    have h3 := congrArg (List.take supplied.length) ho
    rw [List.take_left, List.take_append_of_le_length hle] at h3
    exact (List.take_append_drop supplied.length o).symm.trans (congrArg (· ++ o.drop supplied.length) h3.symm)
  obtain rfl : bytes = b1 ++ ops := by simpa using ho
  have hf := (hop.fetches ops).1
  rw [← ho] at hf
  rw [hf] at hv ⊢
  have hsub : (supplied ++ b1).length - supplied.length = b1.length := by simp
  simp only [hsub] at hv ⊢
  rw [readingCalls_append] at hv
  obtain ⟨m, hm, hm'⟩ := hv.split
  have h3 : b1.length ≤ 3 := by
    by_contra hlt
    have h4 := hop.2 3 (by simp; omega)
    rw [moreOpcode_long (by simp; omega)] at h4
    cases h4
  have hfetch := State.fetchOpcode_eq h3 hop.1 (fun k hk => by
    have h5 := hop.2 (supplied.length + k) (by simpa using hk)
    rwa [List.take_length_add_append] at h5) hm
  have hread : (m.past b1.length b1.length).After (readingCalls (m.past b1.length b1.length).pc 0 ops) 0
      (v.past b1.length b1.length) := by
    have hpc : (m.past b1.length b1.length).pc = s.pc + BitVec.ofNat 16 b1.length := by
      simp only [State.past, hm.pc_eq]
    rw [hpc]
    exact hm'.update (fun c => { c with pc := c.pc + BitVec.ofNat 16 b1.length, r := counted c.r b1.length })
      (fun _ _ => rfl)
  have hops := State.readOperands_eq (got := supplied ++ b1) hread
  unfold State.fetchInstr
  simp only [hfetch, ← hl, hops, ho, List.length_append]
  simp only [State.past, counted_zero, pc_add, (hm'.pc_eq.trans hm.pc_eq), (hm'.r_eq.trans hm.r_eq)]
  rfl

/-- There always is an instruction that can be read. -/
theorem State.exists_hasRead (s : State) {supplied : List Byte} (hs : Supplied supplied) :
    ∃ i u, s.HasRead supplied i u := by
  obtain ⟨b1, v, -, hdone, hmore, hv⟩ := s.exists_opcode 3 supplied (by omega)
  have hop : OpcodeBytes (supplied ++ b1) := ⟨hdone, fun k hk => by
    by_cases hlt : k < supplied.length
    · rw [List.take_append_of_le_length (by omega)]
      exact hs k hlt
    · obtain ⟨j, rfl⟩ : ∃ j, k = supplied.length + j := ⟨k - supplied.length, by omega⟩
      rw [List.take_length_add_append]
      exact hmore j (by simpa using hk)⟩
  obtain ⟨ops, w, hl, hw⟩ := (v.past b1.length b1.length).exists_operands (decodeSoFar (supplied ++ b1)).fetches.2
  have hpc : (v.past b1.length b1.length).pc = s.pc + BitVec.ofNat 16 b1.length := by
    simp only [State.past, hv.pc_eq]
  have hback : v.After (readingCalls (s.pc + BitVec.ofNat 16 b1.length) 0 ops) 0 { w with pc := v.pc, r := v.r } := by
    have h := hw.update (fun c => { c with pc := v.pc, r := v.r }) (fun _ _ => rfl)
    rw [hpc] at h
    exact h
  refine ⟨decodeSoFar (supplied ++ b1 ++ ops), _, b1 ++ ops, { w with pc := v.pc, r := v.r }, ?_, (hop.fetches ops).2, ?_, rfl⟩
  · rw [← List.append_assoc]
    exact hop.decode hl
  · have hsub : (decodeSoFar (supplied ++ b1 ++ ops)).fetches.1 - supplied.length = b1.length := by
      rw [(hop.fetches ops).1]
      simp
    rw [hsub, readingCalls_append]
    exact hv.trans hback

/-- `fetchInstr` reads an instruction. -/
theorem State.fetchInstr_hasRead (s : State) {supplied : List Byte} (hs : Supplied supplied) :
    s.HasRead supplied (s.fetchInstr supplied).1 (s.fetchInstr supplied).2 := by
  obtain ⟨i, u, h⟩ := s.exists_hasRead hs
  rw [h.fetchInstr_eq hs]
  exact h

/-- `HasRead` names one instruction and one state. -/
theorem State.hasRead_iff (s : State) {supplied : List Byte} (hs : Supplied supplied) (i : Instr) (u : State) :
    s.HasRead supplied i u ↔ s.fetchInstr supplied = (i, u) :=
  ⟨fun h => h.fetchInstr_eq hs, fun h => by have hr := s.fetchInstr_hasRead hs; rwa [h] at hr⟩

/-- No byte supplied, one byte, or the two bytes `DD CB` or `FD CB`: none reaches past the opcode bytes. -/
theorem supplied_nil : Supplied [] := fun k hk => absurd hk (by simp)

theorem supplied_one (x : Byte) : Supplied [x] := fun k hk => by
  obtain rfl : k = 0 := by simpa using hk
  rfl

theorem supplied_xyCb (xy : Index) : Supplied [xy.prefixByte, 0xCB] := fun k hk => by
  match k, hk with
  | 0, _ => rfl
  | 1, _ => cases xy <;> rfl

end Sys2Proof.Machine
end

