-- ==== Sys2Proof/Laws/Cost.lean ====
section
/-! SUPPORT. How far `runUntil` overshoots (60_exceptions.md R441): what an instruction, an acceptance and a pass of the
loop can cost in the reference configuration, and that the last pass alone is the overshoot. -/

namespace Sys2Proof

/-! ### The instructions that are read -/

/-- No prefix alone, bare or behind an index prefix. -/
def Instr.isWhole : Instr → Bool
  | .asMainSpace _ inner | .prefixEdAfterXy _ inner => inner.isWhole
  | i => !i.isBarePrefix

theorem Instr.isWhole.not_bare {i : Instr} (h : i.isWhole = true) : i.isBarePrefix = false := by
  cases i <;> first | rfl | cases h

/-- What is read: a whole instruction, of at most 23 cycles unless it drops an index prefix, and then of at most 25. -/
def Instr.IsRead (i : Instr) : Prop :=
  i.isWhole = true ∧ i.largestCost ≤ 25 ∧ (i.dropsPrefix = false → i.largestCost ≤ 23)

theorem Instr.largestCost_le {i : Instr} (h : (i.space == .xy || i.space == .xycb) = false) : i.largestCost ≤ 21 := by
  cases i <;> first | exact Nat.le_of_ble_eq_true rfl | cases h

/-- The instructions of a space whose largest total is at most 23. -/
theorem Instr.IsRead.of {i : Instr} (hw : i.isWhole = true) (hc : i.largestCost ≤ 23) : i.IsRead :=
  ⟨hw, hc.trans (by decide), fun _ => hc⟩

theorem decodeCb_isRead (op : Byte) : (decodeCb op).IsRead := by
  unfold decodeCb decodeRotSlot
  repeat' split
  all_goals exact .of rfl (Nat.le_of_ble_eq_true rfl)

theorem decodeEd_whole (op b1 b2 : Byte) : (decodeEd op b1 b2).isWhole = true ∧ (decodeEd op b1 b2).largestCost = 21 := by
  unfold decodeEd decodeEd1 decodeEd2
  repeat' split
  all_goals exact ⟨rfl, rfl⟩

theorem decodeEd_isRead (op b1 b2 : Byte) : (decodeEd op b1 b2).IsRead :=
  have h := decodeEd_whole op b1 b2
  .of h.1 (h.2.trans_le (by decide))

theorem decodeXyCb_isRead (xy : Index) (d op : Byte) : (decodeXyCb xy d op).IsRead := by
  unfold decodeXyCb decodeRotIdx
  repeat' split
  all_goals exact .of rfl (Nat.le_of_ble_eq_true rfl)

theorem decodeXy_isRead (xy : Index) (op b1 b2 b3 : Byte) : (decodeXy xy op b1 b2 b3).IsRead := by
  have hcb : (decodeXy xy 0xCB b1 b2 b3).IsRead := decodeXyCb_isRead xy b1 b2
  have hed : (decodeXy xy 0xED b1 b2 b3).IsRead := by
    have h := decodeEd_whole b1 b2 b3
    rw [decodeXy_ed]
    exact ⟨h.1, (congrArg (4 + ·) h.2).le, fun hd => by cases hd⟩
  revert op
  refine all_bytes fun n hn => ?_
  interval_cases n
  all_goals first
    | exact .of rfl (Nat.le_of_ble_eq_true rfl)
    | exact hcb
    | exact hed

theorem decodeBytes_isRead (op b1 b2 b3 b4 : Byte) :
    Machine.moreOpcode [op] = false → (decodeBytes op b1 b2 b3 b4).IsRead := by
  revert op
  refine all_bytes fun n hn => ?_
  interval_cases n
  all_goals first
    | exact fun _ => .of rfl (Nat.le_of_ble_eq_true rfl)
    | exact fun h => absurd h (by decide)

end Sys2Proof

namespace Sys2Proof.Machine

open Sys2Proof

theorem OpcodeBytes.isRead {o : List Byte} (h : OpcodeBytes o) (rest : List Byte) : (decodeSoFar (o ++ rest)).IsRead := by
  rcases h.forms with ⟨x, rfl, hx⟩ | ⟨y, rfl | rfl⟩ | ⟨xy, y, rfl, -⟩ | ⟨xy, z, rfl⟩
  · exact decodeBytes_isRead x _ _ _ _ hx
  all_goals simp only [List.cons_append, List.nil_append, decodeSoFar_cb, decodeSoFar_ed, decodeSoFar_xy]
  · exact decodeCb_isRead y
  · exact decodeEd_isRead y _ _
  · exact decodeXy_isRead xy y _ _ _
  · exact decodeXy_isRead xy 0xED z _ _

/-! ### What it costs to read an instruction -/

theorem costOf_readingCalls (cfg : CoreConfig) (pc : Word) (n : Nat) (bytes : List Byte) (h : n ≤ bytes.length) :
    costOf cfg (readingCalls pc n bytes) 0 = n * cfg.tFetch + (bytes.length - n) * cfg.tMem := by
  induction bytes generalizing pc n with
  | nil => obtain rfl : n = 0 := by simpa using h
           simp [readingCalls, costOf]
  | cons b rest ih =>
    cases n with
    | zero =>
      have := ih (pc + 1) 0 (Nat.zero_le _)
      simp only [costOf, readingCalls, List.map_cons, List.sum_cons, BusAccess.cost, List.length_cons] at this ⊢
      simp only [Nat.sub_zero, Nat.zero_mul, Nat.zero_add, Nat.add_zero, Nat.add_mul] at this ⊢
      omega
    | succ n =>
      have := ih (pc + 1) n (by simpa using h)
      simp only [costOf, readingCalls, List.map_cons, List.sum_cons, BusAccess.cost, List.length_cons] at this ⊢
      simp only [Nat.add_sub_add_right, Nat.add_zero, Nat.add_mul, Nat.one_mul] at this ⊢
      omega

/-- What reading an instruction costs: its format's accesses, the bytes supplied not counted; and what is read. -/
theorem State.HasRead.cost {s u : State} {supplied : List Byte} {i : Instr} (hs : Supplied supplied)
    (h : s.HasRead supplied i u) : i.IsRead ∧ u.cfg = s.cfg ∧ supplied.length ≤ i.fetches.1 ∧
      (moreOpcode supplied = true → supplied.length < i.fetches.1) ∧
      u.cycles = s.cycles + ((i.fetches.1 - supplied.length) * s.cfg.tFetch + i.fetches.2 * s.cfg.tMem) := by
  obtain ⟨bytes, v, hd, hi, hv, rfl⟩ := h
  obtain ⟨o, ops, ho, hop, hl, rfl⟩ := exists_opcodeBytes hd hi
  have hsl := hop.supplied_le hs ho
  have hlen : supplied.length + bytes.length = o.length + ops.length := by
    simpa using congrArg List.length ho
  rw [ho] at hv ⊢
  have hf := (hop.fetches ops).1
  rw [hf] at hv ⊢
  refine ⟨hop.isRead ops, by rw [hv.1], hsl.1, hsl.2, ?_⟩
  have hb : bytes.length - (o.length - supplied.length) = (decodeSoFar o).fetches.2 := by omega
  rw [← hb, ← costOf_readingCalls _ s.pc _ _ (by simp only; omega), hv.1]

/-! ### What an instruction costs -/

/-- An instruction that is read costs no more than the table of its space says, its bytes included; and it changes no
cost. -/
theorem exec_cost {i : Instr} (hi : i.isWhole = true) {s t : State} (hs : s.cfg.HasReferenceCosts)
    (h : exec i s = .next t) :
    t.cfg = s.cfg ∧ s.cycles ≤ t.cycles ∧
      t.cycles + (4 * i.fetches.1 + 3 * i.fetches.2) ≤ s.cycles + i.largestCost := by
  induction i with
  | asMainSpace xy inner ih | prefixEdAfterXy xy inner ih =>
    have hx : exec inner s = .next t := execEntry_eq_exec inner s (Instr.isWhole.not_bare hi) ▸ h
    obtain ⟨h1, h2, h3⟩ := ih hi hx
    refine ⟨h1, h2, ?_⟩
    show t.cycles + (4 * (1 + inner.fetches.1) + 3 * inner.fetches.2) ≤ s.cycles + (4 + inner.largestCost)
    omega
  | prefixCb | prefixDd | prefixEd | prefixFd | prefixXyCb => cases hi
  | _ =>
    obtain ⟨-, hM, hI⟩ := hs
    cases h
    try dsimp only
    repeat' split
    all_goals simp [Instr.fetches, Instr.largestCost, Instr.space, State.memRead_eq, State.memRead16_eq,
      State.memWrite16_eq, State.ioRead_eq, State.push16_eq, State.pop16_eq, State.callTo_eq, State.popPc_eq,
      State.returnFromInterrupt_eq, State.aluFrom, State.arith16, State.readSource, State.useIndex_eq, State.modify_eq,
      State.stepMem_eq, State.rotMem_eq, State.rotAcc_eq, State.rotReg, State.digitRotate, State.modifyCopy,
      State.rotMemCopy, State.blockLoad_eq, State.blockCompare_eq, State.blockIn_eq, State.blockOut_eq,
      State.repeatBlock_eq, State.repeatIo_eq, State.jumpRelative, State.exchangeStack, hM, hI]
    all_goals omega

/-! ### What a pass of the loop costs -/

/-- `K` is at most 23, as 60_exceptions.md R441 says, but for the passes whose own rules give more, and then at most 27. -/
def Event.IsBounded (e : Event) : Prop := e.largestCost ≤ 27 ∧ (e.isCostlier = false → e.largestCost ≤ 23)

/-- A pass that begins in `s`, before `target`, and is `e`: it takes time, ends less than its `K` beyond `target`, and changes
no cost. -/
def State.PassCosts (s : State) (target : Nat) (e : Event) : Prop :=
  e.IsBounded ∧
    ∀ t, e.outcome = .next t → t.cfg = s.cfg ∧ s.cycles < t.cycles ∧ t.cycles < target + e.largestCost

theorem State.PassCosts.of_same {u s : State} {target : Nat} {e : Event} (hcfg : u.cfg = s.cfg)
    (hcy : u.cycles = s.cycles) (h : u.PassCosts target e) : s.PassCosts target e := by
  unfold State.PassCosts at h ⊢
  rwa [hcfg, hcy] at h

/-- Reading an instruction and executing it. -/
theorem State.read_exec_cost (s : State) {t : State} {supplied : List Byte} (hp : Supplied supplied)
    (hs : s.cfg.HasReferenceCosts) (h : exec (s.fetchInstr supplied).1 (s.fetchInstr supplied).2 = .next t) :
    t.cfg = s.cfg ∧ s.cycles ≤ t.cycles ∧
      (moreOpcode supplied = true → s.cycles < t.cycles) ∧
      t.cycles + 4 * supplied.length ≤ s.cycles + (s.fetchInstr supplied).1.largestCost := by
  obtain ⟨hr, hcfg, hle, hlt, hu⟩ := (s.fetchInstr_hasRead hp).cost hp
  obtain ⟨h1, h2, h3⟩ := exec_cost hr.1 (hcfg ▸ hs) h
  rw [hs.1, hs.2.1] at hu
  exact ⟨h1.trans hcfg, by omega, fun hm => by have := hlt hm; omega, by omega⟩

theorem State.fetchInstr_isRead (s : State) {supplied : List Byte} (hp : Supplied supplied) :
    (s.fetchInstr supplied).1.IsRead := ((s.fetchInstr_hasRead hp).cost hp).1

/-- A step of the dispatcher. -/
theorem State.instr_cost (s : State) {target : Nat} {supplied : List Byte} (hp : Supplied supplied)
    (hm : moreOpcode supplied = true) (hs : s.cfg.HasReferenceCosts) (hc : s.cycles < target) :
    s.PassCosts target (.instr (s.fetchInstr supplied).1 (s.fetchInstr supplied).2) := by
  obtain ⟨-, h25, h23⟩ := s.fetchInstr_isRead hp
  refine ⟨⟨h25.trans (by decide), h23⟩, fun t h => ?_⟩
  obtain ⟨hcfg, -, hlt, hle⟩ := s.read_exec_cost hp hs h
  refine ⟨hcfg, hlt hm, ?_⟩
  rw [Event.largestCost]
  omega

theorem State.proceed_cost (s : State) {target : Nat} (hs : s.cfg.HasReferenceCosts) (hc : s.cycles < target) :
    s.PassCosts target (s.proceed target) := by
  unfold State.proceed
  split
  · refine ⟨⟨Nat.le_of_ble_eq_true rfl, fun _ => Nat.le_of_ble_eq_true rfl⟩, fun t h => ?_⟩
    obtain rfl := Host.Outcome.next.inj h
    exact ⟨rfl, hc, Nat.lt_succ_self _⟩
  · split
    · exact s.instr_cost supplied_nil rfl hs hc
    · rename_i xy _
      have hm : moreOpcode [xy.prefixByte] = true := by cases xy <;> rfl
      have h := State.instr_cost ({ s with pfx := none } : State) (supplied_one xy.prefixByte) hm hs hc
      exact h.of_same rfl rfl

/-- An acceptance that is complete costs at most 19. -/
theorem State.accepted_cost {s t : State} {target : Nat} (hc : s.cycles < target) (hcfg : t.cfg = s.cfg)
    (hlt : s.cycles < t.cycles) (hle : t.cycles ≤ s.cycles + 19) : s.PassCosts target (.accepted t) := by
  refine ⟨⟨Nat.le_of_ble_eq_true rfl, fun _ => Nat.le_of_ble_eq_true rfl⟩, fun u h => ?_⟩
  obtain rfl := Host.Outcome.next.inj h
  exact ⟨hcfg, hlt, by rw [Event.largestCost]; omega⟩

/-- A mode 0 acceptance: six cycles in the place of the first fetch. -/
theorem State.injected_cost {s u : State} {target : Nat} (v : Byte) (hs : s.cfg.HasReferenceCosts)
    (hc : s.cycles < target) (hcfg : u.cfg = s.cfg) (hcy : u.cycles = s.cycles + 6) :
    s.PassCosts target (.injected (u.fetchInstr [v]).1 (u.fetchInstr [v]).2) := by
  obtain ⟨-, h25, -⟩ := u.fetchInstr_isRead (supplied_one v)
  refine ⟨⟨Nat.add_le_add_left h25 2, fun hd => Nat.add_le_add_left (Instr.largestCost_le hd) 2⟩, fun t h => ?_⟩
  obtain ⟨h1, h2, -, h3⟩ := u.read_exec_cost (supplied_one v) (hcfg ▸ hs) h
  rw [List.length_singleton] at h3
  exact ⟨h1.trans hcfg, by omega, by rw [Event.largestCost]; omega⟩

theorem State.acceptInt_cost (s : State) {target : Nat} (hs : s.cfg.HasReferenceCosts) (hc : s.cycles < target) :
    s.PassCosts target s.acceptInt := by
  have hF := hs.1
  have hM := hs.2.1
  unfold State.acceptInt
  cases him : s.im with
  | im0 =>
    refine State.injected_cost _ hs hc ?_ ?_ <;> rw [State.accept_int_mode0 s him]
    simp only [hF]
  | im1 =>
    refine State.accepted_cost hc ?_ ?_ ?_ <;> rw [State.accept_int_mode1 s him] <;> simp only [hM] <;> omega
  | im2 =>
    refine State.accepted_cost hc ?_ ?_ ?_ <;> rw [State.accept_int_mode2 s him] <;>
      simp only [State.memRead16_eq, State.memRead_eq, State.push16_eq, State.jumpTo_cfg, State.jumpTo_cycles,
        State.tick_cfg, State.tick_cycles, State.acknowledge_cfg, State.acknowledge_cycles, hM] <;> omega

theorem State.sampleLines_same (s : State) : s.sampleLines.cfg = s.cfg ∧ s.sampleLines.cycles = s.cycles := by
  unfold State.sampleLines
  split <;> exact ⟨rfl, rfl⟩

/-- No pass overshoots by as much as its `K`. -/
theorem State.plan_cost (s : State) {target : Nat} (hs : s.cfg.HasReferenceCosts) (hc : s.cycles < target) :
    s.PassCosts target (s.plan target) := by
  obtain ⟨h1, h2⟩ := s.sampleLines_same
  have same : ∀ {u : State} {e : Event}, u.cfg = s.cfg → u.cycles = s.cycles →
      (u.cfg.HasReferenceCosts → u.cycles < target → u.PassCosts target e) → s.PassCosts target e :=
    fun hcfg hcy h => .of_same hcfg hcy (h (hcfg ▸ hs) (hcy ▸ hc))
  rcases s.plan_cases target with ⟨-, h⟩ | ⟨-, -, h⟩ | ⟨-, -, -, h⟩ | ⟨-, -, -, h⟩ <;> rw [h]
  · exact same h1 h2 (State.proceed_cost { s.sampleLines with inhibit := false })
  · refine same h1 h2 fun hs hc => State.accepted_cost hc ?_ ?_ ?_ <;> rw [State.accept_nmi_eq] <;>
      simp only [hs.2.1] <;> omega
  · exact same h1 h2 (State.acceptInt_cost _)
  · exact same h1 h2 (State.proceed_cost _)

/-- The halted idle ends at `target` (60_exceptions.md R443). -/
theorem State.plan_idle {s t : State} {target : Nat} (h : s.plan target = .idle t) : t.cycles = target := by
  have proceed : ∀ u : State, u.proceed target = .idle t → t.cycles = target := fun u hu => by
    unfold State.proceed at hu
    split at hu
    · obtain rfl := Event.idle.inj hu
      rfl
    · split at hu <;> cases hu
  rcases s.plan_cases target with ⟨-, e⟩ | ⟨-, -, e⟩ | ⟨-, -, -, e⟩ | ⟨-, -, -, e⟩ <;> rw [e] at h
  · exact proceed _ h
  · cases h
  · unfold State.acceptInt at h
    split at h <;> cases h
  · exact proceed _ h

/-! ### The overshoot of `runUntil` -/

/-- Whole passes, and only the last one reaches beyond `target`: it begins before `target`, in some state `u`, and ends in
`t`; and `t` is short of `target` only after an early return (60_exceptions.md R440, R441). -/
theorem State.runLoop_last {s t : State} {passes target : Nat} (hs : s.cfg.HasReferenceCosts) (hc : s.cycles < target)
    (hp : target ≤ s.cycles + passes) (h : s.runLoop passes target = .next t) :
    ∃ u : State, u.cfg = s.cfg ∧ s.cycles ≤ u.cycles ∧ u.cycles < target ∧ (u.plan target).outcome = .next t ∧
      ((u.plan target).isAcceptance = true ∨ t.halt = true ∨ target ≤ t.cycles) := by
  induction passes generalizing s with
  | zero => omega
  | succ k ih =>
    have hpass := s.plan_cost hs hc
    rw [State.runLoop, if_pos hc] at h
    split at h
    case h_1 e => exact ⟨s, rfl, le_rfl, hc, e ▸ h, by simp [e, Event.isAcceptance]⟩
    case h_2 e => exact ⟨s, rfl, le_rfl, hc, e ▸ h, by simp [e, Event.isAcceptance]⟩
    case h_3 u e =>
      exact ⟨s, rfl, le_rfl, hc, e ▸ h, .inr (.inr (Host.Outcome.next.inj h ▸ (State.plan_idle e).ge))⟩
    case h_4 i u e =>
      split at h
      case h_2 hn => exact absurd h (hn t)
      case h_1 v hx =>
        have hv : (s.plan target).outcome = .next v := by rw [e]; exact hx
        obtain ⟨hcfg, hlt, -⟩ := hpass.2 v hv
        split at h
        case isTrue hh =>
          obtain rfl := Host.Outcome.next.inj h
          exact ⟨s, rfl, le_rfl, hc, hv, .inr (.inl hh)⟩
        case isFalse hh =>
          by_cases hd : v.cycles < target
          · obtain ⟨u', g1, g2, g3, g4⟩ := ih (hcfg ▸ hs) hd (by omega) h
            exact ⟨u', g1.trans hcfg, by omega, g3, g4⟩
          · have hvt : v = t := by
              cases k <;> simpa [State.runLoop, hd] using h
            subst hvt
            exact ⟨s, rfl, le_rfl, hc, hv, .inr (.inr (by omega))⟩

/-- 60_exceptions.md R441: with time to go, `runUntil` ends less than `K` beyond `target`, and short of `target` only after an
early return; `K` is that of its last pass, and 23 but for the passes whose own rules give more. -/
theorem State.runUntil_overshoot {s t : State} {target : Nat} (hs : s.cfg.HasReferenceCosts) (hc : s.cycles < target)
    (h : s.runUntil target = .next t) :
    ∃ u : State, u.cfg = s.cfg ∧ s.cycles ≤ u.cycles ∧ u.cycles < target ∧ (u.plan target).outcome = .next t ∧
      t.cycles < target + (u.plan target).largestCost ∧ (u.plan target).IsBounded ∧
      ((u.plan target).isAcceptance = true ∨ t.halt = true ∨ target ≤ t.cycles) := by
  obtain ⟨u, h1, h2, h3, h4, h5⟩ := State.runLoop_last hs hc (by omega) h
  have hp := u.plan_cost (h1 ▸ hs) h3
  exact ⟨u, h1, h2, h3, h4, (hp.2 t h4).2.2, hp.1, h5⟩

/-- No call of `runUntil` ends 27 cycles beyond its target or more. -/
theorem State.runUntil_lt {s t : State} {target : Nat} (hs : s.cfg.HasReferenceCosts) (hc : s.cycles < target)
    (h : s.runUntil target = .next t) : t.cycles < target + 27 := by
  obtain ⟨u, -, -, -, -, hlt, hb, -⟩ := State.runUntil_overshoot hs hc h
  exact hlt.trans_le (Nat.add_le_add_left hb.1 _)

end Sys2Proof.Machine
end

