-- ==== Sys2Proof/Laws/Flags.lean ====
section
/-! SUPPORT. The flag byte read back flag by flag, and the three flag tables of 10_state.md R30 to R32. -/

namespace Sys2Proof.Machine

open Sys2Proof

/-! ### `packFlags` -/

theorem hasFlags_packFlags (s z y h x pv n c : Bool) :
    HasFlags (packFlags s z y h x pv n c) s z y h x pv n c := by
  cases s <;> cases z <;> cases y <;> cases h <;> cases x <;> cases pv <;> cases n <;> cases c <;>
    (unfold HasFlags; decide)

@[simp] theorem flagS_packFlags (s z y h x pv n c : Bool) : flagS (packFlags s z y h x pv n c) = s :=
  (hasFlags_packFlags s z y h x pv n c).1

@[simp] theorem flagZ_packFlags (s z y h x pv n c : Bool) : flagZ (packFlags s z y h x pv n c) = z :=
  (hasFlags_packFlags s z y h x pv n c).2.1

@[simp] theorem flagY_packFlags (s z y h x pv n c : Bool) : flagY (packFlags s z y h x pv n c) = y :=
  (hasFlags_packFlags s z y h x pv n c).2.2.1

@[simp] theorem flagH_packFlags (s z y h x pv n c : Bool) : flagH (packFlags s z y h x pv n c) = h :=
  (hasFlags_packFlags s z y h x pv n c).2.2.2.1

@[simp] theorem flagX_packFlags (s z y h x pv n c : Bool) : flagX (packFlags s z y h x pv n c) = x :=
  (hasFlags_packFlags s z y h x pv n c).2.2.2.2.1

@[simp] theorem flagPV_packFlags (s z y h x pv n c : Bool) : flagPV (packFlags s z y h x pv n c) = pv :=
  (hasFlags_packFlags s z y h x pv n c).2.2.2.2.2.1

@[simp] theorem flagN_packFlags (s z y h x pv n c : Bool) : flagN (packFlags s z y h x pv n c) = n :=
  (hasFlags_packFlags s z y h x pv n c).2.2.2.2.2.2.1

@[simp] theorem flagC_packFlags (s z y h x pv n c : Bool) : flagC (packFlags s z y h x pv n c) = c :=
  (hasFlags_packFlags s z y h x pv n c).2.2.2.2.2.2.2

/-- The eight flags are the whole byte. -/
theorem eq_packFlags_of_hasFlags {f : Byte} {s z y h x pv n c : Bool} (hf : HasFlags f s z y h x pv n c) :
    f = packFlags s z y h x pv n c := by
  obtain ⟨h7, h6, h5, h4, h3, h2, h1, h0⟩ := hf
  obtain ⟨g7, g6, g5, g4, g3, g2, g1, g0⟩ := hasFlags_packFlags s z y h x pv n c
  refine BitVec.eq_of_getLsbD_eq fun i hi => ?_
  obtain rfl | rfl | rfl | rfl | rfl | rfl | rfl | rfl :
      i = 0 ∨ i = 1 ∨ i = 2 ∨ i = 3 ∨ i = 4 ∨ i = 5 ∨ i = 6 ∨ i = 7 := by omega
  all_goals simp only [*]

/-! ### The flag tables -/

theorem hasFlags_tableSZXY (v : Byte) :
    HasFlags (tableSZXY v) (v.getLsbD 7) (v == 0) (v.getLsbD 5) false (v.getLsbD 3) false false false := by
  revert v; unfold HasFlags; decide

theorem hasFlags_tableSZPXY (v : Byte) :
    HasFlags (tableSZPXY v) (v.getLsbD 7) (v == 0) (v.getLsbD 5) false (v.getLsbD 3) (hasEvenOnes v) false false := by
  revert v; unfold HasFlags; decide

theorem hasFlags_tableSZPH (v : Byte) :
    HasFlags (tableSZPH v) (v.getLsbD 7) (v == 0) false true false (hasEvenOnes v) false false := by
  revert v; unfold HasFlags; decide

theorem evenParity_eq_hasEvenOnes (v : Byte) : evenParity v = hasEvenOnes v := by
  revert v; decide

end Sys2Proof.Machine
end

