-- ==== Sys2Proof/Laws/Instr.lean ====
section
/-! SUPPORT. The tables over the constructors of `Instr` that call themselves on a wrapped instruction, one equation a
constructor, so that no proof unfolds such a table: `encode`, `Instr.fetches` and `Instr.entry`. -/

namespace Sys2Proof

/-! ### `encode` -/

@[simp] theorem encode_nop : encode (.nop) = [0x00] := rfl
@[simp] theorem encode_exAfAf : encode (.exAfAf) = [0x08] := rfl
@[simp] theorem encode_djnzE (e : Byte) : encode (.djnzE e) = [0x10, e] := rfl
@[simp] theorem encode_jrE (e : Byte) : encode (.jrE e) = [0x18, e] := rfl
@[simp] theorem encode_jrCcE (cc : Cond) (e : Byte) : encode (.jrCcE cc e) = [opByte 0 (4 + cc.code) 0, e] := rfl
@[simp] theorem encode_ldDdNn (dd : Pair) (nn : Word) : encode (.ldDdNn dd nn) = [opByte 0 (2 * dd.code) 1, loByte nn, hiByte nn] := rfl
@[simp] theorem encode_addHlSs (ss : Pair) : encode (.addHlSs ss) = [opByte 0 (2 * ss.code + 1) 1] := rfl
@[simp] theorem encode_ldMemBcA : encode (.ldMemBcA) = [0x02] := rfl
@[simp] theorem encode_ldMemDeA : encode (.ldMemDeA) = [0x12] := rfl
@[simp] theorem encode_ldMemNnHl (nn : Word) : encode (.ldMemNnHl nn) = [0x22, loByte nn, hiByte nn] := rfl
@[simp] theorem encode_ldMemNnA (nn : Word) : encode (.ldMemNnA nn) = [0x32, loByte nn, hiByte nn] := rfl
@[simp] theorem encode_ldAMemBc : encode (.ldAMemBc) = [0x0A] := rfl
@[simp] theorem encode_ldAMemDe : encode (.ldAMemDe) = [0x1A] := rfl
@[simp] theorem encode_ldHlMemNn (nn : Word) : encode (.ldHlMemNn nn) = [0x2A, loByte nn, hiByte nn] := rfl
@[simp] theorem encode_ldAMemNn (nn : Word) : encode (.ldAMemNn nn) = [0x3A, loByte nn, hiByte nn] := rfl
@[simp] theorem encode_incSs (ss : Pair) : encode (.incSs ss) = [opByte 0 (2 * ss.code) 3] := rfl
@[simp] theorem encode_decSs (ss : Pair) : encode (.decSs ss) = [opByte 0 (2 * ss.code + 1) 3] := rfl
@[simp] theorem encode_incR (r : Reg8) : encode (.incR r) = [opByte 0 r.code 4] := rfl
@[simp] theorem encode_incMemHl : encode (.incMemHl) = [0x34] := rfl
@[simp] theorem encode_decR (r : Reg8) : encode (.decR r) = [opByte 0 r.code 5] := rfl
@[simp] theorem encode_decMemHl : encode (.decMemHl) = [0x35] := rfl
@[simp] theorem encode_ldRN (r : Reg8) (n : Byte) : encode (.ldRN r n) = [opByte 0 r.code 6, n] := rfl
@[simp] theorem encode_ldMemHlN (n : Byte) : encode (.ldMemHlN n) = [0x36, n] := rfl
@[simp] theorem encode_rlca : encode (.rlca) = [0x07] := rfl
@[simp] theorem encode_rrca : encode (.rrca) = [0x0F] := rfl
@[simp] theorem encode_rla : encode (.rla) = [0x17] := rfl
@[simp] theorem encode_rra : encode (.rra) = [0x1F] := rfl
@[simp] theorem encode_daa : encode (.daa) = [0x27] := rfl
@[simp] theorem encode_cpl : encode (.cpl) = [0x2F] := rfl
@[simp] theorem encode_scf : encode (.scf) = [0x37] := rfl
@[simp] theorem encode_ccf : encode (.ccf) = [0x3F] := rfl
@[simp] theorem encode_ldRR (dst : Reg8) (src : Reg8) : encode (.ldRR dst src) = [opByte 1 dst.code src.code] := rfl
@[simp] theorem encode_ldRMemHl (r : Reg8) : encode (.ldRMemHl r) = [opByte 1 r.code 6] := rfl
@[simp] theorem encode_ldMemHlR (r : Reg8) : encode (.ldMemHlR r) = [opByte 1 6 r.code] := rfl
@[simp] theorem encode_halt : encode (.halt) = [0x76] := rfl
@[simp] theorem encode_addAR (r : Reg8) : encode (.addAR r) = [opByte 2 0 r.code] := rfl
@[simp] theorem encode_addAMemHl : encode (.addAMemHl) = [opByte 2 0 6] := rfl
@[simp] theorem encode_adcAR (r : Reg8) : encode (.adcAR r) = [opByte 2 1 r.code] := rfl
@[simp] theorem encode_adcAMemHl : encode (.adcAMemHl) = [opByte 2 1 6] := rfl
@[simp] theorem encode_subR (r : Reg8) : encode (.subR r) = [opByte 2 2 r.code] := rfl
@[simp] theorem encode_subMemHl : encode (.subMemHl) = [opByte 2 2 6] := rfl
@[simp] theorem encode_sbcAR (r : Reg8) : encode (.sbcAR r) = [opByte 2 3 r.code] := rfl
@[simp] theorem encode_sbcAMemHl : encode (.sbcAMemHl) = [opByte 2 3 6] := rfl
@[simp] theorem encode_andR (r : Reg8) : encode (.andR r) = [opByte 2 4 r.code] := rfl
@[simp] theorem encode_andMemHl : encode (.andMemHl) = [opByte 2 4 6] := rfl
@[simp] theorem encode_xorR (r : Reg8) : encode (.xorR r) = [opByte 2 5 r.code] := rfl
@[simp] theorem encode_xorMemHl : encode (.xorMemHl) = [opByte 2 5 6] := rfl
@[simp] theorem encode_orR (r : Reg8) : encode (.orR r) = [opByte 2 6 r.code] := rfl
@[simp] theorem encode_orMemHl : encode (.orMemHl) = [opByte 2 6 6] := rfl
@[simp] theorem encode_cpR (r : Reg8) : encode (.cpR r) = [opByte 2 7 r.code] := rfl
@[simp] theorem encode_cpMemHl : encode (.cpMemHl) = [opByte 2 7 6] := rfl
@[simp] theorem encode_retCc (cc : Cond) : encode (.retCc cc) = [opByte 3 cc.code 0] := rfl
@[simp] theorem encode_popQq (qq : StackPair) : encode (.popQq qq) = [opByte 3 (2 * qq.code) 1] := rfl
@[simp] theorem encode_ret : encode (.ret) = [0xC9] := rfl
@[simp] theorem encode_exx : encode (.exx) = [0xD9] := rfl
@[simp] theorem encode_jpHl : encode (.jpHl) = [0xE9] := rfl
@[simp] theorem encode_ldSpHl : encode (.ldSpHl) = [0xF9] := rfl
@[simp] theorem encode_jpCcNn (cc : Cond) (nn : Word) : encode (.jpCcNn cc nn) = [opByte 3 cc.code 2, loByte nn, hiByte nn] := rfl
@[simp] theorem encode_jpNn (nn : Word) : encode (.jpNn nn) = [0xC3, loByte nn, hiByte nn] := rfl
@[simp] theorem encode_prefixCb : encode (.prefixCb) = [0xCB] := rfl
@[simp] theorem encode_outNA (n : Byte) : encode (.outNA n) = [0xD3, n] := rfl
@[simp] theorem encode_inAN (n : Byte) : encode (.inAN n) = [0xDB, n] := rfl
@[simp] theorem encode_exMemSpHl : encode (.exMemSpHl) = [0xE3] := rfl
@[simp] theorem encode_exDeHl : encode (.exDeHl) = [0xEB] := rfl
@[simp] theorem encode_di : encode (.di) = [0xF3] := rfl
@[simp] theorem encode_ei : encode (.ei) = [0xFB] := rfl
@[simp] theorem encode_callCcNn (cc : Cond) (nn : Word) : encode (.callCcNn cc nn) = [opByte 3 cc.code 4, loByte nn, hiByte nn] := rfl
@[simp] theorem encode_pushQq (qq : StackPair) : encode (.pushQq qq) = [opByte 3 (2 * qq.code) 5] := rfl
@[simp] theorem encode_callNn (nn : Word) : encode (.callNn nn) = [0xCD, loByte nn, hiByte nn] := rfl
@[simp] theorem encode_prefixDd : encode (.prefixDd) = [0xDD] := rfl
@[simp] theorem encode_prefixEd : encode (.prefixEd) = [0xED] := rfl
@[simp] theorem encode_prefixFd : encode (.prefixFd) = [0xFD] := rfl
@[simp] theorem encode_addAN (n : Byte) : encode (.addAN n) = [opByte 3 0 6, n] := rfl
@[simp] theorem encode_adcAN (n : Byte) : encode (.adcAN n) = [opByte 3 1 6, n] := rfl
@[simp] theorem encode_subN (n : Byte) : encode (.subN n) = [opByte 3 2 6, n] := rfl
@[simp] theorem encode_sbcAN (n : Byte) : encode (.sbcAN n) = [opByte 3 3 6, n] := rfl
@[simp] theorem encode_andN (n : Byte) : encode (.andN n) = [opByte 3 4 6, n] := rfl
@[simp] theorem encode_xorN (n : Byte) : encode (.xorN n) = [opByte 3 5 6, n] := rfl
@[simp] theorem encode_orN (n : Byte) : encode (.orN n) = [opByte 3 6 6, n] := rfl
@[simp] theorem encode_cpN (n : Byte) : encode (.cpN n) = [opByte 3 7 6, n] := rfl
@[simp] theorem encode_rstP (p : BitVec 3) : encode (.rstP p) = [opByte 3 p.toNat 7] := rfl
@[simp] theorem encode_rlcR (r : Reg8) : encode (.rlcR r) = [0xCB, opByte 0 0 r.code] := rfl
@[simp] theorem encode_rlcMemHl : encode (.rlcMemHl) = [0xCB, opByte 0 0 6] := rfl
@[simp] theorem encode_rrcR (r : Reg8) : encode (.rrcR r) = [0xCB, opByte 0 1 r.code] := rfl
@[simp] theorem encode_rrcMemHl : encode (.rrcMemHl) = [0xCB, opByte 0 1 6] := rfl
@[simp] theorem encode_rlR (r : Reg8) : encode (.rlR r) = [0xCB, opByte 0 2 r.code] := rfl
@[simp] theorem encode_rlMemHl : encode (.rlMemHl) = [0xCB, opByte 0 2 6] := rfl
@[simp] theorem encode_rrR (r : Reg8) : encode (.rrR r) = [0xCB, opByte 0 3 r.code] := rfl
@[simp] theorem encode_rrMemHl : encode (.rrMemHl) = [0xCB, opByte 0 3 6] := rfl
@[simp] theorem encode_slaR (r : Reg8) : encode (.slaR r) = [0xCB, opByte 0 4 r.code] := rfl
@[simp] theorem encode_slaMemHl : encode (.slaMemHl) = [0xCB, opByte 0 4 6] := rfl
@[simp] theorem encode_sraR (r : Reg8) : encode (.sraR r) = [0xCB, opByte 0 5 r.code] := rfl
@[simp] theorem encode_sraMemHl : encode (.sraMemHl) = [0xCB, opByte 0 5 6] := rfl
@[simp] theorem encode_sllR (r : Reg8) : encode (.sllR r) = [0xCB, opByte 0 6 r.code] := rfl
@[simp] theorem encode_sllMemHl : encode (.sllMemHl) = [0xCB, opByte 0 6 6] := rfl
@[simp] theorem encode_srlR (r : Reg8) : encode (.srlR r) = [0xCB, opByte 0 7 r.code] := rfl
@[simp] theorem encode_srlMemHl : encode (.srlMemHl) = [0xCB, opByte 0 7 6] := rfl
@[simp] theorem encode_bitBR (bit : BitVec 3) (r : Reg8) : encode (.bitBR bit r) = [0xCB, opByte 1 bit.toNat r.code] := rfl
@[simp] theorem encode_bitBMemHl (bit : BitVec 3) : encode (.bitBMemHl bit) = [0xCB, opByte 1 bit.toNat 6] := rfl
@[simp] theorem encode_resBR (bit : BitVec 3) (r : Reg8) : encode (.resBR bit r) = [0xCB, opByte 2 bit.toNat r.code] := rfl
@[simp] theorem encode_resBMemHl (bit : BitVec 3) : encode (.resBMemHl bit) = [0xCB, opByte 2 bit.toNat 6] := rfl
@[simp] theorem encode_setBR (bit : BitVec 3) (r : Reg8) : encode (.setBR bit r) = [0xCB, opByte 3 bit.toNat r.code] := rfl
@[simp] theorem encode_setBMemHl (bit : BitVec 3) : encode (.setBMemHl bit) = [0xCB, opByte 3 bit.toNat 6] := rfl
@[simp] theorem encode_edNop0 (yz : BitVec 6) : encode (.edNop0 yz) = [0xED, BitVec.ofNat 8 yz.toNat] := rfl
@[simp] theorem encode_inRC (r : Reg8) : encode (.inRC r) = [0xED, opByte 1 r.code 0] := rfl
@[simp] theorem encode_inFC : encode (.inFC) = [0xED, 0x70] := rfl
@[simp] theorem encode_outCR (r : Reg8) : encode (.outCR r) = [0xED, opByte 1 r.code 1] := rfl
@[simp] theorem encode_outC0 : encode (.outC0) = [0xED, 0x71] := rfl
@[simp] theorem encode_sbcHlSs (ss : Pair) : encode (.sbcHlSs ss) = [0xED, opByte 1 (2 * ss.code) 2] := rfl
@[simp] theorem encode_adcHlSs (ss : Pair) : encode (.adcHlSs ss) = [0xED, opByte 1 (2 * ss.code + 1) 2] := rfl
@[simp] theorem encode_ldMemNnDd (nn : Word) (dd : Pair) : encode (.ldMemNnDd nn dd) = [0xED, opByte 1 (2 * dd.code) 3, loByte nn, hiByte nn] := rfl
@[simp] theorem encode_ldDdMemNn (dd : Pair) (nn : Word) : encode (.ldDdMemNn dd nn) = [0xED, opByte 1 (2 * dd.code + 1) 3, loByte nn, hiByte nn] := rfl
@[simp] theorem encode_neg (y : BitVec 3) : encode (.neg y) = [0xED, opByte 1 y.toNat 4] := rfl
@[simp] theorem encode_retn (y : BitVec 3) : encode (.retn y) = [0xED, opByte 1 y.toNat 5] := rfl
@[simp] theorem encode_reti : encode (.reti) = [0xED, 0x4D] := rfl
@[simp] theorem encode_imN (y : BitVec 3) : encode (.imN y) = [0xED, opByte 1 y.toNat 6] := rfl
@[simp] theorem encode_ldIA : encode (.ldIA) = [0xED, 0x47] := rfl
@[simp] theorem encode_ldRfA : encode (.ldRfA) = [0xED, 0x4F] := rfl
@[simp] theorem encode_ldAI : encode (.ldAI) = [0xED, 0x57] := rfl
@[simp] theorem encode_ldARf : encode (.ldARf) = [0xED, 0x5F] := rfl
@[simp] theorem encode_rrd : encode (.rrd) = [0xED, 0x67] := rfl
@[simp] theorem encode_rld : encode (.rld) = [0xED, 0x6F] := rfl
@[simp] theorem encode_edNop7 (q : BitVec 1) : encode (.edNop7 q) = [0xED, opByte 1 (6 + q.toNat) 7] := rfl
@[simp] theorem encode_edNop8 (yz : BitVec 5) : encode (.edNop8 yz) = [0xED, BitVec.ofNat 8 (0x80 + yz.toNat)] := rfl
@[simp] theorem encode_ldi : encode (.ldi) = [0xED, 0xA0] := rfl
@[simp] theorem encode_cpi : encode (.cpi) = [0xED, 0xA1] := rfl
@[simp] theorem encode_ini : encode (.ini) = [0xED, 0xA2] := rfl
@[simp] theorem encode_outi : encode (.outi) = [0xED, 0xA3] := rfl
@[simp] theorem encode_ldd : encode (.ldd) = [0xED, 0xA8] := rfl
@[simp] theorem encode_cpd : encode (.cpd) = [0xED, 0xA9] := rfl
@[simp] theorem encode_ind : encode (.ind) = [0xED, 0xAA] := rfl
@[simp] theorem encode_outd : encode (.outd) = [0xED, 0xAB] := rfl
@[simp] theorem encode_ldir : encode (.ldir) = [0xED, 0xB0] := rfl
@[simp] theorem encode_cpir : encode (.cpir) = [0xED, 0xB1] := rfl
@[simp] theorem encode_inir : encode (.inir) = [0xED, 0xB2] := rfl
@[simp] theorem encode_otir : encode (.otir) = [0xED, 0xB3] := rfl
@[simp] theorem encode_lddr : encode (.lddr) = [0xED, 0xB8] := rfl
@[simp] theorem encode_cpdr : encode (.cpdr) = [0xED, 0xB9] := rfl
@[simp] theorem encode_indr : encode (.indr) = [0xED, 0xBA] := rfl
@[simp] theorem encode_otdr : encode (.otdr) = [0xED, 0xBB] := rfl
@[simp] theorem encode_edNopA (y : BitVec 2) (z : BitVec 2) : encode (.edNopA y z) = [0xED, opByte 2 (4 + y.toNat) (4 + z.toNat)] := rfl
@[simp] theorem encode_edNopC (yz : BitVec 6) : encode (.edNopC yz) = [0xED, BitVec.ofNat 8 (0xC0 + yz.toNat)] := rfl
@[simp] theorem encode_addXyPp (xy : Index) (pp : XPair) : encode (.addXyPp xy pp) = [xy.prefixByte, opByte 0 (2 * pp.code + 1) 1] := rfl
@[simp] theorem encode_ldXyNn (xy : Index) (nn : Word) : encode (.ldXyNn xy nn) = [xy.prefixByte, 0x21, loByte nn, hiByte nn] := rfl
@[simp] theorem encode_ldMemNnXy (xy : Index) (nn : Word) : encode (.ldMemNnXy xy nn) = [xy.prefixByte, 0x22, loByte nn, hiByte nn] := rfl
@[simp] theorem encode_incXy (xy : Index) : encode (.incXy xy) = [xy.prefixByte, 0x23] := rfl
@[simp] theorem encode_incP (xy : Index) (p : Half) : encode (.incP xy p) = [xy.prefixByte, opByte 0 p.code 4] := rfl
@[simp] theorem encode_decP (xy : Index) (p : Half) : encode (.decP xy p) = [xy.prefixByte, opByte 0 p.code 5] := rfl
@[simp] theorem encode_ldPN (xy : Index) (p : Half) (n : Byte) : encode (.ldPN xy p n) = [xy.prefixByte, opByte 0 p.code 6, n] := rfl
@[simp] theorem encode_ldXyMemNn (xy : Index) (nn : Word) : encode (.ldXyMemNn xy nn) = [xy.prefixByte, 0x2A, loByte nn, hiByte nn] := rfl
@[simp] theorem encode_decXy (xy : Index) : encode (.decXy xy) = [xy.prefixByte, 0x2B] := rfl
@[simp] theorem encode_incMemXyd (xy : Index) (d : Byte) : encode (.incMemXyd xy d) = [xy.prefixByte, 0x34, d] := rfl
@[simp] theorem encode_decMemXyd (xy : Index) (d : Byte) : encode (.decMemXyd xy d) = [xy.prefixByte, 0x35, d] := rfl
@[simp] theorem encode_ldMemXydN (xy : Index) (d : Byte) (n : Byte) : encode (.ldMemXydN xy d n) = [xy.prefixByte, 0x36, d, n] := rfl
@[simp] theorem encode_ldRMemXyd (xy : Index) (r : Reg8) (d : Byte) : encode (.ldRMemXyd xy r d) = [xy.prefixByte, opByte 1 r.code 6, d] := rfl
@[simp] theorem encode_ldMemXydR (xy : Index) (d : Byte) (r : Reg8) : encode (.ldMemXydR xy d r) = [xy.prefixByte, opByte 1 6 r.code, d] := rfl
@[simp] theorem encode_ldPP (xy : Index) (dst : XReg8) (src : XReg8) : encode (.ldPP xy dst src) = [xy.prefixByte, opByte 1 dst.code src.code] := rfl
@[simp] theorem encode_addAP (xy : Index) (p : Half) : encode (.addAP xy p) = [xy.prefixByte, opByte 2 0 p.code] := rfl
@[simp] theorem encode_addAMemXyd (xy : Index) (d : Byte) : encode (.addAMemXyd xy d) = [xy.prefixByte, opByte 2 0 6, d] := rfl
@[simp] theorem encode_adcAP (xy : Index) (p : Half) : encode (.adcAP xy p) = [xy.prefixByte, opByte 2 1 p.code] := rfl
@[simp] theorem encode_adcAMemXyd (xy : Index) (d : Byte) : encode (.adcAMemXyd xy d) = [xy.prefixByte, opByte 2 1 6, d] := rfl
@[simp] theorem encode_subP (xy : Index) (p : Half) : encode (.subP xy p) = [xy.prefixByte, opByte 2 2 p.code] := rfl
@[simp] theorem encode_subMemXyd (xy : Index) (d : Byte) : encode (.subMemXyd xy d) = [xy.prefixByte, opByte 2 2 6, d] := rfl
@[simp] theorem encode_sbcAP (xy : Index) (p : Half) : encode (.sbcAP xy p) = [xy.prefixByte, opByte 2 3 p.code] := rfl
@[simp] theorem encode_sbcAMemXyd (xy : Index) (d : Byte) : encode (.sbcAMemXyd xy d) = [xy.prefixByte, opByte 2 3 6, d] := rfl
@[simp] theorem encode_andP (xy : Index) (p : Half) : encode (.andP xy p) = [xy.prefixByte, opByte 2 4 p.code] := rfl
@[simp] theorem encode_andMemXyd (xy : Index) (d : Byte) : encode (.andMemXyd xy d) = [xy.prefixByte, opByte 2 4 6, d] := rfl
@[simp] theorem encode_xorP (xy : Index) (p : Half) : encode (.xorP xy p) = [xy.prefixByte, opByte 2 5 p.code] := rfl
@[simp] theorem encode_xorMemXyd (xy : Index) (d : Byte) : encode (.xorMemXyd xy d) = [xy.prefixByte, opByte 2 5 6, d] := rfl
@[simp] theorem encode_orP (xy : Index) (p : Half) : encode (.orP xy p) = [xy.prefixByte, opByte 2 6 p.code] := rfl
@[simp] theorem encode_orMemXyd (xy : Index) (d : Byte) : encode (.orMemXyd xy d) = [xy.prefixByte, opByte 2 6 6, d] := rfl
@[simp] theorem encode_cpP (xy : Index) (p : Half) : encode (.cpP xy p) = [xy.prefixByte, opByte 2 7 p.code] := rfl
@[simp] theorem encode_cpMemXyd (xy : Index) (d : Byte) : encode (.cpMemXyd xy d) = [xy.prefixByte, opByte 2 7 6, d] := rfl
@[simp] theorem encode_prefixXyCb (xy : Index) : encode (.prefixXyCb xy) = [xy.prefixByte, 0xCB] := rfl
@[simp] theorem encode_repeatedPrefixDd (xy : Index) : encode (.repeatedPrefixDd xy) = [xy.prefixByte, 0xDD] := rfl
@[simp] theorem encode_prefixEdAfterXy (xy : Index) (inner : Instr) : encode (.prefixEdAfterXy xy inner) = xy.prefixByte :: encode inner := rfl
@[simp] theorem encode_repeatedPrefixFd (xy : Index) : encode (.repeatedPrefixFd xy) = [xy.prefixByte, 0xFD] := rfl
@[simp] theorem encode_popXy (xy : Index) : encode (.popXy xy) = [xy.prefixByte, 0xE1] := rfl
@[simp] theorem encode_exMemSpXy (xy : Index) : encode (.exMemSpXy xy) = [xy.prefixByte, 0xE3] := rfl
@[simp] theorem encode_pushXy (xy : Index) : encode (.pushXy xy) = [xy.prefixByte, 0xE5] := rfl
@[simp] theorem encode_jpXy (xy : Index) : encode (.jpXy xy) = [xy.prefixByte, 0xE9] := rfl
@[simp] theorem encode_ldSpXy (xy : Index) : encode (.ldSpXy xy) = [xy.prefixByte, 0xF9] := rfl
@[simp] theorem encode_rlcMemXyd (xy : Index) (d : Byte) : encode (.rlcMemXyd xy d) = [xy.prefixByte, 0xCB, d, opByte 0 0 6] := rfl
@[simp] theorem encode_rlcMemXydR (xy : Index) (d : Byte) (r : Reg8) : encode (.rlcMemXydR xy d r) = [xy.prefixByte, 0xCB, d, opByte 0 0 r.code] := rfl
@[simp] theorem encode_rrcMemXyd (xy : Index) (d : Byte) : encode (.rrcMemXyd xy d) = [xy.prefixByte, 0xCB, d, opByte 0 1 6] := rfl
@[simp] theorem encode_rrcMemXydR (xy : Index) (d : Byte) (r : Reg8) : encode (.rrcMemXydR xy d r) = [xy.prefixByte, 0xCB, d, opByte 0 1 r.code] := rfl
@[simp] theorem encode_rlMemXyd (xy : Index) (d : Byte) : encode (.rlMemXyd xy d) = [xy.prefixByte, 0xCB, d, opByte 0 2 6] := rfl
@[simp] theorem encode_rlMemXydR (xy : Index) (d : Byte) (r : Reg8) : encode (.rlMemXydR xy d r) = [xy.prefixByte, 0xCB, d, opByte 0 2 r.code] := rfl
@[simp] theorem encode_rrMemXyd (xy : Index) (d : Byte) : encode (.rrMemXyd xy d) = [xy.prefixByte, 0xCB, d, opByte 0 3 6] := rfl
@[simp] theorem encode_rrMemXydR (xy : Index) (d : Byte) (r : Reg8) : encode (.rrMemXydR xy d r) = [xy.prefixByte, 0xCB, d, opByte 0 3 r.code] := rfl
@[simp] theorem encode_slaMemXyd (xy : Index) (d : Byte) : encode (.slaMemXyd xy d) = [xy.prefixByte, 0xCB, d, opByte 0 4 6] := rfl
@[simp] theorem encode_slaMemXydR (xy : Index) (d : Byte) (r : Reg8) : encode (.slaMemXydR xy d r) = [xy.prefixByte, 0xCB, d, opByte 0 4 r.code] := rfl
@[simp] theorem encode_sraMemXyd (xy : Index) (d : Byte) : encode (.sraMemXyd xy d) = [xy.prefixByte, 0xCB, d, opByte 0 5 6] := rfl
@[simp] theorem encode_sraMemXydR (xy : Index) (d : Byte) (r : Reg8) : encode (.sraMemXydR xy d r) = [xy.prefixByte, 0xCB, d, opByte 0 5 r.code] := rfl
@[simp] theorem encode_sllMemXyd (xy : Index) (d : Byte) : encode (.sllMemXyd xy d) = [xy.prefixByte, 0xCB, d, opByte 0 6 6] := rfl
@[simp] theorem encode_sllMemXydR (xy : Index) (d : Byte) (r : Reg8) : encode (.sllMemXydR xy d r) = [xy.prefixByte, 0xCB, d, opByte 0 6 r.code] := rfl
@[simp] theorem encode_srlMemXyd (xy : Index) (d : Byte) : encode (.srlMemXyd xy d) = [xy.prefixByte, 0xCB, d, opByte 0 7 6] := rfl
@[simp] theorem encode_srlMemXydR (xy : Index) (d : Byte) (r : Reg8) : encode (.srlMemXydR xy d r) = [xy.prefixByte, 0xCB, d, opByte 0 7 r.code] := rfl
@[simp] theorem encode_bitBMemXyd (xy : Index) (d : Byte) (bit : BitVec 3) (z : BitVec 3) : encode (.bitBMemXyd xy d bit z) = [xy.prefixByte, 0xCB, d, opByte 1 bit.toNat z.toNat] := rfl
@[simp] theorem encode_resBMemXyd (xy : Index) (d : Byte) (bit : BitVec 3) : encode (.resBMemXyd xy d bit) = [xy.prefixByte, 0xCB, d, opByte 2 bit.toNat 6] := rfl
@[simp] theorem encode_resBMemXydR (xy : Index) (d : Byte) (bit : BitVec 3) (r : Reg8) : encode (.resBMemXydR xy d bit r) = [xy.prefixByte, 0xCB, d, opByte 2 bit.toNat r.code] := rfl
@[simp] theorem encode_setBMemXyd (xy : Index) (d : Byte) (bit : BitVec 3) : encode (.setBMemXyd xy d bit) = [xy.prefixByte, 0xCB, d, opByte 3 bit.toNat 6] := rfl
@[simp] theorem encode_setBMemXydR (xy : Index) (d : Byte) (bit : BitVec 3) (r : Reg8) : encode (.setBMemXydR xy d bit r) = [xy.prefixByte, 0xCB, d, opByte 3 bit.toNat r.code] := rfl
@[simp] theorem encode_asMainSpace (xy : Index) (inner : Instr) : encode (.asMainSpace xy inner) = xy.prefixByte :: encode inner := rfl

/-! ### `Instr.fetches` -/

@[simp] theorem Instr.fetches_nop : Instr.fetches (.nop) = (1, 0) := rfl
@[simp] theorem Instr.fetches_exAfAf : Instr.fetches (.exAfAf) = (1, 0) := rfl
@[simp] theorem Instr.fetches_djnzE (e : Byte) : Instr.fetches (.djnzE e) = (1, 1) := rfl
@[simp] theorem Instr.fetches_jrE (e : Byte) : Instr.fetches (.jrE e) = (1, 1) := rfl
@[simp] theorem Instr.fetches_jrCcE (cc : Cond) (e : Byte) : Instr.fetches (.jrCcE cc e) = (1, 1) := rfl
@[simp] theorem Instr.fetches_ldDdNn (dd : Pair) (nn : Word) : Instr.fetches (.ldDdNn dd nn) = (1, 2) := rfl
@[simp] theorem Instr.fetches_addHlSs (ss : Pair) : Instr.fetches (.addHlSs ss) = (1, 0) := rfl
@[simp] theorem Instr.fetches_ldMemBcA : Instr.fetches (.ldMemBcA) = (1, 0) := rfl
@[simp] theorem Instr.fetches_ldMemDeA : Instr.fetches (.ldMemDeA) = (1, 0) := rfl
@[simp] theorem Instr.fetches_ldMemNnHl (nn : Word) : Instr.fetches (.ldMemNnHl nn) = (1, 2) := rfl
@[simp] theorem Instr.fetches_ldMemNnA (nn : Word) : Instr.fetches (.ldMemNnA nn) = (1, 2) := rfl
@[simp] theorem Instr.fetches_ldAMemBc : Instr.fetches (.ldAMemBc) = (1, 0) := rfl
@[simp] theorem Instr.fetches_ldAMemDe : Instr.fetches (.ldAMemDe) = (1, 0) := rfl
@[simp] theorem Instr.fetches_ldHlMemNn (nn : Word) : Instr.fetches (.ldHlMemNn nn) = (1, 2) := rfl
@[simp] theorem Instr.fetches_ldAMemNn (nn : Word) : Instr.fetches (.ldAMemNn nn) = (1, 2) := rfl
@[simp] theorem Instr.fetches_incSs (ss : Pair) : Instr.fetches (.incSs ss) = (1, 0) := rfl
@[simp] theorem Instr.fetches_decSs (ss : Pair) : Instr.fetches (.decSs ss) = (1, 0) := rfl
@[simp] theorem Instr.fetches_incR (r : Reg8) : Instr.fetches (.incR r) = (1, 0) := rfl
@[simp] theorem Instr.fetches_incMemHl : Instr.fetches (.incMemHl) = (1, 0) := rfl
@[simp] theorem Instr.fetches_decR (r : Reg8) : Instr.fetches (.decR r) = (1, 0) := rfl
@[simp] theorem Instr.fetches_decMemHl : Instr.fetches (.decMemHl) = (1, 0) := rfl
@[simp] theorem Instr.fetches_ldRN (r : Reg8) (n : Byte) : Instr.fetches (.ldRN r n) = (1, 1) := rfl
@[simp] theorem Instr.fetches_ldMemHlN (n : Byte) : Instr.fetches (.ldMemHlN n) = (1, 1) := rfl
@[simp] theorem Instr.fetches_rlca : Instr.fetches (.rlca) = (1, 0) := rfl
@[simp] theorem Instr.fetches_rrca : Instr.fetches (.rrca) = (1, 0) := rfl
@[simp] theorem Instr.fetches_rla : Instr.fetches (.rla) = (1, 0) := rfl
@[simp] theorem Instr.fetches_rra : Instr.fetches (.rra) = (1, 0) := rfl
@[simp] theorem Instr.fetches_daa : Instr.fetches (.daa) = (1, 0) := rfl
@[simp] theorem Instr.fetches_cpl : Instr.fetches (.cpl) = (1, 0) := rfl
@[simp] theorem Instr.fetches_scf : Instr.fetches (.scf) = (1, 0) := rfl
@[simp] theorem Instr.fetches_ccf : Instr.fetches (.ccf) = (1, 0) := rfl
@[simp] theorem Instr.fetches_ldRR (dst : Reg8) (src : Reg8) : Instr.fetches (.ldRR dst src) = (1, 0) := rfl
@[simp] theorem Instr.fetches_ldRMemHl (r : Reg8) : Instr.fetches (.ldRMemHl r) = (1, 0) := rfl
@[simp] theorem Instr.fetches_ldMemHlR (r : Reg8) : Instr.fetches (.ldMemHlR r) = (1, 0) := rfl
@[simp] theorem Instr.fetches_halt : Instr.fetches (.halt) = (1, 0) := rfl
@[simp] theorem Instr.fetches_addAR (r : Reg8) : Instr.fetches (.addAR r) = (1, 0) := rfl
@[simp] theorem Instr.fetches_addAMemHl : Instr.fetches (.addAMemHl) = (1, 0) := rfl
@[simp] theorem Instr.fetches_adcAR (r : Reg8) : Instr.fetches (.adcAR r) = (1, 0) := rfl
@[simp] theorem Instr.fetches_adcAMemHl : Instr.fetches (.adcAMemHl) = (1, 0) := rfl
@[simp] theorem Instr.fetches_subR (r : Reg8) : Instr.fetches (.subR r) = (1, 0) := rfl
@[simp] theorem Instr.fetches_subMemHl : Instr.fetches (.subMemHl) = (1, 0) := rfl
@[simp] theorem Instr.fetches_sbcAR (r : Reg8) : Instr.fetches (.sbcAR r) = (1, 0) := rfl
@[simp] theorem Instr.fetches_sbcAMemHl : Instr.fetches (.sbcAMemHl) = (1, 0) := rfl
@[simp] theorem Instr.fetches_andR (r : Reg8) : Instr.fetches (.andR r) = (1, 0) := rfl
@[simp] theorem Instr.fetches_andMemHl : Instr.fetches (.andMemHl) = (1, 0) := rfl
@[simp] theorem Instr.fetches_xorR (r : Reg8) : Instr.fetches (.xorR r) = (1, 0) := rfl
@[simp] theorem Instr.fetches_xorMemHl : Instr.fetches (.xorMemHl) = (1, 0) := rfl
@[simp] theorem Instr.fetches_orR (r : Reg8) : Instr.fetches (.orR r) = (1, 0) := rfl
@[simp] theorem Instr.fetches_orMemHl : Instr.fetches (.orMemHl) = (1, 0) := rfl
@[simp] theorem Instr.fetches_cpR (r : Reg8) : Instr.fetches (.cpR r) = (1, 0) := rfl
@[simp] theorem Instr.fetches_cpMemHl : Instr.fetches (.cpMemHl) = (1, 0) := rfl
@[simp] theorem Instr.fetches_retCc (cc : Cond) : Instr.fetches (.retCc cc) = (1, 0) := rfl
@[simp] theorem Instr.fetches_popQq (qq : StackPair) : Instr.fetches (.popQq qq) = (1, 0) := rfl
@[simp] theorem Instr.fetches_ret : Instr.fetches (.ret) = (1, 0) := rfl
@[simp] theorem Instr.fetches_exx : Instr.fetches (.exx) = (1, 0) := rfl
@[simp] theorem Instr.fetches_jpHl : Instr.fetches (.jpHl) = (1, 0) := rfl
@[simp] theorem Instr.fetches_ldSpHl : Instr.fetches (.ldSpHl) = (1, 0) := rfl
@[simp] theorem Instr.fetches_jpCcNn (cc : Cond) (nn : Word) : Instr.fetches (.jpCcNn cc nn) = (1, 2) := rfl
@[simp] theorem Instr.fetches_jpNn (nn : Word) : Instr.fetches (.jpNn nn) = (1, 2) := rfl
@[simp] theorem Instr.fetches_prefixCb : Instr.fetches (.prefixCb) = (1, 0) := rfl
@[simp] theorem Instr.fetches_outNA (n : Byte) : Instr.fetches (.outNA n) = (1, 1) := rfl
@[simp] theorem Instr.fetches_inAN (n : Byte) : Instr.fetches (.inAN n) = (1, 1) := rfl
@[simp] theorem Instr.fetches_exMemSpHl : Instr.fetches (.exMemSpHl) = (1, 0) := rfl
@[simp] theorem Instr.fetches_exDeHl : Instr.fetches (.exDeHl) = (1, 0) := rfl
@[simp] theorem Instr.fetches_di : Instr.fetches (.di) = (1, 0) := rfl
@[simp] theorem Instr.fetches_ei : Instr.fetches (.ei) = (1, 0) := rfl
@[simp] theorem Instr.fetches_callCcNn (cc : Cond) (nn : Word) : Instr.fetches (.callCcNn cc nn) = (1, 2) := rfl
@[simp] theorem Instr.fetches_pushQq (qq : StackPair) : Instr.fetches (.pushQq qq) = (1, 0) := rfl
@[simp] theorem Instr.fetches_callNn (nn : Word) : Instr.fetches (.callNn nn) = (1, 2) := rfl
@[simp] theorem Instr.fetches_prefixDd : Instr.fetches (.prefixDd) = (1, 0) := rfl
@[simp] theorem Instr.fetches_prefixEd : Instr.fetches (.prefixEd) = (1, 0) := rfl
@[simp] theorem Instr.fetches_prefixFd : Instr.fetches (.prefixFd) = (1, 0) := rfl
@[simp] theorem Instr.fetches_addAN (n : Byte) : Instr.fetches (.addAN n) = (1, 1) := rfl
@[simp] theorem Instr.fetches_adcAN (n : Byte) : Instr.fetches (.adcAN n) = (1, 1) := rfl
@[simp] theorem Instr.fetches_subN (n : Byte) : Instr.fetches (.subN n) = (1, 1) := rfl
@[simp] theorem Instr.fetches_sbcAN (n : Byte) : Instr.fetches (.sbcAN n) = (1, 1) := rfl
@[simp] theorem Instr.fetches_andN (n : Byte) : Instr.fetches (.andN n) = (1, 1) := rfl
@[simp] theorem Instr.fetches_xorN (n : Byte) : Instr.fetches (.xorN n) = (1, 1) := rfl
@[simp] theorem Instr.fetches_orN (n : Byte) : Instr.fetches (.orN n) = (1, 1) := rfl
@[simp] theorem Instr.fetches_cpN (n : Byte) : Instr.fetches (.cpN n) = (1, 1) := rfl
@[simp] theorem Instr.fetches_rstP (p : BitVec 3) : Instr.fetches (.rstP p) = (1, 0) := rfl
@[simp] theorem Instr.fetches_rlcR (r : Reg8) : Instr.fetches (.rlcR r) = (2, 0) := rfl
@[simp] theorem Instr.fetches_rlcMemHl : Instr.fetches (.rlcMemHl) = (2, 0) := rfl
@[simp] theorem Instr.fetches_rrcR (r : Reg8) : Instr.fetches (.rrcR r) = (2, 0) := rfl
@[simp] theorem Instr.fetches_rrcMemHl : Instr.fetches (.rrcMemHl) = (2, 0) := rfl
@[simp] theorem Instr.fetches_rlR (r : Reg8) : Instr.fetches (.rlR r) = (2, 0) := rfl
@[simp] theorem Instr.fetches_rlMemHl : Instr.fetches (.rlMemHl) = (2, 0) := rfl
@[simp] theorem Instr.fetches_rrR (r : Reg8) : Instr.fetches (.rrR r) = (2, 0) := rfl
@[simp] theorem Instr.fetches_rrMemHl : Instr.fetches (.rrMemHl) = (2, 0) := rfl
@[simp] theorem Instr.fetches_slaR (r : Reg8) : Instr.fetches (.slaR r) = (2, 0) := rfl
@[simp] theorem Instr.fetches_slaMemHl : Instr.fetches (.slaMemHl) = (2, 0) := rfl
@[simp] theorem Instr.fetches_sraR (r : Reg8) : Instr.fetches (.sraR r) = (2, 0) := rfl
@[simp] theorem Instr.fetches_sraMemHl : Instr.fetches (.sraMemHl) = (2, 0) := rfl
@[simp] theorem Instr.fetches_sllR (r : Reg8) : Instr.fetches (.sllR r) = (2, 0) := rfl
@[simp] theorem Instr.fetches_sllMemHl : Instr.fetches (.sllMemHl) = (2, 0) := rfl
@[simp] theorem Instr.fetches_srlR (r : Reg8) : Instr.fetches (.srlR r) = (2, 0) := rfl
@[simp] theorem Instr.fetches_srlMemHl : Instr.fetches (.srlMemHl) = (2, 0) := rfl
@[simp] theorem Instr.fetches_bitBR (bit : BitVec 3) (r : Reg8) : Instr.fetches (.bitBR bit r) = (2, 0) := rfl
@[simp] theorem Instr.fetches_bitBMemHl (bit : BitVec 3) : Instr.fetches (.bitBMemHl bit) = (2, 0) := rfl
@[simp] theorem Instr.fetches_resBR (bit : BitVec 3) (r : Reg8) : Instr.fetches (.resBR bit r) = (2, 0) := rfl
@[simp] theorem Instr.fetches_resBMemHl (bit : BitVec 3) : Instr.fetches (.resBMemHl bit) = (2, 0) := rfl
@[simp] theorem Instr.fetches_setBR (bit : BitVec 3) (r : Reg8) : Instr.fetches (.setBR bit r) = (2, 0) := rfl
@[simp] theorem Instr.fetches_setBMemHl (bit : BitVec 3) : Instr.fetches (.setBMemHl bit) = (2, 0) := rfl
@[simp] theorem Instr.fetches_edNop0 (yz : BitVec 6) : Instr.fetches (.edNop0 yz) = (2, 0) := rfl
@[simp] theorem Instr.fetches_inRC (r : Reg8) : Instr.fetches (.inRC r) = (2, 0) := rfl
@[simp] theorem Instr.fetches_inFC : Instr.fetches (.inFC) = (2, 0) := rfl
@[simp] theorem Instr.fetches_outCR (r : Reg8) : Instr.fetches (.outCR r) = (2, 0) := rfl
@[simp] theorem Instr.fetches_outC0 : Instr.fetches (.outC0) = (2, 0) := rfl
@[simp] theorem Instr.fetches_sbcHlSs (ss : Pair) : Instr.fetches (.sbcHlSs ss) = (2, 0) := rfl
@[simp] theorem Instr.fetches_adcHlSs (ss : Pair) : Instr.fetches (.adcHlSs ss) = (2, 0) := rfl
@[simp] theorem Instr.fetches_ldMemNnDd (nn : Word) (dd : Pair) : Instr.fetches (.ldMemNnDd nn dd) = (2, 2) := rfl
@[simp] theorem Instr.fetches_ldDdMemNn (dd : Pair) (nn : Word) : Instr.fetches (.ldDdMemNn dd nn) = (2, 2) := rfl
@[simp] theorem Instr.fetches_neg (y : BitVec 3) : Instr.fetches (.neg y) = (2, 0) := rfl
@[simp] theorem Instr.fetches_retn (y : BitVec 3) : Instr.fetches (.retn y) = (2, 0) := rfl
@[simp] theorem Instr.fetches_reti : Instr.fetches (.reti) = (2, 0) := rfl
@[simp] theorem Instr.fetches_imN (y : BitVec 3) : Instr.fetches (.imN y) = (2, 0) := rfl
@[simp] theorem Instr.fetches_ldIA : Instr.fetches (.ldIA) = (2, 0) := rfl
@[simp] theorem Instr.fetches_ldRfA : Instr.fetches (.ldRfA) = (2, 0) := rfl
@[simp] theorem Instr.fetches_ldAI : Instr.fetches (.ldAI) = (2, 0) := rfl
@[simp] theorem Instr.fetches_ldARf : Instr.fetches (.ldARf) = (2, 0) := rfl
@[simp] theorem Instr.fetches_rrd : Instr.fetches (.rrd) = (2, 0) := rfl
@[simp] theorem Instr.fetches_rld : Instr.fetches (.rld) = (2, 0) := rfl
@[simp] theorem Instr.fetches_edNop7 (q : BitVec 1) : Instr.fetches (.edNop7 q) = (2, 0) := rfl
@[simp] theorem Instr.fetches_edNop8 (yz : BitVec 5) : Instr.fetches (.edNop8 yz) = (2, 0) := rfl
@[simp] theorem Instr.fetches_ldi : Instr.fetches (.ldi) = (2, 0) := rfl
@[simp] theorem Instr.fetches_cpi : Instr.fetches (.cpi) = (2, 0) := rfl
@[simp] theorem Instr.fetches_ini : Instr.fetches (.ini) = (2, 0) := rfl
@[simp] theorem Instr.fetches_outi : Instr.fetches (.outi) = (2, 0) := rfl
@[simp] theorem Instr.fetches_ldd : Instr.fetches (.ldd) = (2, 0) := rfl
@[simp] theorem Instr.fetches_cpd : Instr.fetches (.cpd) = (2, 0) := rfl
@[simp] theorem Instr.fetches_ind : Instr.fetches (.ind) = (2, 0) := rfl
@[simp] theorem Instr.fetches_outd : Instr.fetches (.outd) = (2, 0) := rfl
@[simp] theorem Instr.fetches_ldir : Instr.fetches (.ldir) = (2, 0) := rfl
@[simp] theorem Instr.fetches_cpir : Instr.fetches (.cpir) = (2, 0) := rfl
@[simp] theorem Instr.fetches_inir : Instr.fetches (.inir) = (2, 0) := rfl
@[simp] theorem Instr.fetches_otir : Instr.fetches (.otir) = (2, 0) := rfl
@[simp] theorem Instr.fetches_lddr : Instr.fetches (.lddr) = (2, 0) := rfl
@[simp] theorem Instr.fetches_cpdr : Instr.fetches (.cpdr) = (2, 0) := rfl
@[simp] theorem Instr.fetches_indr : Instr.fetches (.indr) = (2, 0) := rfl
@[simp] theorem Instr.fetches_otdr : Instr.fetches (.otdr) = (2, 0) := rfl
@[simp] theorem Instr.fetches_edNopA (y : BitVec 2) (z : BitVec 2) : Instr.fetches (.edNopA y z) = (2, 0) := rfl
@[simp] theorem Instr.fetches_edNopC (yz : BitVec 6) : Instr.fetches (.edNopC yz) = (2, 0) := rfl
@[simp] theorem Instr.fetches_addXyPp (xy : Index) (pp : XPair) : Instr.fetches (.addXyPp xy pp) = (2, 0) := rfl
@[simp] theorem Instr.fetches_ldXyNn (xy : Index) (nn : Word) : Instr.fetches (.ldXyNn xy nn) = (2, 2) := rfl
@[simp] theorem Instr.fetches_ldMemNnXy (xy : Index) (nn : Word) : Instr.fetches (.ldMemNnXy xy nn) = (2, 2) := rfl
@[simp] theorem Instr.fetches_incXy (xy : Index) : Instr.fetches (.incXy xy) = (2, 0) := rfl
@[simp] theorem Instr.fetches_incP (xy : Index) (p : Half) : Instr.fetches (.incP xy p) = (2, 0) := rfl
@[simp] theorem Instr.fetches_decP (xy : Index) (p : Half) : Instr.fetches (.decP xy p) = (2, 0) := rfl
@[simp] theorem Instr.fetches_ldPN (xy : Index) (p : Half) (n : Byte) : Instr.fetches (.ldPN xy p n) = (2, 1) := rfl
@[simp] theorem Instr.fetches_ldXyMemNn (xy : Index) (nn : Word) : Instr.fetches (.ldXyMemNn xy nn) = (2, 2) := rfl
@[simp] theorem Instr.fetches_decXy (xy : Index) : Instr.fetches (.decXy xy) = (2, 0) := rfl
@[simp] theorem Instr.fetches_incMemXyd (xy : Index) (d : Byte) : Instr.fetches (.incMemXyd xy d) = (2, 1) := rfl
@[simp] theorem Instr.fetches_decMemXyd (xy : Index) (d : Byte) : Instr.fetches (.decMemXyd xy d) = (2, 1) := rfl
@[simp] theorem Instr.fetches_ldMemXydN (xy : Index) (d : Byte) (n : Byte) : Instr.fetches (.ldMemXydN xy d n) = (2, 2) := rfl
@[simp] theorem Instr.fetches_ldRMemXyd (xy : Index) (r : Reg8) (d : Byte) : Instr.fetches (.ldRMemXyd xy r d) = (2, 1) := rfl
@[simp] theorem Instr.fetches_ldMemXydR (xy : Index) (d : Byte) (r : Reg8) : Instr.fetches (.ldMemXydR xy d r) = (2, 1) := rfl
@[simp] theorem Instr.fetches_ldPP (xy : Index) (dst : XReg8) (src : XReg8) : Instr.fetches (.ldPP xy dst src) = (2, 0) := rfl
@[simp] theorem Instr.fetches_addAP (xy : Index) (p : Half) : Instr.fetches (.addAP xy p) = (2, 0) := rfl
@[simp] theorem Instr.fetches_addAMemXyd (xy : Index) (d : Byte) : Instr.fetches (.addAMemXyd xy d) = (2, 1) := rfl
@[simp] theorem Instr.fetches_adcAP (xy : Index) (p : Half) : Instr.fetches (.adcAP xy p) = (2, 0) := rfl
@[simp] theorem Instr.fetches_adcAMemXyd (xy : Index) (d : Byte) : Instr.fetches (.adcAMemXyd xy d) = (2, 1) := rfl
@[simp] theorem Instr.fetches_subP (xy : Index) (p : Half) : Instr.fetches (.subP xy p) = (2, 0) := rfl
@[simp] theorem Instr.fetches_subMemXyd (xy : Index) (d : Byte) : Instr.fetches (.subMemXyd xy d) = (2, 1) := rfl
@[simp] theorem Instr.fetches_sbcAP (xy : Index) (p : Half) : Instr.fetches (.sbcAP xy p) = (2, 0) := rfl
@[simp] theorem Instr.fetches_sbcAMemXyd (xy : Index) (d : Byte) : Instr.fetches (.sbcAMemXyd xy d) = (2, 1) := rfl
@[simp] theorem Instr.fetches_andP (xy : Index) (p : Half) : Instr.fetches (.andP xy p) = (2, 0) := rfl
@[simp] theorem Instr.fetches_andMemXyd (xy : Index) (d : Byte) : Instr.fetches (.andMemXyd xy d) = (2, 1) := rfl
@[simp] theorem Instr.fetches_xorP (xy : Index) (p : Half) : Instr.fetches (.xorP xy p) = (2, 0) := rfl
@[simp] theorem Instr.fetches_xorMemXyd (xy : Index) (d : Byte) : Instr.fetches (.xorMemXyd xy d) = (2, 1) := rfl
@[simp] theorem Instr.fetches_orP (xy : Index) (p : Half) : Instr.fetches (.orP xy p) = (2, 0) := rfl
@[simp] theorem Instr.fetches_orMemXyd (xy : Index) (d : Byte) : Instr.fetches (.orMemXyd xy d) = (2, 1) := rfl
@[simp] theorem Instr.fetches_cpP (xy : Index) (p : Half) : Instr.fetches (.cpP xy p) = (2, 0) := rfl
@[simp] theorem Instr.fetches_cpMemXyd (xy : Index) (d : Byte) : Instr.fetches (.cpMemXyd xy d) = (2, 1) := rfl
@[simp] theorem Instr.fetches_prefixXyCb (xy : Index) : Instr.fetches (.prefixXyCb xy) = (2, 0) := rfl
@[simp] theorem Instr.fetches_repeatedPrefixDd (xy : Index) : Instr.fetches (.repeatedPrefixDd xy) = (2, 0) := rfl
@[simp] theorem Instr.fetches_prefixEdAfterXy (xy : Index) (inner : Instr) : Instr.fetches (.prefixEdAfterXy xy inner) = (1 + inner.fetches.1, inner.fetches.2) := rfl
@[simp] theorem Instr.fetches_repeatedPrefixFd (xy : Index) : Instr.fetches (.repeatedPrefixFd xy) = (2, 0) := rfl
@[simp] theorem Instr.fetches_popXy (xy : Index) : Instr.fetches (.popXy xy) = (2, 0) := rfl
@[simp] theorem Instr.fetches_exMemSpXy (xy : Index) : Instr.fetches (.exMemSpXy xy) = (2, 0) := rfl
@[simp] theorem Instr.fetches_pushXy (xy : Index) : Instr.fetches (.pushXy xy) = (2, 0) := rfl
@[simp] theorem Instr.fetches_jpXy (xy : Index) : Instr.fetches (.jpXy xy) = (2, 0) := rfl
@[simp] theorem Instr.fetches_ldSpXy (xy : Index) : Instr.fetches (.ldSpXy xy) = (2, 0) := rfl
@[simp] theorem Instr.fetches_rlcMemXyd (xy : Index) (d : Byte) : Instr.fetches (.rlcMemXyd xy d) = (2, 2) := rfl
@[simp] theorem Instr.fetches_rlcMemXydR (xy : Index) (d : Byte) (r : Reg8) : Instr.fetches (.rlcMemXydR xy d r) = (2, 2) := rfl
@[simp] theorem Instr.fetches_rrcMemXyd (xy : Index) (d : Byte) : Instr.fetches (.rrcMemXyd xy d) = (2, 2) := rfl
@[simp] theorem Instr.fetches_rrcMemXydR (xy : Index) (d : Byte) (r : Reg8) : Instr.fetches (.rrcMemXydR xy d r) = (2, 2) := rfl
@[simp] theorem Instr.fetches_rlMemXyd (xy : Index) (d : Byte) : Instr.fetches (.rlMemXyd xy d) = (2, 2) := rfl
@[simp] theorem Instr.fetches_rlMemXydR (xy : Index) (d : Byte) (r : Reg8) : Instr.fetches (.rlMemXydR xy d r) = (2, 2) := rfl
@[simp] theorem Instr.fetches_rrMemXyd (xy : Index) (d : Byte) : Instr.fetches (.rrMemXyd xy d) = (2, 2) := rfl
@[simp] theorem Instr.fetches_rrMemXydR (xy : Index) (d : Byte) (r : Reg8) : Instr.fetches (.rrMemXydR xy d r) = (2, 2) := rfl
@[simp] theorem Instr.fetches_slaMemXyd (xy : Index) (d : Byte) : Instr.fetches (.slaMemXyd xy d) = (2, 2) := rfl
@[simp] theorem Instr.fetches_slaMemXydR (xy : Index) (d : Byte) (r : Reg8) : Instr.fetches (.slaMemXydR xy d r) = (2, 2) := rfl
@[simp] theorem Instr.fetches_sraMemXyd (xy : Index) (d : Byte) : Instr.fetches (.sraMemXyd xy d) = (2, 2) := rfl
@[simp] theorem Instr.fetches_sraMemXydR (xy : Index) (d : Byte) (r : Reg8) : Instr.fetches (.sraMemXydR xy d r) = (2, 2) := rfl
@[simp] theorem Instr.fetches_sllMemXyd (xy : Index) (d : Byte) : Instr.fetches (.sllMemXyd xy d) = (2, 2) := rfl
@[simp] theorem Instr.fetches_sllMemXydR (xy : Index) (d : Byte) (r : Reg8) : Instr.fetches (.sllMemXydR xy d r) = (2, 2) := rfl
@[simp] theorem Instr.fetches_srlMemXyd (xy : Index) (d : Byte) : Instr.fetches (.srlMemXyd xy d) = (2, 2) := rfl
@[simp] theorem Instr.fetches_srlMemXydR (xy : Index) (d : Byte) (r : Reg8) : Instr.fetches (.srlMemXydR xy d r) = (2, 2) := rfl
@[simp] theorem Instr.fetches_bitBMemXyd (xy : Index) (d : Byte) (bit : BitVec 3) (z : BitVec 3) : Instr.fetches (.bitBMemXyd xy d bit z) = (2, 2) := rfl
@[simp] theorem Instr.fetches_resBMemXyd (xy : Index) (d : Byte) (bit : BitVec 3) : Instr.fetches (.resBMemXyd xy d bit) = (2, 2) := rfl
@[simp] theorem Instr.fetches_resBMemXydR (xy : Index) (d : Byte) (bit : BitVec 3) (r : Reg8) : Instr.fetches (.resBMemXydR xy d bit r) = (2, 2) := rfl
@[simp] theorem Instr.fetches_setBMemXyd (xy : Index) (d : Byte) (bit : BitVec 3) : Instr.fetches (.setBMemXyd xy d bit) = (2, 2) := rfl
@[simp] theorem Instr.fetches_setBMemXydR (xy : Index) (d : Byte) (bit : BitVec 3) (r : Reg8) : Instr.fetches (.setBMemXydR xy d bit r) = (2, 2) := rfl
@[simp] theorem Instr.fetches_asMainSpace (xy : Index) (inner : Instr) : Instr.fetches (.asMainSpace xy inner) = (1 + inner.fetches.1, inner.fetches.2) := rfl

/-! ### `Instr.entry` -/

@[simp] theorem Instr.entry_nop : Instr.entry (.nop) = .nop := rfl
@[simp] theorem Instr.entry_exAfAf : Instr.entry (.exAfAf) = .exAfAf := rfl
@[simp] theorem Instr.entry_djnzE (e : Byte) : Instr.entry (.djnzE e) = .djnzE e := rfl
@[simp] theorem Instr.entry_jrE (e : Byte) : Instr.entry (.jrE e) = .jrE e := rfl
@[simp] theorem Instr.entry_jrCcE (cc : Cond) (e : Byte) : Instr.entry (.jrCcE cc e) = .jrCcE cc e := rfl
@[simp] theorem Instr.entry_ldDdNn (dd : Pair) (nn : Word) : Instr.entry (.ldDdNn dd nn) = .ldDdNn dd nn := rfl
@[simp] theorem Instr.entry_addHlSs (ss : Pair) : Instr.entry (.addHlSs ss) = .addHlSs ss := rfl
@[simp] theorem Instr.entry_ldMemBcA : Instr.entry (.ldMemBcA) = .ldMemBcA := rfl
@[simp] theorem Instr.entry_ldMemDeA : Instr.entry (.ldMemDeA) = .ldMemDeA := rfl
@[simp] theorem Instr.entry_ldMemNnHl (nn : Word) : Instr.entry (.ldMemNnHl nn) = .ldMemNnHl nn := rfl
@[simp] theorem Instr.entry_ldMemNnA (nn : Word) : Instr.entry (.ldMemNnA nn) = .ldMemNnA nn := rfl
@[simp] theorem Instr.entry_ldAMemBc : Instr.entry (.ldAMemBc) = .ldAMemBc := rfl
@[simp] theorem Instr.entry_ldAMemDe : Instr.entry (.ldAMemDe) = .ldAMemDe := rfl
@[simp] theorem Instr.entry_ldHlMemNn (nn : Word) : Instr.entry (.ldHlMemNn nn) = .ldHlMemNn nn := rfl
@[simp] theorem Instr.entry_ldAMemNn (nn : Word) : Instr.entry (.ldAMemNn nn) = .ldAMemNn nn := rfl
@[simp] theorem Instr.entry_incSs (ss : Pair) : Instr.entry (.incSs ss) = .incSs ss := rfl
@[simp] theorem Instr.entry_decSs (ss : Pair) : Instr.entry (.decSs ss) = .decSs ss := rfl
@[simp] theorem Instr.entry_incR (r : Reg8) : Instr.entry (.incR r) = .incR r := rfl
@[simp] theorem Instr.entry_incMemHl : Instr.entry (.incMemHl) = .incMemHl := rfl
@[simp] theorem Instr.entry_decR (r : Reg8) : Instr.entry (.decR r) = .decR r := rfl
@[simp] theorem Instr.entry_decMemHl : Instr.entry (.decMemHl) = .decMemHl := rfl
@[simp] theorem Instr.entry_ldRN (r : Reg8) (n : Byte) : Instr.entry (.ldRN r n) = .ldRN r n := rfl
@[simp] theorem Instr.entry_ldMemHlN (n : Byte) : Instr.entry (.ldMemHlN n) = .ldMemHlN n := rfl
@[simp] theorem Instr.entry_rlca : Instr.entry (.rlca) = .rlca := rfl
@[simp] theorem Instr.entry_rrca : Instr.entry (.rrca) = .rrca := rfl
@[simp] theorem Instr.entry_rla : Instr.entry (.rla) = .rla := rfl
@[simp] theorem Instr.entry_rra : Instr.entry (.rra) = .rra := rfl
@[simp] theorem Instr.entry_daa : Instr.entry (.daa) = .daa := rfl
@[simp] theorem Instr.entry_cpl : Instr.entry (.cpl) = .cpl := rfl
@[simp] theorem Instr.entry_scf : Instr.entry (.scf) = .scf := rfl
@[simp] theorem Instr.entry_ccf : Instr.entry (.ccf) = .ccf := rfl
@[simp] theorem Instr.entry_ldRR (dst : Reg8) (src : Reg8) : Instr.entry (.ldRR dst src) = .ldRR dst src := rfl
@[simp] theorem Instr.entry_ldRMemHl (r : Reg8) : Instr.entry (.ldRMemHl r) = .ldRMemHl r := rfl
@[simp] theorem Instr.entry_ldMemHlR (r : Reg8) : Instr.entry (.ldMemHlR r) = .ldMemHlR r := rfl
@[simp] theorem Instr.entry_halt : Instr.entry (.halt) = .halt := rfl
@[simp] theorem Instr.entry_addAR (r : Reg8) : Instr.entry (.addAR r) = .addAR r := rfl
@[simp] theorem Instr.entry_addAMemHl : Instr.entry (.addAMemHl) = .addAMemHl := rfl
@[simp] theorem Instr.entry_adcAR (r : Reg8) : Instr.entry (.adcAR r) = .adcAR r := rfl
@[simp] theorem Instr.entry_adcAMemHl : Instr.entry (.adcAMemHl) = .adcAMemHl := rfl
@[simp] theorem Instr.entry_subR (r : Reg8) : Instr.entry (.subR r) = .subR r := rfl
@[simp] theorem Instr.entry_subMemHl : Instr.entry (.subMemHl) = .subMemHl := rfl
@[simp] theorem Instr.entry_sbcAR (r : Reg8) : Instr.entry (.sbcAR r) = .sbcAR r := rfl
@[simp] theorem Instr.entry_sbcAMemHl : Instr.entry (.sbcAMemHl) = .sbcAMemHl := rfl
@[simp] theorem Instr.entry_andR (r : Reg8) : Instr.entry (.andR r) = .andR r := rfl
@[simp] theorem Instr.entry_andMemHl : Instr.entry (.andMemHl) = .andMemHl := rfl
@[simp] theorem Instr.entry_xorR (r : Reg8) : Instr.entry (.xorR r) = .xorR r := rfl
@[simp] theorem Instr.entry_xorMemHl : Instr.entry (.xorMemHl) = .xorMemHl := rfl
@[simp] theorem Instr.entry_orR (r : Reg8) : Instr.entry (.orR r) = .orR r := rfl
@[simp] theorem Instr.entry_orMemHl : Instr.entry (.orMemHl) = .orMemHl := rfl
@[simp] theorem Instr.entry_cpR (r : Reg8) : Instr.entry (.cpR r) = .cpR r := rfl
@[simp] theorem Instr.entry_cpMemHl : Instr.entry (.cpMemHl) = .cpMemHl := rfl
@[simp] theorem Instr.entry_retCc (cc : Cond) : Instr.entry (.retCc cc) = .retCc cc := rfl
@[simp] theorem Instr.entry_popQq (qq : StackPair) : Instr.entry (.popQq qq) = .popQq qq := rfl
@[simp] theorem Instr.entry_ret : Instr.entry (.ret) = .ret := rfl
@[simp] theorem Instr.entry_exx : Instr.entry (.exx) = .exx := rfl
@[simp] theorem Instr.entry_jpHl : Instr.entry (.jpHl) = .jpHl := rfl
@[simp] theorem Instr.entry_ldSpHl : Instr.entry (.ldSpHl) = .ldSpHl := rfl
@[simp] theorem Instr.entry_jpCcNn (cc : Cond) (nn : Word) : Instr.entry (.jpCcNn cc nn) = .jpCcNn cc nn := rfl
@[simp] theorem Instr.entry_jpNn (nn : Word) : Instr.entry (.jpNn nn) = .jpNn nn := rfl
@[simp] theorem Instr.entry_prefixCb : Instr.entry (.prefixCb) = .prefixCb := rfl
@[simp] theorem Instr.entry_outNA (n : Byte) : Instr.entry (.outNA n) = .outNA n := rfl
@[simp] theorem Instr.entry_inAN (n : Byte) : Instr.entry (.inAN n) = .inAN n := rfl
@[simp] theorem Instr.entry_exMemSpHl : Instr.entry (.exMemSpHl) = .exMemSpHl := rfl
@[simp] theorem Instr.entry_exDeHl : Instr.entry (.exDeHl) = .exDeHl := rfl
@[simp] theorem Instr.entry_di : Instr.entry (.di) = .di := rfl
@[simp] theorem Instr.entry_ei : Instr.entry (.ei) = .ei := rfl
@[simp] theorem Instr.entry_callCcNn (cc : Cond) (nn : Word) : Instr.entry (.callCcNn cc nn) = .callCcNn cc nn := rfl
@[simp] theorem Instr.entry_pushQq (qq : StackPair) : Instr.entry (.pushQq qq) = .pushQq qq := rfl
@[simp] theorem Instr.entry_callNn (nn : Word) : Instr.entry (.callNn nn) = .callNn nn := rfl
@[simp] theorem Instr.entry_prefixDd : Instr.entry (.prefixDd) = .prefixDd := rfl
@[simp] theorem Instr.entry_prefixEd : Instr.entry (.prefixEd) = .prefixEd := rfl
@[simp] theorem Instr.entry_prefixFd : Instr.entry (.prefixFd) = .prefixFd := rfl
@[simp] theorem Instr.entry_addAN (n : Byte) : Instr.entry (.addAN n) = .addAN n := rfl
@[simp] theorem Instr.entry_adcAN (n : Byte) : Instr.entry (.adcAN n) = .adcAN n := rfl
@[simp] theorem Instr.entry_subN (n : Byte) : Instr.entry (.subN n) = .subN n := rfl
@[simp] theorem Instr.entry_sbcAN (n : Byte) : Instr.entry (.sbcAN n) = .sbcAN n := rfl
@[simp] theorem Instr.entry_andN (n : Byte) : Instr.entry (.andN n) = .andN n := rfl
@[simp] theorem Instr.entry_xorN (n : Byte) : Instr.entry (.xorN n) = .xorN n := rfl
@[simp] theorem Instr.entry_orN (n : Byte) : Instr.entry (.orN n) = .orN n := rfl
@[simp] theorem Instr.entry_cpN (n : Byte) : Instr.entry (.cpN n) = .cpN n := rfl
@[simp] theorem Instr.entry_rstP (p : BitVec 3) : Instr.entry (.rstP p) = .rstP p := rfl
@[simp] theorem Instr.entry_rlcR (r : Reg8) : Instr.entry (.rlcR r) = .rlcR r := rfl
@[simp] theorem Instr.entry_rlcMemHl : Instr.entry (.rlcMemHl) = .rlcMemHl := rfl
@[simp] theorem Instr.entry_rrcR (r : Reg8) : Instr.entry (.rrcR r) = .rrcR r := rfl
@[simp] theorem Instr.entry_rrcMemHl : Instr.entry (.rrcMemHl) = .rrcMemHl := rfl
@[simp] theorem Instr.entry_rlR (r : Reg8) : Instr.entry (.rlR r) = .rlR r := rfl
@[simp] theorem Instr.entry_rlMemHl : Instr.entry (.rlMemHl) = .rlMemHl := rfl
@[simp] theorem Instr.entry_rrR (r : Reg8) : Instr.entry (.rrR r) = .rrR r := rfl
@[simp] theorem Instr.entry_rrMemHl : Instr.entry (.rrMemHl) = .rrMemHl := rfl
@[simp] theorem Instr.entry_slaR (r : Reg8) : Instr.entry (.slaR r) = .slaR r := rfl
@[simp] theorem Instr.entry_slaMemHl : Instr.entry (.slaMemHl) = .slaMemHl := rfl
@[simp] theorem Instr.entry_sraR (r : Reg8) : Instr.entry (.sraR r) = .sraR r := rfl
@[simp] theorem Instr.entry_sraMemHl : Instr.entry (.sraMemHl) = .sraMemHl := rfl
@[simp] theorem Instr.entry_sllR (r : Reg8) : Instr.entry (.sllR r) = .sllR r := rfl
@[simp] theorem Instr.entry_sllMemHl : Instr.entry (.sllMemHl) = .sllMemHl := rfl
@[simp] theorem Instr.entry_srlR (r : Reg8) : Instr.entry (.srlR r) = .srlR r := rfl
@[simp] theorem Instr.entry_srlMemHl : Instr.entry (.srlMemHl) = .srlMemHl := rfl
@[simp] theorem Instr.entry_bitBR (bit : BitVec 3) (r : Reg8) : Instr.entry (.bitBR bit r) = .bitBR bit r := rfl
@[simp] theorem Instr.entry_bitBMemHl (bit : BitVec 3) : Instr.entry (.bitBMemHl bit) = .bitBMemHl bit := rfl
@[simp] theorem Instr.entry_resBR (bit : BitVec 3) (r : Reg8) : Instr.entry (.resBR bit r) = .resBR bit r := rfl
@[simp] theorem Instr.entry_resBMemHl (bit : BitVec 3) : Instr.entry (.resBMemHl bit) = .resBMemHl bit := rfl
@[simp] theorem Instr.entry_setBR (bit : BitVec 3) (r : Reg8) : Instr.entry (.setBR bit r) = .setBR bit r := rfl
@[simp] theorem Instr.entry_setBMemHl (bit : BitVec 3) : Instr.entry (.setBMemHl bit) = .setBMemHl bit := rfl
@[simp] theorem Instr.entry_edNop0 (yz : BitVec 6) : Instr.entry (.edNop0 yz) = .edNop0 yz := rfl
@[simp] theorem Instr.entry_inRC (r : Reg8) : Instr.entry (.inRC r) = .inRC r := rfl
@[simp] theorem Instr.entry_inFC : Instr.entry (.inFC) = .inFC := rfl
@[simp] theorem Instr.entry_outCR (r : Reg8) : Instr.entry (.outCR r) = .outCR r := rfl
@[simp] theorem Instr.entry_outC0 : Instr.entry (.outC0) = .outC0 := rfl
@[simp] theorem Instr.entry_sbcHlSs (ss : Pair) : Instr.entry (.sbcHlSs ss) = .sbcHlSs ss := rfl
@[simp] theorem Instr.entry_adcHlSs (ss : Pair) : Instr.entry (.adcHlSs ss) = .adcHlSs ss := rfl
@[simp] theorem Instr.entry_ldMemNnDd (nn : Word) (dd : Pair) : Instr.entry (.ldMemNnDd nn dd) = .ldMemNnDd nn dd := rfl
@[simp] theorem Instr.entry_ldDdMemNn (dd : Pair) (nn : Word) : Instr.entry (.ldDdMemNn dd nn) = .ldDdMemNn dd nn := rfl
@[simp] theorem Instr.entry_neg (y : BitVec 3) : Instr.entry (.neg y) = .neg y := rfl
@[simp] theorem Instr.entry_retn (y : BitVec 3) : Instr.entry (.retn y) = .retn y := rfl
@[simp] theorem Instr.entry_reti : Instr.entry (.reti) = .reti := rfl
@[simp] theorem Instr.entry_imN (y : BitVec 3) : Instr.entry (.imN y) = .imN y := rfl
@[simp] theorem Instr.entry_ldIA : Instr.entry (.ldIA) = .ldIA := rfl
@[simp] theorem Instr.entry_ldRfA : Instr.entry (.ldRfA) = .ldRfA := rfl
@[simp] theorem Instr.entry_ldAI : Instr.entry (.ldAI) = .ldAI := rfl
@[simp] theorem Instr.entry_ldARf : Instr.entry (.ldARf) = .ldARf := rfl
@[simp] theorem Instr.entry_rrd : Instr.entry (.rrd) = .rrd := rfl
@[simp] theorem Instr.entry_rld : Instr.entry (.rld) = .rld := rfl
@[simp] theorem Instr.entry_edNop7 (q : BitVec 1) : Instr.entry (.edNop7 q) = .edNop7 q := rfl
@[simp] theorem Instr.entry_edNop8 (yz : BitVec 5) : Instr.entry (.edNop8 yz) = .edNop8 yz := rfl
@[simp] theorem Instr.entry_ldi : Instr.entry (.ldi) = .ldi := rfl
@[simp] theorem Instr.entry_cpi : Instr.entry (.cpi) = .cpi := rfl
@[simp] theorem Instr.entry_ini : Instr.entry (.ini) = .ini := rfl
@[simp] theorem Instr.entry_outi : Instr.entry (.outi) = .outi := rfl
@[simp] theorem Instr.entry_ldd : Instr.entry (.ldd) = .ldd := rfl
@[simp] theorem Instr.entry_cpd : Instr.entry (.cpd) = .cpd := rfl
@[simp] theorem Instr.entry_ind : Instr.entry (.ind) = .ind := rfl
@[simp] theorem Instr.entry_outd : Instr.entry (.outd) = .outd := rfl
@[simp] theorem Instr.entry_ldir : Instr.entry (.ldir) = .ldir := rfl
@[simp] theorem Instr.entry_cpir : Instr.entry (.cpir) = .cpir := rfl
@[simp] theorem Instr.entry_inir : Instr.entry (.inir) = .inir := rfl
@[simp] theorem Instr.entry_otir : Instr.entry (.otir) = .otir := rfl
@[simp] theorem Instr.entry_lddr : Instr.entry (.lddr) = .lddr := rfl
@[simp] theorem Instr.entry_cpdr : Instr.entry (.cpdr) = .cpdr := rfl
@[simp] theorem Instr.entry_indr : Instr.entry (.indr) = .indr := rfl
@[simp] theorem Instr.entry_otdr : Instr.entry (.otdr) = .otdr := rfl
@[simp] theorem Instr.entry_edNopA (y : BitVec 2) (z : BitVec 2) : Instr.entry (.edNopA y z) = .edNopA y z := rfl
@[simp] theorem Instr.entry_edNopC (yz : BitVec 6) : Instr.entry (.edNopC yz) = .edNopC yz := rfl
@[simp] theorem Instr.entry_addXyPp (xy : Index) (pp : XPair) : Instr.entry (.addXyPp xy pp) = .addXyPp xy pp := rfl
@[simp] theorem Instr.entry_ldXyNn (xy : Index) (nn : Word) : Instr.entry (.ldXyNn xy nn) = .ldXyNn xy nn := rfl
@[simp] theorem Instr.entry_ldMemNnXy (xy : Index) (nn : Word) : Instr.entry (.ldMemNnXy xy nn) = .ldMemNnXy xy nn := rfl
@[simp] theorem Instr.entry_incXy (xy : Index) : Instr.entry (.incXy xy) = .incXy xy := rfl
@[simp] theorem Instr.entry_incP (xy : Index) (p : Half) : Instr.entry (.incP xy p) = .incP xy p := rfl
@[simp] theorem Instr.entry_decP (xy : Index) (p : Half) : Instr.entry (.decP xy p) = .decP xy p := rfl
@[simp] theorem Instr.entry_ldPN (xy : Index) (p : Half) (n : Byte) : Instr.entry (.ldPN xy p n) = .ldPN xy p n := rfl
@[simp] theorem Instr.entry_ldXyMemNn (xy : Index) (nn : Word) : Instr.entry (.ldXyMemNn xy nn) = .ldXyMemNn xy nn := rfl
@[simp] theorem Instr.entry_decXy (xy : Index) : Instr.entry (.decXy xy) = .decXy xy := rfl
@[simp] theorem Instr.entry_incMemXyd (xy : Index) (d : Byte) : Instr.entry (.incMemXyd xy d) = .incMemXyd xy d := rfl
@[simp] theorem Instr.entry_decMemXyd (xy : Index) (d : Byte) : Instr.entry (.decMemXyd xy d) = .decMemXyd xy d := rfl
@[simp] theorem Instr.entry_ldMemXydN (xy : Index) (d : Byte) (n : Byte) : Instr.entry (.ldMemXydN xy d n) = .ldMemXydN xy d n := rfl
@[simp] theorem Instr.entry_ldRMemXyd (xy : Index) (r : Reg8) (d : Byte) : Instr.entry (.ldRMemXyd xy r d) = .ldRMemXyd xy r d := rfl
@[simp] theorem Instr.entry_ldMemXydR (xy : Index) (d : Byte) (r : Reg8) : Instr.entry (.ldMemXydR xy d r) = .ldMemXydR xy d r := rfl
@[simp] theorem Instr.entry_ldPP (xy : Index) (dst : XReg8) (src : XReg8) : Instr.entry (.ldPP xy dst src) = .ldPP xy dst src := rfl
@[simp] theorem Instr.entry_addAP (xy : Index) (p : Half) : Instr.entry (.addAP xy p) = .addAP xy p := rfl
@[simp] theorem Instr.entry_addAMemXyd (xy : Index) (d : Byte) : Instr.entry (.addAMemXyd xy d) = .addAMemXyd xy d := rfl
@[simp] theorem Instr.entry_adcAP (xy : Index) (p : Half) : Instr.entry (.adcAP xy p) = .adcAP xy p := rfl
@[simp] theorem Instr.entry_adcAMemXyd (xy : Index) (d : Byte) : Instr.entry (.adcAMemXyd xy d) = .adcAMemXyd xy d := rfl
@[simp] theorem Instr.entry_subP (xy : Index) (p : Half) : Instr.entry (.subP xy p) = .subP xy p := rfl
@[simp] theorem Instr.entry_subMemXyd (xy : Index) (d : Byte) : Instr.entry (.subMemXyd xy d) = .subMemXyd xy d := rfl
@[simp] theorem Instr.entry_sbcAP (xy : Index) (p : Half) : Instr.entry (.sbcAP xy p) = .sbcAP xy p := rfl
@[simp] theorem Instr.entry_sbcAMemXyd (xy : Index) (d : Byte) : Instr.entry (.sbcAMemXyd xy d) = .sbcAMemXyd xy d := rfl
@[simp] theorem Instr.entry_andP (xy : Index) (p : Half) : Instr.entry (.andP xy p) = .andP xy p := rfl
@[simp] theorem Instr.entry_andMemXyd (xy : Index) (d : Byte) : Instr.entry (.andMemXyd xy d) = .andMemXyd xy d := rfl
@[simp] theorem Instr.entry_xorP (xy : Index) (p : Half) : Instr.entry (.xorP xy p) = .xorP xy p := rfl
@[simp] theorem Instr.entry_xorMemXyd (xy : Index) (d : Byte) : Instr.entry (.xorMemXyd xy d) = .xorMemXyd xy d := rfl
@[simp] theorem Instr.entry_orP (xy : Index) (p : Half) : Instr.entry (.orP xy p) = .orP xy p := rfl
@[simp] theorem Instr.entry_orMemXyd (xy : Index) (d : Byte) : Instr.entry (.orMemXyd xy d) = .orMemXyd xy d := rfl
@[simp] theorem Instr.entry_cpP (xy : Index) (p : Half) : Instr.entry (.cpP xy p) = .cpP xy p := rfl
@[simp] theorem Instr.entry_cpMemXyd (xy : Index) (d : Byte) : Instr.entry (.cpMemXyd xy d) = .cpMemXyd xy d := rfl
@[simp] theorem Instr.entry_prefixXyCb (xy : Index) : Instr.entry (.prefixXyCb xy) = .prefixXyCb xy := rfl
@[simp] theorem Instr.entry_repeatedPrefixDd (xy : Index) : Instr.entry (.repeatedPrefixDd xy) = .repeatedPrefixDd xy := rfl
@[simp] theorem Instr.entry_prefixEdAfterXy (xy : Index) (inner : Instr) : Instr.entry (.prefixEdAfterXy xy inner) = inner.entry := rfl
@[simp] theorem Instr.entry_repeatedPrefixFd (xy : Index) : Instr.entry (.repeatedPrefixFd xy) = .repeatedPrefixFd xy := rfl
@[simp] theorem Instr.entry_popXy (xy : Index) : Instr.entry (.popXy xy) = .popXy xy := rfl
@[simp] theorem Instr.entry_exMemSpXy (xy : Index) : Instr.entry (.exMemSpXy xy) = .exMemSpXy xy := rfl
@[simp] theorem Instr.entry_pushXy (xy : Index) : Instr.entry (.pushXy xy) = .pushXy xy := rfl
@[simp] theorem Instr.entry_jpXy (xy : Index) : Instr.entry (.jpXy xy) = .jpXy xy := rfl
@[simp] theorem Instr.entry_ldSpXy (xy : Index) : Instr.entry (.ldSpXy xy) = .ldSpXy xy := rfl
@[simp] theorem Instr.entry_rlcMemXyd (xy : Index) (d : Byte) : Instr.entry (.rlcMemXyd xy d) = .rlcMemXyd xy d := rfl
@[simp] theorem Instr.entry_rlcMemXydR (xy : Index) (d : Byte) (r : Reg8) : Instr.entry (.rlcMemXydR xy d r) = .rlcMemXydR xy d r := rfl
@[simp] theorem Instr.entry_rrcMemXyd (xy : Index) (d : Byte) : Instr.entry (.rrcMemXyd xy d) = .rrcMemXyd xy d := rfl
@[simp] theorem Instr.entry_rrcMemXydR (xy : Index) (d : Byte) (r : Reg8) : Instr.entry (.rrcMemXydR xy d r) = .rrcMemXydR xy d r := rfl
@[simp] theorem Instr.entry_rlMemXyd (xy : Index) (d : Byte) : Instr.entry (.rlMemXyd xy d) = .rlMemXyd xy d := rfl
@[simp] theorem Instr.entry_rlMemXydR (xy : Index) (d : Byte) (r : Reg8) : Instr.entry (.rlMemXydR xy d r) = .rlMemXydR xy d r := rfl
@[simp] theorem Instr.entry_rrMemXyd (xy : Index) (d : Byte) : Instr.entry (.rrMemXyd xy d) = .rrMemXyd xy d := rfl
@[simp] theorem Instr.entry_rrMemXydR (xy : Index) (d : Byte) (r : Reg8) : Instr.entry (.rrMemXydR xy d r) = .rrMemXydR xy d r := rfl
@[simp] theorem Instr.entry_slaMemXyd (xy : Index) (d : Byte) : Instr.entry (.slaMemXyd xy d) = .slaMemXyd xy d := rfl
@[simp] theorem Instr.entry_slaMemXydR (xy : Index) (d : Byte) (r : Reg8) : Instr.entry (.slaMemXydR xy d r) = .slaMemXydR xy d r := rfl
@[simp] theorem Instr.entry_sraMemXyd (xy : Index) (d : Byte) : Instr.entry (.sraMemXyd xy d) = .sraMemXyd xy d := rfl
@[simp] theorem Instr.entry_sraMemXydR (xy : Index) (d : Byte) (r : Reg8) : Instr.entry (.sraMemXydR xy d r) = .sraMemXydR xy d r := rfl
@[simp] theorem Instr.entry_sllMemXyd (xy : Index) (d : Byte) : Instr.entry (.sllMemXyd xy d) = .sllMemXyd xy d := rfl
@[simp] theorem Instr.entry_sllMemXydR (xy : Index) (d : Byte) (r : Reg8) : Instr.entry (.sllMemXydR xy d r) = .sllMemXydR xy d r := rfl
@[simp] theorem Instr.entry_srlMemXyd (xy : Index) (d : Byte) : Instr.entry (.srlMemXyd xy d) = .srlMemXyd xy d := rfl
@[simp] theorem Instr.entry_srlMemXydR (xy : Index) (d : Byte) (r : Reg8) : Instr.entry (.srlMemXydR xy d r) = .srlMemXydR xy d r := rfl
@[simp] theorem Instr.entry_bitBMemXyd (xy : Index) (d : Byte) (bit : BitVec 3) (z : BitVec 3) : Instr.entry (.bitBMemXyd xy d bit z) = .bitBMemXyd xy d bit z := rfl
@[simp] theorem Instr.entry_resBMemXyd (xy : Index) (d : Byte) (bit : BitVec 3) : Instr.entry (.resBMemXyd xy d bit) = .resBMemXyd xy d bit := rfl
@[simp] theorem Instr.entry_resBMemXydR (xy : Index) (d : Byte) (bit : BitVec 3) (r : Reg8) : Instr.entry (.resBMemXydR xy d bit r) = .resBMemXydR xy d bit r := rfl
@[simp] theorem Instr.entry_setBMemXyd (xy : Index) (d : Byte) (bit : BitVec 3) : Instr.entry (.setBMemXyd xy d bit) = .setBMemXyd xy d bit := rfl
@[simp] theorem Instr.entry_setBMemXydR (xy : Index) (d : Byte) (bit : BitVec 3) (r : Reg8) : Instr.entry (.setBMemXydR xy d bit r) = .setBMemXydR xy d bit r := rfl
@[simp] theorem Instr.entry_asMainSpace (xy : Index) (inner : Instr) : Instr.entry (.asMainSpace xy inner) = inner.entry := rfl

end Sys2Proof
end

