-- ==== Sys2Proof/Laws/PerInstr.lean ====
section
/-! SUPPORT. One lemma for each instruction: its bytes are as many as its format reads (30_encoding.md R91, R94). -/

namespace Sys2Proof

theorem encode_length (i : Instr) : (encode i).length = i.length := by
  induction i with
  | asMainSpace xy inner ih =>
    show (encode inner).length + 1 = 1 + inner.fetches.1 + inner.fetches.2
    rw [ih, Instr.length]; omega
  | prefixEdAfterXy xy inner ih =>
    show (encode inner).length + 1 = 1 + inner.fetches.1 + inner.fetches.2
    rw [ih, Instr.length]; omega
  | _ => rfl

end Sys2Proof

namespace Sys2Proof.Laws.Encoding

open Sys2Proof

/-- An instruction has as many bytes as its format says. -/
def Statement (i : Instr) : Prop := (encode i).length = i.length

theorem nop : Statement (.nop) := encode_length _
theorem exAfAf : Statement (.exAfAf) := encode_length _
theorem djnzE (e : Byte) : Statement (.djnzE e) := encode_length _
theorem jrE (e : Byte) : Statement (.jrE e) := encode_length _
theorem jrCcE (cc : Cond) (e : Byte) : Statement (.jrCcE cc e) := encode_length _
theorem ldDdNn (dd : Pair) (nn : Word) : Statement (.ldDdNn dd nn) := encode_length _
theorem addHlSs (ss : Pair) : Statement (.addHlSs ss) := encode_length _
theorem ldMemBcA : Statement (.ldMemBcA) := encode_length _
theorem ldMemDeA : Statement (.ldMemDeA) := encode_length _
theorem ldMemNnHl (nn : Word) : Statement (.ldMemNnHl nn) := encode_length _
theorem ldMemNnA (nn : Word) : Statement (.ldMemNnA nn) := encode_length _
theorem ldAMemBc : Statement (.ldAMemBc) := encode_length _
theorem ldAMemDe : Statement (.ldAMemDe) := encode_length _
theorem ldHlMemNn (nn : Word) : Statement (.ldHlMemNn nn) := encode_length _
theorem ldAMemNn (nn : Word) : Statement (.ldAMemNn nn) := encode_length _
theorem incSs (ss : Pair) : Statement (.incSs ss) := encode_length _
theorem decSs (ss : Pair) : Statement (.decSs ss) := encode_length _
theorem incR (r : Reg8) : Statement (.incR r) := encode_length _
theorem incMemHl : Statement (.incMemHl) := encode_length _
theorem decR (r : Reg8) : Statement (.decR r) := encode_length _
theorem decMemHl : Statement (.decMemHl) := encode_length _
theorem ldRN (r : Reg8) (n : Byte) : Statement (.ldRN r n) := encode_length _
theorem ldMemHlN (n : Byte) : Statement (.ldMemHlN n) := encode_length _
theorem rlca : Statement (.rlca) := encode_length _
theorem rrca : Statement (.rrca) := encode_length _
theorem rla : Statement (.rla) := encode_length _
theorem rra : Statement (.rra) := encode_length _
theorem daa : Statement (.daa) := encode_length _
theorem cpl : Statement (.cpl) := encode_length _
theorem scf : Statement (.scf) := encode_length _
theorem ccf : Statement (.ccf) := encode_length _
theorem ldRR (dst : Reg8) (src : Reg8) : Statement (.ldRR dst src) := encode_length _
theorem ldRMemHl (r : Reg8) : Statement (.ldRMemHl r) := encode_length _
theorem ldMemHlR (r : Reg8) : Statement (.ldMemHlR r) := encode_length _
theorem halt : Statement (.halt) := encode_length _
theorem addAR (r : Reg8) : Statement (.addAR r) := encode_length _
theorem addAMemHl : Statement (.addAMemHl) := encode_length _
theorem adcAR (r : Reg8) : Statement (.adcAR r) := encode_length _
theorem adcAMemHl : Statement (.adcAMemHl) := encode_length _
theorem subR (r : Reg8) : Statement (.subR r) := encode_length _
theorem subMemHl : Statement (.subMemHl) := encode_length _
theorem sbcAR (r : Reg8) : Statement (.sbcAR r) := encode_length _
theorem sbcAMemHl : Statement (.sbcAMemHl) := encode_length _
theorem andR (r : Reg8) : Statement (.andR r) := encode_length _
theorem andMemHl : Statement (.andMemHl) := encode_length _
theorem xorR (r : Reg8) : Statement (.xorR r) := encode_length _
theorem xorMemHl : Statement (.xorMemHl) := encode_length _
theorem orR (r : Reg8) : Statement (.orR r) := encode_length _
theorem orMemHl : Statement (.orMemHl) := encode_length _
theorem cpR (r : Reg8) : Statement (.cpR r) := encode_length _
theorem cpMemHl : Statement (.cpMemHl) := encode_length _
theorem retCc (cc : Cond) : Statement (.retCc cc) := encode_length _
theorem popQq (qq : StackPair) : Statement (.popQq qq) := encode_length _
theorem ret : Statement (.ret) := encode_length _
theorem exx : Statement (.exx) := encode_length _
theorem jpHl : Statement (.jpHl) := encode_length _
theorem ldSpHl : Statement (.ldSpHl) := encode_length _
theorem jpCcNn (cc : Cond) (nn : Word) : Statement (.jpCcNn cc nn) := encode_length _
theorem jpNn (nn : Word) : Statement (.jpNn nn) := encode_length _
theorem prefixCb : Statement (.prefixCb) := encode_length _
theorem outNA (n : Byte) : Statement (.outNA n) := encode_length _
theorem inAN (n : Byte) : Statement (.inAN n) := encode_length _
theorem exMemSpHl : Statement (.exMemSpHl) := encode_length _
theorem exDeHl : Statement (.exDeHl) := encode_length _
theorem di : Statement (.di) := encode_length _
theorem ei : Statement (.ei) := encode_length _
theorem callCcNn (cc : Cond) (nn : Word) : Statement (.callCcNn cc nn) := encode_length _
theorem pushQq (qq : StackPair) : Statement (.pushQq qq) := encode_length _
theorem callNn (nn : Word) : Statement (.callNn nn) := encode_length _
theorem prefixDd : Statement (.prefixDd) := encode_length _
theorem prefixEd : Statement (.prefixEd) := encode_length _
theorem prefixFd : Statement (.prefixFd) := encode_length _
theorem addAN (n : Byte) : Statement (.addAN n) := encode_length _
theorem adcAN (n : Byte) : Statement (.adcAN n) := encode_length _
theorem subN (n : Byte) : Statement (.subN n) := encode_length _
theorem sbcAN (n : Byte) : Statement (.sbcAN n) := encode_length _
theorem andN (n : Byte) : Statement (.andN n) := encode_length _
theorem xorN (n : Byte) : Statement (.xorN n) := encode_length _
theorem orN (n : Byte) : Statement (.orN n) := encode_length _
theorem cpN (n : Byte) : Statement (.cpN n) := encode_length _
theorem rstP (p : BitVec 3) : Statement (.rstP p) := encode_length _
theorem rlcR (r : Reg8) : Statement (.rlcR r) := encode_length _
theorem rlcMemHl : Statement (.rlcMemHl) := encode_length _
theorem rrcR (r : Reg8) : Statement (.rrcR r) := encode_length _
theorem rrcMemHl : Statement (.rrcMemHl) := encode_length _
theorem rlR (r : Reg8) : Statement (.rlR r) := encode_length _
theorem rlMemHl : Statement (.rlMemHl) := encode_length _
theorem rrR (r : Reg8) : Statement (.rrR r) := encode_length _
theorem rrMemHl : Statement (.rrMemHl) := encode_length _
theorem slaR (r : Reg8) : Statement (.slaR r) := encode_length _
theorem slaMemHl : Statement (.slaMemHl) := encode_length _
theorem sraR (r : Reg8) : Statement (.sraR r) := encode_length _
theorem sraMemHl : Statement (.sraMemHl) := encode_length _
theorem sllR (r : Reg8) : Statement (.sllR r) := encode_length _
theorem sllMemHl : Statement (.sllMemHl) := encode_length _
theorem srlR (r : Reg8) : Statement (.srlR r) := encode_length _
theorem srlMemHl : Statement (.srlMemHl) := encode_length _
theorem bitBR (bit : BitVec 3) (r : Reg8) : Statement (.bitBR bit r) := encode_length _
theorem bitBMemHl (bit : BitVec 3) : Statement (.bitBMemHl bit) := encode_length _
theorem resBR (bit : BitVec 3) (r : Reg8) : Statement (.resBR bit r) := encode_length _
theorem resBMemHl (bit : BitVec 3) : Statement (.resBMemHl bit) := encode_length _
theorem setBR (bit : BitVec 3) (r : Reg8) : Statement (.setBR bit r) := encode_length _
theorem setBMemHl (bit : BitVec 3) : Statement (.setBMemHl bit) := encode_length _
theorem edNop0 (yz : BitVec 6) : Statement (.edNop0 yz) := encode_length _
theorem inRC (r : Reg8) : Statement (.inRC r) := encode_length _
theorem inFC : Statement (.inFC) := encode_length _
theorem outCR (r : Reg8) : Statement (.outCR r) := encode_length _
theorem outC0 : Statement (.outC0) := encode_length _
theorem sbcHlSs (ss : Pair) : Statement (.sbcHlSs ss) := encode_length _
theorem adcHlSs (ss : Pair) : Statement (.adcHlSs ss) := encode_length _
theorem ldMemNnDd (nn : Word) (dd : Pair) : Statement (.ldMemNnDd nn dd) := encode_length _
theorem ldDdMemNn (dd : Pair) (nn : Word) : Statement (.ldDdMemNn dd nn) := encode_length _
theorem neg (y : BitVec 3) : Statement (.neg y) := encode_length _
theorem retn (y : BitVec 3) : Statement (.retn y) := encode_length _
theorem reti : Statement (.reti) := encode_length _
theorem imN (y : BitVec 3) : Statement (.imN y) := encode_length _
theorem ldIA : Statement (.ldIA) := encode_length _
theorem ldRfA : Statement (.ldRfA) := encode_length _
theorem ldAI : Statement (.ldAI) := encode_length _
theorem ldARf : Statement (.ldARf) := encode_length _
theorem rrd : Statement (.rrd) := encode_length _
theorem rld : Statement (.rld) := encode_length _
theorem edNop7 (q : BitVec 1) : Statement (.edNop7 q) := encode_length _
theorem edNop8 (yz : BitVec 5) : Statement (.edNop8 yz) := encode_length _
theorem ldi : Statement (.ldi) := encode_length _
theorem cpi : Statement (.cpi) := encode_length _
theorem ini : Statement (.ini) := encode_length _
theorem outi : Statement (.outi) := encode_length _
theorem ldd : Statement (.ldd) := encode_length _
theorem cpd : Statement (.cpd) := encode_length _
theorem ind : Statement (.ind) := encode_length _
theorem outd : Statement (.outd) := encode_length _
theorem ldir : Statement (.ldir) := encode_length _
theorem cpir : Statement (.cpir) := encode_length _
theorem inir : Statement (.inir) := encode_length _
theorem otir : Statement (.otir) := encode_length _
theorem lddr : Statement (.lddr) := encode_length _
theorem cpdr : Statement (.cpdr) := encode_length _
theorem indr : Statement (.indr) := encode_length _
theorem otdr : Statement (.otdr) := encode_length _
theorem edNopA (y : BitVec 2) (z : BitVec 2) : Statement (.edNopA y z) := encode_length _
theorem edNopC (yz : BitVec 6) : Statement (.edNopC yz) := encode_length _
theorem addXyPp (xy : Index) (pp : XPair) : Statement (.addXyPp xy pp) := encode_length _
theorem ldXyNn (xy : Index) (nn : Word) : Statement (.ldXyNn xy nn) := encode_length _
theorem ldMemNnXy (xy : Index) (nn : Word) : Statement (.ldMemNnXy xy nn) := encode_length _
theorem incXy (xy : Index) : Statement (.incXy xy) := encode_length _
theorem incP (xy : Index) (p : Half) : Statement (.incP xy p) := encode_length _
theorem decP (xy : Index) (p : Half) : Statement (.decP xy p) := encode_length _
theorem ldPN (xy : Index) (p : Half) (n : Byte) : Statement (.ldPN xy p n) := encode_length _
theorem ldXyMemNn (xy : Index) (nn : Word) : Statement (.ldXyMemNn xy nn) := encode_length _
theorem decXy (xy : Index) : Statement (.decXy xy) := encode_length _
theorem incMemXyd (xy : Index) (d : Byte) : Statement (.incMemXyd xy d) := encode_length _
theorem decMemXyd (xy : Index) (d : Byte) : Statement (.decMemXyd xy d) := encode_length _
theorem ldMemXydN (xy : Index) (d : Byte) (n : Byte) : Statement (.ldMemXydN xy d n) := encode_length _
theorem ldRMemXyd (xy : Index) (r : Reg8) (d : Byte) : Statement (.ldRMemXyd xy r d) := encode_length _
theorem ldMemXydR (xy : Index) (d : Byte) (r : Reg8) : Statement (.ldMemXydR xy d r) := encode_length _
theorem ldPP (xy : Index) (dst : XReg8) (src : XReg8) : Statement (.ldPP xy dst src) := encode_length _
theorem addAP (xy : Index) (p : Half) : Statement (.addAP xy p) := encode_length _
theorem addAMemXyd (xy : Index) (d : Byte) : Statement (.addAMemXyd xy d) := encode_length _
theorem adcAP (xy : Index) (p : Half) : Statement (.adcAP xy p) := encode_length _
theorem adcAMemXyd (xy : Index) (d : Byte) : Statement (.adcAMemXyd xy d) := encode_length _
theorem subP (xy : Index) (p : Half) : Statement (.subP xy p) := encode_length _
theorem subMemXyd (xy : Index) (d : Byte) : Statement (.subMemXyd xy d) := encode_length _
theorem sbcAP (xy : Index) (p : Half) : Statement (.sbcAP xy p) := encode_length _
theorem sbcAMemXyd (xy : Index) (d : Byte) : Statement (.sbcAMemXyd xy d) := encode_length _
theorem andP (xy : Index) (p : Half) : Statement (.andP xy p) := encode_length _
theorem andMemXyd (xy : Index) (d : Byte) : Statement (.andMemXyd xy d) := encode_length _
theorem xorP (xy : Index) (p : Half) : Statement (.xorP xy p) := encode_length _
theorem xorMemXyd (xy : Index) (d : Byte) : Statement (.xorMemXyd xy d) := encode_length _
theorem orP (xy : Index) (p : Half) : Statement (.orP xy p) := encode_length _
theorem orMemXyd (xy : Index) (d : Byte) : Statement (.orMemXyd xy d) := encode_length _
theorem cpP (xy : Index) (p : Half) : Statement (.cpP xy p) := encode_length _
theorem cpMemXyd (xy : Index) (d : Byte) : Statement (.cpMemXyd xy d) := encode_length _
theorem prefixXyCb (xy : Index) : Statement (.prefixXyCb xy) := encode_length _
theorem repeatedPrefixDd (xy : Index) : Statement (.repeatedPrefixDd xy) := encode_length _
theorem prefixEdAfterXy (xy : Index) (inner : Instr) : Statement (.prefixEdAfterXy xy inner) := encode_length _
theorem repeatedPrefixFd (xy : Index) : Statement (.repeatedPrefixFd xy) := encode_length _
theorem popXy (xy : Index) : Statement (.popXy xy) := encode_length _
theorem exMemSpXy (xy : Index) : Statement (.exMemSpXy xy) := encode_length _
theorem pushXy (xy : Index) : Statement (.pushXy xy) := encode_length _
theorem jpXy (xy : Index) : Statement (.jpXy xy) := encode_length _
theorem ldSpXy (xy : Index) : Statement (.ldSpXy xy) := encode_length _
theorem rlcMemXyd (xy : Index) (d : Byte) : Statement (.rlcMemXyd xy d) := encode_length _
theorem rlcMemXydR (xy : Index) (d : Byte) (r : Reg8) : Statement (.rlcMemXydR xy d r) := encode_length _
theorem rrcMemXyd (xy : Index) (d : Byte) : Statement (.rrcMemXyd xy d) := encode_length _
theorem rrcMemXydR (xy : Index) (d : Byte) (r : Reg8) : Statement (.rrcMemXydR xy d r) := encode_length _
theorem rlMemXyd (xy : Index) (d : Byte) : Statement (.rlMemXyd xy d) := encode_length _
theorem rlMemXydR (xy : Index) (d : Byte) (r : Reg8) : Statement (.rlMemXydR xy d r) := encode_length _
theorem rrMemXyd (xy : Index) (d : Byte) : Statement (.rrMemXyd xy d) := encode_length _
theorem rrMemXydR (xy : Index) (d : Byte) (r : Reg8) : Statement (.rrMemXydR xy d r) := encode_length _
theorem slaMemXyd (xy : Index) (d : Byte) : Statement (.slaMemXyd xy d) := encode_length _
theorem slaMemXydR (xy : Index) (d : Byte) (r : Reg8) : Statement (.slaMemXydR xy d r) := encode_length _
theorem sraMemXyd (xy : Index) (d : Byte) : Statement (.sraMemXyd xy d) := encode_length _
theorem sraMemXydR (xy : Index) (d : Byte) (r : Reg8) : Statement (.sraMemXydR xy d r) := encode_length _
theorem sllMemXyd (xy : Index) (d : Byte) : Statement (.sllMemXyd xy d) := encode_length _
theorem sllMemXydR (xy : Index) (d : Byte) (r : Reg8) : Statement (.sllMemXydR xy d r) := encode_length _
theorem srlMemXyd (xy : Index) (d : Byte) : Statement (.srlMemXyd xy d) := encode_length _
theorem srlMemXydR (xy : Index) (d : Byte) (r : Reg8) : Statement (.srlMemXydR xy d r) := encode_length _
theorem bitBMemXyd (xy : Index) (d : Byte) (bit : BitVec 3) (z : BitVec 3) : Statement (.bitBMemXyd xy d bit z) := encode_length _
theorem resBMemXyd (xy : Index) (d : Byte) (bit : BitVec 3) : Statement (.resBMemXyd xy d bit) := encode_length _
theorem resBMemXydR (xy : Index) (d : Byte) (bit : BitVec 3) (r : Reg8) : Statement (.resBMemXydR xy d bit r) := encode_length _
theorem setBMemXyd (xy : Index) (d : Byte) (bit : BitVec 3) : Statement (.setBMemXyd xy d bit) := encode_length _
theorem setBMemXydR (xy : Index) (d : Byte) (bit : BitVec 3) (r : Reg8) : Statement (.setBMemXydR xy d bit r) := encode_length _
theorem asMainSpace (xy : Index) (inner : Instr) : Statement (.asMainSpace xy inner) := encode_length _

end Sys2Proof.Laws.Encoding
end

