-- ==== Sys2Proof/Laws/Rules.lean ====
section
/-! SUPPORT. What it takes to show the rule of an instruction (`HasRule`): its bytes, and its effect in every state. The
encodings behind an index prefix, and their effects, follow. -/

namespace Sys2Proof.Machine

open Sys2Proof

/-! ### Encodings from their first bytes -/

/-- Bytes that `decodeBytes` reads as `i` whatever follows them encode it. -/
theorem encodes_of {bs : List Byte} {nF nM : Nat} {i : Instr} (hf : i.fetches = (nF, nM)) (hl : bs.length = nF + nM)
    (hn : bs ≠ []) (hb : ∀ rest, barePrefixOf (bs ++ rest) = none)
    (hd : ∀ rest, decodeBytes ((bs ++ rest).getD 0 0) ((bs ++ rest).getD 1 0) ((bs ++ rest).getD 2 0)
      ((bs ++ rest).getD 3 0) ((bs ++ rest).getD 4 0) = i) : Encodes bs nF nM i :=
  ⟨hl, hf, fun rest => decode_append (by rw [hl, Instr.length, hf]) hn (hb rest) (hd rest)⟩

/-- One opcode byte, no prefix. -/
theorem encodes_one {x : Byte} {i : Instr} (hx : x ≠ 0xCB ∧ x ≠ 0xDD ∧ x ≠ 0xED ∧ x ≠ 0xFD) (hf : i.fetches = (1, 0))
    (hd : ∀ b1 b2 b3 b4, decodeBytes x b1 b2 b3 b4 = i) : Encodes [x] 1 0 i :=
  encodes_of hf rfl (by simp) (fun rest => by simp_all [barePrefixOf]) (fun _ => hd _ _ _ _)

/-- Two bytes, the second one no `CB`. -/
theorem encodes_two {x y : Byte} {nF nM : Nat} {i : Instr} (hl : 2 = nF + nM) (hf : i.fetches = (nF, nM))
    (hy : (x = 0xDD ∨ x = 0xFD) → y ≠ 0xCB) (hd : ∀ b2 b3 b4, decodeBytes x y b2 b3 b4 = i) :
    Encodes [x, y] nF nM i :=
  encodes_of hf hl (by simp)
    (fun rest => by
      have h1 : ¬(x = 0xDD ∧ y = 0xCB) := fun h => hy (.inl h.1) h.2
      have h2 : ¬(x = 0xFD ∧ y = 0xCB) := fun h => hy (.inr h.1) h.2
      simp only [barePrefixOf, List.cons_append, List.nil_append, List.cons.injEq, reduceCtorEq, and_false, if_false,
        ← and_assoc, h1, h2, false_and])
    (fun _ => hd _ _ _)

/-- Three bytes. -/
theorem encodes_three {x y z : Byte} {nF nM : Nat} {i : Instr} (hl : 3 = nF + nM) (hf : i.fetches = (nF, nM))
    (hd : ∀ b3 b4, decodeBytes x y z b3 b4 = i) : Encodes [x, y, z] nF nM i :=
  encodes_of hf hl (by simp) (fun rest => by simp [barePrefixOf]) (fun _ => hd _ _)

/-- Four bytes. -/
theorem encodes_four {x y z w : Byte} {nF nM : Nat} {i : Instr} (hl : 4 = nF + nM) (hf : i.fetches = (nF, nM))
    (hd : ∀ b4, decodeBytes x y z w b4 = i) : Encodes [x, y, z, w] nF nM i :=
  encodes_of hf hl (by simp) (fun rest => by simp [barePrefixOf]) (fun _ => hd _)

/-! ### The spaces of what the decoder answers -/

theorem space_decodeCb (op : Byte) : (decodeCb op).space = .cb := by
  simp only [decodeCb, decodeRotSlot]; repeat' split
  all_goals rfl

theorem space_decodeEd (op b1 b2 : Byte) : (decodeEd op b1 b2).space = .ed := by
  simp only [decodeEd, decodeEd1, decodeEd2]; repeat' split
  all_goals rfl

theorem space_decodeXyCb (xy : Index) (d op : Byte) : (decodeXyCb xy d op).space = .xycb := by
  simp only [decodeXyCb, decodeRotIdx]; repeat' split
  all_goals rfl

theorem space_aluUnderIndex (r : Reg8) (named : Half → Instr) (unchanged : Instr) (hn : ∀ p, (named p).space = .xy)
    (hu : unchanged.space = .xy) : (r.aluUnderIndex named unchanged).space = .xy := by
  cases r <;> first | exact hu | exact hn _

theorem space_decodeXy (xy : Index) (op b1 b2 b3 : Byte) :
    (decodeXy xy op b1 b2 b3).space = .xy ∨ (decodeXy xy op b1 b2 b3).space = .xycb := by
  unfold decodeXy
  generalize decodeMain op b1 b2 = e
  cases e
  case prefixCb => exact .inr (space_decodeXyCb _ _ _)
  case ldDdNn dd _ => cases dd <;> exact .inl rfl
  case incSs p => cases p <;> exact .inl rfl
  case decSs p => cases p <;> exact .inl rfl
  case popQq p => cases p <;> exact .inl rfl
  case pushQq p => cases p <;> exact .inl rfl
  case ldRR r r' => cases r <;> cases r' <;> exact .inl rfl
  case ldRN r _ => exact .inl (space_aluUnderIndex _ _ _ (fun _ => rfl) rfl)
  case incR r => exact .inl (space_aluUnderIndex _ _ _ (fun _ => rfl) rfl)
  case decR r => exact .inl (space_aluUnderIndex _ _ _ (fun _ => rfl) rfl)
  case addAR r => exact .inl (space_aluUnderIndex _ _ _ (fun _ => rfl) rfl)
  case adcAR r => exact .inl (space_aluUnderIndex _ _ _ (fun _ => rfl) rfl)
  case subR r => exact .inl (space_aluUnderIndex _ _ _ (fun _ => rfl) rfl)
  case sbcAR r => exact .inl (space_aluUnderIndex _ _ _ (fun _ => rfl) rfl)
  case andR r => exact .inl (space_aluUnderIndex _ _ _ (fun _ => rfl) rfl)
  case xorR r => exact .inl (space_aluUnderIndex _ _ _ (fun _ => rfl) rfl)
  case orR r => exact .inl (space_aluUnderIndex _ _ _ (fun _ => rfl) rfl)
  case cpR r => exact .inl (space_aluUnderIndex _ _ _ (fun _ => rfl) rfl)
  all_goals exact .inl rfl

theorem decodeXy_prefixEd (xy : Index) {op b1 b2 : Byte} (b3 : Byte) (h : decodeMain op b1 b2 = .prefixEd) :
    decodeXy xy op b1 b2 b3 = .prefixEdAfterXy xy (decodeEd b1 b2 b3) := by
  unfold decodeXy
  rw [h]

/-- A main-space entry that an index prefix leaves as it is decodes, behind one, to itself behind one (30_encoding.md
R103 item 5). -/
theorem decodeXy_unchanged (xy : Index) (op b1 b2 b3 : Byte) (h : (decodeMain op b1 b2).unchangedByIndex = true) :
    decodeXy xy op b1 b2 b3 = .asMainSpace xy (decodeMain op b1 b2) := by
  unfold decodeXy
  generalize decodeMain op b1 b2 = e at h
  cases e
  case ldDdNn dd _ => cases dd <;> first | rfl | cases h
  case incSs p => cases p <;> first | rfl | cases h
  case decSs p => cases p <;> first | rfl | cases h
  case popQq p => cases p <;> first | rfl | cases h
  case pushQq p => cases p <;> first | rfl | cases h
  case ldRR r r' => cases r <;> cases r' <;> first | rfl | cases h
  case incR r => cases r <;> first | rfl | cases h
  case decR r => cases r <;> first | rfl | cases h
  case ldRN r _ => cases r <;> first | rfl | cases h
  case addAR r => cases r <;> first | rfl | cases h
  case adcAR r => cases r <;> first | rfl | cases h
  case subR r => cases r <;> first | rfl | cases h
  case sbcAR r => cases r <;> first | rfl | cases h
  case andR r => cases r <;> first | rfl | cases h
  case xorR r => cases r <;> first | rfl | cases h
  case orR r => cases r <;> first | rfl | cases h
  case cpR r => cases r <;> first | rfl | cases h
  all_goals first | rfl | cases h

/-- `decodeBytes` answers a main-space instruction from the main space only. -/
theorem decodeMain_of_space {b0 b1 b2 b3 b4 : Byte} {i : Instr} (h : decodeBytes b0 b1 b2 b3 b4 = i)
    (hs : i.space = .main) : decodeMain b0 b1 b2 = i := by
  unfold decodeBytes at h
  split at h
  · rw [← h, space_decodeCb] at hs; cases hs
  · rw [← h, space_decodeEd] at hs; cases hs
  · rcases space_decodeXy .ix b1 b2 b3 b4 with e | e <;> (rw [← h, e] at hs; cases hs)
  · rcases space_decodeXy .iy b1 b2 b3 b4 with e | e <;> (rw [← h, e] at hs; cases hs)
  · exact h

/-- `decodeMain` answers instructions of the main space. -/
theorem space_decodeMain (op b1 b2 : Byte) : (decodeMain op b1 b2).space = .main := by
  simp only [decodeMain, decodeQuadrant0, decodeQuadrant1, decodeQuadrant3, decodeAluSlot, decodeAluImm]
  repeat' split
  all_goals rfl

/-- `decodeBytes` answers an ED-space instruction behind an `ED` only. -/
theorem decodeEd_of_space {b0 b1 b2 b3 b4 : Byte} {i : Instr} (h : decodeBytes b0 b1 b2 b3 b4 = i)
    (hs : i.space = .ed) : decodeMain b0 b1 b2 = .prefixEd ∧ decodeEd b1 b2 b3 = i := by
  unfold decodeBytes at h
  split at h
  · rw [← h, space_decodeCb] at hs; cases hs
  · exact ⟨‹_›, h⟩
  · rcases space_decodeXy .ix b1 b2 b3 b4 with e | e <;> (rw [← h, e] at hs; cases hs)
  · rcases space_decodeXy .iy b1 b2 b3 b4 with e | e <;> (rw [← h, e] at hs; cases hs)
  · rw [← h, space_decodeMain] at hs; cases hs

/-! ### Behind an index prefix -/

theorem barePrefixOf_xy (xy : Index) {bytes : List Byte} (hn : bytes ≠ []) (hb : barePrefixOf bytes = none) :
    barePrefixOf (xy.prefixByte :: bytes) = none := by
  have hcb : bytes ≠ [0xCB] := by rintro rfl; simp [barePrefixOf] at hb
  cases xy <;> simp only [barePrefixOf, Index.prefixByte, List.cons.injEq, hn, hcb, and_false, if_false]

theorem decode_of_encodes {bs : List Byte} {nF nM : Nat} {i : Instr} (h : Encodes bs nF nM i)
    (hb : i.isBarePrefix = false) (rest : List Byte) :
    barePrefixOf (bs ++ rest) = none ∧ bs ++ rest ≠ [] ∧
      decodeBytes ((bs ++ rest).getD 0 0) ((bs ++ rest).getD 1 0) ((bs ++ rest).getD 2 0) ((bs ++ rest).getD 3 0)
        ((bs ++ rest).getD 4 0) = i := by
  rcases (decode_ok_iff _ _ _).mp (h.2.2 rest) with ⟨h1, _⟩ | ⟨h1, h2, h3, _⟩
  · exfalso
    unfold barePrefixOf at h1
    repeat' split at h1
    all_goals first | (cases h1; cases hb) | cases h1
  · exact ⟨h1, h2, h3⟩

/-- An index prefix in front of an instruction it does not change (30_encoding.md R103 item 5). -/
theorem encodes_asMainSpace {bs : List Byte} {nF nM : Nat} {i : Instr} (h : Encodes bs nF nM i)
    (hu : i.unchangedByIndex = true) (xy : Index) :
    Encodes (xy.prefixByte :: bs) (nF + 1) nM (.asMainSpace xy i) := by
  simp only [Instr.unchangedByIndex, Bool.and_eq_true, beq_iff_eq, Bool.not_eq_true'] at hu
  refine encodes_of ?_ (by simp [h.1]; omega) (by simp) ?_ ?_
  · show (1 + i.fetches.1, i.fetches.2) = _
    rw [h.2.1, Nat.add_comm]
  · exact fun rest => barePrefixOf_xy xy (decode_of_encodes h hu.1.2 rest).2.1 (decode_of_encodes h hu.1.2 rest).1
  · intro rest
    have hd := decodeMain_of_space (decode_of_encodes h hu.1.2 rest).2.2 hu.1.1
    refine (decodeBytes_xy xy _ _ _ _).trans ?_
    refine (decodeXy_unchanged xy _ _ _ _ ?_).trans (congrArg (Instr.asMainSpace xy) hd)
    exact (congrArg Instr.unchangedByIndex hd).trans (by simp [Instr.unchangedByIndex, hu])

/-- An index prefix in front of an ED-space instruction (30_encoding.md R105). -/
theorem encodes_prefixEdAfterXy {bs : List Byte} {nF nM : Nat} {i : Instr} (h : Encodes bs nF nM i)
    (hs : i.space = .ed) (xy : Index) : Encodes (xy.prefixByte :: bs) (nF + 1) nM (.prefixEdAfterXy xy i) := by
  have hb : i.isBarePrefix = false := by cases i <;> first | rfl | cases hs
  refine encodes_of ?_ (by simp [h.1]; omega) (by simp) ?_ ?_
  · show (1 + i.fetches.1, i.fetches.2) = _
    rw [h.2.1, Nat.add_comm]
  · exact fun rest => barePrefixOf_xy xy (decode_of_encodes h hb rest).2.1 (decode_of_encodes h hb rest).1
  · intro rest
    obtain ⟨hm, he⟩ := decodeEd_of_space (decode_of_encodes h hb rest).2.2 hs
    refine (decodeBytes_xy xy _ _ _ _).trans ?_
    exact (decodeXy_prefixEd xy _ hm).trans (congrArg (Instr.prefixEdAfterXy xy) he)

/-- The rule of an instruction from its bytes and its effect. -/
theorem HasRule.of {i : Instr} {bytes : List Byte} {nF nM : Nat} {effect : State → State → Prop}
    (hb : i.isBarePrefix = false) (he : Encodes bytes nF nM i) (hx : ∀ s, ∃ t, exec i s = .next t ∧ effect s t) :
    HasRule i bytes nF nM effect := by
  have hw : ∀ s, ∃ t, execEntry i s = .next t ∧ effect s t := fun s => by
    rw [execEntry_eq_exec i s hb]; exact hx s
  exact ⟨he, hx, fun hu xy => ⟨encodes_asMainSpace he hu xy, hw⟩,
    fun hs xy => ⟨encodes_prefixEdAfterXy he hs xy, hw⟩⟩

end Sys2Proof.Machine
end

