-- ==== Sys2Proof/Tests/Slice0.lean ====
section
/-! SUPPORT. Tests: ill-formed terms that the checks refuse; the words of spec/opcode_table.json decoded, written out
bit by bit from each row's encoding; single steps from spec/95_test_vectors.md, whose names (`L2`, `W16` and so on) they
bear; and for every statement with hypotheses, a state and operands that meet them. -/

namespace Sys2Proof.Tests

open Sys2Proof Sys2Proof.Machine

/-! ### Well-formedness: an ill-formed term for each check -/

theorem test_wf_jr_po : (Instr.jrCcE .po 0x00).wellFormed = false := by decide
theorem test_wf_retn_1 : (Instr.retn 1).wellFormed = false := by decide
theorem test_wf_ld_p_without_half : (Instr.ldPP .ix .b .c).wellFormed = false := by decide
theorem test_wf_unchanged_but_changed : (Instr.asMainSpace .ix .incMemHl).wellFormed = false := by decide
theorem test_wf_unchanged_of_ed_space : (Instr.asMainSpace .ix .ldir).wellFormed = false := by decide
theorem test_wf_unchanged_of_prefix : (Instr.asMainSpace .iy .prefixCb).wellFormed = false := by decide
theorem test_wf_unchanged_of_ill_formed : (Instr.asMainSpace .iy (.jrCcE .m 0x00)).wellFormed = false := by decide
theorem test_wf_dropped_prefix_of_main_space : (Instr.prefixEdAfterXy .ix .nop).wellFormed = false := by decide
theorem test_wf_dropped_prefix_of_ill_formed : (Instr.prefixEdAfterXy .ix (.retn 1)).wellFormed = false := by decide
theorem test_wf_accepts : (Instr.jrCcE .c 0x00).wellFormed && (Instr.retn 0).wellFormed && (Instr.ldPP .ix .b (.half .low)).wellFormed &&
    (Instr.asMainSpace .ix .exDeHl).wellFormed && (Instr.prefixEdAfterXy .iy .ldir).wellFormed = true := by decide

/-! ### Decoding: every row of the table, its fields at one value (`_a`) and at another (`_b`) -/

/-- The bytes are the instruction, all of them. -/
def decodesTo (p : List Byte × Instr) : Bool :=
  match decode p.1 with
  | .ok (i, rest) => i == p.2 && rest == []
  | .error _ => false

theorem test_decode_main_0_a : List.all [
    ([0b00000000], .nop),
    ([0b00001000], .exAfAf),
    ([0b00010000, 0b00010000], .djnzE 0x10),
    ([0b00011000, 0b00010000], .jrE 0x10),
    ([0b00110000, 0b00010000], .jrCcE .nc 0x10),
    ([0b00100001, 0b00110100, 0b00010010], .ldDdNn .hl 0x1234),
    ([0b00101001], .addHlSs .hl),
    ([0b00000010], .ldMemBcA),
    ([0b00010010], .ldMemDeA),
    ([0b00100010, 0b00110100, 0b00010010], .ldMemNnHl 0x1234),
    ([0b00110010, 0b00110100, 0b00010010], .ldMemNnA 0x1234),
    ([0b00001010], .ldAMemBc),
    ([0b00011010], .ldAMemDe),
    ([0b00101010, 0b00110100, 0b00010010], .ldHlMemNn 0x1234),
    ([0b00111010, 0b00110100, 0b00010010], .ldAMemNn 0x1234),
    ([0b00100011], .incSs .hl),
    ([0b00101011], .decSs .hl),
    ([0b00101100], .incR .l),
    ([0b00110100], .incMemHl),
    ([0b00101101], .decR .l),
    ([0b00110101], .decMemHl),
    ([0b00101110, 0b01000010], .ldRN .l 0x42),
    ([0b00110110, 0b01000010], .ldMemHlN 0x42),
    ([0b00000111], .rlca),
    ([0b00001111], .rrca),
    ([0b00010111], .rla)
  ] decodesTo = true := by decide

theorem test_decode_main_0_b : List.all [
    ([0b00010000, 0b11111110], .djnzE 0xFE),
    ([0b00011000, 0b11111110], .jrE 0xFE),
    ([0b00101000, 0b11111110], .jrCcE .z 0xFE),
    ([0b00010001, 0b11001101, 0b10101011], .ldDdNn .de 0xABCD),
    ([0b00011001], .addHlSs .de),
    ([0b00100010, 0b11001101, 0b10101011], .ldMemNnHl 0xABCD),
    ([0b00110010, 0b11001101, 0b10101011], .ldMemNnA 0xABCD),
    ([0b00101010, 0b11001101, 0b10101011], .ldHlMemNn 0xABCD),
    ([0b00111010, 0b11001101, 0b10101011], .ldAMemNn 0xABCD),
    ([0b00010011], .incSs .de),
    ([0b00011011], .decSs .de),
    ([0b00100100], .incR .h),
    ([0b00100101], .decR .h),
    ([0b00100110, 0b10101001], .ldRN .h 0xA9),
    ([0b00110110, 0b10101001], .ldMemHlN 0xA9)
  ] decodesTo = true := by decide

theorem test_decode_main_1_a : List.all [
    ([0b00011111], .rra),
    ([0b00100111], .daa),
    ([0b00101111], .cpl),
    ([0b00110111], .scf),
    ([0b00111111], .ccf),
    ([0b01101010], .ldRR .l .d),
    ([0b01101110], .ldRMemHl .l),
    ([0b01110010], .ldMemHlR .d),
    ([0b01110110], .halt),
    ([0b10000010], .addAR .d),
    ([0b10000110], .addAMemHl),
    ([0b10001010], .adcAR .d),
    ([0b10001110], .adcAMemHl),
    ([0b10010010], .subR .d),
    ([0b10010110], .subMemHl),
    ([0b10011010], .sbcAR .d),
    ([0b10011110], .sbcAMemHl),
    ([0b10100010], .andR .d),
    ([0b10100110], .andMemHl),
    ([0b10101010], .xorR .d),
    ([0b10101110], .xorMemHl),
    ([0b10110010], .orR .d),
    ([0b10110110], .orMemHl),
    ([0b10111010], .cpR .d),
    ([0b10111110], .cpMemHl),
    ([0b11101000], .retCc .pe)
  ] decodesTo = true := by decide

theorem test_decode_main_1_b : List.all [
    ([0b01100111], .ldRR .h .a),
    ([0b01100110], .ldRMemHl .h),
    ([0b01110111], .ldMemHlR .a),
    ([0b10000111], .addAR .a),
    ([0b10001111], .adcAR .a),
    ([0b10010111], .subR .a),
    ([0b10011111], .sbcAR .a),
    ([0b10100111], .andR .a),
    ([0b10101111], .xorR .a),
    ([0b10110111], .orR .a),
    ([0b10111111], .cpR .a),
    ([0b11100000], .retCc .po)
  ] decodesTo = true := by decide

theorem test_decode_main_2_a : List.all [
    ([0b11100001], .popQq .hl),
    ([0b11001001], .ret),
    ([0b11011001], .exx),
    ([0b11101001], .jpHl),
    ([0b11111001], .ldSpHl),
    ([0b11101010, 0b00110100, 0b00010010], .jpCcNn .pe 0x1234),
    ([0b11000011, 0b00110100, 0b00010010], .jpNn 0x1234),
    ([0b11001011], .prefixCb),
    ([0b11010011, 0b01000010], .outNA 0x42),
    ([0b11011011, 0b01000010], .inAN 0x42),
    ([0b11100011], .exMemSpHl),
    ([0b11101011], .exDeHl),
    ([0b11110011], .di),
    ([0b11111011], .ei),
    ([0b11101100, 0b00110100, 0b00010010], .callCcNn .pe 0x1234),
    ([0b11100101], .pushQq .hl),
    ([0b11001101, 0b00110100, 0b00010010], .callNn 0x1234),
    ([0b11011101], .prefixDd),
    ([0b11101101], .prefixEd),
    ([0b11111101], .prefixFd),
    ([0b11000110, 0b01000010], .addAN 0x42),
    ([0b11001110, 0b01000010], .adcAN 0x42),
    ([0b11010110, 0b01000010], .subN 0x42),
    ([0b11011110, 0b01000010], .sbcAN 0x42),
    ([0b11100110, 0b01000010], .andN 0x42),
    ([0b11101110, 0b01000010], .xorN 0x42)
  ] decodesTo = true := by decide

theorem test_decode_main_2_b : List.all [
    ([0b11010001], .popQq .de),
    ([0b11100010, 0b11001101, 0b10101011], .jpCcNn .po 0xABCD),
    ([0b11000011, 0b11001101, 0b10101011], .jpNn 0xABCD),
    ([0b11010011, 0b10101001], .outNA 0xA9),
    ([0b11011011, 0b10101001], .inAN 0xA9),
    ([0b11100100, 0b11001101, 0b10101011], .callCcNn .po 0xABCD),
    ([0b11010101], .pushQq .de),
    ([0b11001101, 0b11001101, 0b10101011], .callNn 0xABCD),
    ([0b11000110, 0b10101001], .addAN 0xA9),
    ([0b11001110, 0b10101001], .adcAN 0xA9),
    ([0b11010110, 0b10101001], .subN 0xA9),
    ([0b11011110, 0b10101001], .sbcAN 0xA9),
    ([0b11100110, 0b10101001], .andN 0xA9),
    ([0b11101110, 0b10101001], .xorN 0xA9)
  ] decodesTo = true := by decide

theorem test_decode_main_3_a : List.all [
    ([0b11110110, 0b01000010], .orN 0x42),
    ([0b11111110, 0b01000010], .cpN 0x42),
    ([0b11101111], .rstP 5)
  ] decodesTo = true := by decide

theorem test_decode_main_3_b : List.all [
    ([0b11110110, 0b10101001], .orN 0xA9),
    ([0b11111110, 0b10101001], .cpN 0xA9),
    ([0b11100111], .rstP 4)
  ] decodesTo = true := by decide

theorem test_decode_cb_a : List.all [
    ([0b11001011, 0b00000010], .rlcR .d),
    ([0b11001011, 0b00000110], .rlcMemHl),
    ([0b11001011, 0b00001010], .rrcR .d),
    ([0b11001011, 0b00001110], .rrcMemHl),
    ([0b11001011, 0b00010010], .rlR .d),
    ([0b11001011, 0b00010110], .rlMemHl),
    ([0b11001011, 0b00011010], .rrR .d),
    ([0b11001011, 0b00011110], .rrMemHl),
    ([0b11001011, 0b00100010], .slaR .d),
    ([0b11001011, 0b00100110], .slaMemHl),
    ([0b11001011, 0b00101010], .sraR .d),
    ([0b11001011, 0b00101110], .sraMemHl),
    ([0b11001011, 0b00110010], .sllR .d),
    ([0b11001011, 0b00110110], .sllMemHl),
    ([0b11001011, 0b00111010], .srlR .d),
    ([0b11001011, 0b00111110], .srlMemHl),
    ([0b11001011, 0b01101010], .bitBR 5 .d),
    ([0b11001011, 0b01101110], .bitBMemHl 5),
    ([0b11001011, 0b10101010], .resBR 5 .d),
    ([0b11001011, 0b10101110], .resBMemHl 5),
    ([0b11001011, 0b11101010], .setBR 5 .d),
    ([0b11001011, 0b11101110], .setBMemHl 5)
  ] decodesTo = true := by decide

theorem test_decode_cb_b : List.all [
    ([0b11001011, 0b00000111], .rlcR .a),
    ([0b11001011, 0b00001111], .rrcR .a),
    ([0b11001011, 0b00010111], .rlR .a),
    ([0b11001011, 0b00011111], .rrR .a),
    ([0b11001011, 0b00100111], .slaR .a),
    ([0b11001011, 0b00101111], .sraR .a),
    ([0b11001011, 0b00110111], .sllR .a),
    ([0b11001011, 0b00111111], .srlR .a),
    ([0b11001011, 0b01100111], .bitBR 4 .a),
    ([0b11001011, 0b01100110], .bitBMemHl 4),
    ([0b11001011, 0b10100111], .resBR 4 .a),
    ([0b11001011, 0b10100110], .resBMemHl 4),
    ([0b11001011, 0b11100111], .setBR 4 .a),
    ([0b11001011, 0b11100110], .setBMemHl 4)
  ] decodesTo = true := by decide

theorem test_decode_ed_0_a : List.all [
    ([0b11101101, 0b00101010], .edNop0 42),
    ([0b11101101, 0b01101000], .inRC .l),
    ([0b11101101, 0b01110000], .inFC),
    ([0b11101101, 0b01101001], .outCR .l),
    ([0b11101101, 0b01110001], .outC0),
    ([0b11101101, 0b01100010], .sbcHlSs .hl),
    ([0b11101101, 0b01101010], .adcHlSs .hl),
    ([0b11101101, 0b01100011, 0b00110100, 0b00010010], .ldMemNnDd 0x1234 .hl),
    ([0b11101101, 0b01101011, 0b00110100, 0b00010010], .ldDdMemNn .hl 0x1234),
    ([0b11101101, 0b01101100], .neg 5),
    ([0b11101101, 0b01000101], .retn 0),
    ([0b11101101, 0b01001101], .reti),
    ([0b11101101, 0b01101110], .imN 5),
    ([0b11101101, 0b01000111], .ldIA),
    ([0b11101101, 0b01001111], .ldRfA),
    ([0b11101101, 0b01010111], .ldAI),
    ([0b11101101, 0b01011111], .ldARf),
    ([0b11101101, 0b01100111], .rrd),
    ([0b11101101, 0b01101111], .rld),
    ([0b11101101, 0b01110111], .edNop7 0),
    ([0b11101101, 0b10010010], .edNop8 18),
    ([0b11101101, 0b10100000], .ldi),
    ([0b11101101, 0b10100001], .cpi),
    ([0b11101101, 0b10100010], .ini),
    ([0b11101101, 0b10100011], .outi),
    ([0b11101101, 0b10101000], .ldd)
  ] decodesTo = true := by decide

theorem test_decode_ed_0_b : List.all [
    ([0b11101101, 0b00100111], .edNop0 39),
    ([0b11101101, 0b01100000], .inRC .h),
    ([0b11101101, 0b01100001], .outCR .h),
    ([0b11101101, 0b01010010], .sbcHlSs .de),
    ([0b11101101, 0b01011010], .adcHlSs .de),
    ([0b11101101, 0b01010011, 0b11001101, 0b10101011], .ldMemNnDd 0xABCD .de),
    ([0b11101101, 0b01011011, 0b11001101, 0b10101011], .ldDdMemNn .de 0xABCD),
    ([0b11101101, 0b01100100], .neg 4),
    ([0b11101101, 0b01111101], .retn 7),
    ([0b11101101, 0b01100110], .imN 4),
    ([0b11101101, 0b01111111], .edNop7 1),
    ([0b11101101, 0b10001111], .edNop8 15)
  ] decodesTo = true := by decide

theorem test_decode_ed_1_a : List.all [
    ([0b11101101, 0b10101001], .cpd),
    ([0b11101101, 0b10101010], .ind),
    ([0b11101101, 0b10101011], .outd),
    ([0b11101101, 0b10110000], .ldir),
    ([0b11101101, 0b10110001], .cpir),
    ([0b11101101, 0b10110010], .inir),
    ([0b11101101, 0b10110011], .otir),
    ([0b11101101, 0b10111000], .lddr),
    ([0b11101101, 0b10111001], .cpdr),
    ([0b11101101, 0b10111010], .indr),
    ([0b11101101, 0b10111011], .otdr),
    ([0b11101101, 0b10110110], .edNopA 2 2),
    ([0b11101101, 0b11101010], .edNopC 42)
  ] decodesTo = true := by decide

theorem test_decode_ed_1_b : List.all [
    ([0b11101101, 0b10101101], .edNopA 1 1),
    ([0b11101101, 0b11100111], .edNopC 39)
  ] decodesTo = true := by decide

theorem test_decode_xy_0_a : List.all [
    ([0b11011101, 0b00101001], .addXyPp .ix .xy),
    ([0b11011101, 0b00100001, 0b00110100, 0b00010010], .ldXyNn .ix 0x1234),
    ([0b11011101, 0b00100010, 0b00110100, 0b00010010], .ldMemNnXy .ix 0x1234),
    ([0b11011101, 0b00100011], .incXy .ix),
    ([0b11011101, 0b00101100], .incP .ix .low),
    ([0b11011101, 0b00101101], .decP .ix .low),
    ([0b11011101, 0b00101110, 0b01000010], .ldPN .ix .low 0x42),
    ([0b11011101, 0b00101010, 0b00110100, 0b00010010], .ldXyMemNn .ix 0x1234),
    ([0b11011101, 0b00101011], .decXy .ix),
    ([0b11011101, 0b00110100, 0b00000101], .incMemXyd .ix 0x05),
    ([0b11011101, 0b00110101, 0b00000101], .decMemXyd .ix 0x05),
    ([0b11011101, 0b00110110, 0b00000101, 0b01000010], .ldMemXydN .ix 0x05 0x42),
    ([0b11011101, 0b01101110, 0b00000101], .ldRMemXyd .ix .l 0x05),
    ([0b11011101, 0b01110010, 0b00000101], .ldMemXydR .ix 0x05 .d),
    ([0b11011101, 0b01100010], .ldPP .ix (.half .high) .d),
    ([0b11011101, 0b10000101], .addAP .ix .low),
    ([0b11011101, 0b10000110, 0b00000101], .addAMemXyd .ix 0x05),
    ([0b11011101, 0b10001101], .adcAP .ix .low),
    ([0b11011101, 0b10001110, 0b00000101], .adcAMemXyd .ix 0x05),
    ([0b11011101, 0b10010101], .subP .ix .low),
    ([0b11011101, 0b10010110, 0b00000101], .subMemXyd .ix 0x05),
    ([0b11011101, 0b10011101], .sbcAP .ix .low),
    ([0b11011101, 0b10011110, 0b00000101], .sbcAMemXyd .ix 0x05),
    ([0b11011101, 0b10100101], .andP .ix .low),
    ([0b11011101, 0b10100110, 0b00000101], .andMemXyd .ix 0x05),
    ([0b11011101, 0b10101101], .xorP .ix .low)
  ] decodesTo = true := by decide

theorem test_decode_xy_0_b : List.all [
    ([0b11111101, 0b00011001], .addXyPp .iy .de),
    ([0b11111101, 0b00100001, 0b11001101, 0b10101011], .ldXyNn .iy 0xABCD),
    ([0b11111101, 0b00100010, 0b11001101, 0b10101011], .ldMemNnXy .iy 0xABCD),
    ([0b11111101, 0b00100011], .incXy .iy),
    ([0b11111101, 0b00100100], .incP .iy .high),
    ([0b11111101, 0b00100101], .decP .iy .high),
    ([0b11111101, 0b00100110, 0b10101001], .ldPN .iy .high 0xA9),
    ([0b11111101, 0b00101010, 0b11001101, 0b10101011], .ldXyMemNn .iy 0xABCD),
    ([0b11111101, 0b00101011], .decXy .iy),
    ([0b11111101, 0b00110100, 0b10000000], .incMemXyd .iy 0x80),
    ([0b11111101, 0b00110101, 0b10000000], .decMemXyd .iy 0x80),
    ([0b11111101, 0b00110110, 0b10000000, 0b10101001], .ldMemXydN .iy 0x80 0xA9),
    ([0b11111101, 0b01100110, 0b10000000], .ldRMemXyd .iy .h 0x80),
    ([0b11111101, 0b01110111, 0b10000000], .ldMemXydR .iy 0x80 .a),
    ([0b11111101, 0b01111101], .ldPP .iy .a (.half .low)),
    ([0b11111101, 0b10000100], .addAP .iy .high),
    ([0b11111101, 0b10000110, 0b10000000], .addAMemXyd .iy 0x80),
    ([0b11111101, 0b10001100], .adcAP .iy .high),
    ([0b11111101, 0b10001110, 0b10000000], .adcAMemXyd .iy 0x80),
    ([0b11111101, 0b10010100], .subP .iy .high),
    ([0b11111101, 0b10010110, 0b10000000], .subMemXyd .iy 0x80),
    ([0b11111101, 0b10011100], .sbcAP .iy .high),
    ([0b11111101, 0b10011110, 0b10000000], .sbcAMemXyd .iy 0x80),
    ([0b11111101, 0b10100100], .andP .iy .high),
    ([0b11111101, 0b10100110, 0b10000000], .andMemXyd .iy 0x80),
    ([0b11111101, 0b10101100], .xorP .iy .high)
  ] decodesTo = true := by decide

theorem test_decode_xy_1_a : List.all [
    ([0b11011101, 0b10101110, 0b00000101], .xorMemXyd .ix 0x05),
    ([0b11011101, 0b10110101], .orP .ix .low),
    ([0b11011101, 0b10110110, 0b00000101], .orMemXyd .ix 0x05),
    ([0b11011101, 0b10111101], .cpP .ix .low),
    ([0b11011101, 0b10111110, 0b00000101], .cpMemXyd .ix 0x05),
    ([0b11011101, 0b11001011], .prefixXyCb .ix),
    ([0b11011101, 0b11011101], .repeatedPrefixDd .ix),
    ([0b11011101, 0b11101101, 0b10110000], .prefixEdAfterXy .ix .ldir),
    ([0b11011101, 0b11111101], .repeatedPrefixFd .ix),
    ([0b11011101, 0b11100001], .popXy .ix),
    ([0b11011101, 0b11100011], .exMemSpXy .ix),
    ([0b11011101, 0b11100101], .pushXy .ix),
    ([0b11011101, 0b11101001], .jpXy .ix),
    ([0b11011101, 0b11111001], .ldSpXy .ix),
    ([0b11011101, 0b11101011], .asMainSpace .ix .exDeHl)
  ] decodesTo = true := by decide

theorem test_decode_xy_1_b : List.all [
    ([0b11111101, 0b10101110, 0b10000000], .xorMemXyd .iy 0x80),
    ([0b11111101, 0b10110100], .orP .iy .high),
    ([0b11111101, 0b10110110, 0b10000000], .orMemXyd .iy 0x80),
    ([0b11111101, 0b10111100], .cpP .iy .high),
    ([0b11111101, 0b10111110, 0b10000000], .cpMemXyd .iy 0x80),
    ([0b11111101, 0b11001011], .prefixXyCb .iy),
    ([0b11111101, 0b11011101], .repeatedPrefixDd .iy),
    ([0b11111101, 0b11101101, 0b10110000], .prefixEdAfterXy .iy .ldir),
    ([0b11111101, 0b11111101], .repeatedPrefixFd .iy),
    ([0b11111101, 0b11100001], .popXy .iy),
    ([0b11111101, 0b11100011], .exMemSpXy .iy),
    ([0b11111101, 0b11100101], .pushXy .iy),
    ([0b11111101, 0b11101001], .jpXy .iy),
    ([0b11111101, 0b11111001], .ldSpXy .iy),
    ([0b11111101, 0b11101011], .asMainSpace .iy .exDeHl)
  ] decodesTo = true := by decide

theorem test_decode_xycb_a : List.all [
    ([0b11011101, 0b11001011, 0b00000101, 0b00000110], .rlcMemXyd .ix 0x05),
    ([0b11011101, 0b11001011, 0b00000101, 0b00000010], .rlcMemXydR .ix 0x05 .d),
    ([0b11011101, 0b11001011, 0b00000101, 0b00001110], .rrcMemXyd .ix 0x05),
    ([0b11011101, 0b11001011, 0b00000101, 0b00001010], .rrcMemXydR .ix 0x05 .d),
    ([0b11011101, 0b11001011, 0b00000101, 0b00010110], .rlMemXyd .ix 0x05),
    ([0b11011101, 0b11001011, 0b00000101, 0b00010010], .rlMemXydR .ix 0x05 .d),
    ([0b11011101, 0b11001011, 0b00000101, 0b00011110], .rrMemXyd .ix 0x05),
    ([0b11011101, 0b11001011, 0b00000101, 0b00011010], .rrMemXydR .ix 0x05 .d),
    ([0b11011101, 0b11001011, 0b00000101, 0b00100110], .slaMemXyd .ix 0x05),
    ([0b11011101, 0b11001011, 0b00000101, 0b00100010], .slaMemXydR .ix 0x05 .d),
    ([0b11011101, 0b11001011, 0b00000101, 0b00101110], .sraMemXyd .ix 0x05),
    ([0b11011101, 0b11001011, 0b00000101, 0b00101010], .sraMemXydR .ix 0x05 .d),
    ([0b11011101, 0b11001011, 0b00000101, 0b00110110], .sllMemXyd .ix 0x05),
    ([0b11011101, 0b11001011, 0b00000101, 0b00110010], .sllMemXydR .ix 0x05 .d),
    ([0b11011101, 0b11001011, 0b00000101, 0b00111110], .srlMemXyd .ix 0x05),
    ([0b11011101, 0b11001011, 0b00000101, 0b00111010], .srlMemXydR .ix 0x05 .d),
    ([0b11011101, 0b11001011, 0b00000101, 0b01101010], .bitBMemXyd .ix 0x05 5 2),
    ([0b11011101, 0b11001011, 0b00000101, 0b10101110], .resBMemXyd .ix 0x05 5),
    ([0b11011101, 0b11001011, 0b00000101, 0b10101010], .resBMemXydR .ix 0x05 5 .d),
    ([0b11011101, 0b11001011, 0b00000101, 0b11101110], .setBMemXyd .ix 0x05 5),
    ([0b11011101, 0b11001011, 0b00000101, 0b11101010], .setBMemXydR .ix 0x05 5 .d)
  ] decodesTo = true := by decide

theorem test_decode_xycb_b : List.all [
    ([0b11111101, 0b11001011, 0b10000000, 0b00000110], .rlcMemXyd .iy 0x80),
    ([0b11111101, 0b11001011, 0b10000000, 0b00000111], .rlcMemXydR .iy 0x80 .a),
    ([0b11111101, 0b11001011, 0b10000000, 0b00001110], .rrcMemXyd .iy 0x80),
    ([0b11111101, 0b11001011, 0b10000000, 0b00001111], .rrcMemXydR .iy 0x80 .a),
    ([0b11111101, 0b11001011, 0b10000000, 0b00010110], .rlMemXyd .iy 0x80),
    ([0b11111101, 0b11001011, 0b10000000, 0b00010111], .rlMemXydR .iy 0x80 .a),
    ([0b11111101, 0b11001011, 0b10000000, 0b00011110], .rrMemXyd .iy 0x80),
    ([0b11111101, 0b11001011, 0b10000000, 0b00011111], .rrMemXydR .iy 0x80 .a),
    ([0b11111101, 0b11001011, 0b10000000, 0b00100110], .slaMemXyd .iy 0x80),
    ([0b11111101, 0b11001011, 0b10000000, 0b00100111], .slaMemXydR .iy 0x80 .a),
    ([0b11111101, 0b11001011, 0b10000000, 0b00101110], .sraMemXyd .iy 0x80),
    ([0b11111101, 0b11001011, 0b10000000, 0b00101111], .sraMemXydR .iy 0x80 .a),
    ([0b11111101, 0b11001011, 0b10000000, 0b00110110], .sllMemXyd .iy 0x80),
    ([0b11111101, 0b11001011, 0b10000000, 0b00110111], .sllMemXydR .iy 0x80 .a),
    ([0b11111101, 0b11001011, 0b10000000, 0b00111110], .srlMemXyd .iy 0x80),
    ([0b11111101, 0b11001011, 0b10000000, 0b00111111], .srlMemXydR .iy 0x80 .a),
    ([0b11111101, 0b11001011, 0b10000000, 0b01100111], .bitBMemXyd .iy 0x80 4 7),
    ([0b11111101, 0b11001011, 0b10000000, 0b10100110], .resBMemXyd .iy 0x80 4),
    ([0b11111101, 0b11001011, 0b10000000, 0b10100111], .resBMemXydR .iy 0x80 4 .a),
    ([0b11111101, 0b11001011, 0b10000000, 0b11100110], .setBMemXyd .iy 0x80 4),
    ([0b11111101, 0b11001011, 0b10000000, 0b11100111], .setBMemXydR .iy 0x80 4 .a)
  ] decodesTo = true := by decide

theorem test_decode_rejects_no_bytes : decode [] = .error .noBytes := by decide
theorem test_decode_rejects_a_cut_off_instruction : decode [0xDD, 0xCB, 0x01] = .error (.truncated 4) := by decide
theorem test_decode_halt_slot : decode [0b01110110] = .ok (.halt, []) := by decide
theorem test_table_word : decodeTableWord 16 0x28CB = some (.sraR .b) := by decide
theorem test_table_word_operand_zeros : decodeTableWord 8 0x3A = some (.ldAMemNn 0x0000) := by decide

/-! ### Single steps of 95_test_vectors.md section 2 -/

/-- The start state of the vectors: everything 0 but `SP` and `PC`. -/
def start : CoreState where
  a := 0
  f := 0
  b := 0
  c := 0
  d := 0
  e := 0
  h := 0
  l := 0
  altA := 0
  altF := 0
  altB := 0
  altC := 0
  altD := 0
  altE := 0
  altH := 0
  altL := 0
  ix := 0
  iy := 0
  sp := 0x8000
  pc := 0x0100
  i := 0
  r := 0
  iff1 := false
  iff2 := false
  im := .im0
  halt := false
  nmiPending := false
  intLine := false
  inhibit := false
  pfx := none
  wz := 0
  cycles := 0

/-- The machine with these registers, the bytes `code` at 0100, the bytes `data` in memory, and `port` as what every
port reads as. -/
def machine (c : CoreState) (code : List Byte) (data : List (Word × Byte)) (port : Byte) : State :=
  let s : State := { State.reset with toCoreState := c, adapter := .ram64k port }
  data.foldl (fun s x => s.poke x.1 x.2) (s.pokeBytes 0x0100 code)

/-- What one step leads to passes the check. -/
def steps (s : State) (check : State → Bool) : Bool :=
  match step s with
  | .next t => check t
  | _ => false

/-- LD r,r'. -/
theorem test_L2 : steps (machine { start with h := 0x12, l := 0x34 } [0x65] [] 0xFF) (fun t =>
    t.h == 0x34 && t.f == 0x00 && t.pc == 0x0101 && t.r == 0x01 && t.cycles == 4) = true := by decide
/-- LD p,p'. -/
theorem test_L3 : steps (machine { start with h := 0xAA, l := 0xBB, ix := 0x1234 } [0xDD, 0x65] [] 0xFF) (fun t =>
    t.ix == 0x3434 && t.f == 0x00 && t.pc == 0x0102 && t.r == 0x02 && t.cycles == 8) = true := by decide
/-- LD r,n. -/
theorem test_L5 : steps (machine start [0x06, 0x9C] [] 0xFF) (fun t =>
    t.b == 0x9C && t.f == 0x00 && t.pc == 0x0102 && t.r == 0x01 && t.cycles == 7) = true := by decide
/-- LD r,(HL). -/
theorem test_L7 : steps (machine { start with h := 0x40 } [0x66] [(0x4000, 0x5A)] 0xFF) (fun t =>
    t.h == 0x5A && t.f == 0x00 && t.pc == 0x0101 && t.r == 0x01 && t.cycles == 7) = true := by decide
/-- LD r,(XY+d). -/
theorem test_L10 : steps (machine { start with ix := 0xFFFF } [0xDD, 0x46, 0x01] [(0x0000, 0x99)] 0xFF) (fun t =>
    t.b == 0x99 && t.f == 0x00 && t.pc == 0x0103 && t.r == 0x02 && t.cycles == 19) = true := by decide
/-- LD r,(XY+d). -/
theorem test_L9 : steps (machine { start with iy := 0x4000 } [0xFD, 0x7E, 0xFE] [(0x3FFE, 0x88)] 0xFF) (fun t =>
    t.a == 0x88 && t.wz == 0x3FFE && t.f == 0x00 && t.pc == 0x0103 && t.r == 0x02 && t.cycles == 19) = true := by decide
/-- LD (HL),r. -/
theorem test_L11 : steps (machine { start with a := 0xC3, h := 0x40 } [0x77] [] 0xFF) (fun t =>
    t.mem.read 0x4000 == 0xC3 && t.f == 0x00 && t.pc == 0x0101 && t.r == 0x01 && t.cycles == 7) = true := by decide
/-- LD (XY+d),r. -/
theorem test_L13 : steps (machine { start with h := 0x11, l := 0x22, ix := 0x4000 } [0xDD, 0x75, 0x7F] [] 0xFF) (fun t =>
    t.wz == 0x407F && t.mem.read 0x407F == 0x22 && t.f == 0x00 && t.pc == 0x0103 && t.r == 0x02 && t.cycles == 19) = true := by decide
/-- LD (HL),n. -/
theorem test_L14 : steps (machine { start with h := 0x40 } [0x36, 0xAB] [] 0xFF) (fun t =>
    t.mem.read 0x4000 == 0xAB && t.f == 0x00 && t.pc == 0x0102 && t.r == 0x01 && t.cycles == 10) = true := by decide
/-- LD (XY+d),n. -/
theorem test_L15 : steps (machine { start with iy := 0x4000 } [0xFD, 0x36, 0x80, 0xCD] [] 0xFF) (fun t =>
    t.wz == 0x3F80 && t.mem.read 0x3F80 == 0xCD && t.f == 0x00 && t.pc == 0x0104 && t.r == 0x02 && t.cycles == 19) = true := by decide
/-- LD A,(BC). -/
theorem test_L16 : steps (machine { start with b := 0x40 } [0x0A] [(0x4000, 0x21)] 0xFF) (fun t =>
    t.a == 0x21 && t.wz == 0x4001 && t.f == 0x00 && t.pc == 0x0101 && t.r == 0x01 && t.cycles == 7) = true := by decide
/-- LD A,(DE). -/
theorem test_L17 : steps (machine { start with d := 0x40, e := 0xFF } [0x1A] [(0x40FF, 0x22)] 0xFF) (fun t =>
    t.a == 0x22 && t.wz == 0x4100 && t.f == 0x00 && t.pc == 0x0101 && t.r == 0x01 && t.cycles == 7) = true := by decide
/-- LD A,(nn). -/
theorem test_L18 : steps (machine start [0x3A, 0x00, 0x40] [(0x4000, 0x23)] 0xFF) (fun t =>
    t.a == 0x23 && t.wz == 0x4001 && t.f == 0x00 && t.pc == 0x0103 && t.r == 0x01 && t.cycles == 13) = true := by decide
/-- LD (BC),A. -/
theorem test_L19 : steps (machine { start with a := 0x31, b := 0x40, c := 0xFF } [0x02] [] 0xFF) (fun t =>
    t.wz == 0x3100 && t.mem.read 0x40FF == 0x31 && t.f == 0x00 && t.pc == 0x0101 && t.r == 0x01 && t.cycles == 7) = true := by decide
/-- LD (DE),A. -/
theorem test_L20 : steps (machine { start with a := 0x32, d := 0x40 } [0x12] [] 0xFF) (fun t =>
    t.wz == 0x3201 && t.mem.read 0x4000 == 0x32 && t.f == 0x00 && t.pc == 0x0101 && t.r == 0x01 && t.cycles == 7) = true := by decide
/-- LD (nn),A. -/
theorem test_L21 : steps (machine { start with a := 0x33 } [0x32, 0xFF, 0x40] [] 0xFF) (fun t =>
    t.wz == 0x3300 && t.mem.read 0x40FF == 0x33 && t.f == 0x00 && t.pc == 0x0103 && t.r == 0x01 && t.cycles == 13) = true := by decide
/-- LD A,I. -/
theorem test_L22 : steps (machine { start with f := 0x01, i := 0x80, iff2 := true } [0xED, 0x57] [] 0xFF) (fun t =>
    t.a == 0x80 && t.f == 0x85 && t.pc == 0x0102 && t.r == 0x02 && t.cycles == 9) = true := by decide
/-- LD A,R. -/
theorem test_L24 : steps (machine { start with r := 0xFD, iff2 := true } [0xED, 0x5F] [] 0xFF) (fun t =>
    t.a == 0xFF && t.f == 0xAC && t.pc == 0x0102 && t.r == 0xFF && t.cycles == 9) = true := by decide
/-- LD I,A. -/
theorem test_L26 : steps (machine { start with a := 0x9A, f := 0xFF } [0xED, 0x47] [] 0xFF) (fun t =>
    t.i == 0x9A && t.f == 0xFF && t.pc == 0x0102 && t.r == 0x02 && t.cycles == 9) = true := by decide
/-- LD R,A. -/
theorem test_L27 : steps (machine { start with a := 0x9A } [0xED, 0x4F] [] 0xFF) (fun t =>
    t.f == 0x00 && t.pc == 0x0102 && t.r == 0x9A && t.cycles == 9) = true := by decide
/-- LD p,n. -/
theorem test_L28 : steps (machine { start with iy := 0x1234 } [0xFD, 0x26, 0x56] [] 0xFF) (fun t =>
    t.iy == 0x5634 && t.f == 0x00 && t.pc == 0x0103 && t.r == 0x02 && t.cycles == 11) = true := by decide
/-- LD dd,nn. -/
theorem test_W2 : steps (machine start [0x31, 0xFE, 0xFF] [] 0xFF) (fun t =>
    t.sp == 0xFFFE && t.f == 0x00 && t.pc == 0x0103 && t.r == 0x01 && t.cycles == 10) = true := by decide
/-- LD XY,nn. -/
theorem test_W3 : steps (machine start [0xDD, 0x21, 0x78, 0x56] [] 0xFF) (fun t =>
    t.ix == 0x5678 && t.f == 0x00 && t.pc == 0x0104 && t.r == 0x02 && t.cycles == 14) = true := by decide
/-- LD HL,(nn). -/
theorem test_W5 : steps (machine start [0x2A, 0xFF, 0xFF] [(0x0000, 0x22), (0xFFFF, 0x11)] 0xFF) (fun t =>
    t.h == 0x22 && t.l == 0x11 && t.f == 0x00 && t.pc == 0x0103 && t.r == 0x01 && t.cycles == 16) = true := by decide
/-- LD dd,(nn). -/
theorem test_W7 : steps (machine start [0xED, 0x7B, 0x00, 0x40] [(0x4000, 0xCD), (0x4001, 0xAB)] 0xFF) (fun t =>
    t.sp == 0xABCD && t.wz == 0x4001 && t.f == 0x00 && t.pc == 0x0104 && t.r == 0x02 && t.cycles == 20) = true := by decide
/-- LD XY,(nn). -/
theorem test_W9 : steps (machine start [0xFD, 0x2A, 0x00, 0x40] [(0x4000, 0xCD), (0x4001, 0xAB)] 0xFF) (fun t =>
    t.iy == 0xABCD && t.wz == 0x4001 && t.f == 0x00 && t.pc == 0x0104 && t.r == 0x02 && t.cycles == 20) = true := by decide
/-- LD (nn),HL. -/
theorem test_W10 : steps (machine { start with h := 0xBE, l := 0xEF } [0x22, 0x00, 0x40] [] 0xFF) (fun t =>
    t.wz == 0x4001 && t.mem.read 0x4000 == 0xEF && t.mem.read 0x4001 == 0xBE && t.f == 0x00 && t.pc == 0x0103 && t.r == 0x01 && t.cycles == 16) = true := by decide
/-- LD (nn),dd. -/
theorem test_W12 : steps (machine { start with sp := 0x1234 } [0xED, 0x73, 0xFF, 0xFF] [] 0xFF) (fun t =>
    t.mem.read 0x0000 == 0x12 && t.mem.read 0xFFFF == 0x34 && t.f == 0x00 && t.pc == 0x0104 && t.r == 0x02 && t.cycles == 20) = true := by decide
/-- LD (nn),XY. -/
theorem test_W13 : steps (machine { start with ix := 0xCAFE } [0xDD, 0x22, 0x00, 0x40] [] 0xFF) (fun t =>
    t.wz == 0x4001 && t.mem.read 0x4000 == 0xFE && t.mem.read 0x4001 == 0xCA && t.f == 0x00 && t.pc == 0x0104 && t.r == 0x02 && t.cycles == 20) = true := by decide
/-- LD SP,HL. -/
theorem test_W14 : steps (machine { start with h := 0x43, l := 0x21 } [0xF9] [] 0xFF) (fun t =>
    t.sp == 0x4321 && t.f == 0x00 && t.pc == 0x0101 && t.r == 0x01 && t.cycles == 6) = true := by decide
/-- LD SP,XY. -/
theorem test_W15 : steps (machine { start with iy := 0x4321 } [0xFD, 0xF9] [] 0xFF) (fun t =>
    t.sp == 0x4321 && t.f == 0x00 && t.pc == 0x0102 && t.r == 0x02 && t.cycles == 10) = true := by decide
/-- PUSH qq. -/
theorem test_W17 : steps (machine { start with a := 0x12, f := 0xD7 } [0xF5] [] 0xFF) (fun t =>
    t.sp == 0x7FFE && t.mem.read 0x7FFE == 0xD7 && t.mem.read 0x7FFF == 0x12 && t.f == 0xD7 && t.pc == 0x0101 && t.r == 0x01 && t.cycles == 11) = true := by decide
/-- PUSH XY. -/
theorem test_W19 : steps (machine { start with ix := 0xABCD } [0xDD, 0xE5] [] 0xFF) (fun t =>
    t.sp == 0x7FFE && t.mem.read 0x7FFE == 0xCD && t.mem.read 0x7FFF == 0xAB && t.f == 0x00 && t.pc == 0x0102 && t.r == 0x02 && t.cycles == 15) = true := by decide
/-- POP qq. -/
theorem test_W21 : steps (machine start [0xF1] [(0x8000, 0xFF), (0x8001, 0x12)] 0xFF) (fun t =>
    t.a == 0x12 && t.sp == 0x8002 && t.f == 0xFF && t.pc == 0x0101 && t.r == 0x01 && t.cycles == 10) = true := by decide
/-- POP XY. -/
theorem test_W23 : steps (machine start [0xFD, 0xE1] [(0x8000, 0x34), (0x8001, 0x12)] 0xFF) (fun t =>
    t.iy == 0x1234 && t.sp == 0x8002 && t.f == 0x00 && t.pc == 0x0102 && t.r == 0x02 && t.cycles == 14) = true := by decide
/-- EX DE,HL. -/
theorem test_X1 : steps (machine { start with d := 0x11, e := 0x11, h := 0x22, l := 0x22 } [0xEB] [] 0xFF) (fun t =>
    t.d == 0x22 && t.e == 0x22 && t.h == 0x11 && t.l == 0x11 && t.f == 0x00 && t.pc == 0x0101 && t.r == 0x01 && t.cycles == 4) = true := by decide
/-- EX DE,HL. -/
theorem test_X2 : steps (machine { start with d := 0x11, e := 0x11, h := 0x22, l := 0x22, ix := 0x3333 } [0xDD, 0xEB] [] 0xFF) (fun t =>
    t.d == 0x22 && t.e == 0x22 && t.h == 0x11 && t.l == 0x11 && t.f == 0x00 && t.pc == 0x0102 && t.r == 0x02 && t.cycles == 8) = true := by decide
/-- EX AF,AF'. -/
theorem test_X3 : steps (machine { start with a := 0x12, f := 0x34, altA := 0x56, altF := 0x78 } [0x08] [] 0xFF) (fun t =>
    t.a == 0x56 && t.altA == 0x12 && t.altF == 0x34 && t.f == 0x78 && t.pc == 0x0101 && t.r == 0x01 && t.cycles == 4) = true := by decide
/-- EXX. -/
theorem test_X4 : steps (machine { start with b := 0x11, c := 0x11, d := 0x22, e := 0x22, h := 0x33, l := 0x33, altB := 0x44, altC := 0x44, altD := 0x55, altE := 0x55, altH := 0x66, altL := 0x66 } [0xD9] [] 0xFF) (fun t =>
    t.b == 0x44 && t.c == 0x44 && t.d == 0x55 && t.e == 0x55 && t.h == 0x66 && t.l == 0x66 && t.altB == 0x11 && t.altC == 0x11 && t.altD == 0x22 && t.altE == 0x22 && t.altH == 0x33 && t.altL == 0x33 && t.f == 0x00 && t.pc == 0x0101 && t.r == 0x01 && t.cycles == 4) = true := by decide
/-- EX (SP),HL. -/
theorem test_X5 : steps (machine { start with h := 0x12, l := 0x34 } [0xE3] [(0x8000, 0xCD), (0x8001, 0xAB)] 0xFF) (fun t =>
    t.h == 0xAB && t.l == 0xCD && t.wz == 0xABCD && t.mem.read 0x8000 == 0x34 && t.mem.read 0x8001 == 0x12 && t.f == 0x00 && t.pc == 0x0101 && t.r == 0x01 && t.cycles == 19) = true := by decide
/-- EX (SP),XY. -/
theorem test_X6 : steps (machine { start with ix := 0x1234 } [0xDD, 0xE3] [(0x8000, 0xCD), (0x8001, 0xAB)] 0xFF) (fun t =>
    t.ix == 0xABCD && t.wz == 0xABCD && t.mem.read 0x8000 == 0x34 && t.mem.read 0x8001 == 0x12 && t.f == 0x00 && t.pc == 0x0102 && t.r == 0x02 && t.cycles == 23) = true := by decide
/-- LDI. -/
theorem test_X8 : steps (machine { start with a := 0x10, c := 0x01, d := 0x50, h := 0x40 } [0xED, 0xA0] [(0x4000, 0x28)] 0xFF) (fun t =>
    t.c == 0x00 && t.e == 0x01 && t.l == 0x01 && t.mem.read 0x5000 == 0x28 && t.f == 0x08 && t.pc == 0x0102 && t.r == 0x02 && t.cycles == 16) = true := by decide
/-- LDIR. -/
theorem test_X9 : steps (machine { start with c := 0x03, d := 0x50, h := 0x40 } [0xED, 0xB0] [(0x4000, 0xA1), (0x4001, 0xA2), (0x4002, 0xA3)] 0xFF) (fun t =>
    t.c == 0x02 && t.e == 0x01 && t.l == 0x01 && t.wz == 0x0101 && t.mem.read 0x5000 == 0xA1 && t.f == 0x04 && t.pc == 0x0100 && t.r == 0x02 && t.cycles == 21) = true := by decide
/-- LDD. -/
theorem test_X12 : steps (machine { start with c := 0x02, d := 0x50, h := 0x40 } [0xED, 0xA8] [(0x4000, 0x28)] 0xFF) (fun t =>
    t.c == 0x01 && t.d == 0x4F && t.e == 0xFF && t.h == 0x3F && t.l == 0xFF && t.mem.read 0x5000 == 0x28 && t.f == 0x0C && t.pc == 0x0102 && t.r == 0x02 && t.cycles == 16) = true := by decide
/-- CPI. -/
theorem test_X15 : steps (machine { start with a := 0x10, c := 0x01, h := 0x40 } [0xED, 0xA1] [(0x4000, 0x01)] 0xFF) (fun t =>
    t.c == 0x00 && t.l == 0x01 && t.wz == 0x0001 && t.f == 0x3A && t.pc == 0x0102 && t.r == 0x02 && t.cycles == 16) = true := by decide
/-- CPD. -/
theorem test_X18 : steps (machine { start with a := 0x3B, c := 0x02, h := 0x40 } [0xED, 0xA9] [(0x4000, 0x3B)] 0xFF) (fun t =>
    t.c == 0x01 && t.h == 0x3F && t.l == 0xFF && t.wz == 0xFFFF && t.f == 0x46 && t.pc == 0x0102 && t.r == 0x02 && t.cycles == 16) = true := by decide
/-- ADD r. -/
theorem test_A6 : steps (machine { start with a := 0x80, b := 0x80 } [0x80] [] 0xFF) (fun t =>
    t.a == 0x00 && t.f == 0x45 && t.pc == 0x0101 && t.r == 0x01 && t.cycles == 4) = true := by decide
/-- ADD n. -/
theorem test_A2 : steps (machine { start with a := 0x7F } [0xC6, 0x01] [] 0xFF) (fun t =>
    t.a == 0x80 && t.f == 0x94 && t.pc == 0x0102 && t.r == 0x01 && t.cycles == 7) = true := by decide
/-- ADC n. -/
theorem test_A10 : steps (machine { start with f := 0x01 } [0xCE, 0xFF] [] 0xFF) (fun t =>
    t.f == 0x51 && t.pc == 0x0102 && t.r == 0x01 && t.cycles == 7) = true := by decide
/-- ADC r. -/
theorem test_A9 : steps (machine { start with a := 0xFF, f := 0x01, c := 0xFF } [0x89] [] 0xFF) (fun t =>
    t.f == 0xB9 && t.pc == 0x0101 && t.r == 0x01 && t.cycles == 4) = true := by decide
/-- SUB n. -/
theorem test_A12 : steps (machine { start with a := 0x80 } [0xD6, 0x01] [] 0xFF) (fun t =>
    t.a == 0x7F && t.f == 0x3E && t.pc == 0x0102 && t.r == 0x01 && t.cycles == 7) = true := by decide
/-- SUB r. -/
theorem test_A14 : steps (machine { start with a := 0x42 } [0x97] [] 0xFF) (fun t =>
    t.a == 0x00 && t.f == 0x42 && t.pc == 0x0101 && t.r == 0x01 && t.cycles == 4) = true := by decide
/-- SBC n. -/
theorem test_A16 : steps (machine { start with a := 0x80, f := 0x01 } [0xDE, 0x00] [] 0xFF) (fun t =>
    t.a == 0x7F && t.f == 0x3E && t.pc == 0x0102 && t.r == 0x01 && t.cycles == 7) = true := by decide
/-- SBC r. -/
theorem test_A17 : steps (machine { start with f := 0x01 } [0x9A] [] 0xFF) (fun t =>
    t.a == 0xFF && t.f == 0xBB && t.pc == 0x0101 && t.r == 0x01 && t.cycles == 4) = true := by decide
/-- AND n. -/
theorem test_A19 : steps (machine { start with a := 0xFF } [0xE6, 0xA8] [] 0xFF) (fun t =>
    t.a == 0xA8 && t.f == 0xB8 && t.pc == 0x0102 && t.r == 0x01 && t.cycles == 7) = true := by decide
/-- XOR n. -/
theorem test_A20 : steps (machine { start with a := 0x55, f := 0xFF } [0xEE, 0xFF] [] 0xFF) (fun t =>
    t.a == 0xAA && t.f == 0xAC && t.pc == 0x0102 && t.r == 0x01 && t.cycles == 7) = true := by decide
/-- XOR r. -/
theorem test_A21 : steps (machine { start with a := 0x55, f := 0xFF } [0xAF] [] 0xFF) (fun t =>
    t.a == 0x00 && t.f == 0x44 && t.pc == 0x0101 && t.r == 0x01 && t.cycles == 4) = true := by decide
/-- OR n. -/
theorem test_A23 : steps (machine { start with a := 0x80 } [0xF6, 0x01] [] 0xFF) (fun t =>
    t.a == 0x81 && t.f == 0x84 && t.pc == 0x0102 && t.r == 0x01 && t.cycles == 7) = true := by decide
/-- CP n. -/
theorem test_A24 : steps (machine start [0xFE, 0x28] [] 0xFF) (fun t =>
    t.f == 0xBB && t.pc == 0x0102 && t.r == 0x01 && t.cycles == 7) = true := by decide
/-- ADD (HL). -/
theorem test_A27 : steps (machine { start with a := 0x10, h := 0x40 } [0x86] [(0x4000, 0x20)] 0xFF) (fun t =>
    t.a == 0x30 && t.f == 0x20 && t.pc == 0x0101 && t.r == 0x01 && t.cycles == 7) = true := by decide
/-- SUB (XY+d). -/
theorem test_A28 : steps (machine { start with a := 0x10, ix := 0x4000 } [0xDD, 0x96, 0x03] [(0x4003, 0x0F)] 0xFF) (fun t =>
    t.a == 0x01 && t.wz == 0x4003 && t.f == 0x12 && t.pc == 0x0103 && t.r == 0x02 && t.cycles == 19) = true := by decide
/-- AND (XY+d). -/
theorem test_A29 : steps (machine { start with a := 0x10, iy := 0x4000 } [0xFD, 0xA6, 0xFF] [(0x3FFF, 0xFF)] 0xFF) (fun t =>
    t.wz == 0x3FFF && t.f == 0x10 && t.pc == 0x0103 && t.r == 0x02 && t.cycles == 19) = true := by decide
/-- ADD p. -/
theorem test_A30 : steps (machine { start with a := 0x01, ix := 0xFF02 } [0xDD, 0x84] [] 0xFF) (fun t =>
    t.a == 0x00 && t.f == 0x51 && t.pc == 0x0102 && t.r == 0x02 && t.cycles == 8) = true := by decide
/-- CP p. -/
theorem test_A31 : steps (machine { start with a := 0x01, iy := 0xFF02 } [0xFD, 0xBD] [] 0xFF) (fun t =>
    t.f == 0x93 && t.pc == 0x0102 && t.r == 0x02 && t.cycles == 8) = true := by decide
/-- INC r. -/
theorem test_A32 : steps (machine { start with f := 0x01, b := 0x7F } [0x04] [] 0xFF) (fun t =>
    t.b == 0x80 && t.f == 0x95 && t.pc == 0x0101 && t.r == 0x01 && t.cycles == 4) = true := by decide
/-- DEC r. -/
theorem test_A35 : steps (machine { start with f := 0x01, c := 0x80 } [0x0D] [] 0xFF) (fun t =>
    t.c == 0x7F && t.f == 0x3F && t.pc == 0x0101 && t.r == 0x01 && t.cycles == 4) = true := by decide
/-- INC (HL). -/
theorem test_A38 : steps (machine { start with h := 0x40 } [0x34] [(0x4000, 0xFF)] 0xFF) (fun t =>
    t.mem.read 0x4000 == 0x00 && t.f == 0x50 && t.pc == 0x0101 && t.r == 0x01 && t.cycles == 11) = true := by decide
/-- DEC (HL). -/
theorem test_A39 : steps (machine { start with h := 0x40 } [0x35] [(0x4000, 0x00)] 0xFF) (fun t =>
    t.mem.read 0x4000 == 0xFF && t.f == 0xBA && t.pc == 0x0101 && t.r == 0x01 && t.cycles == 11) = true := by decide
/-- INC (XY+d). -/
theorem test_A40 : steps (machine { start with ix := 0x4000 } [0xDD, 0x34, 0x10] [(0x4010, 0x7F)] 0xFF) (fun t =>
    t.wz == 0x4010 && t.mem.read 0x4010 == 0x80 && t.f == 0x94 && t.pc == 0x0103 && t.r == 0x02 && t.cycles == 23) = true := by decide
/-- DEC (XY+d). -/
theorem test_A41 : steps (machine { start with iy := 0x4000 } [0xFD, 0x35, 0xF0] [(0x3FF0, 0x10)] 0xFF) (fun t =>
    t.wz == 0x3FF0 && t.mem.read 0x3FF0 == 0x0F && t.f == 0x1A && t.pc == 0x0103 && t.r == 0x02 && t.cycles == 23) = true := by decide
/-- INC p. -/
theorem test_A42 : steps (machine { start with ix := 0x7FFF } [0xDD, 0x24] [] 0xFF) (fun t =>
    t.ix == 0x80FF && t.f == 0x94 && t.pc == 0x0102 && t.r == 0x02 && t.cycles == 8) = true := by decide
/-- DEC p. -/
theorem test_A43 : steps (machine { start with iy := 0x1200 } [0xFD, 0x2D] [] 0xFF) (fun t =>
    t.iy == 0x12FF && t.f == 0xBA && t.pc == 0x0102 && t.r == 0x02 && t.cycles == 8) = true := by decide
/-- DAA. -/
theorem test_G6 : steps (machine { start with a := 0xFA, f := 0x02 } [0x27] [] 0xFF) (fun t =>
    t.a == 0x94 && t.f == 0x83 && t.pc == 0x0101 && t.r == 0x01 && t.cycles == 4) = true := by decide
/-- CPL. -/
theorem test_G9 : steps (machine { start with a := 0x5A, f := 0x01 } [0x2F] [] 0xFF) (fun t =>
    t.a == 0xA5 && t.f == 0x33 && t.pc == 0x0101 && t.r == 0x01 && t.cycles == 4) = true := by decide
/-- NEG. -/
theorem test_G12 : steps (machine { start with a := 0x80 } [0xED, 0x44] [] 0xFF) (fun t =>
    t.f == 0x87 && t.pc == 0x0102 && t.r == 0x02 && t.cycles == 8) = true := by decide
/-- CCF. -/
theorem test_G14 : steps (machine { start with a := 0x28, f := 0x01 } [0x3F] [] 0xFF) (fun t =>
    t.f == 0x38 && t.pc == 0x0101 && t.r == 0x01 && t.cycles == 4) = true := by decide
/-- SCF. -/
theorem test_G16 : steps (machine { start with a := 0x28 } [0x37] [] 0xFF) (fun t =>
    t.f == 0x29 && t.pc == 0x0101 && t.r == 0x01 && t.cycles == 4) = true := by decide
/-- NOP. -/
theorem test_G18 : steps (machine { start with f := 0xFF } [0x00] [] 0xFF) (fun t =>
    t.f == 0xFF && t.pc == 0x0101 && t.r == 0x01 && t.cycles == 4) = true := by decide
/-- HALT. -/
theorem test_G19 : steps (machine start [0x76] [] 0xFF) (fun t =>
    t.halt == true && t.f == 0x00 && t.pc == 0x0101 && t.r == 0x01 && t.cycles == 4) = true := by decide
/-- DI. -/
theorem test_G20 : steps (machine { start with iff1 := true, iff2 := true } [0xF3] [] 0xFF) (fun t =>
    t.iff1 == false && t.iff2 == false && t.f == 0x00 && t.pc == 0x0101 && t.r == 0x01 && t.cycles == 4) = true := by decide
/-- EI. -/
theorem test_G21 : steps (machine start [0xFB] [] 0xFF) (fun t =>
    t.iff1 == true && t.iff2 == true && t.inhibit == true && t.f == 0x00 && t.pc == 0x0101 && t.r == 0x01 && t.cycles == 4) = true := by decide
/-- IM 1. -/
theorem test_G22 : steps (machine start [0xED, 0x56] [] 0xFF) (fun t =>
    t.im == .im1 && t.f == 0x00 && t.pc == 0x0102 && t.r == 0x02 && t.cycles == 8) = true := by decide
/-- IM 2. -/
theorem test_G23 : steps (machine { start with im := .im1 } [0xED, 0x5E] [] 0xFF) (fun t =>
    t.im == .im2 && t.f == 0x00 && t.pc == 0x0102 && t.r == 0x02 && t.cycles == 8) = true := by decide
/-- IM 0. -/
theorem test_G24 : steps (machine { start with im := .im2 } [0xED, 0x46] [] 0xFF) (fun t =>
    t.im == .im0 && t.f == 0x00 && t.pc == 0x0102 && t.r == 0x02 && t.cycles == 8) = true := by decide
/-- ED NOP. -/
theorem test_G31 : steps (machine { start with a := 0x11, f := 0x22 } [0xED, 0x77] [] 0xFF) (fun t =>
    t.f == 0x22 && t.pc == 0x0102 && t.r == 0x02 && t.cycles == 8) = true := by decide
/-- NOP. -/
theorem test_G32 : steps (machine { start with ix := 0x1111 } [0xDD, 0x00] [] 0xFF) (fun t =>
    t.f == 0x00 && t.pc == 0x0102 && t.r == 0x02 && t.cycles == 8) = true := by decide
/-- ADD HL,ss. -/
theorem test_D1 : steps (machine { start with f := 0xFF, c := 0x01, h := 0x0F, l := 0xFF } [0x09] [] 0xFF) (fun t =>
    t.h == 0x10 && t.l == 0x00 && t.wz == 0x1000 && t.f == 0xD4 && t.pc == 0x0101 && t.r == 0x01 && t.cycles == 11) = true := by decide
/-- ADD XY,pp. -/
theorem test_D5 : steps (machine { start with ix := 0x4000 } [0xDD, 0x29] [] 0xFF) (fun t =>
    t.ix == 0x8000 && t.wz == 0x4001 && t.f == 0x00 && t.pc == 0x0102 && t.r == 0x02 && t.cycles == 15) = true := by decide
/-- ADD XY,pp. -/
theorem test_D6 : steps (machine { start with c := 0x01, iy := 0xFFFF } [0xFD, 0x09] [] 0xFF) (fun t =>
    t.iy == 0x0000 && t.f == 0x11 && t.pc == 0x0102 && t.r == 0x02 && t.cycles == 15) = true := by decide
/-- ADC HL,ss. -/
theorem test_D7 : steps (machine { start with f := 0x01, h := 0x7F, l := 0xFF } [0xED, 0x4A] [] 0xFF) (fun t =>
    t.h == 0x80 && t.l == 0x00 && t.wz == 0x8000 && t.f == 0x94 && t.pc == 0x0102 && t.r == 0x02 && t.cycles == 15) = true := by decide
/-- SBC HL,ss. -/
theorem test_D14 : steps (machine { start with f := 0x01, h := 0x10, sp := 0x0FFF } [0xED, 0x72] [] 0xFF) (fun t =>
    t.h == 0x00 && t.wz == 0x1001 && t.f == 0x52 && t.pc == 0x0102 && t.r == 0x02 && t.cycles == 15) = true := by decide
/-- INC ss. -/
theorem test_D15 : steps (machine { start with f := 0xFF, b := 0xFF, c := 0xFF } [0x03] [] 0xFF) (fun t =>
    t.b == 0x00 && t.c == 0x00 && t.f == 0xFF && t.pc == 0x0101 && t.r == 0x01 && t.cycles == 6) = true := by decide
/-- DEC ss. -/
theorem test_D16 : steps (machine { start with sp := 0x0000 } [0x3B] [] 0xFF) (fun t =>
    t.sp == 0xFFFF && t.f == 0x00 && t.pc == 0x0101 && t.r == 0x01 && t.cycles == 6) = true := by decide
/-- INC XY. -/
theorem test_D17 : steps (machine { start with ix := 0x00FF } [0xDD, 0x23] [] 0xFF) (fun t =>
    t.ix == 0x0100 && t.f == 0x00 && t.pc == 0x0102 && t.r == 0x02 && t.cycles == 10) = true := by decide
/-- DEC XY. -/
theorem test_D18 : steps (machine start [0xFD, 0x2B] [] 0xFF) (fun t =>
    t.iy == 0xFFFF && t.f == 0x00 && t.pc == 0x0102 && t.r == 0x02 && t.cycles == 10) = true := by decide
/-- RLCA. -/
theorem test_S1 : steps (machine { start with a := 0x81, f := 0xFE } [0x07] [] 0xFF) (fun t =>
    t.a == 0x03 && t.f == 0xC5 && t.pc == 0x0101 && t.r == 0x01 && t.cycles == 4) = true := by decide
/-- RRCA. -/
theorem test_S2 : steps (machine { start with a := 0x01 } [0x0F] [] 0xFF) (fun t =>
    t.a == 0x80 && t.f == 0x01 && t.pc == 0x0101 && t.r == 0x01 && t.cycles == 4) = true := by decide
/-- RLA. -/
theorem test_S3 : steps (machine { start with a := 0x80, f := 0x01 } [0x17] [] 0xFF) (fun t =>
    t.a == 0x01 && t.f == 0x01 && t.pc == 0x0101 && t.r == 0x01 && t.cycles == 4) = true := by decide
/-- RRA. -/
theorem test_S5 : steps (machine { start with f := 0xD5 } [0x1F] [] 0xFF) (fun t =>
    t.a == 0x80 && t.f == 0xC4 && t.pc == 0x0101 && t.r == 0x01 && t.cycles == 4) = true := by decide
/-- RLC r. -/
theorem test_S6 : steps (machine { start with b := 0x80 } [0xCB, 0x00] [] 0xFF) (fun t =>
    t.b == 0x01 && t.f == 0x01 && t.pc == 0x0102 && t.r == 0x02 && t.cycles == 8) = true := by decide
/-- RRC r. -/
theorem test_S8 : steps (machine { start with d := 0x01 } [0xCB, 0x0A] [] 0xFF) (fun t =>
    t.d == 0x80 && t.f == 0x81 && t.pc == 0x0102 && t.r == 0x02 && t.cycles == 8) = true := by decide
/-- RL r. -/
theorem test_S9 : steps (machine { start with e := 0x80 } [0xCB, 0x13] [] 0xFF) (fun t =>
    t.e == 0x00 && t.f == 0x45 && t.pc == 0x0102 && t.r == 0x02 && t.cycles == 8) = true := by decide
/-- RR r. -/
theorem test_S11 : steps (machine { start with f := 0x01, l := 0x01 } [0xCB, 0x1D] [] 0xFF) (fun t =>
    t.l == 0x80 && t.f == 0x81 && t.pc == 0x0102 && t.r == 0x02 && t.cycles == 8) = true := by decide
/-- SLA r. -/
theorem test_S12 : steps (machine { start with a := 0xC0 } [0xCB, 0x27] [] 0xFF) (fun t =>
    t.a == 0x80 && t.f == 0x81 && t.pc == 0x0102 && t.r == 0x02 && t.cycles == 8) = true := by decide
/-- SRA r. -/
theorem test_S13 : steps (machine { start with b := 0x81 } [0xCB, 0x28] [] 0xFF) (fun t =>
    t.b == 0xC0 && t.f == 0x85 && t.pc == 0x0102 && t.r == 0x02 && t.cycles == 8) = true := by decide
/-- SLL r. -/
theorem test_S15 : steps (machine { start with c := 0x80 } [0xCB, 0x31] [] 0xFF) (fun t =>
    t.c == 0x01 && t.f == 0x01 && t.pc == 0x0102 && t.r == 0x02 && t.cycles == 8) = true := by decide
/-- SRL r. -/
theorem test_S17 : steps (machine { start with d := 0x81 } [0xCB, 0x3A] [] 0xFF) (fun t =>
    t.d == 0x40 && t.f == 0x01 && t.pc == 0x0102 && t.r == 0x02 && t.cycles == 8) = true := by decide
/-- RLC (HL). -/
theorem test_S19 : steps (machine { start with h := 0x40 } [0xCB, 0x06] [(0x4000, 0x81)] 0xFF) (fun t =>
    t.mem.read 0x4000 == 0x03 && t.f == 0x05 && t.pc == 0x0102 && t.r == 0x02 && t.cycles == 15) = true := by decide
/-- SRL (HL). -/
theorem test_S20 : steps (machine { start with h := 0x40 } [0xCB, 0x3E] [(0x4000, 0x81)] 0xFF) (fun t =>
    t.mem.read 0x4000 == 0x40 && t.f == 0x01 && t.pc == 0x0102 && t.r == 0x02 && t.cycles == 15) = true := by decide
/-- RLC (XY+d). -/
theorem test_S21 : steps (machine { start with ix := 0x4000 } [0xDD, 0xCB, 0x02, 0x06] [(0x4002, 0x81)] 0xFF) (fun t =>
    t.wz == 0x4002 && t.mem.read 0x4002 == 0x03 && t.f == 0x05 && t.pc == 0x0104 && t.r == 0x02 && t.cycles == 23) = true := by decide
/-- RLC (XY+d),r. -/
theorem test_S22 : steps (machine { start with b := 0x55, ix := 0x4000 } [0xDD, 0xCB, 0x02, 0x00] [(0x4002, 0x81)] 0xFF) (fun t =>
    t.b == 0x03 && t.wz == 0x4002 && t.mem.read 0x4002 == 0x03 && t.f == 0x05 && t.pc == 0x0104 && t.r == 0x02 && t.cycles == 23) = true := by decide
/-- RR (XY+d),r. -/
theorem test_S23 : steps (machine { start with iy := 0x4000 } [0xFD, 0xCB, 0xFF, 0x1F] [(0x3FFF, 0x01)] 0xFF) (fun t =>
    t.wz == 0x3FFF && t.mem.read 0x3FFF == 0x00 && t.f == 0x45 && t.pc == 0x0104 && t.r == 0x02 && t.cycles == 23) = true := by decide
/-- SLA (XY+d),r. -/
theorem test_S24 : steps (machine { start with h := 0x99, ix := 0x4000 } [0xDD, 0xCB, 0x00, 0x24] [(0x4000, 0x80)] 0xFF) (fun t =>
    t.h == 0x00 && t.wz == 0x4000 && t.mem.read 0x4000 == 0x00 && t.f == 0x45 && t.pc == 0x0104 && t.r == 0x02 && t.cycles == 23) = true := by decide
/-- RLD. -/
theorem test_S25 : steps (machine { start with a := 0x7A, f := 0x01, h := 0x40 } [0xED, 0x6F] [(0x4000, 0x31)] 0xFF) (fun t =>
    t.a == 0x73 && t.wz == 0x4001 && t.mem.read 0x4000 == 0x1A && t.f == 0x21 && t.pc == 0x0102 && t.r == 0x02 && t.cycles == 18) = true := by decide
/-- RRD. -/
theorem test_S26 : steps (machine { start with a := 0x84, h := 0x40 } [0xED, 0x67] [(0x4000, 0x20)] 0xFF) (fun t =>
    t.a == 0x80 && t.wz == 0x4001 && t.mem.read 0x4000 == 0x42 && t.f == 0x80 && t.pc == 0x0102 && t.r == 0x02 && t.cycles == 18) = true := by decide
/-- BIT b,r. -/
theorem test_B2 : steps (machine { start with f := 0x01, b := 0xFE } [0xCB, 0x40] [] 0xFF) (fun t =>
    t.f == 0x7D && t.pc == 0x0102 && t.r == 0x02 && t.cycles == 8) = true := by decide
/-- BIT b,(HL). -/
theorem test_B7 : steps (machine { start with f := 0x01, h := 0x40, wz := 0x2800 } [0xCB, 0x66] [(0x4000, 0x10)] 0xFF) (fun t =>
    t.f == 0x39 && t.pc == 0x0102 && t.r == 0x02 && t.cycles == 12) = true := by decide
/-- BIT b,(XY+d). -/
theorem test_B9 : steps (machine { start with ix := 0x27FE } [0xDD, 0xCB, 0x02, 0x56] [(0x2800, 0x04)] 0xFF) (fun t =>
    t.wz == 0x2800 && t.f == 0x38 && t.pc == 0x0104 && t.r == 0x02 && t.cycles == 20) = true := by decide
/-- BIT b,(XY+d). -/
theorem test_B11 : steps (machine { start with iy := 0x4000 } [0xFD, 0xCB, 0x00, 0x7E] [(0x4000, 0x00)] 0xFF) (fun t =>
    t.wz == 0x4000 && t.f == 0x54 && t.pc == 0x0104 && t.r == 0x02 && t.cycles == 20) = true := by decide
/-- RES b,r. -/
theorem test_B12 : steps (machine { start with d := 0xFF } [0xCB, 0x82] [] 0xFF) (fun t =>
    t.d == 0xFE && t.f == 0x00 && t.pc == 0x0102 && t.r == 0x02 && t.cycles == 8) = true := by decide
/-- SET b,r. -/
theorem test_B13 : steps (machine { start with f := 0xFF } [0xCB, 0xFA] [] 0xFF) (fun t =>
    t.d == 0x80 && t.f == 0xFF && t.pc == 0x0102 && t.r == 0x02 && t.cycles == 8) = true := by decide
/-- RES b,(HL). -/
theorem test_B14 : steps (machine { start with h := 0x40 } [0xCB, 0xBE] [(0x4000, 0xFF)] 0xFF) (fun t =>
    t.mem.read 0x4000 == 0x7F && t.f == 0x00 && t.pc == 0x0102 && t.r == 0x02 && t.cycles == 15) = true := by decide
/-- SET b,(HL). -/
theorem test_B15 : steps (machine { start with h := 0x40 } [0xCB, 0xC6] [(0x4000, 0x00)] 0xFF) (fun t =>
    t.mem.read 0x4000 == 0x01 && t.f == 0x00 && t.pc == 0x0102 && t.r == 0x02 && t.cycles == 15) = true := by decide
/-- RES b,(XY+d). -/
theorem test_B16 : steps (machine { start with ix := 0x4000 } [0xDD, 0xCB, 0x05, 0x9E] [(0x4005, 0xFF)] 0xFF) (fun t =>
    t.wz == 0x4005 && t.mem.read 0x4005 == 0xF7 && t.f == 0x00 && t.pc == 0x0104 && t.r == 0x02 && t.cycles == 23) = true := by decide
/-- RES b,(XY+d),r. -/
theorem test_B17 : steps (machine { start with ix := 0x4000 } [0xDD, 0xCB, 0x05, 0x99] [(0x4005, 0xFF)] 0xFF) (fun t =>
    t.c == 0xF7 && t.wz == 0x4005 && t.mem.read 0x4005 == 0xF7 && t.f == 0x00 && t.pc == 0x0104 && t.r == 0x02 && t.cycles == 23) = true := by decide
/-- SET b,(XY+d). -/
theorem test_B18 : steps (machine { start with iy := 0x4000 } [0xFD, 0xCB, 0xFB, 0xEE] [(0x3FFB, 0x00)] 0xFF) (fun t =>
    t.wz == 0x3FFB && t.mem.read 0x3FFB == 0x20 && t.f == 0x00 && t.pc == 0x0104 && t.r == 0x02 && t.cycles == 23) = true := by decide
/-- SET b,(XY+d),r. -/
theorem test_B19 : steps (machine { start with l := 0x77, iy := 0x4000 } [0xFD, 0xCB, 0xFB, 0xED] [(0x3FFB, 0x00)] 0xFF) (fun t =>
    t.l == 0x20 && t.wz == 0x3FFB && t.mem.read 0x3FFB == 0x20 && t.f == 0x00 && t.pc == 0x0104 && t.r == 0x02 && t.cycles == 23) = true := by decide
/-- JP nn. -/
theorem test_J1 : steps (machine start [0xC3, 0x34, 0x12] [] 0xFF) (fun t =>
    t.wz == 0x1234 && t.f == 0x00 && t.pc == 0x1234 && t.r == 0x01 && t.cycles == 10) = true := by decide
/-- JP cc,nn. -/
theorem test_J4 : steps (machine { start with f := 0x80 } [0xF2, 0x34, 0x12] [] 0xFF) (fun t =>
    t.wz == 0x1234 && t.f == 0x80 && t.pc == 0x0103 && t.r == 0x01 && t.cycles == 10) = true := by decide
/-- JR e. -/
theorem test_J7 : steps (machine start [0x18, 0xFE] [] 0xFF) (fun t =>
    t.wz == 0x0100 && t.f == 0x00 && t.pc == 0x0100 && t.r == 0x01 && t.cycles == 12) = true := by decide
/-- JR NZ,e. -/
theorem test_J10 : steps (machine { start with f := 0x40 } [0x20, 0x10] [] 0xFF) (fun t =>
    t.f == 0x40 && t.pc == 0x0102 && t.r == 0x01 && t.cycles == 7) = true := by decide
/-- JR C,e. -/
theorem test_J11 : steps (machine { start with f := 0x01 } [0x38, 0x7F] [] 0xFF) (fun t =>
    t.wz == 0x0181 && t.f == 0x01 && t.pc == 0x0181 && t.r == 0x01 && t.cycles == 12) = true := by decide
/-- JP (HL). -/
theorem test_J13 : steps (machine { start with h := 0x43, l := 0x21 } [0xE9] [] 0xFF) (fun t =>
    t.f == 0x00 && t.pc == 0x4321 && t.r == 0x01 && t.cycles == 4) = true := by decide
/-- JP (XY). -/
theorem test_J14 : steps (machine { start with h := 0x11, l := 0x11, ix := 0x4321 } [0xDD, 0xE9] [] 0xFF) (fun t =>
    t.f == 0x00 && t.pc == 0x4321 && t.r == 0x02 && t.cycles == 8) = true := by decide
/-- DJNZ e. -/
theorem test_J16 : steps (machine { start with f := 0xFF, b := 0x01 } [0x10, 0xFE] [] 0xFF) (fun t =>
    t.b == 0x00 && t.f == 0xFF && t.pc == 0x0102 && t.r == 0x01 && t.cycles == 8) = true := by decide
/-- CALL nn. -/
theorem test_J18 : steps (machine start [0xCD, 0x00, 0x20] [] 0xFF) (fun t =>
    t.sp == 0x7FFE && t.wz == 0x2000 && t.mem.read 0x7FFE == 0x03 && t.mem.read 0x7FFF == 0x01 && t.f == 0x00 && t.pc == 0x2000 && t.r == 0x01 && t.cycles == 17) = true := by decide
/-- CALL cc,nn. -/
theorem test_J19 : steps (machine { start with f := 0x01 } [0xDC, 0x00, 0x20] [] 0xFF) (fun t =>
    t.sp == 0x7FFE && t.wz == 0x2000 && t.mem.read 0x7FFE == 0x03 && t.mem.read 0x7FFF == 0x01 && t.f == 0x01 && t.pc == 0x2000 && t.r == 0x01 && t.cycles == 17) = true := by decide
/-- RET. -/
theorem test_J21 : steps (machine start [0xC9] [(0x8000, 0x34), (0x8001, 0x12)] 0xFF) (fun t =>
    t.sp == 0x8002 && t.wz == 0x1234 && t.f == 0x00 && t.pc == 0x1234 && t.r == 0x01 && t.cycles == 10) = true := by decide
/-- RET cc. -/
theorem test_J22 : steps (machine { start with f := 0x40 } [0xC8] [(0x8000, 0x34), (0x8001, 0x12)] 0xFF) (fun t =>
    t.sp == 0x8002 && t.wz == 0x1234 && t.f == 0x40 && t.pc == 0x1234 && t.r == 0x01 && t.cycles == 11) = true := by decide
/-- RETI. -/
theorem test_J24 : steps (machine { start with iff2 := true } [0xED, 0x4D] [(0x8000, 0x34), (0x8001, 0x12)] 0xFF) (fun t =>
    t.sp == 0x8002 && t.wz == 0x1234 && t.iff1 == true && t.f == 0x00 && t.pc == 0x1234 && t.r == 0x02 && t.cycles == 14) = true := by decide
/-- RETN. -/
theorem test_J25 : steps (machine { start with iff1 := true } [0xED, 0x45] [(0x8000, 0x34), (0x8001, 0x12)] 0xFF) (fun t =>
    t.sp == 0x8002 && t.wz == 0x1234 && t.iff1 == false && t.f == 0x00 && t.pc == 0x1234 && t.r == 0x02 && t.cycles == 14) = true := by decide
/-- RST p. -/
theorem test_J29 : steps (machine start [0xDF] [] 0xFF) (fun t =>
    t.sp == 0x7FFE && t.wz == 0x0018 && t.mem.read 0x7FFE == 0x01 && t.mem.read 0x7FFF == 0x01 && t.f == 0x00 && t.pc == 0x0018 && t.r == 0x01 && t.cycles == 11) = true := by decide
/-- IN A,(n). -/
theorem test_I1 : steps (machine { start with a := 0x12, f := 0xFF } [0xDB, 0x34] [] 0x5A) (fun t =>
    t.a == 0x5A && t.wz == 0x1235 && t.f == 0xFF && t.pc == 0x0102 && t.r == 0x01 && t.cycles == 11 && t.bus.contains (.ioRead 0x1234 0x5A)) = true := by decide
/-- IN r,(C). -/
theorem test_I2 : steps (machine { start with f := 0x01, b := 0x12, c := 0x34 } [0xED, 0x40] [] 0x00) (fun t =>
    t.b == 0x00 && t.wz == 0x1235 && t.f == 0x45 && t.pc == 0x0102 && t.r == 0x02 && t.cycles == 12 && t.bus.contains (.ioRead 0x1234 0x00)) = true := by decide
/-- IN F,(C). -/
theorem test_I4 : steps (machine { start with f := 0x01, b := 0x12, c := 0x34 } [0xED, 0x70] [] 0x28) (fun t =>
    t.wz == 0x1235 && t.f == 0x2D && t.pc == 0x0102 && t.r == 0x02 && t.cycles == 12 && t.bus.contains (.ioRead 0x1234 0x28)) = true := by decide
/-- OUT (n),A. -/
theorem test_I5 : steps (machine { start with a := 0x12 } [0xD3, 0x34] [] 0xFF) (fun t =>
    t.wz == 0x1235 && t.f == 0x00 && t.pc == 0x0102 && t.r == 0x01 && t.cycles == 11 && t.bus.contains (.ioWrite 0x1234 0x12)) = true := by decide
/-- OUT (C),r. -/
theorem test_I6 : steps (machine { start with b := 0x12, c := 0x34, d := 0x56 } [0xED, 0x51] [] 0xFF) (fun t =>
    t.wz == 0x1235 && t.f == 0x00 && t.pc == 0x0102 && t.r == 0x02 && t.cycles == 12 && t.bus.contains (.ioWrite 0x1234 0x56)) = true := by decide
/-- OUT (C),0. -/
theorem test_I7 : steps (machine { start with b := 0x12, c := 0x34 } [0xED, 0x71] [] 0xFF) (fun t =>
    t.wz == 0x1235 && t.f == 0x00 && t.pc == 0x0102 && t.r == 0x02 && t.cycles == 12 && t.bus.contains (.ioWrite 0x1234 0x00)) = true := by decide
/-- INI. -/
theorem test_I9 : steps (machine { start with b := 0x01, c := 0x34, h := 0x40 } [0xED, 0xA2] [] 0xFF) (fun t =>
    t.b == 0x00 && t.l == 0x01 && t.wz == 0x0135 && t.mem.read 0x4000 == 0xFF && t.f == 0x53 && t.pc == 0x0102 && t.r == 0x02 && t.cycles == 16 && t.bus.contains (.ioRead 0x0134 0xFF)) = true := by decide
/-- IND. -/
theorem test_I11 : steps (machine { start with b := 0x02, c := 0x34, h := 0x40 } [0xED, 0xAA] [] 0x80) (fun t =>
    t.b == 0x01 && t.h == 0x3F && t.l == 0xFF && t.wz == 0x0233 && t.mem.read 0x4000 == 0x80 && t.f == 0x02 && t.pc == 0x0102 && t.r == 0x02 && t.cycles == 16 && t.bus.contains (.ioRead 0x0234 0x80)) = true := by decide
/-- OUTI. -/
theorem test_I14 : steps (machine { start with b := 0x01, c := 0x34, h := 0x40, l := 0xFF } [0xED, 0xA3] [(0x40FF, 0x01)] 0xFF) (fun t =>
    t.b == 0x00 && t.h == 0x41 && t.l == 0x00 && t.wz == 0x0035 && t.f == 0x40 && t.pc == 0x0102 && t.r == 0x02 && t.cycles == 16 && t.bus.contains (.ioWrite 0x0034 0x01)) = true := by decide
/-- OUTD. -/
theorem test_I16 : steps (machine { start with b := 0x02, c := 0x34, h := 0x40 } [0xED, 0xAB] [(0x4000, 0x80)] 0xFF) (fun t =>
    t.b == 0x01 && t.h == 0x3F && t.l == 0xFF && t.wz == 0x0133 && t.f == 0x17 && t.pc == 0x0102 && t.r == 0x02 && t.cycles == 16 && t.bus.contains (.ioWrite 0x0134 0x80)) = true := by decide

/-! ### Boundaries (95_test_vectors.md sections 1.5 and 3) -/

/-- The start state of the scenarios: reset, with `PC`, `SP` and both enables set. -/
def scenario : CoreState :=
  { CoreState.atReset 0 false with pc := 0x0100, sp := 0x8000, iff1 := true, iff2 := true }

/-- Section 1.5: the halted machine idles to its target. -/
theorem test_idle :
    steps (machine { scenario with halt := true, pc := 0x0101, cycles := 100 } [0x76] [] 0xFF) (fun t =>
      t.cycles == 101 && t.pc == 0x0101 && t.halt && t.r == 0x00) = true := by decide
/-- Section 1.5: a maskable interrupt accepted while halted. -/
theorem test_mode_1_while_halted :
    steps (machine { scenario with halt := true, pc := 0x0101, im := .im1, intLine := true, r := 0x01, cycles := 200 }
        [0x76] [] 0xFF) (fun t =>
      t.pc == 0x0038 && t.wz == 0x0038 && t.sp == 0x7FFE && t.mem.read 0x7FFF == 0x01 && t.mem.read 0x7FFE == 0x01 &&
      !t.halt && !t.iff1 && !t.iff2 && t.r == 0x02 && t.cycles == 213) = true := by decide
/-- Section 3.2: the boundary after `EI` accepts nothing. -/
theorem test_ei_delay :
    steps (machine { scenario with inhibit := true, intLine := true, im := .im1, r := 0x01, cycles := 4 } [] [] 0xFF)
      (fun t => t.pc == 0x0101 && !t.inhibit && t.iff1 && t.cycles == 8) = true := by decide
/-- Section 3.4: the non-maskable interrupt keeps `IFF2`. -/
theorem test_nmi :
    steps (machine { scenario with nmiPending := true, r := 0x01, pc := 0x0101, cycles := 4 } [] [] 0xFF) (fun t =>
      t.pc == 0x0066 && t.sp == 0x7FFE && t.mem.read 0x7FFF == 0x01 && t.mem.read 0x7FFE == 0x01 && !t.iff1 && t.iff2 &&
      !t.nmiPending && t.r == 0x02 && t.cycles == 15) = true := by decide
/-- Section 3.5: of both requests the non-maskable one is taken. -/
theorem test_nmi_first :
    steps (machine { scenario with nmiPending := true, intLine := true, im := .im1 } [] [] 0xFF) (fun t =>
      t.pc == 0x0066 && t.intLine && t.iff2 && t.cycles == 11) = true := by decide
/-- Section 3.6: with `IFF1` 0 an asserted line does not wake the halted machine. -/
theorem test_masked_line_does_not_wake :
    steps (machine { scenario with halt := true, intLine := true, iff1 := false, iff2 := false } [] [] 0xFF) (fun t =>
      t.halt && t.pc == 0x0100 && t.cycles == 1) = true := by decide
/-- Section 3.7: mode 2, the vector on a page boundary. -/
theorem test_mode_2 :
    steps (machine { scenario with intLine := true, im := .im2, i := 0x40 } [] [(0x40FF, 0x34), (0x4100, 0x12)] 0xFF)
      (fun t => t.pc == 0x1234 && t.wz == 0x1234 && t.sp == 0x7FFE && t.mem.read 0x7FFE == 0x00 && t.cycles == 19) =
      true := by decide
/-- Section 3.8: mode 0 with `FF` on the bus, a restart. -/
theorem test_mode_0_restart :
    steps (machine { scenario with intLine := true } [0x00, 0x20] [] 0xFF) (fun t =>
      t.pc == 0x0038 && t.mem.read 0x7FFF == 0x01 && t.mem.read 0x7FFE == 0x00 && t.r == 0x01 && t.cycles == 13) =
      true := by decide
/-- Section 3.8: mode 0 with `CD` on the bus, its operand read at `PC`. -/
theorem test_mode_0_call :
    steps { machine { scenario with intLine := true } [0x00, 0x20] [] 0xFF with
        cfg := { CoreConfig.reference with intData := 0xCD } } (fun t =>
      t.pc == 0x2000 && t.mem.read 0x7FFF == 0x01 && t.mem.read 0x7FFE == 0x02 && t.r == 0x01 && t.cycles == 19) =
      true := by decide
/-- Section 3.9: a prefix chain, its first step. -/
theorem test_prefix_chain_starts :
    steps (machine scenario [0xDD, 0xFD, 0x21, 0x78, 0x56] [] 0xFF) (fun t =>
      t.pfx == some .iy && t.inhibit && t.pc == 0x0102 && t.r == 0x02 && t.cycles == 8) = true := by decide
/-- Section 3.9: a prefix chain, its second step, with the line asserted. -/
theorem test_prefix_chain_ends :
    steps (machine { scenario with pfx := some .iy, inhibit := true, intLine := true, pc := 0x0102, r := 0x02, cycles := 8 }
        [0xDD, 0xFD, 0x21, 0x78, 0x56] [] 0xFF) (fun t =>
      t.iy == 0x5678 && t.pfx == none && !t.inhibit && t.pc == 0x0105 && t.r == 0x03 && t.cycles == 18) = true := by decide
/-- 70_reset_and_hazards.md R476: the repeating form costs 21, and 4 more behind a dropped prefix (log 14). -/
theorem test_dropped_prefix_costs_one_fetch :
    steps (machine { start with c := 0x03, d := 0x50, h := 0x40 } [0xDD, 0xED, 0xB0] [(0x4000, 0xA1)] 0xFF) (fun t =>
      t.mem.read 0x5000 == 0xA1 && t.pc == 0x0101 && t.wz == 0x0102 && t.r == 0x03 && t.cycles == 25) = true := by decide
/-- 60_exceptions.md R422: in mode 0 the same costs 2 and the acknowledge, less its first fetch: 27 (log 14). -/
theorem test_mode_0_dropped_prefix :
    steps { machine { start with iff1 := true, intLine := true, c := 0x03, d := 0x50, h := 0x40 } [0xED, 0xB0]
          [(0x4000, 0xA1)] 0xFF with
        cfg := { CoreConfig.reference with intData := 0xDD } } (fun t =>
      t.mem.read 0x5000 == 0xA1 && t.pc == 0x0100 && t.cycles == 27) = true := by decide
/-- 44_general_cpu.md R260: 50 and 50 in decimal are 00 and the hundred. -/
theorem test_daa_carries_the_hundred :
    steps (machine { start with a := 0xA0 } [0x27] [] 0xFF) (fun t =>
      t.a == 0x00 && t.f.getLsbD 0 && t.f.getLsbD 6) = true := by decide
/-- Section 3.1: `runUntil` with no time to go does nothing. -/
theorem test_no_time_to_go : State.reset.runUntil 0 = .next State.reset := rfl
/-- 60_exceptions.md R441: a call of 17 cycles runs whole, 16 beyond the target, in a state that meets the hypotheses of
`State.runUntil_overshoot`. -/
theorem test_call_overshoots :
    let s := machine { start with sp := 0x8000 } [0xCD, 0x00, 0x20] [] 0xFF
    s.cfg.HasReferenceCosts ∧ s.cycles < 1 ∧
      (match s.runUntil 1 with
        | .next t => t.cycles == 17 && t.pc == 0x2000
        | _ => false) = true := ⟨by unfold CoreConfig.HasReferenceCosts; decide, by decide, by decide⟩

/-! ### The adapter (20_memory.md R66, R75) -/

/-- A machine whose adapter is a device everywhere, giving these answers. -/
def deviceAtPc (answers : List Byte) : State :=
  { State.created .reference { regions := [⟨0x0000, 0xFFFF, .device⟩], ports := .device } with answers := answers }

/-- R75: with nothing stated, a port reads as 0xFF. -/
theorem test_port_reads_as_ff :
    steps (State.reset.pokeBytes 0 [0xDB, 0x34]) (fun t => t.a == 0xFF && t.bus.contains (.ioRead 0xFF34 0xFF)) = true := by
  decide
/-- R66: a read need not return the last value written: a write to ROM leaves it. -/
theorem test_rom_is_not_written :
    steps { machine { start with a := 0xC3, h := 0x40 } [0x77] [(0x4000, 0x11)] 0xFF with
        adapter := { regions := [⟨0x4000, 0x4FFF, .rom⟩], ports := .constant 0xFF } } (fun t =>
      t.mem.read 0x4000 == 0x11 && t.bus.contains (.write 0x4000 0xC3)) = true := by decide
/-- R66: an address may be a device: what was stored there is not what is read. -/
theorem test_device_answers_a_read :
    steps { machine { start with h := 0x40 } [0x7E] [(0x4000, 0x11)] 0xFF with
        adapter := { regions := [⟨0x4000, 0x4000, .device⟩], ports := .constant 0xFF }, answers := [0x99, 0x77] } (fun t =>
      t.a == 0x99 && t.answers == [0x77]) = true := by decide
/-- R66: a `fetchOpcode` and a `read` of one address are two calls, and may be answered differently. -/
theorem test_fetch_and_read_may_differ :
    steps { deviceAtPc [0x7E, 0x55] with h := 0, l := 0 } (fun t =>
      t.a == 0x55 && t.bus == [.read 0x0000 0x55, .fetch 0x0000 0x7E]) = true := by decide

/-! ### Every statement with hypotheses has a state and operands that meet them -/

/-- Those of `HasRule`: an instruction an index prefix does not change, and one of the ED space. -/
theorem witness_HasRule : Instr.unchangedByIndex .nop = true ∧ Instr.unchangedByIndex (.ldRR .b .a) = true ∧
    Instr.space .ldir = .ed ∧ Instr.space (.inRC .b) = .ed := by decide

/-- A machine with this adapter and this stack pointer. -/
def stackAt (ad : Adapter) (sp : Word) : State := { State.created .reference ad with sp := sp }

/-- A stack of plain memory: at the top of memory; with the stack pointer at 0001, so that the second byte wraps; at 0000;
and just above a ROM. -/
theorem witness_PopAfterPushGivesTheWordBack :
    ∀ p ∈ [(Adapter.ram64k 0xFF, (0xFFFF : Word)), (.ram64k 0xFF, 0x0001), (.ram64k 0xFF, 0x0000),
        (⟨[⟨0x0000, 0x3FFF, .rom⟩], .device⟩, 0x4002)],
      (stackAt p.1 p.2).adapter.placeOf ((stackAt p.1 p.2).sp - 1) = .ram ∧
      (stackAt p.1 p.2).adapter.placeOf ((stackAt p.1 p.2).sp - 2) = .ram := by decide

theorem witness_ReturnComesBackAfterTheCall :
    (stackAt (.ram64k 0xFF) 0x0001).adapter.placeOf ((stackAt (.ram64k 0xFF) 0x0001).sp - 1) = .ram ∧
    (stackAt (.ram64k 0xFF) 0x0001).adapter.placeOf ((stackAt (.ram64k 0xFF) 0x0001).sp - 2) = .ram := by decide

/-- Digits at the top of their range. -/
theorem witness_AddThenDaaAddsDecimals :
    let s : State := { State.reset with a := 0x99 }
    let n : Byte := 0x90
    s.a.toNat % 16 ≤ 9 ∧ s.a.toNat / 16 ≤ 9 ∧ n.toNat % 16 ≤ 9 ∧ n.toNat / 16 ≤ 9 := by decide

theorem witness_AccumulatorRotatesKeepSignZeroParity :
    ∀ p ∈ [(RotOp.rlc, (0x07 : Byte), Instr.rlca), (.rrc, 0x0F, .rrca), (.rl, 0x17, .rla), (.rr, 0x1F, .rra)],
      (p.1, p.2.1, p.2.2) ∈ [(RotOp.rlc, (0x07 : Byte), Instr.rlca), (.rrc, 0x0F, .rrca), (.rl, 0x17, .rla),
        (.rr, 0x1F, .rra)] := by decide

/-- A condition that holds and one that does not, in one flag byte; both cases of `DJNZ`; the short conditions. -/
theorem witness_JumpsGoToTheirTargets :
    condTrue .c 0x01 ∧ ¬condTrue .nc 0x01 ∧ condTrue .p 0x01 ∧ ¬condTrue .m 0x01 ∧
    ({ State.reset with b := 0 } : State).b ≠ 1 ∧ ({ State.reset with b := 1 } : State).b = 1 ∧
    Cond.nz ∈ [Cond.nz, .z, .nc, .c] ∧ Cond.c ∈ [Cond.nz, .z, .nc, .c] := by
  unfold condTrue; decide

theorem witness_CallsAndReturnsUseTheStack :
    condTrue .z 0x40 ∧ ¬condTrue .nz 0x40 ∧ (0 : BitVec 3) ≠ 1 ∧ (7 : BitVec 3) ≠ 1 := by unfold condTrue; decide

theorem witness_IgnoredPrefixLeavesTheMeaning :
    Instr.unchangedByIndex .exDeHl = true ∧ Instr.space (.retn 0) = .ed := by decide

/-- An instruction that `fetchInstr` reads has been read. -/
theorem has_read {s : State} {supplied : List Byte} {i : Instr} (hs : Supplied supplied)
    (h : (s.fetchInstr supplied).1 = i) : ∃ u, s.HasRead supplied i u := ⟨_, h ▸ s.fetchInstr_hasRead hs⟩

/-- For each prefix, the entry that the bytes after it select in a state of plain memory; and one that a device answers,
byte by byte. -/
theorem witness_PrefixByteExecutesTheEntryItSelects :
    let s := machine start [0xCB, 0x01, 0x3E] [] 0xFF
    (∃ u, s.HasRead [0xCB] (.setBR 1 .e) u) ∧ (∃ u, s.HasRead [0xDD] (.srlMemXyd .ix 0x01) u) ∧
    (∃ u, s.HasRead [0xED] (.edNopC 0x0B) u) ∧ (∃ u, s.HasRead [0xFD] (.srlMemXyd .iy 0x01) u) ∧
    (∃ u, s.HasRead [0xDD, 0xCB] (.rlcMemXydR .ix 0xCB .c) u) ∧
    (∃ u, s.HasRead [0xFD, 0xCB] (.rlcMemXydR .iy 0xCB .c) u) ∧
    (let d : State := { s with adapter := { regions := [⟨0x0000, 0xFFFF, .device⟩], ports := .device }
                               answers := [0xED, 0x43, 0x00, 0x40] }
     ∃ u, d.HasRead [0xDD] (.prefixEdAfterXy .ix (.ldMemNnDd 0x4000 .bc)) u) :=
  ⟨has_read (supplied_one _) (by decide), has_read (supplied_one _) (by decide), has_read (supplied_one _) (by decide),
    has_read (supplied_one _) (by decide), has_read (supplied_xyCb .ix) (by decide),
    has_read (supplied_xyCb .iy) (by decide), has_read (supplied_one _) (by decide)⟩

theorem witness_DecodeGivesBackTheEncodedInstruction :
    (Instr.retn 7).wellFormed = true ∧ (Instr.retn 7).isBarePrefix = false ∧
    (Instr.prefixXyCb .iy).wellFormed = true ∧ (Instr.prefixXyCb .iy).isBarePrefix = true := by decide

theorem witness_EncodeGivesBackTheDecodedBytes :
    decode [0xFD, 0xCB, 0x80, 0xFF, 0x00] = .ok (.setBMemXydR .iy 0x80 7 .a, [0x00]) ∧
    decode [0xFD, 0xCB] = .ok (.prefixXyCb .iy, []) := by decide

theorem witness_EveryByteSequenceDecodes : 5 ≤ [0xDD#8, 0xED, 0x43, 0x00, 0x40].length ∧
    decode [0xDD, 0xED, 0x43, 0x00, 0x40] = .ok (.prefixEdAfterXy .ix (.ldMemNnDd 0x4000 .bc), []) ∧
    (Instr.prefixEdAfterXy .ix (.ldMemNnDd 0x4000 .bc)).length = 5 := by decide

theorem witness_PairsAreTheirHalves : Half.low ≠ Half.high ∧ Half.high ≠ Half.low := by decide

theorem witness_MemoryIsWhatItsAddressesHold :
    let m : Memory := [(0x0000, 0x01), (0xFFFF, 0xFF)]
    Memory.wf m = true ∧ (Memory.write (Memory.write [] 0xFFFF 0xFF) 0x0000 0x01).wf = true ∧
      ∀ a : Word, m.read a.toNat = (Memory.write (Memory.write [] 0xFFFF 0xFF) 0x0000 0x01).read a.toNat :=
  ⟨by decide, by decide, fun _ => rfl⟩

/-- At reset; after `EI`, with both inputs waiting; with the maskable input waiting but not enabled, across the top of
memory; and from a device. -/
theorem witness_StepRunsTheDecodedInstruction :
    (let u := State.reset.sampleLines
     (u.inhibit = true ∨ (u.nmiPending = false ∧ (u.intLine && u.iff1) = false)) ∧ u.halt = false ∧ u.pfx = none ∧
     ∃ v, ({ u with inhibit := false } : State).HasRead [] .nop v) ∧
    (let u := (machine { scenario with inhibit := true, intLine := true, nmiPending := true } [0xED, 0xB0] []
       0xFF).sampleLines
     (u.inhibit = true ∨ (u.nmiPending = false ∧ (u.intLine && u.iff1) = false)) ∧ u.halt = false ∧ u.pfx = none ∧
     ∃ v, ({ u with inhibit := false } : State).HasRead [] .ldir v) ∧
    (let u := (machine { start with intLine := true, pc := 0xFFFF } [] [(0xFFFF, 0x3E), (0x0000, 0x42)] 0xFF).sampleLines
     (u.inhibit = true ∨ (u.nmiPending = false ∧ (u.intLine && u.iff1) = false)) ∧ u.halt = false ∧ u.pfx = none ∧
     ∃ v, ({ u with inhibit := false } : State).HasRead [] (.ldRN .a 0x42) v) ∧
    (let u := ({ deviceAtPc [0xDD, 0x36, 0x05, 0x99] with inhibit := true } : State).sampleLines
     (u.inhibit = true ∨ (u.nmiPending = false ∧ (u.intLine && u.iff1) = false)) ∧ u.halt = false ∧ u.pfx = none ∧
     ∃ v, ({ u with inhibit := false } : State).HasRead [] (.ldMemXydN .ix 0x05 0x99) v) :=
  ⟨⟨by decide, by decide, by decide, has_read supplied_nil (by decide)⟩,
    ⟨by decide, by decide, by decide, has_read supplied_nil (by decide)⟩,
    ⟨by decide, by decide, by decide, has_read supplied_nil (by decide)⟩,
    ⟨by decide, by decide, by decide, has_read supplied_nil (by decide)⟩⟩

theorem witness_StepResumesAfterAPendingPrefix :
    let u := (machine { start with inhibit := true, pfx := some .iy } [0x21, 0x78, 0x56] [] 0xFF).sampleLines
    u.inhibit = true ∧ u.halt = false ∧ u.pfx = some .iy ∧
    ∃ v, ({ u with inhibit := false, pfx := none } : State).HasRead [Index.iy.prefixByte] (.ldXyNn .iy 0x5678) v :=
  ⟨by decide, by decide, by decide, has_read (supplied_one _) (by decide)⟩

/-- One state for each clause of the boundary check. -/
theorem witness_BoundaryCheckFollowsItsPriority :
    (machine { scenario with inhibit := true, nmiPending := true, intLine := true } [] [] 0xFF).sampleLines.inhibit = true ∧
    (let u := (machine { scenario with nmiPending := true, intLine := true } [] [] 0xFF).sampleLines
     u.inhibit = false ∧ u.nmiPending = true) ∧
    (let u := (machine { scenario with intLine := true } [] [] 0xFF).sampleLines
     u.inhibit = false ∧ u.nmiPending = false ∧ u.intLine = true ∧ u.iff1 = true) ∧
    (let u := (machine { start with intLine := true } [] [] 0xFF).sampleLines
     u.inhibit = false ∧ u.nmiPending = false ∧ (u.intLine = false ∨ u.iff1 = false)) ∧
    (let u := (machine scenario [] [] 0xFF).sampleLines
     u.inhibit = false ∧ u.nmiPending = false ∧ (u.intLine = false ∨ u.iff1 = false)) := by decide

/-- The environment signals the input at this boundary. -/
theorem witness_NonMaskableInterruptIsAccepted :
    let u := ({ State.reset with lineScript := [⟨true, none⟩] } : State).sampleLines
    u.inhibit = false ∧ u.nmiPending = true := by decide

/-- One state for each of the three modes. -/
theorem witness_MaskableInterruptIsAccepted :
    ∀ m ∈ [IntMode.im0, .im1, .im2],
      let u := (machine { scenario with intLine := true, im := m } [] [] 0xFF).sampleLines
      u.inhibit = false ∧ u.nmiPending = false ∧ u.intLine = true ∧ u.iff1 = true ∧ u.im = m := by decide

/-- The byte that a restart is, and one whose operands are read at `PC`. -/
theorem witness_ModeZeroExecutesTheSuppliedByte :
    ∀ x : Byte, ∀ i : Instr, (x, i) ∈ [((0xFF : Byte), Instr.rstP 7), (0xCD, .callNn 0x2000)] →
      let u := ({ machine { scenario with intLine := true, im := .im0 } [0x00, 0x20] [] 0xFF with
        cfg := { CoreConfig.reference with intData := x } } : State).sampleLines
      let v : State := { u.later (2 + u.cfg.tFetch) with
        halt := false, iff1 := false, iff2 := false,
        r := BitVec.ofNat 8 (u.r.toNat / 128 * 128 + (u.r.toNat % 128 + 1) % 128) }
      u.inhibit = false ∧ u.nmiPending = false ∧ u.intLine = true ∧ u.iff1 = true ∧ u.im = .im0 ∧
      ∃ w, v.HasRead [u.cfg.intData] i w := by
  intro x i h
  simp only [List.mem_cons, Prod.mk.injEq, List.mem_nil_iff, or_false] at h
  obtain ⟨rfl, rfl⟩ | ⟨rfl, rfl⟩ := h
  all_goals exact ⟨by decide, by decide, by decide, by decide, by decide, has_read (supplied_one _) (by decide)⟩

theorem witness_EnableTakesEffectOneInstructionLate :
    ∃ t, exec .ei State.reset = .next t ∧ t.halt = false ∧ t.pfx = none ∧
      ∃ v, ({ t.sampleLines with inhibit := false } : State).HasRead [] .nop v :=
  ⟨_, rfl, rfl, rfl, has_read supplied_nil (by decide)⟩

theorem witness_HaltedMachineOnlyLetsTimePass :
    let s := machine { scenario with halt := true } [] [] 0xFF
    let u := s.sampleLines
    u.halt = true ∧ (u.inhibit = true ∨ (u.nmiPending = false ∧ (u.intLine && u.iff1) = false)) ∧ s.cycles < 1 := by
  decide

/-- A pass that accepts, one that injects, one that idles, one that executes. -/
theorem witness_RunUntilIsTheSchedulersLoop :
    State.reset.cfg.valid = true ∧ 0 ≤ State.reset.cycles ∧ State.reset.cycles < 1 ∧
    (∃ t, (machine { scenario with nmiPending := true } [] [] 0xFF).plan 1 = .accepted t) ∧
    (∃ i t, (machine { scenario with intLine := true } [] [] 0xFF).plan 1 = .injected i t) ∧
    (∃ t, (machine { scenario with halt := true } [] [] 0xFF).plan 1 = .idle t) ∧
    (∃ i t u, State.reset.plan 1 = .instr i t ∧ exec i t = .next u) :=
  ⟨rfl, Nat.le_refl _, Nat.lt_add_one _, ⟨_, rfl⟩, ⟨_, _, rfl⟩, ⟨_, rfl⟩, ⟨_, _, _, rfl, rfl⟩⟩

theorem witness_NothingFaultsOrIsRefused : Instr.prefixDd.wellFormed = true ∧ (Instr.ldPP .iy .a (.half .low)).wellFormed = true := by
  decide

theorem witness_StepKeepsTheInvariant : State.reset.Inv ∧ ∃ t, step State.reset = .next t := by
  refine ⟨by unfold State.Inv; decide, _, rfl⟩

theorem witness_ResetMeetsTheInvariant :
    (∀ adapter, State.create CoreConfig.reference adapter = some (.created .reference adapter)) ∧
    State.create { CoreConfig.reference with tIo := 0 } (.ram64k 0xFF) = none := ⟨fun _ => rfl, rfl⟩

theorem witness_EveryStepTakesTime : State.reset.cfg.valid = true ∧ ∃ t, step State.reset = .next t := ⟨rfl, _, rfl⟩

/-- A port that reads as the byte stated; and an adapter of devices alone. -/
theorem witness_EveryAccessGoesThroughTheAdapter :
    (∃ t, step (machine scenario [0xDB, 0x34] [] 0x80) = .next t ∧ t.a = 0x80 ∧
      (machine scenario [0xDB, 0x34] [] 0x80).adapter = .ram64k 0x80) ∧
    (∃ t, step (deviceAtPc [0x7E, 0x55]) = .next t ∧ t.a = 0x55 ∧ t.answers = []) :=
  ⟨⟨_, rfl, by decide, rfl⟩, ⟨_, rfl, by decide, by decide⟩⟩

/-- Two states that differ in the counter and in every cost. -/
theorem witness_EffectsDoNotDependOnTheCosts :
    let s := State.reset
    let s' : State := { s with cycles := 77, cfg := ⟨1, 9, 2, 0xFF⟩ }
    s' = { s with
      cycles := s'.cycles
      cfg := { s.cfg with tFetch := s'.cfg.tFetch, tMem := s'.cfg.tMem, tIo := s'.cfg.tIo } } := rfl

/-- An instruction that is on none of the lists. -/
theorem witness_OnlyTheListedInstructionsWrite :
    Instr.nop.isBarePrefix = false ∧ (∃ t, exec .nop State.reset = .next t) ∧ Instr.nop.keepsFlags = true ∧
    Instr.nop.writesWz = false ∧ Instr.nop.entry ≠ .exAfAf ∧ Instr.nop.entry ≠ .exx ∧ (∀ y, Instr.nop.entry ≠ .imN y) ∧
    Instr.nop.entry ≠ .halt ∧ Instr.nop.entry ≠ .ldIA ∧ Instr.nop.entry ≠ .ldRfA ∧ Instr.nop.entry ≠ .ei ∧
    Instr.nop.entry ≠ .di ∧ Instr.nop.entry ≠ .reti ∧ (∀ y, Instr.nop.entry ≠ .retn y) :=
  ⟨rfl, ⟨_, rfl⟩, rfl, rfl, nofun, nofun, nofun, nofun, nofun, nofun, nofun, nofun, nofun, nofun⟩

theorem witness_HostOperationsDoWhatTheyName :
    ({ State.reset with lineScript := [⟨true, some true⟩] } : State).lineScript = ⟨true, some true⟩ :: [] ∧
    State.reset.lineScript = [] := ⟨rfl, rfl⟩

end Sys2Proof.Tests
end

section
/-! PROOFS. Completion: no instruction and no step faults or is refused (00_scope.md R15, R17; 30_encoding.md R116;
60_exceptions.md R410). The one refusal, `barePrefix`, belongs to a prefix row inside a wrapper; so it is enough that
what is executed is a whole instruction, or a prefix that goes on to read one. -/

namespace Sys2Proof

/-- A wrapper that passes the checks holds no prefix row: only an unchanged main-space entry or an ED-space one. -/
theorem Instr.isWhole_of_wellFormed {i : Instr} (hw : i.wellFormed = true) (hb : i.isBarePrefix = false) :
    i.isWhole = true := by
  induction i with
  | asMainSpace xy inner ih =>
    simp only [Instr.wellFormed, Instr.unchangedByIndex, Bool.and_eq_true, Bool.not_eq_true'] at hw
    obtain ⟨⟨⟨-, hbare⟩, -⟩, hinner⟩ := hw
    exact ih hinner hbare
  | prefixEdAfterXy xy inner ih =>
    simp only [Instr.wellFormed, Bool.and_eq_true, beq_iff_eq] at hw
    obtain ⟨hed, hinner⟩ := hw
    have hbare : inner.isBarePrefix = false := by
      cases inner with
      | prefixCb | prefixDd | prefixEd | prefixFd | prefixXyCb => cases hed
      | _ => rfl
    exact ih hinner hbare
  | prefixCb | prefixDd | prefixEd | prefixFd | prefixXyCb => cases hb
  | _ => rfl

end Sys2Proof

namespace Sys2Proof.Machine

open Sys2Proof

/-! ### Instructions -/

/-- A whole instruction's meaning always answers a next state. -/
theorem exec_isWhole_answers {i : Instr} (hi : i.isWhole = true) (s : State) : ∃ t, exec i s = .next t := by
  induction i with
  | asMainSpace xy inner ih | prefixEdAfterXy xy inner ih =>
    obtain ⟨t, ht⟩ := ih hi
    exact ⟨t, (execEntry_eq_exec inner s (Instr.isWhole.not_bare hi)).trans ht⟩
  | prefixCb | prefixDd | prefixEd | prefixFd | prefixXyCb => cases hi
  | _ => exact ⟨_, rfl⟩

/-- What has been read executes: it is a whole instruction. -/
theorem State.exec_fetchInstr_answers (s : State) {supplied : List Byte} (hp : Supplied supplied) :
    ∃ t, exec (s.fetchInstr supplied).1 (s.fetchInstr supplied).2 = .next t :=
  exec_isWhole_answers (s.fetchInstr_isRead hp).1 _

/-- Behind a prefix, the rest of the instruction is read and executes (30_encoding.md R90). -/
theorem State.execAfter_answers (s : State) {supplied : List Byte} (hp : Supplied supplied) :
    ∃ t, s.execAfter supplied = .next t := by
  have hbare := Instr.isWhole.not_bare (s.fetchInstr_isRead hp).1
  obtain ⟨t, ht⟩ := s.exec_fetchInstr_answers hp
  exact ⟨t, (execEntry_eq_exec _ _ hbare).trans ht⟩

/-- A prefix row alone reads the entry it selects. -/
theorem exec_isBarePrefix_answers {i : Instr} (hb : i.isBarePrefix = true) (s : State) : ∃ t, exec i s = .next t := by
  cases i with
  | prefixCb => exact s.execAfter_answers (supplied_one 0xCB)
  | prefixDd => exact s.execAfter_answers (supplied_one 0xDD)
  | prefixEd => exact s.execAfter_answers (supplied_one 0xED)
  | prefixFd => exact s.execAfter_answers (supplied_one 0xFD)
  | prefixXyCb xy => exact s.execAfter_answers (supplied_xyCb xy)
  | _ => cases hb

theorem exec_wellFormed_answers {i : Instr} (hw : i.wellFormed = true) (s : State) : ∃ t, exec i s = .next t := by
  cases hb : i.isBarePrefix with
  | true => exact exec_isBarePrefix_answers hb s
  | false => exact exec_isWhole_answers (Instr.isWhole_of_wellFormed hw hb) s

/-! ### Passes of the loop -/

theorem State.proceed_answers (s : State) (target : Nat) : ∃ t, (s.proceed target).outcome = .next t := by
  unfold State.proceed
  split
  · exact ⟨_, rfl⟩
  · split
    · exact s.exec_fetchInstr_answers supplied_nil
    · exact State.exec_fetchInstr_answers _ (supplied_one _)

theorem State.acceptInt_answers (s : State) : ∃ t, s.acceptInt.outcome = .next t := by
  unfold State.acceptInt
  split
  · exact State.exec_fetchInstr_answers _ (supplied_one _)
  · exact ⟨_, rfl⟩

/-- Whatever the boundary check decides, the pass ends in a next state (60_exceptions.md R416, R440). -/
theorem State.plan_answers (s : State) (target : Nat) : ∃ t, (s.plan target).outcome = .next t := by
  rcases s.plan_cases target with ⟨-, h⟩ | ⟨-, -, h⟩ | ⟨-, -, -, h⟩ | ⟨-, -, -, h⟩ <;> rw [h]
  · exact State.proceed_answers _ target
  · exact ⟨_, rfl⟩
  · exact State.acceptInt_answers _
  · exact State.proceed_answers _ target

/-- A step is one pass with one cycle to go (60_exceptions.md R453). -/
theorem step_eq_outcome (s : State) : step s = (s.plan (s.cycles + 1)).outcome := by
  unfold step
  cases s.plan (s.cycles + 1) <;> rfl

theorem step_answers (s : State) : ∃ t, step s = .next t :=
  step_eq_outcome s ▸ s.plan_answers (s.cycles + 1)

/-- Settles O52: a well-formed instruction is whole, or a prefix that reads a whole one; and so is what a step executes. -/
theorem nothingFaultsOrIsRefused : Obligations.NothingFaultsOrIsRefused :=
  ⟨fun _ s hw => exec_wellFormed_answers hw s, step_answers⟩

end Sys2Proof.Machine
end

section
/-! PROOFS. The register file (10_state.md section 1, R21; 30_encoding.md R93): writing a register, a pair or a half
changes it and what shares its storage, and nothing else. -/

namespace Sys2Proof.Machine

open Sys2Proof

theorem State.getReg_setReg (s : State) (r r' : Reg8) (v : Byte) :
    (s.setReg r v).getReg r' = if r' = r then v else s.getReg r' := by
  split
  next h => rw [h, State.getReg_setReg_same]
  next h => exact State.getReg_setReg_ne s v h

/-- Writing a register changes none of the state but the seven registers. -/
theorem State.setReg_frame (s : State) (r : Reg8) (v : Byte) :
    { s.setReg r v with a := s.a, b := s.b, c := s.c, d := s.d, e := s.e, h := s.h, l := s.l } = s := by
  cases r <;> rfl

/-- Writing a half of an index register keeps the other half. -/
theorem State.getHalf_setHalf_ne (s : State) (xy : Index) {p p' : Half} (v : Byte) (h : p' ≠ p) :
    (s.setHalf xy p v).getHalf xy p' = s.getHalf xy p' := by
  cases p <;> cases p' <;> first | exact absurd rfl h | simp [State.setHalf, State.getHalf]

/-- A half of an index register is written as the whole register is: nothing but that register changes. -/
theorem State.setHalf_eq_setIndex (s : State) (xy : Index) (p : Half) (v : Byte) :
    s.setHalf xy p v = s.setIndex xy ((s.setHalf xy p v).getIndex xy) := by
  cases p <;> simp only [State.setHalf, State.getIndex_setIndex_same]

/-- Settles O40, from the laws of the single registers, pairs and halves. -/
theorem pairsAreTheirHalves : Obligations.PairsAreTheirHalves :=
  ⟨State.getReg_setReg, State.setReg_frame, fun _ _ => ⟨rfl, rfl, rfl, rfl, rfl, rfl, rfl, rfl⟩,
    State.getPair_setPair_same, State.getStackPair_setStackPair_same, fun _ _ => ⟨rfl, rfl⟩,
    fun s xy p v => ⟨s.getHalf_setHalf_same xy p v, fun _ => s.getHalf_setHalf_ne xy v, s.setHalf_eq_setIndex xy p v⟩⟩

end Sys2Proof.Machine
end

section
/-! PROOFS. What an instruction does to the part of the state that few instructions write (10_state.md R22, R24, R34 to
R38): the alternate bank, `IM`, `HALT`, `I`, `R` and the enables, with the interrupt inputs, the adapter and the
configuration, which none writes. `State.guarded` is that part. Every shared operation keeps it, the return from an
interrupt apart, and `guardedAfter` says what an instruction leaves of it. -/

namespace Sys2Proof.Machine

open Sys2Proof

/-- The fields of the state that are written only by the instructions 10_state.md lists for them, or by none. -/
structure GuardedPart where
  altA : Byte
  altF : Byte
  altB : Byte
  altC : Byte
  altD : Byte
  altE : Byte
  altH : Byte
  altL : Byte
  i : Byte
  r : Byte
  iff1 : Bool
  iff2 : Bool
  im : IntMode
  halt : Bool
  nmiPending : Bool
  intLine : Bool
  cfg : CoreConfig
  adapter : Adapter
  lineScript : List LineChange

/-- The guarded part of a state, field by field. -/
def State.guarded (s : State) : GuardedPart where
  altA := s.altA
  altF := s.altF
  altB := s.altB
  altC := s.altC
  altD := s.altD
  altE := s.altE
  altH := s.altH
  altL := s.altL
  i := s.i
  r := s.r
  iff1 := s.iff1
  iff2 := s.iff2
  im := s.im
  halt := s.halt
  nmiPending := s.nmiPending
  intLine := s.intLine
  cfg := s.cfg
  adapter := s.adapter
  lineScript := s.lineScript

/-- The guarded part of the state that the instruction `i` leaves (10_state.md R22, R24, R34 to R36). -/
def guardedAfter (i : Instr) (s : State) : GuardedPart :=
  match i.entry with
  | .exAfAf => { s.guarded with altA := s.a, altF := s.f }
  | .exx => { s.guarded with altB := s.b, altC := s.c, altD := s.d, altE := s.e, altH := s.h, altL := s.l }
  | .imN y => { s.guarded with im := imOf y }
  | .halt => { s.guarded with halt := true }
  | .ldIA => { s.guarded with i := s.a }
  | .ldRfA => { s.guarded with r := s.a }
  | .di => { s.guarded with iff1 := false, iff2 := false }
  | .ei => { s.guarded with iff1 := true, iff2 := true }
  | .reti | .retn _ => { s.guarded with iff1 := s.iff2 }
  | _ => s.guarded

/-! ### The shared operations -/

@[simp] theorem State.setF_guarded (s : State) (v : Byte) : (s.setF v).guarded = s.guarded := rfl
@[simp] theorem State.setSp_guarded (s : State) (w : Word) : (s.setSp w).guarded = s.guarded := rfl
@[simp] theorem State.setPc_guarded (s : State) (w : Word) : (s.setPc w).guarded = s.guarded := rfl
@[simp] theorem State.setWz_guarded (s : State) (w : Word) : (s.setWz w).guarded = s.guarded := rfl
@[simp] theorem State.setBc_guarded (s : State) (w : Word) : (s.setBc w).guarded = s.guarded := rfl
@[simp] theorem State.setDe_guarded (s : State) (w : Word) : (s.setDe w).guarded = s.guarded := rfl
@[simp] theorem State.setHl_guarded (s : State) (w : Word) : (s.setHl w).guarded = s.guarded := rfl

@[simp] theorem State.setReg_guarded (s : State) (r : Reg8) (v : Byte) : (s.setReg r v).guarded = s.guarded := by
  cases r <;> rfl

@[simp] theorem State.setPair_guarded (s : State) (p : Pair) (w : Word) : (s.setPair p w).guarded = s.guarded := by
  cases p <;> rfl

@[simp] theorem State.setStackPair_guarded (s : State) (p : StackPair) (w : Word) :
    (s.setStackPair p w).guarded = s.guarded := by
  cases p <;> rfl

@[simp] theorem State.setIndex_guarded (s : State) (xy : Index) (w : Word) :
    (s.setIndex xy w).guarded = s.guarded := by
  cases xy <;> rfl

@[simp] theorem State.setHalf_guarded (s : State) (xy : Index) (p : Half) (v : Byte) :
    (s.setHalf xy p v).guarded = s.guarded := by
  rw [State.setHalf_eq_setIndex, State.setIndex_guarded]

@[simp] theorem State.setXReg_guarded (s : State) (xy : Index) (x : XReg8) (v : Byte) :
    (s.setXReg xy x v).guarded = s.guarded := by
  cases x <;> simp only [State.setXReg, State.setReg_guarded, State.setHalf_guarded]

@[simp] theorem State.tick_guarded (s : State) (n : Nat) : (s.tick n).guarded = s.guarded := rfl
@[simp] theorem State.memRead_guarded (s : State) (a : Word) : (s.memRead a).2.guarded = s.guarded := rfl

@[simp] theorem State.memRead16_guarded (s : State) (a : Word) : (s.memRead16 a).2.guarded = s.guarded := by
  simp [State.memRead16]

@[simp] theorem State.memWrite_guarded (s : State) (a : Word) (v : Byte) : (s.memWrite a v).guarded = s.guarded := rfl

@[simp] theorem State.memWrite16_guarded (s : State) (a w : Word) : (s.memWrite16 a w).guarded = s.guarded := by
  simp [State.memWrite16]

@[simp] theorem State.ioRead_guarded (s : State) (port : Word) : (s.ioRead port).2.guarded = s.guarded := rfl
@[simp] theorem State.ioWrite_guarded (s : State) (port : Word) (v : Byte) :
    (s.ioWrite port v).guarded = s.guarded := rfl

@[simp] theorem State.push16_guarded (s : State) (w : Word) : (s.push16 w).guarded = s.guarded := by
  simp [State.push16]

@[simp] theorem State.pop16_guarded (s : State) : s.pop16.2.guarded = s.guarded := by
  simp [State.pop16]

@[simp] theorem State.jumpTo_guarded (s : State) (w : Word) : (s.jumpTo w).guarded = s.guarded := rfl

@[simp] theorem State.jumpRelative_guarded (s : State) (e : Byte) : (s.jumpRelative e).guarded = s.guarded := by
  simp [State.jumpRelative]

@[simp] theorem State.callTo_guarded (s : State) (target : Word) : (s.callTo target).guarded = s.guarded := by
  simp [State.callTo]

@[simp] theorem State.popPc_guarded (s : State) : s.popPc.guarded = s.guarded := by
  simp [State.popPc]

/-- `RETN` and `RETI` restore the first enable from the second (60_exceptions.md R426). -/
@[simp] theorem State.returnFromInterrupt_guarded (s : State) :
    s.returnFromInterrupt.guarded = { s.guarded with iff1 := s.iff2 } := by
  rw [State.returnFromInterrupt, State.popPc_guarded]; rfl

@[simp] theorem State.exchangeStack_guarded (s : State) (w : Word) : (s.exchangeStack w).2.guarded = s.guarded := by
  simp [State.exchangeStack]

@[simp] theorem State.pendPrefix_guarded (s : State) (xy : Index) : (s.pendPrefix xy).guarded = s.guarded := rfl

@[simp] theorem State.useIndex_guarded (s : State) (xy : Index) (d : Byte) (k : Nat) :
    (s.useIndex xy d k).guarded = s.guarded := rfl

@[simp] theorem State.readSource_guarded (s : State) (src : Src8) : (s.readSource src).2.guarded = s.guarded := by
  cases src <;> simp only [State.readSource, State.memRead_guarded, State.useIndex_guarded]

@[simp] theorem State.aluFrom_guarded (s : State) (op : AluOp) (src : Src8) :
    (s.aluFrom op src).guarded = s.guarded :=
  s.readSource_guarded src

@[simp] theorem State.modify_guarded (s : State) (a : Word) (g : Byte → Byte) :
    (s.modify a g).guarded = s.guarded := by
  simp [State.modify]

@[simp] theorem State.stepMem_guarded (s : State) (a : Word) (step : Byte → Byte → Byte × Byte) :
    (s.stepMem a step).guarded = s.guarded := by
  simp [State.stepMem]

@[simp] theorem State.modifyCopy_guarded (s : State) (a : Word) (g : Byte → Byte) (r : Reg8) :
    (s.modifyCopy a g r).guarded = s.guarded := by
  rw [State.modifyCopy, State.setReg_guarded, State.modify_guarded]

@[simp] theorem State.rotMem_guarded (s : State) (a : Word) (op : RotOp) : (s.rotMem a op).guarded = s.guarded := by
  simp [State.rotMem]

@[simp] theorem State.rotMemCopy_guarded (s : State) (a : Word) (op : RotOp) (r : Reg8) :
    (s.rotMemCopy a op r).guarded = s.guarded := by
  rw [State.rotMemCopy, State.setReg_guarded, State.rotMem_guarded]

@[simp] theorem State.rotReg_guarded (s : State) (r : Reg8) (op : RotOp) : (s.rotReg r op).guarded = s.guarded := by
  rw [State.rotReg, State.setF_guarded, State.setReg_guarded]

@[simp] theorem State.rotAcc_guarded (s : State) (op : RotOp) : (s.rotAcc op).guarded = s.guarded := by
  simp [State.rotAcc]

@[simp] theorem State.digitRotate_guarded (s : State) (rot : Byte → Byte → Byte × Byte) :
    (s.digitRotate rot).guarded = s.guarded := by
  simp [State.digitRotate]

@[simp] theorem State.arith16_setHl_guarded (s : State) (x : Word × Byte) (old : Word) :
    (s.arith16 x old .setHl).guarded = s.guarded := rfl

@[simp] theorem State.arith16_setIndex_guarded (s : State) (x : Word × Byte) (old : Word) (xy : Index) :
    (s.arith16 x old (fun t w => t.setIndex xy w)).guarded = s.guarded := by
  simp [State.arith16]

@[simp] theorem State.blockLoad_guarded (s : State) (up : Bool) : (s.blockLoad up).guarded = s.guarded := by
  simp [State.blockLoad]

@[simp] theorem State.blockCompare_guarded (s : State) (up : Bool) : (s.blockCompare up).guarded = s.guarded := by
  simp [State.blockCompare]

@[simp] theorem State.blockIn_guarded (s : State) (up : Bool) : (s.blockIn up).guarded = s.guarded := by
  simp [State.blockIn]

@[simp] theorem State.blockOut_guarded (s : State) (up : Bool) : (s.blockOut up).guarded = s.guarded := by
  simp [State.blockOut]

@[simp] theorem State.repeatBlock_guarded (s : State) : s.repeatBlock.guarded = s.guarded := by
  simp [State.repeatBlock]

@[simp] theorem State.repeatIo_guarded (s : State) : s.repeatIo.guarded = s.guarded := by
  simp [State.repeatIo]

/-! ### Instructions -/

/-- Behind a prefix no bare prefix answers a next state, and everything else means what it means alone. -/
theorem exec_of_execEntry {i : Instr} {s t : State} (h : execEntry i s = .next t) :
    i.isBarePrefix = false ∧ exec i s = .next t := by
  have hb : i.isBarePrefix = false := by
    cases i with
    | prefixCb | prefixDd | prefixEd | prefixFd | prefixXyCb => cases h
    | _ => rfl
  exact ⟨hb, execEntry_eq_exec i s hb ▸ h⟩

/-- An instruction leaves of the guarded part of the state what `guardedAfter` says. -/
theorem exec_guarded {i : Instr} {s t : State} (hb : i.isBarePrefix = false) (h : exec i s = .next t) :
    t.guarded = guardedAfter i s := by
  induction i with
  | asMainSpace xy inner ih | prefixEdAfterXy xy inner ih =>
    obtain ⟨hb', hx⟩ := exec_of_execEntry h
    exact ih hb' hx
  | prefixCb | prefixDd | prefixEd | prefixFd | prefixXyCb => cases hb
  | exAfAf | exx | imN | halt | ldIA | ldRfA | di | ei => cases h; rfl
  | reti | retn => cases h; exact s.returnFromInterrupt_guarded
  | _ =>
    cases h
    simp [guardedAfter, apply_ite State.guarded]

end Sys2Proof.Machine
end

section
/-! PROOFS. Who writes what (10_state.md R22, R24, R26, R28, R34 to R38): the instructions that keep `F`, those that keep
`WZ`, and the guarded part of the state, together. -/

namespace Sys2Proof.Machine

open Sys2Proof

/-! ### The shared operations that keep `F` -/

@[simp] theorem State.memRead_f (s : State) (a : Word) : (s.memRead a).2.f = s.f := rfl
@[simp] theorem State.memRead16_f (s : State) (a : Word) : (s.memRead16 a).2.f = s.f := rfl
@[simp] theorem State.memWrite16_f (s : State) (a w : Word) : (s.memWrite16 a w).f = s.f := rfl
@[simp] theorem State.ioRead_f (s : State) (port : Word) : (s.ioRead port).2.f = s.f := rfl

@[simp] theorem State.push16_f (s : State) (w : Word) : (s.push16 w).f = s.f := by
  simp only [State.push16_eq]

@[simp] theorem State.pop16_f (s : State) : s.pop16.2.f = s.f := by
  simp only [State.pop16_eq, State.memRead16_f]

@[simp] theorem State.callTo_f (s : State) (target : Word) : (s.callTo target).f = s.f := by
  simp only [State.callTo_eq]

@[simp] theorem State.popPc_f (s : State) : s.popPc.f = s.f := by
  simp only [State.popPc_eq, State.memRead16_f]

@[simp] theorem State.returnFromInterrupt_f (s : State) : s.returnFromInterrupt.f = s.f := by
  simp only [State.returnFromInterrupt_eq, State.memRead16_f]

@[simp] theorem State.jumpRelative_f (s : State) (e : Byte) : (s.jumpRelative e).f = s.f := rfl

@[simp] theorem State.exchangeStack_f (s : State) (w : Word) : (s.exchangeStack w).2.f = s.f := by
  simp only [State.exchangeStack, State.setWz_f, State.tick_f, State.memWrite_f, State.memRead16_f]

@[simp] theorem State.useIndex_f (s : State) (xy : Index) (d : Byte) (k : Nat) : (s.useIndex xy d k).f = s.f := rfl

@[simp] theorem State.modify_f (s : State) (a : Word) (g : Byte → Byte) : (s.modify a g).f = s.f := by
  simp only [State.modify_eq]

@[simp] theorem State.modifyCopy_f (s : State) (a : Word) (g : Byte → Byte) (r : Reg8) :
    (s.modifyCopy a g r).f = s.f := by
  rw [State.modifyCopy, State.setReg_f, State.modify_f]

/-- Of the stack pairs, only `AF` holds `F`. -/
theorem State.setStackPair_f (s : State) {p : StackPair} (w : Word) (h : p ≠ .af) : (s.setStackPair p w).f = s.f := by
  cases p with
  | bc | de | hl => rfl
  | af => exact absurd rfl h

/-! ### The shared operations that keep `WZ` -/

@[simp] theorem State.memRead_wz (s : State) (a : Word) : (s.memRead a).2.wz = s.wz := rfl
@[simp] theorem State.memRead16_wz (s : State) (a : Word) : (s.memRead16 a).2.wz = s.wz := rfl

@[simp] theorem State.push16_wz (s : State) (w : Word) : (s.push16 w).wz = s.wz := by
  simp only [State.push16_eq]

@[simp] theorem State.pop16_wz (s : State) : s.pop16.2.wz = s.wz := by
  simp only [State.pop16_eq, State.memRead16_wz]

@[simp] theorem State.modify_wz (s : State) (a : Word) (g : Byte → Byte) : (s.modify a g).wz = s.wz := by
  simp only [State.modify_eq]

@[simp] theorem State.rotAcc_wz (s : State) (op : RotOp) : (s.rotAcc op).wz = s.wz := by
  simp only [State.rotAcc_eq]

@[simp] theorem State.blockLoad_wz (s : State) (up : Bool) : (s.blockLoad up).wz = s.wz := by
  simp only [State.blockLoad_eq, State.memWrite_wz, State.memRead_wz]

@[simp] theorem State.stepMem_wz (s : State) (a : Word) (step : Byte → Byte → Byte × Byte) :
    (s.stepMem a step).wz = s.wz := by
  simp only [State.stepMem_eq, State.modify_wz]

@[simp] theorem State.rotMem_wz (s : State) (a : Word) (op : RotOp) : (s.rotMem a op).wz = s.wz := by
  simp only [State.rotMem_eq, State.modify_wz]

@[simp] theorem State.rotReg_wz (s : State) (r : Reg8) (op : RotOp) : (s.rotReg r op).wz = s.wz := by
  rw [State.rotReg, State.setF_wz, State.setReg_wz]

/-- An operation on the accumulator writes `WZ` for an indexed operand alone. -/
theorem State.aluFrom_wz (s : State) (op : AluOp) {src : Src8} (h : ∀ xy d, src ≠ .memIdx xy d) :
    (s.aluFrom op src).wz = s.wz := by
  cases src with
  | memIdx xy d => exact absurd rfl (h xy d)
  | _ => rfl

/-! ### Instructions -/

/-- The instructions that end the list of 10_state.md R26 keep `F`. -/
theorem exec_keeps_f {i : Instr} {s t : State} (hk : i.keepsFlags = true) (h : exec i s = .next t) : t.f = s.f := by
  induction i with
  | asMainSpace xy inner ih | prefixEdAfterXy xy inner ih => exact ih hk (exec_of_execEntry h).2
  | popQq qq =>
    have hqq : qq ≠ .af := by simpa [Instr.keepsFlags] using hk
    cases h
    rw [State.setStackPair_f _ _ hqq, State.pop16_f]
  | _ =>
    cases hk <;> cases h
    all_goals simp [apply_ite State.toCoreState, apply_ite CoreState.f]

/-- The instructions outside the list of 10_state.md R28 keep `WZ`. -/
theorem exec_keeps_wz {i : Instr} {s t : State} (hb : i.isBarePrefix = false) (hk : i.writesWz = false)
    (h : exec i s = .next t) : t.wz = s.wz := by
  induction i with
  | asMainSpace xy inner ih | prefixEdAfterXy xy inner ih =>
    obtain ⟨hb', hx⟩ := exec_of_execEntry h
    exact ih hb' hk hx
  | prefixCb | prefixDd | prefixEd | prefixFd | prefixXyCb => cases hb
  | _ =>
    cases hk <;> cases h
    all_goals simp [State.aluFrom_wz]

/-- Each field of the guarded part is written by the instructions named here for it, and the inputs, the adapter and the
configuration by none. -/
theorem guardedAfter_keeps (i : Instr) (s : State) :
    let g := guardedAfter i s
    (i.entry ≠ .exAfAf → g.altA = s.altA ∧ g.altF = s.altF) ∧
    (i.entry ≠ .exx → g.altB = s.altB ∧ g.altC = s.altC ∧ g.altD = s.altD ∧ g.altE = s.altE ∧ g.altH = s.altH ∧
      g.altL = s.altL) ∧
    ((∀ y, i.entry ≠ .imN y) → g.im = s.im) ∧ (i.entry ≠ .halt → g.halt = s.halt) ∧
    (i.entry ≠ .ldIA → g.i = s.i) ∧ (i.entry ≠ .ldRfA → g.r = s.r) ∧
    (i.entry ≠ .ei → i.entry ≠ .di → g.iff2 = s.iff2 ∧
      (i.entry ≠ .reti → (∀ y, i.entry ≠ .retn y) → g.iff1 = s.iff1)) ∧
    g.intLine = s.intLine ∧ g.nmiPending = s.nmiPending ∧ g.lineScript = s.lineScript ∧ g.adapter = s.adapter ∧
      g.cfg = s.cfg := by
  unfold guardedAfter
  split
  all_goals simp [*, State.guarded]

/-- Settles O58: `F` and `WZ` by their lists, everything else by what an instruction leaves of the guarded part. -/
theorem onlyTheListedInstructionsWrite : Obligations.OnlyTheListedInstructionsWrite := by
  intro i s t hb h
  have hkeeps := guardedAfter_keeps i s
  rw [← exec_guarded hb h] at hkeeps
  obtain ⟨haf, hbank, him, hhalt, hi, hr, henables, hinputs⟩ := hkeeps
  exact ⟨haf, hbank, fun hk => exec_keeps_f hk h, fun hk => exec_keeps_wz hb hk h, him, hhalt, hi, hr, henables,
    hinputs⟩

end Sys2Proof.Machine
end

section
/-! PROOFS. Memory is what its addresses hold (20_memory.md R60, R75): reading tells two canonical memories apart. -/

namespace Sys2Proof.Machine

open Sys2Proof

theorem Memory.wfFrom_cons_iff {low k : Nat} {v : Byte} {m : Memory} :
    Memory.wfFrom low ((k, v) :: m) = true ↔
      low ≤ k ∧ k < 65536 ∧ v ≠ Memory.unlisted ∧ Memory.wfFrom (k + 1) m = true := by
  simp only [Memory.wfFrom, Bool.and_eq_true, decide_eq_true_eq, and_assoc]

/-- The canonical form from `low` on lists no address below `low`. -/
theorem Memory.read_lt_of_wfFrom {low a : Nat} {m : Memory} (hm : Memory.wfFrom low m = true) (ha : a < low) :
    m.read a = Memory.unlisted := by
  induction m generalizing low with
  | nil => rfl
  | cons c m ih =>
    obtain ⟨hk, -, -, hrest⟩ := Memory.wfFrom_cons_iff.mp hm
    rw [Memory.read, if_neg (by omega), ih hrest (by omega)]

/-- The first cell of a canonical memory tells it from one that lists later addresses only. -/
theorem Memory.read_head_ne {low k : Nat} {v : Byte} {m m' : Memory} (hm : Memory.wfFrom low ((k, v) :: m) = true)
    (hm' : Memory.wfFrom (k + 1) m' = true) : m'.read k ≠ Memory.read ((k, v) :: m) k := by
  obtain ⟨-, -, hv, -⟩ := Memory.wfFrom_cons_iff.mp hm
  rw [Memory.read_lt_of_wfFrom hm' (Nat.lt_succ_self k), Memory.read, if_pos rfl]
  exact hv.symm

/-- Two canonical memories that read alike list the same cells, one after the other. -/
theorem Memory.eq_of_read_eq {low : Nat} {m m' : Memory} (hm : Memory.wfFrom low m = true)
    (hm' : Memory.wfFrom low m' = true) (h : ∀ a, a < 65536 → m.read a = m'.read a) : m = m' := by
  induction m generalizing m' low with
  | nil =>
    cases m' with
    | nil => rfl
    | cons c m' =>
      obtain ⟨-, hk, -, -⟩ := Memory.wfFrom_cons_iff.mp hm'
      exact absurd (h _ hk) (Memory.read_head_ne hm' rfl)
  | cons c m ih =>
    obtain ⟨k, v⟩ := c
    obtain ⟨hlow, hk, hv, hrest⟩ := Memory.wfFrom_cons_iff.mp hm
    cases m' with
    | nil => exact absurd (h _ hk).symm (Memory.read_head_ne hm rfl)
    | cons c' m' =>
      obtain ⟨k', v'⟩ := c'
      obtain ⟨hlow', hk', hv', hrest'⟩ := Memory.wfFrom_cons_iff.mp hm'
      rcases lt_trichotomy k k' with hlt | rfl | hlt
      · have hlater : Memory.wfFrom (k + 1) ((k', v') :: m') = true :=
          Memory.wfFrom_cons_iff.mpr ⟨hlt, hk', hv', hrest'⟩
        exact absurd (h _ hk).symm (Memory.read_head_ne hm hlater)
      · have hhead : v = v' := by simpa [Memory.read] using h k hk
        have htail : ∀ a, a < 65536 → Memory.read m a = Memory.read m' a := fun a ha => by
          by_cases hak : a ≤ k
          · rw [Memory.read_lt_of_wfFrom hrest (Nat.lt_succ_of_le hak),
              Memory.read_lt_of_wfFrom hrest' (Nat.lt_succ_of_le hak)]
          · simpa [Memory.read, show k ≠ a by omega] using h a ha
        rw [hhead, ih hrest hrest' htail]
      · have hlater : Memory.wfFrom (k' + 1) ((k, v) :: m) = true :=
          Memory.wfFrom_cons_iff.mpr ⟨hlt, hk, hv, hrest⟩
        exact absurd (h _ hk') (Memory.read_head_ne hm' hlater)

/-- Settles O41, by induction on the cells. -/
theorem memoryIsWhatItsAddressesHold : Obligations.MemoryIsWhatItsAddressesHold := fun _ _ hm hm' h =>
  Memory.eq_of_read_eq hm hm' fun a ha => by
    simpa only [BitVec.toNat_ofNat, Nat.mod_eq_of_lt ha] using h (BitVec.ofNat 16 a)

end Sys2Proof.Machine
end

section
/-! PROOFS. The conversation with the adapter (20_memory.md R64 to R66, R75): everything the core does to the part of the
state outside its registers is a sequence of calls and internal cycles. -/

namespace Sys2Proof.Machine

open Sys2Proof

/-! ### What calls do to memory -/

/-- The adapter's memory after one call. -/
def Adapter.afterCall (ad : Adapter) (m : Memory) : BusAccess → Memory
  | .write a v => ad.store m a v
  | _ => m

/-- The adapter's memory after some calls, oldest first. -/
def Adapter.afterCalls (ad : Adapter) (m : Memory) (calls : List BusAccess) : Memory := calls.foldl ad.afterCall m

theorem Adapter.afterCalls_append (ad : Adapter) (m : Memory) (xs ys : List BusAccess) :
    ad.afterCalls m (xs ++ ys) = ad.afterCalls (ad.afterCalls m xs) ys := List.foldl_append

theorem Adapter.wf_afterCalls (ad : Adapter) {m : Memory} (calls : List BusAccess) (h : m.wf = true) :
    (ad.afterCalls m calls).wf = true := by
  induction calls generalizing m with
  | nil => exact h
  | cons call rest ih =>
    cases call with
    | write a v => exact ih (ad.wf_store m a v h)
    | _ => exact ih h

/-- With `RAM64K` behind the core, the answers are the bytes memory holds, no answer is the adapter's own, and every port
reads as the byte stated (20_memory.md R75). Memory may be held in another form, if it reads alike. -/
theorem CallsDo.ram64k {w : Byte} {history : List BusAccess} {m m₁ m' : Memory} {q q' : List Byte}
    {calls : List BusAccess} (h : CallsDo (.ram64k w) history m q calls m' q') (hm : ∀ k, m₁.read k = m.read k) :
    m₁.Answers calls ((Adapter.ram64k w).afterCalls m₁ calls) ∧ q' = q ∧ ∀ p v, .ioRead p v ∈ calls → v = w := by
  induction calls generalizing history m m₁ q with
  | nil => exact ⟨rfl, h.2, fun _ _ hp => absurd hp List.not_mem_nil⟩
  | cons call rest ih =>
    obtain ⟨m2, q2, hcall, hrest⟩ := h
    cases call with
    | fetch a v | read a v =>
      obtain ⟨rfl, hv, rfl⟩ := hcall
      obtain ⟨hans, hq, hports⟩ := ih hrest hm
      exact ⟨⟨hv.trans (hm _).symm, hans⟩, hq, fun p u hp => hports p u (by simpa using hp)⟩
    | write a v =>
      obtain ⟨rfl, hread⟩ := hcall
      have hm2 : ∀ k, (m₁.write a.toNat v).read k = m2.read k := fun k => by
        rw [hread, Memory.read_write, hm, Adapter.placeOf_ram64k]
        simp only [and_true, eq_comm]
      obtain ⟨hans, hq, hports⟩ := ih hrest hm2
      exact ⟨hans, hq, fun p u hp => hports p u (by simpa using hp)⟩
    | ioRead p v =>
      obtain ⟨rfl, rfl, rfl⟩ := hcall
      obtain ⟨hans, hq, hports⟩ := ih hrest hm
      refine ⟨hans, hq, fun p' u hp => ?_⟩
      rcases List.mem_cons.mp hp with he | hp
      · exact (BusAccess.ioRead.inj he).2
      · exact hports p' u hp
    | ioWrite p v =>
      obtain ⟨rfl, rfl⟩ := hcall
      obtain ⟨hans, hq, hports⟩ := ih hrest hm
      exact ⟨hans, hq, fun p u hp => hports p u (by simpa using hp)⟩

/-! ### Conversations -/

/-- The part of the state that is no register: the configuration, the adapter, what calls and internal cycles change, and
the hold-off (10_state.md R39, R40). -/
structure OuterPart where
  cfg : CoreConfig
  adapter : Adapter
  mem : Memory
  answers : List Byte
  bus : List BusAccess
  cycles : Nat
  inhibit : Bool
  pfx : Option Index

/-- The outer part of a state, field by field. -/
def State.outer (s : State) : OuterPart where
  cfg := s.cfg
  adapter := s.adapter
  mem := s.mem
  answers := s.answers
  bus := s.bus
  cycles := s.cycles
  inhibit := s.inhibit
  pfx := s.pfx

/-- `calls` and `ticks` internal cycles lead from `x` to `y`, and change nothing else. The adapter's memory is given as the
data it is, not only by what its addresses hold. -/
structure OuterPart.LeadsBy (x : OuterPart) (calls : List BusAccess) (ticks : Nat) (y : OuterPart) : Prop where
  bus : y.bus = calls.reverse ++ x.bus
  does : CallsDo x.adapter x.bus x.mem x.answers calls y.mem y.answers
  mem : y.mem = x.adapter.afterCalls x.mem calls
  adapter : y.adapter = x.adapter
  cfg : y.cfg = x.cfg
  cycles : y.cycles = x.cycles + costOf x.cfg calls ticks
  inhibit : y.inhibit = x.inhibit
  pfx : y.pfx = x.pfx

/-- Some calls and internal cycles lead from `x` to `y`. -/
def OuterPart.Leads (x y : OuterPart) : Prop := ∃ calls ticks, x.LeadsBy calls ticks y

@[simp] theorem OuterPart.Leads.refl (x : OuterPart) : x.Leads x :=
  ⟨[], 0, rfl, ⟨rfl, rfl⟩, rfl, rfl, rfl, rfl, rfl, rfl⟩

theorem OuterPart.Leads.trans {x y z : OuterPart} (h : x.Leads y) (h' : y.Leads z) : x.Leads z := by
  obtain ⟨xs, n, h⟩ := h
  obtain ⟨ys, k, h'⟩ := h'
  have hcalls := h'.does
  rw [h.adapter, h.bus] at hcalls
  refine ⟨xs ++ ys, n + k, ?_, h.does.append hcalls, ?_, h'.adapter.trans h.adapter, h'.cfg.trans h.cfg, ?_,
    h'.inhibit.trans h.inhibit, h'.pfx.trans h.pfx⟩
  · rw [h'.bus, h.bus, List.reverse_append, List.append_assoc]
  · rw [h'.mem, h.adapter, h.mem, Adapter.afterCalls_append]
  · rw [h'.cycles, h.cfg, h.cycles, costOf_append, Nat.add_assoc]

/-- A conversation of the kind `State.After` describes goes on from one, when memory is the data it should be. -/
theorem OuterPart.Leads.after {x : OuterPart} {s u : State} {calls : List BusAccess} {n : Nat} (h : x.Leads s.outer)
    (ha : s.After calls n u) (hm : u.mem = s.adapter.afterCalls s.mem calls) : x.Leads u.outer := by
  obtain ⟨hu, hc⟩ := ha
  refine h.trans ⟨calls, n, ?_, hc, hm, ?_, ?_, ?_, ?_, ?_⟩ <;> rw [hu] <;> rfl

/-! ### Writing registers

Each lemma goes field by field, by the laws of the named update, and not by `rfl`: as a rewriting step with a proof of its
own it also serves where `simp` has the hypothesis of one of the lemmas below to show. -/

@[simp] theorem State.setF_outer (s : State) (v : Byte) : (s.setF v).outer = s.outer := by simp [State.outer]
@[simp] theorem State.setSp_outer (s : State) (w : Word) : (s.setSp w).outer = s.outer := by simp [State.outer]
@[simp] theorem State.setPc_outer (s : State) (w : Word) : (s.setPc w).outer = s.outer := by simp [State.outer]
@[simp] theorem State.setWz_outer (s : State) (w : Word) : (s.setWz w).outer = s.outer := by simp [State.outer]
@[simp] theorem State.setBc_outer (s : State) (w : Word) : (s.setBc w).outer = s.outer := by simp [State.outer]
@[simp] theorem State.setDe_outer (s : State) (w : Word) : (s.setDe w).outer = s.outer := by simp [State.outer]
@[simp] theorem State.setHl_outer (s : State) (w : Word) : (s.setHl w).outer = s.outer := by simp [State.outer]
@[simp] theorem State.jumpTo_outer (s : State) (w : Word) : (s.jumpTo w).outer = s.outer := by simp [State.outer]

@[simp] theorem State.setReg_outer (s : State) (r : Reg8) (v : Byte) : (s.setReg r v).outer = s.outer := by
  cases r <;> rfl

@[simp] theorem State.setPair_outer (s : State) (p : Pair) (w : Word) : (s.setPair p w).outer = s.outer := by
  cases p <;> rfl

@[simp] theorem State.setStackPair_outer (s : State) (p : StackPair) (w : Word) :
    (s.setStackPair p w).outer = s.outer := by
  cases p <;> rfl

@[simp] theorem State.setIndex_outer (s : State) (xy : Index) (w : Word) : (s.setIndex xy w).outer = s.outer := by
  cases xy <;> rfl

@[simp] theorem State.setHalf_outer (s : State) (xy : Index) (p : Half) (v : Byte) :
    (s.setHalf xy p v).outer = s.outer := by
  rw [State.setHalf_eq_setIndex, State.setIndex_outer]

@[simp] theorem State.setXReg_outer (s : State) (xy : Index) (x : XReg8) (v : Byte) :
    (s.setXReg xy x v).outer = s.outer := by
  cases x <;> simp only [State.setXReg, State.setReg_outer, State.setHalf_outer]

@[simp] theorem State.rotReg_outer (s : State) (r : Reg8) (op : RotOp) : (s.rotReg r op).outer = s.outer := by
  rw [State.rotReg, State.setF_outer, State.setReg_outer]

@[simp] theorem State.rotAcc_outer (s : State) (op : RotOp) : (s.rotAcc op).outer = s.outer := by
  rw [State.rotAcc, State.setF_outer, State.setReg_outer]

/-! ### The operations that call the adapter or take time

Each goes on from a conversation that led to the state it begins in. -/

section
variable {x : OuterPart} {s : State}

@[simp] theorem OuterPart.Leads.tick (h : x.Leads s.outer) (n : Nat) : x.Leads (s.tick n).outer :=
  h.after (s.tick_after n) rfl

@[simp] theorem OuterPart.Leads.memRead (h : x.Leads s.outer) (a : Word) : x.Leads (s.memRead a).2.outer :=
  h.after (s.memRead_after a) rfl

@[simp] theorem OuterPart.Leads.memWrite (h : x.Leads s.outer) (a : Word) (v : Byte) : x.Leads (s.memWrite a v).outer :=
  h.after (s.memWrite_after a v) rfl

@[simp] theorem OuterPart.Leads.ioRead (h : x.Leads s.outer) (p : Word) : x.Leads (s.ioRead p).2.outer :=
  h.after (s.ioRead_after p) rfl

@[simp] theorem OuterPart.Leads.ioWrite (h : x.Leads s.outer) (p : Word) (v : Byte) : x.Leads (s.ioWrite p v).outer :=
  h.after (s.ioWrite_after p v) rfl

theorem OuterPart.Leads.fetch (h : x.Leads s.outer) : x.Leads s.fetch.2.outer :=
  OuterPart.Leads.after (u := { s.fetch.2 with pc := s.pc, r := s.r }) h s.fetch_after rfl

theorem OuterPart.Leads.imm8 (h : x.Leads s.outer) : x.Leads s.imm8.2.outer :=
  OuterPart.Leads.after (u := { s.imm8.2 with pc := s.pc }) h s.imm8_after rfl

@[simp] theorem OuterPart.Leads.memRead16 (h : x.Leads s.outer) (a : Word) : x.Leads (s.memRead16 a).2.outer :=
  (h.memRead a).memRead (a + 1)

@[simp] theorem OuterPart.Leads.memWrite16 (h : x.Leads s.outer) (a w : Word) : x.Leads (s.memWrite16 a w).outer :=
  (h.memWrite a _).memWrite (a + 1) _

@[simp] theorem OuterPart.Leads.push16 (h : x.Leads s.outer) (w : Word) : x.Leads (s.push16 w).outer := by
  simp [State.push16, h]

@[simp] theorem OuterPart.Leads.pop16 (h : x.Leads s.outer) : x.Leads s.pop16.2.outer := by
  simp [State.pop16, h]

@[simp] theorem OuterPart.Leads.callTo (h : x.Leads s.outer) (target : Word) : x.Leads (s.callTo target).outer :=
  h.push16 s.pc

@[simp] theorem OuterPart.Leads.popPc (h : x.Leads s.outer) : x.Leads s.popPc.outer := h.pop16

@[simp] theorem OuterPart.Leads.returnFromInterrupt (h : x.Leads s.outer) : x.Leads s.returnFromInterrupt.outer :=
  OuterPart.Leads.popPc (s := { s with iff1 := s.iff2 }) h

@[simp] theorem OuterPart.Leads.jumpRelative (h : x.Leads s.outer) (e : Byte) : x.Leads (s.jumpRelative e).outer :=
  h.tick 5

@[simp] theorem OuterPart.Leads.exchangeStack (h : x.Leads s.outer) (w : Word) : x.Leads (s.exchangeStack w).2.outer := by
  simp [State.exchangeStack, ((h.memRead16 s.sp).tick 1).memWrite]

@[simp] theorem OuterPart.Leads.useIndex (h : x.Leads s.outer) (xy : Index) (d : Byte) (k : Nat) :
    x.Leads (s.useIndex xy d k).outer :=
  h.tick k

@[simp] theorem OuterPart.Leads.readSource (h : x.Leads s.outer) (src : Src8) : x.Leads (s.readSource src).2.outer := by
  cases src with
  | reg | imm | half => exact h
  | memHl => exact h.memRead s.hl
  | memIdx xy d => exact (h.useIndex xy d 5).memRead _

@[simp] theorem OuterPart.Leads.aluFrom (h : x.Leads s.outer) (op : AluOp) (src : Src8) :
    x.Leads (s.aluFrom op src).outer :=
  h.readSource src

@[simp] theorem OuterPart.Leads.modify (h : x.Leads s.outer) (a : Word) (g : Byte → Byte) :
    x.Leads (s.modify a g).outer := by
  simp [State.modify, (h.memRead a).tick]

@[simp] theorem OuterPart.Leads.stepMem (h : x.Leads s.outer) (a : Word) (step : Byte → Byte → Byte × Byte) :
    x.Leads (s.stepMem a step).outer := by
  rw [State.stepMem, State.setF_outer]
  exact h.modify a _

@[simp] theorem OuterPart.Leads.rotMem (h : x.Leads s.outer) (a : Word) (op : RotOp) : x.Leads (s.rotMem a op).outer := by
  rw [State.rotMem, State.setF_outer]
  exact h.modify a _

@[simp] theorem OuterPart.Leads.modifyCopy (h : x.Leads s.outer) (a : Word) (g : Byte → Byte) (r : Reg8) :
    x.Leads (s.modifyCopy a g r).outer := by
  rw [State.modifyCopy, State.setReg_outer]
  exact h.modify a g

@[simp] theorem OuterPart.Leads.rotMemCopy (h : x.Leads s.outer) (a : Word) (op : RotOp) (r : Reg8) :
    x.Leads (s.rotMemCopy a op r).outer := by
  rw [State.rotMemCopy, State.setReg_outer]
  exact h.rotMem a op

@[simp] theorem OuterPart.Leads.digitRotate (h : x.Leads s.outer) (rot : Byte → Byte → Byte × Byte) :
    x.Leads (s.digitRotate rot).outer := by
  simp [State.digitRotate, (h.memRead s.hl).tick]

@[simp] theorem OuterPart.Leads.arith16_setHl (h : x.Leads s.outer) (r : Word × Byte) (old : Word) :
    x.Leads (s.arith16 r old .setHl).outer :=
  h.tick 7

@[simp] theorem OuterPart.Leads.arith16_setIndex (h : x.Leads s.outer) (r : Word × Byte) (old : Word) (xy : Index) :
    x.Leads (s.arith16 r old (fun t w => t.setIndex xy w)).outer := by
  simp [State.arith16, h]

@[simp] theorem OuterPart.Leads.blockLoad (h : x.Leads s.outer) (up : Bool) : x.Leads (s.blockLoad up).outer := by
  simp [State.blockLoad, (h.memRead s.hl).memWrite]

@[simp] theorem OuterPart.Leads.blockCompare (h : x.Leads s.outer) (up : Bool) : x.Leads (s.blockCompare up).outer := by
  simp [State.blockCompare, h.memRead]

@[simp] theorem OuterPart.Leads.blockIn (h : x.Leads s.outer) (up : Bool) : x.Leads (s.blockIn up).outer := by
  simp [State.blockIn, (h.tick 1).ioRead]

@[simp] theorem OuterPart.Leads.blockOut (h : x.Leads s.outer) (up : Bool) : x.Leads (s.blockOut up).outer := by
  simp [State.blockOut, (h.tick 1).memRead]

@[simp] theorem OuterPart.Leads.repeatBlock (h : x.Leads s.outer) : x.Leads s.repeatBlock.outer := h.tick 5

@[simp] theorem OuterPart.Leads.repeatIo (h : x.Leads s.outer) : x.Leads s.repeatIo.outer := h.tick 5

end

/-! ### Instructions -/

/-- The state in which the instruction `i` has set the hold-off: `EI` (10_state.md R39) and a repeated prefix
(30_encoding.md R104) do, and no other. -/
def State.heldOff (s : State) (i : Instr) : State :=
  match i.entry with
  | .ei => { s with inhibit := true }
  | .repeatedPrefixDd _ => s.pendPrefix .ix
  | .repeatedPrefixFd _ => s.pendPrefix .iy
  | _ => s

/-- An instruction sets the hold-off if it is one that does, and all else it does outside the registers is a
conversation. -/
theorem exec_leads {i : Instr} {s t : State} (hb : i.isBarePrefix = false) (h : exec i s = .next t) :
    (s.heldOff i).outer.Leads t.outer := by
  induction i with
  | asMainSpace xy inner ih | prefixEdAfterXy xy inner ih =>
    obtain ⟨hb', hx⟩ := exec_of_execEntry h
    exact ih hb' hx
  | prefixCb | prefixDd | prefixEd | prefixFd | prefixXyCb => cases hb
  | exAfAf | exx | ei | di | halt | imN | repeatedPrefixDd | repeatedPrefixFd => cases h; exact .refl _
  | ldIA => cases h; exact .tick (s := { s with i := s.a }) (.refl _) 1
  | ldRfA => cases h; exact .tick (s := { s with r := s.a }) (.refl _) 1
  | bitBMemXyd xy d bit =>
    cases h
    have hread := ((OuterPart.Leads.refl s.outer).useIndex xy d 2).memRead
    simp [State.heldOff, hread]
  | jpCcNn | djnzE | jrCcE | retCc | callCcNn | ldir | lddr | cpir | cpdr | inir | indr | otir | otdr =>
    cases h
    simp only [State.heldOff, Instr.entry]
    split <;> simp
  | _ =>
    cases h
    simp [State.heldOff]

end Sys2Proof.Machine
end

section
/-! PROOFS. What a step makes of the state outside the registers and of what few instructions write: every step begins at
the boundary check and is a conversation with the adapter (20_memory.md R64 to R66, R72, R75, R76), and every step keeps
the invariant of the machine. -/

namespace Sys2Proof.Machine

open Sys2Proof

/-! ### Reading an instruction -/

section
variable {x : OuterPart} {s : State}

theorem OuterPart.Leads.fetchOpcode (h : x.Leads s.outer) (n : Nat) (got : List Byte) :
    x.Leads (s.fetchOpcode n got).2.outer := by
  induction n generalizing s got with
  | zero => exact h
  | succ n ih =>
    rw [State.fetchOpcode]
    split
    · exact ih h.fetch _
    · exact h

theorem OuterPart.Leads.readOperands (h : x.Leads s.outer) (n : Nat) (got : List Byte) :
    x.Leads (s.readOperands n got).2.outer := by
  induction n generalizing s got with
  | zero => exact h
  | succ n ih => exact ih h.imm8 _

theorem OuterPart.Leads.fetchInstr (h : x.Leads s.outer) (supplied : List Byte) :
    x.Leads (s.fetchInstr supplied).2.outer :=
  (h.fetchOpcode 3 supplied).readOperands _ _

end

/-- Reading an instruction counts in `R`, and writes nothing else of the guarded part. -/
theorem State.fetchInstr_guarded (s : State) {supplied : List Byte} (hp : Supplied supplied) :
    (s.fetchInstr supplied).2.guarded = { s.guarded with r := (s.fetchInstr supplied).2.r } := by
  obtain ⟨bytes, v, -, -, ⟨hv, -⟩, hu⟩ := s.fetchInstr_hasRead hp
  rw [hu, hv]
  rfl

/-! ### Taking an interrupt -/

theorem State.accept_nmi_guarded (s : State) : (s.accept .nmi).guarded =
    { s.guarded with nmiPending := false, halt := false, iff1 := false, r := s.bumpR.r } := by
  rw [State.accept_nmi_eq]
  rfl

theorem State.accept_int_guarded (s : State) : (s.accept .int).guarded =
    { s.guarded with halt := false, iff1 := false, iff2 := false, r := s.bumpR.r } := by
  cases him : s.im with
  | im0 => rw [State.accept_int_mode0 s him]; rfl
  | im1 => rw [State.accept_int_mode1 s him]; rfl
  | im2 =>
    rw [State.accept_int_mode2 s him, State.jumpTo_guarded, State.memRead16_guarded, State.push16_guarded]
    rfl

theorem State.accept_leads (s : State) (k : Interrupt) : s.outer.Leads (s.accept k).outer := by
  have h := OuterPart.Leads.refl s.outer
  cases k with
  | nmi =>
    have he : (s.accept .nmi).outer = ((s.tick 5).callTo 0x0066).outer := by
      simp only [State.outer, State.accept_nmi_eq, State.callTo_eq, State.tick]
    rw [he]
    exact (h.tick 5).callTo 0x0066
  | int =>
    cases him : s.im with
    | im0 =>
      have he : (s.accept .int).outer = ((s.tick 2).tick s.cfg.tFetch).outer := by
        simp only [State.outer, State.accept_int_mode0 s him, State.tick]
      rw [he]
      exact (h.tick 2).tick s.cfg.tFetch
    | im1 =>
      have he : (s.accept .int).outer = ((s.tick 7).callTo 0x0038).outer := by
        simp only [State.outer, State.accept_int_mode1 s him, State.callTo_eq, State.tick]
      rw [he]
      exact (h.tick 7).callTo 0x0038
    | im2 =>
      rw [State.accept_int_mode2 s him, State.jumpTo_outer]
      exact ((OuterPart.Leads.tick (s := { s.acknowledge with iff1 := false, iff2 := false }) h 7).push16 s.pc).memRead16 _

/-! ### A step -/

theorem State.sampleLines_outer (s : State) : s.sampleLines.outer = s.outer := by
  unfold State.sampleLines
  split <;> rfl

/-- Reading an instruction in the state `s`, whatever bytes of it are supplied, and executing it ends in `t`. -/
def State.RunsTo (s t : State) : Prop :=
  ∃ supplied, Supplied supplied ∧ exec (s.fetchInstr supplied).1 (s.fetchInstr supplied).2 = .next t

/-- After a boundary check that accepts nothing: the halted idle, or an instruction, any pending prefix consumed. -/
theorem State.proceed_cases {s t : State} {target : Nat} (h : (s.proceed target).outcome = .next t) :
    (s.halt = true ∧ t = { s with cycles := target }) ∨
      (s.halt = false ∧ ({ s with pfx := none } : State).RunsTo t) := by
  unfold State.proceed at h
  split at h
  case isTrue hh => exact .inl ⟨hh, (Host.Outcome.next.inj h).symm⟩
  case isFalse hh =>
    refine .inr ⟨by simpa using hh, ?_⟩
    split at h
    case h_1 hpfx =>
      rw [← hpfx]
      exact ⟨[], supplied_nil, h⟩
    case h_2 xy _ => exact ⟨[xy.prefixByte], supplied_one _, h⟩

theorem State.inhibit_false_eq {s : State} (h : s.inhibit = false) : ({ s with inhibit := false } : State) = s := by
  rw [← h]

/-- What a step comes to, `u` being the state with the inputs sampled: the halted idle; an acceptance; or an instruction,
read where nothing was accepted, or in a mode 0 acceptance. -/
theorem step_cases {s t : State} (h : step s = .next t) :
    let u := s.sampleLines
    let v : State := { u with inhibit := false }
    (v.halt = true ∧ t = { v with cycles := s.cycles + 1 }) ∨
      (v.halt = false ∧ ({ v with pfx := none } : State).RunsTo t) ∨
      (u.inhibit = false ∧ (t = u.accept .nmi ∨ t = u.accept .int ∨ (u.accept .int).RunsTo t)) := by
  intro u v
  rw [step_eq_outcome] at h
  rcases s.plan_cases (s.cycles + 1) with ⟨-, e⟩ | ⟨hi, -, e⟩ | ⟨hi, -, -, e⟩ | ⟨hi, -, -, e⟩ <;> rw [e] at h
  · rcases State.proceed_cases h with hidle | hrun
    · exact .inl hidle
    · exact .inr (.inl hrun)
  · exact .inr (.inr ⟨hi, .inl (Host.Outcome.next.inj h).symm⟩)
  · refine .inr (.inr ⟨hi, .inr ?_⟩)
    unfold State.acceptInt at h
    split at h
    case h_1 => exact .inr ⟨_, supplied_one _, h⟩
    case h_2 => exact .inl (Host.Outcome.next.inj h).symm
  · rw [← State.inhibit_false_eq hi] at h
    rcases State.proceed_cases h with hidle | hrun
    · exact .inl hidle
    · exact .inr (.inl hrun)

end Sys2Proof.Machine
end

section
/-! PROOFS. The two statements about every step: it talks to the adapter and does nothing else outside the registers
(20_memory.md R64 to R66, R72, R75, R76), and it keeps the invariant (20_memory.md R75, 00_scope.md R4, 10_state.md R34,
30_encoding.md R104, 60_exceptions.md R443). -/

namespace Sys2Proof.Machine

open Sys2Proof

/-! ### The adapter -/

/-- The outer part with another hold-off. -/
def OuterPart.hold (x : OuterPart) (inhibit : Bool) (pfx : Option Index) : OuterPart :=
  { x with inhibit := inhibit, pfx := pfx }

/-- A conversation does not depend on the hold-off. -/
theorem OuterPart.Leads.hold {x y : OuterPart} (h : x.Leads y) (inhibit : Bool) (pfx : Option Index) :
    (x.hold inhibit pfx).Leads (y.hold inhibit pfx) := by
  obtain ⟨calls, ticks, h⟩ := h
  exact ⟨calls, ticks, h.bus, h.does, h.mem, h.adapter, h.cfg, h.cycles, rfl, rfl⟩

theorem State.heldOff_outer (s : State) (i : Instr) :
    (s.heldOff i).outer = s.outer.hold (s.heldOff i).inhibit (s.heldOff i).pfx := by
  unfold State.heldOff
  split <;> rfl

theorem State.RunsTo.leads {s t : State} (h : s.RunsTo t) : ∃ inhibit pfx, (s.outer.hold inhibit pfx).Leads t.outer := by
  obtain ⟨supplied, hp, hx⟩ := h
  have hexec := exec_leads (Instr.isWhole.not_bare (s.fetchInstr_isRead hp).1) hx
  rw [State.heldOff_outer] at hexec
  exact ⟨_, _, (((OuterPart.Leads.refl s.outer).fetchInstr supplied).hold _ _).trans hexec⟩

/-- But for the hold-off, a step is a conversation. -/
theorem step_leads {s t : State} (h : step s = .next t) : ∃ inhibit pfx, (s.outer.hold inhibit pfx).Leads t.outer := by
  rw [← s.sampleLines_outer]
  rcases step_cases h with ⟨-, rfl⟩ | ⟨-, hrun⟩ | ⟨-, rfl | rfl | hrun⟩
  · rw [← s.sampleLines_same.2]
    exact ⟨_, _, .tick (s := { s.sampleLines with inhibit := false }) (.refl _) 1⟩
  · exact hrun.leads
  · exact ⟨_, _, State.accept_leads _ .nmi⟩
  · exact ⟨_, _, State.accept_leads _ .int⟩
  · obtain ⟨inhibit, pfx, hl⟩ := hrun.leads
    exact ⟨inhibit, pfx, ((State.accept_leads _ .int).hold inhibit pfx).trans hl⟩

/-- An instruction changes no interrupt input. -/
theorem State.RunsTo.inputs {s t : State} (h : s.RunsTo t) : t.intLine = s.intLine ∧ t.nmiPending = s.nmiPending := by
  obtain ⟨supplied, hp, hx⟩ := h
  have hread := s.fetchInstr_guarded hp
  obtain ⟨-, -, -, -, -, -, -, -, -, hint, hnmi, -⟩ :=
    onlyTheListedInstructionsWrite _ _ _ (Instr.isWhole.not_bare (s.fetchInstr_isRead hp).1) hx
  exact ⟨hint.trans (congrArg GuardedPart.intLine hread), hnmi.trans (congrArg GuardedPart.nmiPending hread)⟩

/-- A step leaves the interrupt inputs as they were sampled, but for the request it accepts. -/
theorem step_inputs {s t : State} (h : step s = .next t) :
    t.intLine = s.sampleLines.intLine ∧ (t.nmiPending = true → s.sampleLines.nmiPending = true) := by
  have hnmi := s.sampleLines.accept_nmi_guarded
  have hint := s.sampleLines.accept_int_guarded
  rcases step_cases h with ⟨-, rfl⟩ | ⟨-, hrun⟩ | ⟨-, rfl | rfl | hrun⟩
  · exact ⟨rfl, id⟩
  · obtain ⟨hline, hpending⟩ := hrun.inputs
    exact ⟨hline, fun ht => hpending.symm.trans ht⟩
  · have hoff := congrArg GuardedPart.nmiPending hnmi
    exact ⟨congrArg GuardedPart.intLine hnmi, fun ht => absurd (hoff.symm.trans ht) Bool.false_ne_true⟩
  · have hkept := congrArg GuardedPart.nmiPending hint
    exact ⟨congrArg GuardedPart.intLine hint, fun ht => hkept.symm.trans ht⟩
  · obtain ⟨hline, hpending⟩ := hrun.inputs
    have hkept := congrArg GuardedPart.nmiPending hint
    exact ⟨hline.trans (congrArg GuardedPart.intLine hint), fun ht => (hpending.trans hkept).symm.trans ht⟩

/-- Settles O56: a step is a conversation, and with `RAM64K` behind the core its answers are what memory holds. -/
theorem everyAccessGoesThroughTheAdapter : Obligations.EveryAccessGoesThroughTheAdapter := by
  intro s t h
  obtain ⟨inhibit, pfx, calls, ticks, hl⟩ := step_leads h
  obtain ⟨hint, hnmi⟩ := step_inputs h
  refine ⟨calls, ticks, hl.bus, hl.does, hl.adapter, hl.cfg, hl.cycles, hint, hnmi, fun w hw => ?_⟩
  have hdoes : CallsDo s.adapter s.bus s.mem s.answers calls t.mem t.answers := hl.does
  have hmem : t.mem = s.adapter.afterCalls s.mem calls := hl.mem
  rw [hw] at hdoes hmem
  rw [hmem]
  exact hdoes.ram64k fun _ => rfl

/-! ### The invariant -/

/-- A conversation keeps the canonical form of memory. -/
theorem OuterPart.Leads.wf {x y : OuterPart} (h : x.Leads y) (hx : x.mem.wf = true) : y.mem.wf = true := by
  obtain ⟨calls, ticks, h⟩ := h
  rw [h.mem]
  exact Adapter.wf_afterCalls _ _ hx

/-- A conversation leaves the configuration and the hold-off alone. -/
theorem OuterPart.Leads.keeps {x y : OuterPart} (h : x.Leads y) :
    y.cfg = x.cfg ∧ y.inhibit = x.inhibit ∧ y.pfx = x.pfx := by
  obtain ⟨calls, ticks, h⟩ := h
  exact ⟨h.cfg, h.inhibit, h.pfx⟩

/-- A conversation keeps the invariant, as long as the enables and `HALT` end as it asks. -/
theorem State.Inv.of_leads {s t : State} (h : s.Inv) (hl : s.outer.Leads t.outer) (hiff : t.iff1 = true → t.iff2 = true)
    (hhalt : s.inhibit = true → t.halt = false) : t.Inv := by
  obtain ⟨hmem, hcfg, -, hpfx, -⟩ := h
  obtain ⟨hcfg', hinhibit, hpfx'⟩ : t.cfg = s.cfg ∧ t.inhibit = s.inhibit ∧ t.pfx = s.pfx := hl.keeps
  refine ⟨hl.wf hmem, hcfg' ▸ hcfg, hiff, by rwa [hpfx', hinhibit], ?_⟩
  rintro ⟨hi, hh⟩
  exact Bool.false_ne_true ((hhalt (hinhibit ▸ hi)).symm.trans hh)

/-- Setting the hold-off keeps the invariant of a machine that is not halted. -/
theorem State.Inv.heldOff {s : State} (h : s.Inv) (hh : s.halt = false) (i : Instr) : (s.heldOff i).Inv := by
  obtain ⟨hmem, hcfg, hiff, hpfx, -⟩ := h
  unfold State.heldOff
  split
  case h_4 => exact ⟨hmem, hcfg, hiff, hpfx, by simp [hh]⟩
  all_goals exact ⟨hmem, hcfg, hiff, fun _ => rfl, by simp [hh]⟩

/-- `HALT` does not set the hold-off. -/
theorem State.heldOff_inhibit {s : State} {i : Instr} (hi : s.inhibit = false) (h : (s.heldOff i).inhibit = true) :
    i.entry ≠ .halt := by
  intro he
  rw [State.heldOff, he, hi] at h
  cases h

/-- No instruction leaves the first enable set without the second (10_state.md R34). -/
theorem guardedAfter_enables (i : Instr) {s : State} (h : s.iff1 = true → s.iff2 = true) :
    (guardedAfter i s).iff1 = true → (guardedAfter i s).iff2 = true := by
  unfold guardedAfter
  split
  case h_8 => exact fun _ => rfl
  case h_7 | h_9 | h_10 => exact id
  all_goals exact h

/-- Executing an instruction keeps the invariant: the hold-off may be set, and then the machine is not halted. -/
theorem State.Inv.exec {i : Instr} {s t : State} (hs : s.Inv) (hi : s.inhibit = false) (hh : s.halt = false)
    (hb : i.isBarePrefix = false) (hx : exec i s = .next t) : t.Inv := by
  have hguarded := exec_guarded hb hx
  have h1 : t.iff1 = (guardedAfter i s).iff1 := congrArg GuardedPart.iff1 hguarded
  have h2 : t.iff2 = (guardedAfter i s).iff2 := congrArg GuardedPart.iff2 hguarded
  refine (hs.heldOff hh i).of_leads (exec_leads hb hx) ?_ fun hset => ?_
  · obtain ⟨-, -, hiff, -⟩ := hs
    rw [h1, h2]
    exact guardedAfter_enables i hiff
  · obtain ⟨-, -, -, -, -, hhalt, -⟩ := onlyTheListedInstructionsWrite i s t hb hx
    exact (hhalt (State.heldOff_inhibit hi hset)).trans hh

/-- Reading an instruction and executing it keeps the invariant. -/
theorem State.RunsTo.inv {s t : State} (hs : s.Inv) (hi : s.inhibit = false) (hh : s.halt = false) (h : s.RunsTo t) :
    t.Inv := by
  obtain ⟨supplied, hp, hx⟩ := h
  have hread := s.fetchInstr_guarded hp
  have hleads := (OuterPart.Leads.refl s.outer).fetchInstr supplied
  have h1 : (s.fetchInstr supplied).2.iff1 = s.iff1 := congrArg GuardedPart.iff1 hread
  have h2 : (s.fetchInstr supplied).2.iff2 = s.iff2 := congrArg GuardedPart.iff2 hread
  have hhalt : (s.fetchInstr supplied).2.halt = false := (congrArg GuardedPart.halt hread).trans hh
  have hinv : (s.fetchInstr supplied).2.Inv := by
    obtain ⟨-, -, hiff, -⟩ := id hs
    exact hs.of_leads hleads (by rwa [h1, h2]) fun _ => hhalt
  obtain ⟨-, hinhibit, -⟩ := hleads.keeps
  exact hinv.exec (hinhibit.trans hi) hhalt (Instr.isWhole.not_bare (s.fetchInstr_isRead hp).1) hx

/-- What the environment does to the inputs is nothing to the invariant. -/
theorem State.Inv.sampleLines {s : State} (h : s.Inv) : s.sampleLines.Inv := by
  unfold State.sampleLines
  split <;> exact h

/-- A boundary check that accepts nothing consumes the hold-off, and a step then any pending prefix. -/
theorem State.Inv.release {s : State} (h : s.Inv) : ({ s with inhibit := false, pfx := none } : State).Inv := by
  obtain ⟨hmem, hcfg, hiff, -, -⟩ := h
  exact ⟨hmem, hcfg, hiff, by simp, by simp⟩

theorem State.Inv.accept {s : State} (h : s.Inv) (hi : s.inhibit = false) (k : Interrupt) : (s.accept k).Inv := by
  have hoff : (s.accept k).iff1 = false := by
    cases k with
    | nmi => exact congrArg GuardedPart.iff1 s.accept_nmi_guarded
    | int => exact congrArg GuardedPart.iff1 s.accept_int_guarded
  exact h.of_leads (s.accept_leads k) (fun h1 => absurd (hoff.symm.trans h1) Bool.false_ne_true)
    (fun h1 => absurd (hi.symm.trans h1) Bool.false_ne_true)

/-- The halted idle has no hold-off to consume, and so no pending prefix (60_exceptions.md R443). -/
theorem State.Inv.idle {s : State} (h : s.Inv) (hh : s.halt = true) (n : Nat) :
    ({ s with inhibit := false, cycles := n } : State).Inv := by
  obtain ⟨hmem, hcfg, hiff, hpfx, hoff⟩ := h
  exact ⟨hmem, hcfg, hiff, fun hp => absurd ⟨hpfx hp, hh⟩ hoff, fun ht => Bool.false_ne_true ht.1⟩

/-- Settles O53: the invariant goes through the boundary check and each kind of pass. -/
theorem stepKeepsTheInvariant : Obligations.StepKeepsTheInvariant := by
  intro s t hs h
  have hu := hs.sampleLines
  rcases step_cases h with ⟨hh, rfl⟩ | ⟨hh, hrun⟩ | ⟨hi, rfl | rfl | hrun⟩
  · exact hu.idle hh _
  · exact hrun.inv hu.release rfl hh
  · exact hu.accept hi .nmi
  · exact hu.accept hi .int
  · have hhalt := congrArg GuardedPart.halt s.sampleLines.accept_int_guarded
    obtain ⟨-, hinhibit, -⟩ := (s.sampleLines.accept_leads .int).keeps
    exact hrun.inv (hu.accept hi .int) (hinhibit.trans hi) hhalt

end Sys2Proof.Machine
end

section
/-! PROOFS. Decoding gives back what was encoded (30_encoding.md R90 to R105). The tables of the decoder read the fields of
an opcode byte, and the fields of an opcode byte are those it was made of; so it is enough to look each instruction up in
the table of its space, and the two kinds of wrapped instruction come back because what they wrap does. -/

namespace Sys2Proof

open Machine

/-! ### The fields of an opcode byte made of fields (30_encoding.md R92) -/

@[simp] theorem opX_opByte {x y z : Nat} (hx : x < 4) (hy : y < 8) (hz : z < 8) : opX (opByte x y z) = x := by
  simp only [opX, opByte, BitVec.toNat_ofNat]; omega

@[simp] theorem opY_opByte {x y z : Nat} (hy : y < 8) (hz : z < 8) : opY (opByte x y z) = y := by
  simp only [opY, opByte, BitVec.toNat_ofNat]; omega

@[simp] theorem opZ_opByte {x y z : Nat} (hz : z < 8) : opZ (opByte x y z) = z := by
  simp only [opZ, opByte, BitVec.toNat_ofNat]; omega

@[simp] theorem opYBits_opByte {x z : Nat} (y : BitVec 3) (hz : z < 8) : opYBits (opByte x y.toNat z) = y := by
  apply BitVec.eq_of_toNat_eq
  have hy := y.isLt
  simp only [opYBits, opByte, BitVec.extractLsb'_toNat, BitVec.toNat_ofNat, Nat.shiftRight_eq_div_pow]
  omega

@[simp] theorem opZBits_opByte {x y : Nat} (z : BitVec 3) : opZBits (opByte x y z.toNat) = z := by
  apply BitVec.eq_of_toNat_eq
  have hz := z.isLt
  simp only [opZBits, opByte, BitVec.extractLsb'_toNat, BitVec.toNat_ofNat, Nat.shiftRight_eq_div_pow]
  omega

@[simp] theorem Reg8.code_lt (r : Reg8) : r.code < 8 := by cases r <;> decide

@[simp] theorem slotOf_code (r : Reg8) : slotOf r.code = .reg r := by cases r <;> rfl

@[simp] theorem slotOf_six : slotOf 6 = .mem := rfl

@[simp] theorem toNat_lt_eight (y : BitVec 3) : y.toNat < 8 := y.isLt

/-! ### An instruction that its bytes give back -/

/-- The bytes of `i`, whatever follows them, begin with `i`. -/
def Instr.RoundTrips (i : Instr) : Prop := ∀ rest, decode (encode i ++ rest) = .ok (i, rest)

theorem Instr.length_pos (i : Instr) : 0 < i.length := by
  cases i with
  | asMainSpace _ inner | prefixEdAfterXy _ inner =>
    show 0 < 1 + inner.fetches.1 + inner.fetches.2
    omega
  | _ => exact Nat.succ_pos _

/-- A prefix alone is too short for an instruction of its space. -/
theorem length_decodeSoFar_of_barePrefix {bytes : List Byte} {p : Instr} (h : barePrefixOf bytes = some p) :
    bytes.length < (decodeSoFar bytes).length := by
  unfold barePrefixOf at h
  repeat' split at h
  all_goals first
    | (subst bytes; decide)
    | cases h

/-- It is enough that the tables of the decoder give the instruction back. -/
theorem Instr.RoundTrips.of_decodeSoFar {i : Instr} (h : ∀ rest, decodeSoFar (encode i ++ rest) = i) :
    i.RoundTrips := fun rest => by
  have hl := encode_length i
  refine decode_append hl (fun hn => ?_) ?_ (h rest)
  · rw [hn] at hl
    exact i.length_pos.ne hl
  · cases hb : barePrefixOf (encode i ++ rest) with
    | none => rfl
    | some p =>
      have hlt := length_decodeSoFar_of_barePrefix hb
      rw [h rest, List.length_append, hl] at hlt
      omega

/-! One rule for each space (30_encoding.md R97): the entry that the opcode byte and the bytes behind it select. -/

theorem Instr.RoundTrips.main {i : Instr} {op : Byte} {ops : List Byte} (he : encode i = op :: ops)
    (hd : ∀ rest, decodeBytes op ((ops ++ rest).getD 0 0) ((ops ++ rest).getD 1 0) ((ops ++ rest).getD 2 0)
      ((ops ++ rest).getD 3 0) = i) : i.RoundTrips :=
  .of_decodeSoFar fun rest => he ▸ hd rest

theorem Instr.RoundTrips.cb {i : Instr} {op : Byte} (he : encode i = [0xCB, op]) (hd : decodeCb op = i) :
    i.RoundTrips :=
  .of_decodeSoFar fun rest => he ▸ (decodeSoFar_cb op rest).trans hd

theorem Instr.RoundTrips.ed {i : Instr} {op : Byte} {ops : List Byte} (he : encode i = 0xED :: op :: ops)
    (hd : ∀ rest, decodeEd op ((ops ++ rest).getD 0 0) ((ops ++ rest).getD 1 0) = i) : i.RoundTrips :=
  .of_decodeSoFar fun rest => he ▸ (decodeSoFar_ed op (ops ++ rest)).trans (hd rest)

theorem Instr.RoundTrips.xy {i : Instr} {xy : Index} {op : Byte} {ops : List Byte}
    (he : encode i = xy.prefixByte :: op :: ops)
    (hd : ∀ rest, decodeXy xy op ((ops ++ rest).getD 0 0) ((ops ++ rest).getD 1 0) ((ops ++ rest).getD 2 0) = i) :
    i.RoundTrips :=
  .of_decodeSoFar fun rest => he ▸ (decodeSoFar_xy xy op (ops ++ rest)).trans (hd rest)

theorem Instr.RoundTrips.xyCb {i : Instr} {xy : Index} {d op : Byte} (he : encode i = [xy.prefixByte, 0xCB, d, op])
    (hd : decodeXyCb xy d op = i) : i.RoundTrips := .xy he fun _ => hd

/-- In the terms of an instruction's rule. -/
theorem Instr.RoundTrips.encodes {i : Instr} (h : i.RoundTrips) : Encodes (encode i) i.fetches.1 i.fetches.2 i :=
  ⟨encode_length i, rfl, h⟩

/-! ### The instructions of each space -/

/-- The register-transfer block: both register fields come back. -/
theorem decodeMain_ldRR (dst src : Reg8) (b1 b2 : Byte) :
    decodeMain (opByte 1 dst.code src.code) b1 b2 = .ldRR dst src := by
  simp [decodeMain, decodeQuadrant1]

theorem roundTrips_main {i : Instr} (hs : i.space = .main) (hw : i.wellFormed = true) (hb : i.isBarePrefix = false) :
    i.RoundTrips := by
  cases i with
  -- no field in the opcode byte; the operand bytes are themselves
  | nop | exAfAf | djnzE | jrE | ldMemBcA | ldMemDeA | ldAMemBc | ldAMemDe | incMemHl | decMemHl | ldMemHlN | rlca | rrca
  | rla | rra | daa | cpl | scf | ccf | halt | addAMemHl | adcAMemHl | subMemHl | sbcAMemHl | andMemHl | xorMemHl | orMemHl
  | cpMemHl | ret | exx | jpHl | ldSpHl | outNA | inAN | exMemSpHl | exDeHl | di | ei | addAN | adcAN | subN | sbcAN
  | andN | xorN | orN | cpN => exact .main rfl fun _ => rfl
  -- no field in the opcode byte; the operand is a word, low byte first
  | ldMemNnHl nn => exact .main rfl fun _ => congrArg Instr.ldMemNnHl (joinBytes_halves nn)
  | ldMemNnA nn => exact .main rfl fun _ => congrArg Instr.ldMemNnA (joinBytes_halves nn)
  | ldHlMemNn nn => exact .main rfl fun _ => congrArg Instr.ldHlMemNn (joinBytes_halves nn)
  | ldAMemNn nn => exact .main rfl fun _ => congrArg Instr.ldAMemNn (joinBytes_halves nn)
  | jpNn nn => exact .main rfl fun _ => congrArg Instr.jpNn (joinBytes_halves nn)
  | callNn nn => exact .main rfl fun _ => congrArg Instr.callNn (joinBytes_halves nn)
  -- a selector of R93
  | incR r | decR r | ldRN r | ldRMemHl r | ldMemHlR r | addAR r | adcAR r | subR r | sbcAR r | andR r | xorR r | orR r
  | cpR r => cases r <;> exact .main rfl fun _ => rfl
  | addHlSs p | incSs p | decSs p | popQq p | pushQq p => cases p <;> exact .main rfl fun _ => rfl
  | retCc cc => cases cc <;> exact .main rfl fun _ => rfl
  | jrCcE cc => cases cc <;> first | exact .main rfl fun _ => rfl | cases hw
  | ldDdNn dd nn => cases dd <;> exact .main rfl fun _ => congrArg (Instr.ldDdNn _) (joinBytes_halves nn)
  | jpCcNn cc nn => cases cc <;> exact .main rfl fun _ => congrArg (Instr.jpCcNn _) (joinBytes_halves nn)
  | callCcNn cc nn => cases cc <;> exact .main rfl fun _ => congrArg (Instr.callCcNn _) (joinBytes_halves nn)
  | ldRR dst src => exact .main rfl fun _ => by simp only [decodeBytes, decodeMain_ldRR]
  | rstP p =>
    refine .main rfl fun _ => ?_
    simp [decodeBytes, decodeMain, decodeQuadrant3]
  | prefixCb | prefixDd | prefixEd | prefixFd => cases hb
  | _ => cases hs

theorem roundTrips_cb {i : Instr} (hs : i.space = .cb) : i.RoundTrips := by
  cases i with
  | rlcMemHl | rrcMemHl | rlMemHl | rrMemHl | slaMemHl | sraMemHl | sllMemHl | srlMemHl => exact .cb rfl rfl
  | rlcR r | rrcR r | rlR r | rrR r | slaR r | sraR r | sllR r | srlR r => cases r <;> exact .cb rfl rfl
  | bitBR | bitBMemHl | resBR | resBMemHl | setBR | setBMemHl => exact .cb rfl (by simp [decodeCb])
  | _ => cases hs

/-! `NOP*` (44_general_cpu.md R272): the bits that its byte leaves free come back. -/

theorem decodeEd_edNop0 (yz : BitVec 6) (b1 b2 : Byte) : decodeEd (BitVec.ofNat 8 yz.toNat) b1 b2 = .edNop0 yz := by
  have hfields : ∀ yz : BitVec 6, opX (BitVec.ofNat 8 yz.toNat) = 0 ∧
      (BitVec.ofNat 8 yz.toNat).extractLsb' 0 6 = yz := by decide
  simp only [decodeEd, hfields]

theorem decodeEd_edNopC (yz : BitVec 6) (b1 b2 : Byte) :
    decodeEd (BitVec.ofNat 8 (0xC0 + yz.toNat)) b1 b2 = .edNopC yz := by
  have hfields : ∀ yz : BitVec 6, opX (BitVec.ofNat 8 (0xC0 + yz.toNat)) = 3 ∧
      (BitVec.ofNat 8 (0xC0 + yz.toNat)).extractLsb' 0 6 = yz := by decide
  simp only [decodeEd, hfields]

theorem decodeEd_edNop8 (yz : BitVec 5) (b1 b2 : Byte) :
    decodeEd (BitVec.ofNat 8 (0x80 + yz.toNat)) b1 b2 = .edNop8 yz := by
  have hentry : ∀ yz : BitVec 5, opX (BitVec.ofNat 8 (0x80 + yz.toNat)) = 2 ∧
      decodeEd2 (BitVec.ofNat 8 (0x80 + yz.toNat)) = .edNop8 yz := by decide
  simp only [decodeEd, hentry]

theorem decodeEd_edNopA (y z : BitVec 2) (b1 b2 : Byte) :
    decodeEd (opByte 2 (4 + y.toNat) (4 + z.toNat)) b1 b2 = .edNopA y z := by
  have hentry : ∀ y z : BitVec 2, opX (opByte 2 (4 + y.toNat) (4 + z.toNat)) = 2 ∧
      decodeEd2 (opByte 2 (4 + y.toNat) (4 + z.toNat)) = .edNopA y z := by decide
  simp only [decodeEd, hentry]

/-- `RETN` is every `ED 01 yyy 101` but `RETI` (48_jump_call.md R365). -/
theorem decodeEd_retn {y : BitVec 3} (h : y ≠ 1) (b1 b2 : Byte) : decodeEd (opByte 1 y.toNat 5) b1 b2 = .retn y := by
  have hy : y.toNat ≠ 1 := fun hn => h (BitVec.eq_of_toNat_eq hn)
  simp [decodeEd, decodeEd1]

theorem roundTrips_ed {i : Instr} (hs : i.space = .ed) (hw : i.wellFormed = true) : i.RoundTrips := by
  cases i with
  | inFC | outC0 | reti | ldIA | ldRfA | ldAI | ldARf | rrd | rld | ldi | cpi | ini | outi | ldd | cpd | ind | outd | ldir
  | cpir | inir | otir | lddr | cpdr | indr | otdr => exact .ed rfl fun _ => rfl
  | inRC r | outCR r => cases r <;> exact .ed rfl fun _ => rfl
  | sbcHlSs ss | adcHlSs ss => cases ss <;> exact .ed rfl fun _ => rfl
  | ldMemNnDd nn dd => cases dd <;> exact .ed rfl fun _ => congrArg (Instr.ldMemNnDd · _) (joinBytes_halves nn)
  | ldDdMemNn dd nn => cases dd <;> exact .ed rfl fun _ => congrArg (Instr.ldDdMemNn _) (joinBytes_halves nn)
  | neg y | imN y => exact .ed rfl fun _ => by simp [decodeEd, decodeEd1]
  | retn y => exact .ed rfl fun _ => decodeEd_retn (by simpa [Instr.wellFormed] using hw) _ _
  | edNop7 q => rcases BitVec.eq_zero_or_eq_one q with rfl | rfl <;> exact .ed rfl fun _ => rfl
  | edNop0 yz => exact .ed rfl fun _ => decodeEd_edNop0 yz _ _
  | edNop8 yz => exact .ed rfl fun _ => decodeEd_edNop8 yz _ _
  | edNopA y z => exact .ed rfl fun _ => decodeEd_edNopA y z _ _
  | edNopC yz => exact .ed rfl fun _ => decodeEd_edNopC yz _ _
  | _ => cases hs

theorem roundTrips_xyCb {i : Instr} (hs : i.space = .xycb) : i.RoundTrips := by
  cases i with
  | rlcMemXyd | rrcMemXyd | rlMemXyd | rrMemXyd | slaMemXyd | sraMemXyd | sllMemXyd | srlMemXyd => exact .xyCb rfl rfl
  | rlcMemXydR _ _ r | rrcMemXydR _ _ r | rlMemXydR _ _ r | rrMemXydR _ _ r | slaMemXydR _ _ r | sraMemXydR _ _ r
  | sllMemXydR _ _ r | srlMemXydR _ _ r => cases r <;> exact .xyCb rfl rfl
  | bitBMemXyd | resBMemXyd | resBMemXydR | setBMemXyd | setBMemXydR => exact .xyCb rfl (by simp [decodeXyCb])
  | _ => cases hs

/-! The register table behind an index prefix (30_encoding.md R103 item 3) is `r8` with `H` and `L` replaced. -/

theorem XReg8.exists_underIndex (x : XReg8) : ∃ r : Reg8, r.underIndex = x := by
  cases x with
  | b => exact ⟨.b, rfl⟩
  | c => exact ⟨.c, rfl⟩
  | d => exact ⟨.d, rfl⟩
  | e => exact ⟨.e, rfl⟩
  | a => exact ⟨.a, rfl⟩
  | half p =>
    cases p with
    | high => exact ⟨.h, rfl⟩
    | low => exact ⟨.l, rfl⟩

@[simp] theorem Reg8.code_underIndex (r : Reg8) : r.underIndex.code = r.code := by cases r <;> rfl

@[simp] theorem Reg8.isHalf_underIndex (r : Reg8) : r.underIndex.isHalf = r.isHl := by cases r <;> rfl

/-- `LD p,p'` is the register-transfer block with an index half in it (40_load8.md R148). -/
theorem decodeXy_ldPP (xy : Index) {dst src : XReg8} (h : (dst.isHalf || src.isHalf) = true) (b1 b2 b3 : Byte) :
    decodeXy xy (opByte 1 dst.code src.code) b1 b2 b3 = .ldPP xy dst src := by
  obtain ⟨r, rfl⟩ := dst.exists_underIndex
  obtain ⟨r', rfl⟩ := src.exists_underIndex
  rw [Reg8.isHalf_underIndex, Reg8.isHalf_underIndex] at h
  simp only [decodeXy, Reg8.code_underIndex, decodeMain_ldRR, h, if_true]

/-- The two wrapped forms come back because what they wrap does. -/
theorem roundTrips_xy {i : Instr} (hs : i.space = .xy) (hw : i.wellFormed = true) (hb : i.isBarePrefix = false) :
    i.RoundTrips := by
  cases i with
  | incXy | decXy | incMemXyd | decMemXyd | ldMemXydN | addAMemXyd | adcAMemXyd | subMemXyd | sbcAMemXyd | andMemXyd
  | xorMemXyd | orMemXyd | cpMemXyd | repeatedPrefixDd | repeatedPrefixFd | popXy | exMemSpXy | pushXy | jpXy
  | ldSpXy => exact .xy rfl fun _ => rfl
  | ldXyNn xy nn => exact .xy rfl fun _ => congrArg (Instr.ldXyNn xy) (joinBytes_halves nn)
  | ldMemNnXy xy nn => exact .xy rfl fun _ => congrArg (Instr.ldMemNnXy xy) (joinBytes_halves nn)
  | ldXyMemNn xy nn => exact .xy rfl fun _ => congrArg (Instr.ldXyMemNn xy) (joinBytes_halves nn)
  | addXyPp _ p => cases p <;> exact .xy rfl fun _ => rfl
  | incP _ p | decP _ p | ldPN _ p | addAP _ p | adcAP _ p | subP _ p | sbcAP _ p | andP _ p | xorP _ p | orP _ p
  | cpP _ p => cases p <;> exact .xy rfl fun _ => rfl
  | ldRMemXyd _ r | ldMemXydR _ _ r => cases r <;> exact .xy rfl fun _ => rfl
  | ldPP xy dst src => exact .xy rfl fun _ => decodeXy_ldPP xy hw _ _ _
  | asMainSpace xy inner =>
    simp only [Instr.wellFormed, Bool.and_eq_true] at hw
    obtain ⟨hu, hinner⟩ := hw
    obtain ⟨⟨hmain, hbare⟩, -⟩ : (inner.space = .main ∧ inner.isBarePrefix = false) ∧ _ := by
      simpa only [Instr.unchangedByIndex, Bool.and_eq_true, beq_iff_eq, Bool.not_eq_true'] using hu
    exact (encodes_asMainSpace (roundTrips_main hmain hinner hbare).encodes hu xy).2.2
  | prefixEdAfterXy xy inner =>
    simp only [Instr.wellFormed, Bool.and_eq_true, beq_iff_eq] at hw
    obtain ⟨hed, hinner⟩ := hw
    exact (encodes_prefixEdAfterXy (roundTrips_ed hed hinner).encodes hed xy).2.2
  | prefixXyCb => cases hb
  | _ => cases hs

/-- Every instruction is in the table of its space. -/
theorem roundTrips {i : Instr} (hw : i.wellFormed = true) (hb : i.isBarePrefix = false) : i.RoundTrips := by
  cases hs : i.space with
  | main => exact roundTrips_main hs hw hb
  | cb => exact roundTrips_cb hs
  | ed => exact roundTrips_ed hs hw
  | xy => exact roundTrips_xy hs hw hb
  | xycb => exact roundTrips_xyCb hs

theorem decode_barePrefix {i : Instr} (hb : i.isBarePrefix = true) : decode (encode i) = .ok (i, []) := by
  cases i with
  | prefixCb | prefixDd | prefixEd | prefixFd => rfl
  | prefixXyCb xy => cases xy <;> rfl
  | _ => cases hb

/-- Settles O36: a whole instruction round-trips, and the bytes of a bare prefix are its own row. -/
theorem decodeGivesBackTheEncodedInstruction : Obligations.DecodeGivesBackTheEncodedInstruction :=
  fun _ hw => ⟨roundTrips hw, decode_barePrefix⟩

end Sys2Proof
end

section
/-! PROOFS. No bit is dropped: what the decoder answers encodes to the bytes it was answered for (30_encoding.md R90 to
R105), and five bytes are always an instruction (R91, R116 to R118). Each branch of a table says what the fields of its
opcode byte are, and a byte is its fields. -/

namespace Sys2Proof

open Machine

/-! ### The fields of any opcode byte (30_encoding.md R92) -/

theorem opY_lt (op : Byte) : opY op < 8 := Nat.mod_lt _ (by decide)

theorem opZ_lt (op : Byte) : opZ op < 8 := Nat.mod_lt _ (by decide)

theorem opP_lt (op : Byte) : opP op < 4 := Nat.mod_lt _ (by decide)

/-- A byte is its fields `x`, `y` and `z`, and `y` is `p` and `q`. -/
theorem toNat_fields (op : Byte) :
    op.toNat = 64 * opX op + 8 * opY op + opZ op ∧ opY op = 2 * opP op + opQ op ∧
      opX op < 4 ∧ opY op < 8 ∧ opZ op < 8 ∧ opP op < 4 ∧ opQ op < 2 := by
  have h := op.isLt
  simp only [opX, opY, opZ, opP, opQ]
  omega

@[simp] theorem toNat_opYBits (op : Byte) : (opYBits op).toNat = opY op := by
  simp [opYBits, opY, BitVec.extractLsb'_toNat, Nat.shiftRight_eq_div_pow]

@[simp] theorem toNat_opZBits (op : Byte) : (opZBits op).toNat = opZ op := by
  simp [opZBits, opZ, BitVec.extractLsb'_toNat, Nat.shiftRight_eq_div_pow]

/-! The selector tables (30_encoding.md R93) lose nothing of the field they are looked up with. -/

theorem slotOf_eq_reg_iff {n : Nat} {r : Reg8} (hn : n < 8) : slotOf n = .reg r ↔ n = r.code := by
  interval_cases n <;> cases r <;> decide

theorem slotOf_eq_mem_iff {n : Nat} (hn : n < 8) : slotOf n = .mem ↔ n = 6 := by
  interval_cases n <;> decide

@[simp] theorem slotOf_opY_eq_reg_iff (op : Byte) (r : Reg8) : slotOf (opY op) = .reg r ↔ opY op = r.code :=
  slotOf_eq_reg_iff (opY_lt op)

@[simp] theorem slotOf_opZ_eq_reg_iff (op : Byte) (r : Reg8) : slotOf (opZ op) = .reg r ↔ opZ op = r.code :=
  slotOf_eq_reg_iff (opZ_lt op)

@[simp] theorem slotOf_opY_eq_mem_iff (op : Byte) : slotOf (opY op) = .mem ↔ opY op = 6 :=
  slotOf_eq_mem_iff (opY_lt op)

@[simp] theorem slotOf_opZ_eq_mem_iff (op : Byte) : slotOf (opZ op) = .mem ↔ opZ op = 6 :=
  slotOf_eq_mem_iff (opZ_lt op)

@[simp] theorem code_pairOf_opP (op : Byte) : (pairOf (opP op)).code = opP op := by
  have h := opP_lt op
  interval_cases opP op <;> rfl

@[simp] theorem code_stackPairOf_opP (op : Byte) : (stackPairOf (opP op)).code = opP op := by
  have h := opP_lt op
  interval_cases opP op <;> rfl

@[simp] theorem code_condOf_opY (op : Byte) : (condOf (opY op)).code = opY op := by
  have h := opY_lt op
  interval_cases opY op <;> rfl

/-- The conditions of `JR` (48_jump_call.md R350). -/
theorem Cond.code_short : Cond.nz.code = 0 ∧ Cond.z.code = 1 ∧ Cond.nc.code = 2 ∧ Cond.c.code = 3 :=
  ⟨rfl, rfl, rfl, rfl⟩

/-! ### The tables of the decoder -/

/-- `i` is well formed, and `bytes` begin with its bytes. -/
def Instr.Begins (i : Instr) (bytes : List Byte) : Prop := i.wellFormed = true ∧ encode i <+: bytes

theorem Instr.Begins.mono {i : Instr} {bytes bytes' : List Byte} (h : i.Begins bytes) (hp : bytes <+: bytes') :
    i.Begins bytes' := ⟨h.1, h.2.trans hp⟩

/-- The first byte is the opcode byte. -/
theorem Instr.Begins.opcode {i : Instr} {op op' : Byte} {ops bytes : List Byte} (h : i.Begins (op :: bytes))
    (he : encode i = op' :: ops) : op = op' :=
  (List.cons_prefix_cons.mp (he ▸ h.2)).1.symm

theorem decodeMain_begins (op b1 b2 : Byte) : (decodeMain op b1 b2).Begins [op, b1, b2] := by
  obtain ⟨hop, hpq, hx, hy, hz, hp, hq⟩ := toNat_fields op
  simp only [decodeMain, decodeQuadrant0, decodeQuadrant1, decodeQuadrant3, decodeAluSlot, decodeAluImm]
  repeat' split
  all_goals
    refine ⟨rfl, ?_⟩
    simp [opByte, Cond.code_short] at *
    bv_omega

theorem decodeCb_begins (op : Byte) : (decodeCb op).Begins [0xCB, op] := by
  obtain ⟨hop, -, hx, hy, hz, -⟩ := toNat_fields op
  simp only [decodeCb, decodeRotSlot]
  repeat' split
  all_goals
    refine ⟨rfl, ?_⟩
    simp [opByte] at *
    bv_omega

theorem decodeXyCb_begins (xy : Index) (d op : Byte) : (decodeXyCb xy d op).Begins [xy.prefixByte, 0xCB, d, op] := by
  obtain ⟨hop, -, hx, hy, hz, -⟩ := toNat_fields op
  simp only [decodeXyCb, decodeRotIdx]
  repeat' split
  all_goals
    refine ⟨rfl, ?_⟩
    simp [opByte] at *
    bv_omega

/-- `RETN` is never answered for the byte of `RETI` (48_jump_call.md R365). -/
theorem wellFormed_retn {op : Byte} (h : opY op ≠ 1) : (Instr.retn (opYBits op)).wellFormed = true := by
  have hy : opYBits op ≠ 1 := fun he => h (by rw [← toNat_opYBits, he]; rfl)
  simpa [Instr.wellFormed] using hy

theorem decodeEd1_begins {op : Byte} (hx : opX op = 1) (b1 b2 : Byte) :
    (decodeEd1 op b1 b2).Begins [0xED, op, b1, b2] := by
  obtain ⟨hop, hpq, -, hy, hz, hp, hq⟩ := toNat_fields op
  simp only [decodeEd1]
  repeat' split
  all_goals
    refine ⟨by first | rfl | exact wellFormed_retn ‹_›, ?_⟩
    simp [opByte] at *
    bv_omega

/-- The block instructions are sixteen bytes among the `NOP*` of their rows, so each byte is looked up. -/
theorem encode_decodeEd2 : ∀ op : Byte, opX op = 2 →
    (decodeEd2 op).wellFormed = true ∧ encode (decodeEd2 op) = [0xED, op] := by decide

theorem decodeEd_begins (op b1 b2 : Byte) : (decodeEd op b1 b2).Begins [0xED, op, b1, b2] := by
  obtain ⟨hop, -, hx, hy, hz, -⟩ := toNat_fields op
  simp only [decodeEd]
  split
  case h_2 h => exact decodeEd1_begins h b1 b2
  case h_3 h =>
    obtain ⟨hw, he⟩ := encode_decodeEd2 op h
    exact ⟨hw, by simp [he]⟩
  all_goals
    refine ⟨rfl, ?_⟩
    simp at *
    bv_omega

/-! Behind an index prefix the opcode byte is that of the main-space entry (30_encoding.md R103). -/

/-- The bytes of `i` are those of the main-space entry `e` behind the index prefix. -/
theorem Instr.Begins.behindIndex {i e : Instr} {xy : Index} {op b1 b2 : Byte} (b3 : Byte) (h : e.Begins [op, b1, b2])
    (hw : i.wellFormed = true) (hi : encode i = xy.prefixByte :: encode e) :
    i.Begins [xy.prefixByte, op, b1, b2, b3] :=
  ⟨hw, hi ▸ List.cons_prefix_cons.mpr ⟨rfl, h.2.trans (List.prefix_append _ [b3])⟩⟩

/-- The DD and FD spaces: an entry the prefix leaves as it is, or one of the substitutions of R103 to R105. -/
theorem decodeXy_begins (xy : Index) (op b1 b2 b3 : Byte) :
    (decodeXy xy op b1 b2 b3).Begins [xy.prefixByte, op, b1, b2, b3] := by
  have he := decodeMain_begins op b1 b2
  have hs := space_decodeMain op b1 b2
  by_cases hu : (decodeMain op b1 b2).unchangedByIndex = true
  · rw [decodeXy_unchanged xy _ _ _ _ hu]
    exact he.behindIndex b3 (by simp [Instr.wellFormed, hu, he.1]) rfl
  unfold decodeXy
  generalize decodeMain op b1 b2 = e at he hu hs
  cases e with
  -- the entries that are looked up in another table
  | prefixCb =>
    obtain rfl := he.opcode rfl
    obtain ⟨hw, hb⟩ := decodeXyCb_begins xy b1 b2
    exact ⟨hw, hb.trans (List.prefix_append _ [b3])⟩
  | prefixEd =>
    obtain rfl := he.opcode rfl
    obtain ⟨hw, hb⟩ := decodeEd_begins b1 b2 b3
    exact ⟨by simp [Instr.wellFormed, space_decodeEd, hw], List.cons_prefix_cons.mpr ⟨rfl, hb⟩⟩
  -- the memory operand: the displacement follows the opcode byte
  | incMemHl | decMemHl | ldMemHlN | ldRMemHl | ldMemHlR | addAMemHl | adcAMemHl | subMemHl | sbcAMemHl | andMemHl
  | xorMemHl | orMemHl | cpMemHl =>
    obtain rfl := he.opcode rfl
    exact ⟨rfl, _, rfl⟩
  -- the others have the bytes of the main-space entry
  | prefixDd | prefixFd | ldHlMemNn | ldMemNnHl | exMemSpHl | jpHl | ldSpHl => exact he.behindIndex b3 rfl rfl
  | addHlSs p => cases p <;> exact he.behindIndex b3 rfl rfl
  | ldDdNn p | incSs p | decSs p | popQq p | pushQq p =>
    cases p <;> first | exact absurd rfl hu | exact he.behindIndex b3 rfl rfl
  | incR r | decR r | ldRN r | addAR r | adcAR r | subR r | sbcAR r | andR r | xorR r | orR r | cpR r =>
    cases r <;> first | exact absurd rfl hu | exact he.behindIndex b3 rfl rfl
  | ldRR dst src =>
    cases hhl : dst.isHl || src.isHl with
    | true => exact he.behindIndex b3 (by simp [Instr.wellFormed, hhl]) (by simp [hhl])
    | false => exact absurd (congrArg Bool.not hhl) hu
  | _ => first | exact absurd rfl hu | cases hs

/-- `decodeBytes` goes to the table that the first byte selects. -/
theorem decodeBytes_begins (b0 b1 b2 b3 b4 : Byte) : (decodeBytes b0 b1 b2 b3 b4).Begins [b0, b1, b2, b3, b4] := by
  have he := decodeMain_begins b0 b1 b2
  unfold decodeBytes
  split
  case h_1 h =>
    obtain rfl := (h ▸ he).opcode rfl
    exact (decodeCb_begins b1).mono (List.prefix_append _ [b2, b3, b4])
  case h_2 h =>
    obtain rfl := (h ▸ he).opcode rfl
    exact (decodeEd_begins b1 b2 b3).mono (List.prefix_append _ [b4])
  case h_3 h =>
    obtain rfl := (h ▸ he).opcode rfl
    exact decodeXy_begins .ix b1 b2 b3 b4
  case h_4 h =>
    obtain rfl := (h ▸ he).opcode rfl
    exact decodeXy_begins .iy b1 b2 b3 b4
  case h_5 => exact he.mono (List.prefix_append _ [b3, b4])

/-! ### Lists of bytes -/

/-- `decode` looks at five bytes, zeros where the list is shorter. -/
theorem firstFive_prefix (bytes : List Byte) :
    [bytes.getD 0 0, bytes.getD 1 0, bytes.getD 2 0, bytes.getD 3 0, bytes.getD 4 0] <+:
      bytes ++ List.replicate 5 0 := by
  match bytes with
  | [] | [_] | [_, _] | [_, _, _] | [_, _, _, _] | _ :: _ :: _ :: _ :: _ :: _ => exact ⟨_, rfl⟩

theorem decodeSoFar_begins (bytes : List Byte) : (decodeSoFar bytes).Begins (bytes ++ List.replicate 5 0) :=
  (decodeBytes_begins _ _ _ _ _).mono (firstFive_prefix bytes)

theorem barePrefixOf_eq_some {bytes : List Byte} {p : Instr} (h : barePrefixOf bytes = some p) :
    p.wellFormed = true ∧ encode p = bytes := by
  unfold barePrefixOf at h
  repeat' split at h
  all_goals first
    | (subst bytes; cases h; exact ⟨rfl, rfl⟩)
    | cases h

/-- Settles O37: a prefix alone is its byte, and everything else begins the list it was decoded from. -/
theorem encodeGivesBackTheDecodedBytes : Obligations.EncodeGivesBackTheDecodedBytes := by
  intro bytes i rest h
  rcases (decode_ok_iff _ _ _).mp h with ⟨hb, rfl⟩ | ⟨-, -, rfl, hl, rfl⟩
  · obtain ⟨hw, he⟩ := barePrefixOf_eq_some hb
    exact ⟨hw, by rw [he, List.append_nil]⟩
  · obtain ⟨hw, he⟩ := decodeSoFar_begins bytes
    rw [← encode_length] at hl ⊢
    exact ⟨hw, List.prefix_iff_eq_append.mp (List.prefix_of_prefix_length_le he (List.prefix_append _ _) hl)⟩

/-! ### Lengths (30_encoding.md R91) -/

theorem Instr.length_le_of_main {i : Instr} (hs : i.space = .main) : i.length ≤ 3 := by
  cases i <;> first | exact Nat.le_of_ble_eq_true rfl | cases hs

theorem Instr.length_le_of_ed {i : Instr} (hs : i.space = .ed) : i.length ≤ 4 := by
  cases i <;> first | exact Nat.le_of_ble_eq_true rfl | cases hs

/-- A prefix in front is one byte more. -/
theorem Instr.length_wrapped (xy : Index) (inner : Instr) :
    (Instr.asMainSpace xy inner).length = 1 + inner.length ∧
      (Instr.prefixEdAfterXy xy inner).length = 1 + inner.length :=
  ⟨Nat.add_assoc _ _ _, Nat.add_assoc _ _ _⟩

/-- Only an index prefix dropped before `ED` makes an instruction longer than four bytes. -/
theorem Instr.length_le {i : Instr} (hw : i.wellFormed = true) :
    i.length ≤ 4 ∨ i.length ≤ 5 ∧ ∃ xy inner, i = .prefixEdAfterXy xy inner := by
  cases i with
  | asMainSpace xy inner =>
    simp only [Instr.wellFormed, Instr.unchangedByIndex, Bool.and_eq_true, beq_iff_eq] at hw
    obtain ⟨⟨⟨hmain, -⟩, -⟩, -⟩ := hw
    have hl := Instr.length_le_of_main hmain
    have hwrapped := (Instr.length_wrapped xy inner).1
    exact .inl (by omega)
  | prefixEdAfterXy xy inner =>
    simp only [Instr.wellFormed, Bool.and_eq_true, beq_iff_eq] at hw
    obtain ⟨hed, -⟩ := hw
    have hl := Instr.length_le_of_ed hed
    have hwrapped := (Instr.length_wrapped xy inner).2
    exact .inr ⟨by omega, xy, inner, rfl⟩
  | _ => exact .inl (Nat.le_of_ble_eq_true rfl)

/-! ### No prefix alone -/

theorem barePrefixOf_of_length {bytes : List Byte} (h : 3 ≤ bytes.length) : barePrefixOf bytes = none := by
  match bytes, h with
  | _ :: _ :: _ :: _, _ => simp [barePrefixOf]

theorem Instr.eq_prefix_of_main {i : Instr} (hb : i.isBarePrefix = true) (hs : i.space = .main) :
    i = .prefixCb ∨ i = .prefixEd ∨ i = .prefixDd ∨ i = .prefixFd := by
  cases i with
  | prefixCb | prefixEd | prefixDd | prefixFd => decide
  | prefixXyCb => cases hs
  | _ => cases hb

/-- The tables behind the prefix bytes answer whole instructions, and elsewhere there is no prefix byte. -/
theorem decodeSoFar_not_barePrefix (bytes : List Byte) : (decodeSoFar bytes).isBarePrefix = false := by
  unfold decodeSoFar decodeBytes
  split
  case h_1 => exact Instr.isWhole.not_bare (decodeCb_isRead _).1
  case h_2 => exact Instr.isWhole.not_bare (decodeEd_isRead _ _ _).1
  case h_3 => exact Instr.isWhole.not_bare (decodeXy_isRead .ix _ _ _ _).1
  case h_4 => exact Instr.isWhole.not_bare (decodeXy_isRead .iy _ _ _ _).1
  case h_5 hcb hed hdd hfd =>
    refine Bool.eq_false_iff.mpr fun hb => ?_
    rcases Instr.eq_prefix_of_main hb (space_decodeMain _ _ _) with h | h | h | h
    · exact hcb h
    · exact hed h
    · exact hdd h
    · exact hfd h

/-- Settles O38: five bytes are longer than any prefix alone, and no instruction is longer than they are. -/
theorem everyByteSequenceDecodes : Obligations.EveryByteSequenceDecodes := by
  intro bytes hlen
  have hl := Instr.length_le (decodeSoFar_begins bytes).1
  have hl5 : (decodeSoFar bytes).length ≤ 5 := by omega
  have hne : bytes ≠ [] := List.ne_nil_of_length_pos (by omega)
  have hdecode : decode bytes = .ok (decodeSoFar bytes, bytes.drop (decodeSoFar bytes).length) :=
    (decode_ok_iff _ _ _).mpr (.inr ⟨barePrefixOf_of_length (by omega), hne, rfl, hl5.trans hlen, rfl⟩)
  refine ⟨_, _, hdecode, decodeSoFar_not_barePrefix bytes, Instr.length_pos _, hl5, fun h5 => ?_⟩
  rcases hl with h4 | ⟨-, hdropped⟩
  · omega
  · exact hdropped

/-- Settles O39: the decoder is run on each word. -/
theorem sampleWordsDecodeAsTheSpecSays : Obligations.SampleWordsDecodeAsTheSpecSays :=
  ⟨rfl, rfl, rfl, rfl, rfl, rfl, rfl, rfl, rfl, rfl, rfl, rfl, rfl, rfl⟩

end Sys2Proof
end

section
/-! PROOFS. What a prefix does (30_encoding.md R90, R96, R103 to R105), and how a step reads the instruction it executes
(R90). Both rest on `fetchInstr` being what `State.HasRead` says. -/

namespace Sys2Proof.Machine

open Sys2Proof

/-! ### Prefixes -/

theorem not_barePrefix_of_ed {i : Instr} (hs : i.space = .ed) : i.isBarePrefix = false := by
  cases i with
  | prefixCb | prefixDd | prefixEd | prefixFd | prefixXyCb => cases hs
  | _ => rfl

/-- Settles O33: behind a prefix an instruction has the meaning of the second table, which is that of the first. -/
theorem ignoredPrefixLeavesTheMeaning : Obligations.IgnoredPrefixLeavesTheMeaning := by
  intro xy i s
  refine ⟨fun hu => execEntry_eq_exec i s ?_, fun hs => execEntry_eq_exec i s (not_barePrefix_of_ed hs)⟩
  simp only [Instr.unchangedByIndex, Bool.and_eq_true, Bool.not_eq_true'] at hu
  obtain ⟨⟨-, hbare⟩, -⟩ := hu
  exact hbare

/-- Settles O34: the two bytes round-trip, and the meaning is `pendPrefix`. -/
theorem repeatedPrefixPendsTheLaterOne : Obligations.RepeatedPrefixPendsTheLaterOne := fun xy =>
  ⟨.of rfl (roundTrips (i := .repeatedPrefixDd xy) rfl rfl).encodes fun _ => ⟨_, rfl, rfl⟩,
    .of rfl (roundTrips (i := .repeatedPrefixFd xy) rfl rfl).encodes fun _ => ⟨_, rfl, rfl⟩⟩

/-- Going on behind the bytes `pre` reads one instruction, and does what that does. -/
theorem State.execAfter_reads (s : State) {pre : List Byte} (hp : Supplied pre) :
    (∃ i u, s.HasRead pre i u) ∧ ∀ i u, s.HasRead pre i u → ∃ t, s.execAfter pre = .next t ∧ exec i u = .next t := by
  refine ⟨s.exists_hasRead hp, fun i u h => ?_⟩
  obtain ⟨-, -, -, hb, -⟩ := id h
  obtain ⟨t, ht⟩ := s.execAfter_answers hp
  refine ⟨t, ht, ?_⟩
  rwa [State.execAfter, h.fetchInstr_eq hp, execEntry_eq_exec i u hb] at ht

/-- Settles O35: each prefix row is `execAfter` of its own bytes. -/
theorem prefixByteExecutesTheEntryItSelects : Obligations.PrefixByteExecutesTheEntryItSelects := by
  intro p pre h
  simp only [List.mem_cons, Prod.mk.injEq, List.not_mem_nil, or_false] at h
  rcases h with ⟨rfl, rfl⟩ | ⟨rfl, rfl⟩ | ⟨rfl, rfl⟩ | ⟨rfl, rfl⟩ | ⟨rfl, rfl⟩ | ⟨rfl, rfl⟩ <;>
    refine ⟨rfl, fun s => s.execAfter_reads ?_⟩
  exacts [supplied_one _, supplied_one _, supplied_one _, supplied_one _, supplied_xyCb .ix, supplied_xyCb .iy]

/-! ### Steps -/

/-- A boundary check that accepts nothing leaves `INHIBIT` cleared (60_exceptions.md R416). -/
theorem State.plan_of_not_accepting {s : State} (h : s.sampleLines.inhibit = true ∨
      (s.sampleLines.nmiPending = false ∧ (s.sampleLines.intLine && s.sampleLines.iff1) = false)) (target : Nat) :
    s.plan target = ({ s.sampleLines with inhibit := false } : State).proceed target := by
  rcases s.plan_cases target with ⟨-, e⟩ | ⟨hi, hn, -⟩ | ⟨hi, -, hl, -⟩ | ⟨hi, -, -, e⟩
  · exact e
  · simp [hi, hn] at h
  · simp [hi, hl] at h
  · rw [e, State.inhibit_false_eq hi]

theorem State.proceed_of_no_prefix {s : State} (hh : s.halt = false) (hp : s.pfx = none) (target : Nat) :
    s.proceed target = .instr (s.fetchInstr []).1 (s.fetchInstr []).2 := by
  simp [State.proceed, hh, hp]

theorem State.proceed_of_prefix {s : State} {xy : Index} (hh : s.halt = false) (hp : s.pfx = some xy) (target : Nat) :
    s.proceed target = .instr (({ s with pfx := none } : State).fetchInstr [xy.prefixByte]).1
      (({ s with pfx := none } : State).fetchInstr [xy.prefixByte]).2 := by
  simp [State.proceed, hh, hp]

/-- A step whose pass reads an instruction from the state `v`, the bytes `supplied` of it given, executes what is read. -/
theorem step_of_plan {s v : State} {supplied : List Byte} (hp : Supplied supplied)
    (h : s.plan (s.cycles + 1) = .instr (v.fetchInstr supplied).1 (v.fetchInstr supplied).2) :
    (∃ i u, v.HasRead supplied i u) ∧ ∀ i u, v.HasRead supplied i u → step s = exec i u := by
  refine ⟨v.exists_hasRead hp, fun i u hr => ?_⟩
  rw [step, h, hr.fetchInstr_eq hp]

/-- Settles O42: the pass reads an instruction at `PC`, no byte of it supplied. -/
theorem stepRunsTheDecodedInstruction : Obligations.StepRunsTheDecodedInstruction := by
  intro s u ha hh hp
  refine step_of_plan supplied_nil ((State.plan_of_not_accepting ha _).trans (State.proceed_of_no_prefix ?_ ?_ _))
  · exact hh
  · exact hp

/-- Settles O43: `INHIBIT` keeps the boundary from accepting, and the pass takes the pending prefix as supplied. -/
theorem stepResumesAfterAPendingPrefix : Obligations.StepResumesAfterAPendingPrefix := by
  intro s xy u hi hh hp
  refine step_of_plan (supplied_one xy.prefixByte)
    ((State.plan_of_not_accepting (.inl hi) _).trans (State.proceed_of_prefix ?_ ?_ _))
  · exact hh
  · exact hp

end Sys2Proof.Machine
end

section
/-! PROOFS. The rule of an instruction (`HasRule`) from the encoder: its bytes are what `encode` gives, and those decode back
(30_encoding.md R90); what remains is its effect. The opcode bytes of the encoder are those of the fields the rules name. -/

namespace Sys2Proof

/-! ### Opcode bytes from their fields (30_encoding.md R92, R93) -/

/-- The encoder adds the fields up where the rules put them side by side. -/
theorem opByte_eq_fieldsByte {x y z : Nat} {xBits : BitVec 2} {yBits zBits : BitVec 3} (hx : x = xBits.toNat)
    (hy : y = yBits.toNat) (hz : z = zBits.toNat) : opByte x y z = fieldsByte xBits yBits zBits := by
  subst hx hy hz
  revert xBits yBits zBits
  decide

theorem Reg8.code_eq_toNat_field (r : Reg8) : r.code = r.field.toNat := by cases r <;> rfl

theorem Half.code_eq_toNat_field (p : Half) : p.code = p.field.toNat := by cases p <;> rfl

theorem XReg8.code_eq_toNat_field (x : XReg8) : x.code = x.field.toNat := by
  cases x with
  | half p => cases p <;> rfl
  | _ => rfl

end Sys2Proof

namespace Sys2Proof.Machine

open Sys2Proof

/-- The rule of a whole instruction, its bytes being those of the encoder. -/
theorem HasRule.of_encode {i : Instr} {bytes : List Byte} {nF nM : Nat} {effect : State → State → Prop}
    (hw : i.wellFormed = true) (hb : i.isBarePrefix = false) (hf : i.fetches = (nF, nM)) (he : encode i = bytes)
    (hx : Executes i effect) : HasRule i bytes nF nM effect := by
  have hround := (roundTrips hw hb).encodes
  rw [hf, he] at hround
  exact .of hb hround hx

end Sys2Proof.Machine
end

section
/-! PROOFS. Accesses behind internal cycles: the memory operand of an indexed instruction (30_encoding.md R113). What
`EA(XY, k)` writes, the cycles and `WZ`, is kept apart from the access that follows it. -/

namespace Sys2Proof.Machine

open Sys2Proof

theorem State.tick_memRead_after (s : State) (n : Nat) (a : Word) :
    s.After [.read a ((s.tick n).memRead a).1] n ((s.tick n).memRead a).2 :=
  (s.tick_after n).trans ((s.tick n).memRead_after a)

theorem State.tick_memWrite_after (s : State) (n : Nat) (a : Word) (v : Byte) :
    s.After [.write a v] n ((s.tick n).memWrite a v) :=
  (s.tick_after n).trans ((s.tick n).memWrite_after a v)

theorem State.memRead_useIndex (s : State) (xy : Index) (d : Byte) (k : Nat) (a : Word) :
    (s.useIndex xy d k).memRead a =
      (((s.tick k).memRead a).1, ((s.tick k).memRead a).2.setWz (s.indexAddress xy d)) := rfl

theorem State.memWrite_useIndex (s : State) (xy : Index) (d : Byte) (k : Nat) (a : Word) (v : Byte) :
    (s.useIndex xy d k).memWrite a v = ((s.tick k).memWrite a v).setWz (s.indexAddress xy d) := rfl

theorem State.setReg_setWz (s : State) (w : Word) (r : Reg8) (v : Byte) :
    (s.setWz w).setReg r v = (s.setReg r v).setWz w := by cases r <;> rfl

end Sys2Proof.Machine
end

section
/-! PROOFS. Flag bytes made by `|||` of parts that each hold some of the flags (10_state.md R25). -/

namespace Sys2Proof.Machine

open Sys2Proof

theorem HasFlags.or {f g : Byte} {s z y h x pv n c s' z' y' h' x' pv' n' c' : Bool} (hf : HasFlags f s z y h x pv n c)
    (hg : HasFlags g s' z' y' h' x' pv' n' c') :
    HasFlags (f ||| g) (s || s') (z || z') (y || y') (h || h') (x || x') (pv || pv') (n || n') (c || c') := by
  obtain ⟨rfl, rfl, rfl, rfl, rfl, rfl, rfl, rfl⟩ := hf
  obtain ⟨rfl, rfl, rfl, rfl, rfl, rfl, rfl, rfl⟩ := hg
  refine ⟨?_, ?_, ?_, ?_, ?_, ?_, ?_, ?_⟩ <;> exact BitVec.getLsbD_or

/-- The carry alone. -/
theorem hasFlags_and_one (f : Byte) :
    HasFlags (f &&& 0x01) false false false false false false false (f.getLsbD 0) := by
  revert f; unfold HasFlags; decide

/-- `PV` alone. -/
theorem hasFlags_bitAt_two (x : Bool) : HasFlags (bitAt 2 x) false false false false false x false false := by
  revert x; unfold HasFlags; decide

end Sys2Proof.Machine
end

section
/-! PROOFS. The 8-bit loads (40_load8.md R130 to R149). -/

namespace Sys2Proof.Machine

open Sys2Proof

/-! ### Between registers, and of an immediate byte -/

/-- `LD p,p'` with an index half in it (40_load8.md R148). -/
theorem hasRule_ldPP (xy : Index) {dst src : XReg8} (h : (dst.isHalf || src.isHalf) = true) :
    HasRule (.ldPP xy dst src) [xy.prefixByte, fieldsByte 0b01 dst.field src.field] 2 0
      (fun s t => t = s.setXReg xy dst (s.getXReg xy src)) :=
  .of_encode h rfl rfl
    (congrArg (fun op => [xy.prefixByte, op])
      (opByte_eq_fieldsByte rfl dst.code_eq_toNat_field src.code_eq_toNat_field))
    fun _ => ⟨_, rfl, rfl⟩

/-- Settles O1: each meaning is the register update that its rule states. -/
theorem registerLoadsCopyOneByte : Obligations.RegisterLoadsCopyOneByte := by
  refine ⟨fun r r' => ?_, fun r n => ?_, fun xy p x => hasRule_ldPP xy rfl,
    fun xy x p => hasRule_ldPP xy (Bool.or_true _), fun xy p n => ?_⟩
  · exact .of_encode rfl rfl rfl
      (congrArg (fun op => [op]) (opByte_eq_fieldsByte rfl r.code_eq_toNat_field r'.code_eq_toNat_field))
      fun _ => ⟨_, rfl, rfl⟩
  · exact .of_encode rfl rfl rfl
      (congrArg (fun op => [op, n]) (opByte_eq_fieldsByte rfl r.code_eq_toNat_field rfl)) fun _ => ⟨_, rfl, rfl⟩
  · exact .of_encode rfl rfl rfl
      (congrArg (fun op => [xy.prefixByte, op, n]) (opByte_eq_fieldsByte rfl p.code_eq_toNat_field rfl))
      fun _ => ⟨_, rfl, rfl⟩

/-! ### From memory -/

/-- `LD r,(XY+d)` reads behind 5 internal cycles (40_load8.md R133). -/
theorem executes_ldRMemXyd (xy : Index) (r : Reg8) (d : Byte) :
    Executes (.ldRMemXyd xy r d) fun s t =>
      ∃ v u, s.After [.read (s.indexAddress xy d) v] 5 u ∧ t = (u.setReg r v).setWz (s.indexAddress xy d) := fun s =>
  ⟨_, rfl, _, _, s.tick_memRead_after 5 _, by rw [State.memRead_useIndex, State.setReg_setWz]⟩

/-- Settles O2: one read, behind the internal cycles of an indexed address, and then the register updates. -/
theorem memoryLoadsReadOneByte : Obligations.MemoryLoadsReadOneByte := by
  refine ⟨fun r => ?_, fun xy r d => ?_, ?_, ?_, fun nn => ?_⟩
  · exact .of_encode rfl rfl rfl
      (congrArg (fun op => [op]) (opByte_eq_fieldsByte rfl r.code_eq_toNat_field rfl))
      fun s => ⟨_, rfl, _, _, s.memRead_after s.hl, rfl⟩
  · exact .of_encode rfl rfl rfl
      (congrArg (fun op => [xy.prefixByte, op, d]) (opByte_eq_fieldsByte rfl r.code_eq_toNat_field rfl))
      (executes_ldRMemXyd xy r d)
  · exact .of_encode rfl rfl rfl rfl fun s => ⟨_, rfl, _, _, s.memRead_after s.bc, rfl⟩
  · exact .of_encode rfl rfl rfl rfl fun s => ⟨_, rfl, _, _, s.memRead_after s.de, rfl⟩
  · exact .of_encode rfl rfl rfl rfl fun s => ⟨_, rfl, _, _, s.memRead_after nn, rfl⟩

/-! ### To memory -/

/-- Settles O3: one write, behind the internal cycles of an indexed address, and then `WZ`. -/
theorem memoryStoresWriteOneByte : Obligations.MemoryStoresWriteOneByte := by
  refine ⟨fun r => ?_, fun xy d r => ?_, fun n => ?_, fun xy d n => ?_, ?_, ?_, fun nn => ?_⟩
  · exact .of_encode rfl rfl rfl
      (congrArg (fun op => [op]) (opByte_eq_fieldsByte rfl rfl r.code_eq_toNat_field))
      fun s => ⟨_, rfl, s.memWrite_after s.hl (s.getReg r)⟩
  · exact .of_encode rfl rfl rfl
      (congrArg (fun op => [xy.prefixByte, op, d]) (opByte_eq_fieldsByte rfl rfl r.code_eq_toNat_field))
      fun s => ⟨_, rfl, _, s.tick_memWrite_after 5 _ (s.getReg r), s.memWrite_useIndex xy d 5 _ _⟩
  · exact .of_encode rfl rfl rfl rfl fun s => ⟨_, rfl, s.memWrite_after s.hl n⟩
  · exact .of_encode rfl rfl rfl rfl
      fun s => ⟨_, rfl, _, s.tick_memWrite_after 2 _ n, s.memWrite_useIndex xy d 2 _ n⟩
  · exact .of_encode rfl rfl rfl rfl fun s => ⟨_, rfl, _, s.memWrite_after s.bc s.a, rfl⟩
  · exact .of_encode rfl rfl rfl rfl fun s => ⟨_, rfl, _, s.memWrite_after s.de s.a, rfl⟩
  · exact .of_encode rfl rfl rfl rfl fun s => ⟨_, rfl, _, s.memWrite_after nn s.a, rfl⟩

/-! ### To and from `I` and `R` -/

/-- `PV` is `IFF2` and `C` is kept; the rest is `FT_SZXY` of the byte (40_load8.md R144). -/
theorem hasFlags_loadIrFlags (f v : Byte) (iff2 : Bool) :
    HasFlags (loadIrFlags f v iff2) (v.getLsbD 7) (v == 0) (v.getLsbD 5) false (v.getLsbD 3) iff2 false
      (f.getLsbD 0) := by
  have hor := ((hasFlags_and_one f).or (hasFlags_tableSZXY v)).or (hasFlags_bitAt_two iff2)
  simp only [Bool.false_or, Bool.or_false] at hor
  exact hor

/-- Settles O4: one internal cycle and the register updates; the flags are those of `loadIrFlags`. -/
theorem accumulatorMovesToAndFromIAndR : Obligations.AccumulatorMovesToAndFromIAndR := by
  refine ⟨?_, ?_, ?_, ?_⟩
  · exact .of_encode rfl rfl rfl rfl fun _ => ⟨_, rfl, rfl, hasFlags_loadIrFlags _ _ _⟩
  · exact .of_encode rfl rfl rfl rfl fun _ => ⟨_, rfl, rfl, hasFlags_loadIrFlags _ _ _⟩
  · exact .of_encode rfl rfl rfl rfl fun _ => ⟨_, rfl, rfl⟩
  · exact .of_encode rfl rfl rfl rfl fun _ => ⟨_, rfl, rfl⟩

end Sys2Proof.Machine
end

section
/-! PROOFS. The opcode bytes whose field `y` is a register pair and one bit more (30_encoding.md R92, R93). -/

namespace Sys2Proof

theorem Pair.code_eq_toNat_fieldY (p : Pair) (q : BitVec 1) :
    2 * p.code + q.toNat = (fieldY p.field q).toNat := by
  revert q
  cases p <;> decide

theorem StackPair.code_eq_toNat_fieldY (p : StackPair) (q : BitVec 1) :
    2 * p.code + q.toNat = (fieldY p.field q).toNat := by
  revert q
  cases p <;> decide

end Sys2Proof
end

section
/-! PROOFS. Words on the stack (41_load16_stack.md R170 to R174): a push and a pop as conversations with the adapter,
apart from what they do to `SP`; and a word pushed onto plain memory is the word popped. -/

namespace Sys2Proof.Machine

open Sys2Proof

theorem sub_one_sub_one (a : Word) : a - 1 - 1 = a - 2 := by bv_omega

theorem State.push16_after (s : State) (w : Word) :
    ∃ u, s.After [.write (s.sp - 1) (hiByte w), .write (s.sp - 2) (loByte w)] 0 u ∧
      s.push16 w = u.setSp (s.sp - 2) := by
  refine ⟨_, (s.memWrite_after (s.sp - 1) (hiByte w)).trans (State.memWrite_after _ (s.sp - 2) (loByte w)), ?_⟩
  simp only [State.push16_eq, State.memWrite_eq, State.setSp, sub_one_sub_one]

theorem State.pop16_after (s : State) :
    ∃ lo hi u, s.After [.read s.sp lo, .read (s.sp + 1) hi] 0 u ∧
      s.pop16 = (joinBytes hi lo, u.setSp (s.sp + 2)) := by
  have htwo : s.sp + 1 + 1 = s.sp + 2 := by bv_omega
  refine ⟨_, _, _, s.memRead16_after s.sp, ?_⟩
  rw [State.pop16_eq, htwo, State.memRead16_eq, State.setSp]

/-! ### Reading back -/

/-- Plain memory answers the byte that stands there (20_memory.md R75). -/
theorem State.memRead_of_ram {s : State} {a : Word} (h : s.adapter.placeOf a = .ram) :
    (s.memRead a).1 = s.mem.read a.toNat := by
  simp [State.memRead_eq, State.memValue, Adapter.isDevice, h]

theorem State.memRead16_of_ram {s : State} {a : Word} (hlo : s.adapter.placeOf a = .ram)
    (hhi : s.adapter.placeOf (a + 1) = .ram) :
    (s.memRead16 a).1 = joinBytes (s.mem.read (a + 1).toNat) (s.mem.read a.toNat) :=
  congrArg₂ joinBytes (State.memRead_of_ram (s := (s.memRead a).2) hhi) (State.memRead_of_ram hlo)

theorem Adapter.store_of_ram {ad : Adapter} {a : Word} (h : ad.placeOf a = .ram) (m : Memory) (v : Byte) :
    ad.store m a v = m.write a.toNat v := by
  simp only [Adapter.store, h]

/-- A pop right after a push onto plain memory answers the word and moves `SP` back. The two stack bytes are never the
same one, also where they wrap around the top of memory. -/
theorem State.pop16_push16 {s : State} (w : Word) (hhi : s.adapter.placeOf (s.sp - 1) = .ram)
    (hlo : s.adapter.placeOf (s.sp - 2) = .ram) :
    (s.push16 w).pop16.1 = w ∧ (s.push16 w).pop16.2.sp = s.sp := by
  have hnext : s.sp - 2 + 1 = s.sp - 1 := by bv_omega
  have hback : s.sp - 2 + 1 + 1 = s.sp := by bv_omega
  have hne : (s.sp - 2).toNat ≠ (s.sp - 1).toNat := by bv_omega
  have hsp : (s.push16 w).sp = s.sp - 2 := by rw [State.push16_eq, sub_one_sub_one]
  have had : (s.push16 w).adapter = s.adapter := by rw [State.push16_eq]
  have hmem : (s.push16 w).mem = (s.mem.write (s.sp - 1).toNat (hiByte w)).write (s.sp - 2).toNat (loByte w) := by
    rw [State.push16_eq, sub_one_sub_one, Adapter.store_of_ram hhi, Adapter.store_of_ram hlo]
  constructor
  · rw [State.pop16_eq, hsp, State.memRead16_of_ram (by rw [had, hlo]) (by rw [had, hnext, hhi]), hmem, hnext,
      Memory.read_write_ne _ _ hne, Memory.read_write_same, Memory.read_write_same, joinBytes_halves]
  · rw [State.pop16_eq, hsp, hback]

end Sys2Proof.Machine
end

section
/-! PROOFS. The 16-bit loads and the stack (41_load16_stack.md R160 to R174). -/

namespace Sys2Proof.Machine

open Sys2Proof

/-! ### Loads and stores -/

theorem State.setHl_joinBytes (s : State) (hi lo : Byte) : s.setHl (joinBytes hi lo) = { s with h := hi, l := lo } := by
  rw [State.setHl, hiByte_joinBytes, loByte_joinBytes]

/-- `LD HL,(nn)` reads `L`, then `H` (41_load16_stack.md R162). -/
theorem executes_ldHlMemNn (nn : Word) :
    Executes (.ldHlMemNn nn) fun s t => ∃ lo hi u, s.After [.read nn lo, .read (nn + 1) hi] 0 u ∧
      t = { u with l := lo, h := hi, wz := nn + 1 } := fun s =>
  ⟨_, rfl, _, _, _, s.memRead16_after nn, congrArg (State.setWz · (nn + 1)) (State.setHl_joinBytes _ _ _)⟩

/-- Settles O5: a register update, or behind the two reads of `memRead16` one of the pair and `WZ`. -/
theorem wordLoadsReadLowByteFirst : Obligations.WordLoadsReadLowByteFirst := by
  refine ⟨fun dd nn => ?_, fun xy nn => ?_, fun nn => ?_, fun dd nn => ?_, fun xy nn => ?_⟩
  · exact .of_encode rfl rfl rfl
      (congrArg (fun op => [op, loByte nn, hiByte nn]) (opByte_eq_fieldsByte rfl (dd.code_eq_toNat_fieldY 0) rfl))
      fun _ => ⟨_, rfl, rfl⟩
  · exact .of_encode rfl rfl rfl rfl fun _ => ⟨_, rfl, rfl⟩
  · exact .of_encode rfl rfl rfl rfl (executes_ldHlMemNn nn)
  · exact .of_encode rfl rfl rfl
      (congrArg (fun op => [0xED, op, loByte nn, hiByte nn]) (opByte_eq_fieldsByte rfl (dd.code_eq_toNat_fieldY 1) rfl))
      fun s => ⟨_, rfl, _, _, _, s.memRead16_after nn, rfl⟩
  · exact .of_encode rfl rfl rfl rfl fun s => ⟨_, rfl, _, _, _, s.memRead16_after nn, rfl⟩

/-- `LD (nn),HL` writes `L`, then `H` (41_load16_stack.md R165). -/
theorem executes_ldMemNnHl (nn : Word) :
    Executes (.ldMemNnHl nn) fun s t =>
      ∃ u, s.After [.write nn s.l, .write (nn + 1) s.h] 0 u ∧ t = { u with wz := nn + 1 } := fun s =>
  ⟨_, rfl, s.memWrite16 nn s.hl, by simpa [State.hl] using s.memWrite16_after nn s.hl, rfl⟩

/-- Settles O6: the two writes of `memWrite16`, and then `WZ`. -/
theorem wordStoresWriteLowByteFirst : Obligations.WordStoresWriteLowByteFirst := by
  refine ⟨fun nn => ?_, fun nn dd => ?_, fun xy nn => ?_⟩
  · exact .of_encode rfl rfl rfl rfl (executes_ldMemNnHl nn)
  · exact .of_encode rfl rfl rfl
      (congrArg (fun op => [0xED, op, loByte nn, hiByte nn]) (opByte_eq_fieldsByte rfl (dd.code_eq_toNat_fieldY 0) rfl))
      fun s => ⟨_, rfl, _, s.memWrite16_after nn _, rfl⟩
  · exact .of_encode rfl rfl rfl rfl fun s => ⟨_, rfl, _, s.memWrite16_after nn _, rfl⟩

/-! ### The stack -/

/-- One internal cycle, then the push (41_load16_stack.md R170, R171). -/
theorem State.push16_tick_after (s : State) (w : Word) :
    ∃ u, s.After [.write (s.sp - 1) (hiByte w), .write (s.sp - 2) (loByte w)] 1 u ∧
      (s.tick 1).push16 w = { u with sp := s.sp - 2 } := by
  obtain ⟨u, hu, hpush⟩ := (s.tick 1).push16_after w
  exact ⟨u, (s.tick_after 1).trans hu, hpush⟩

/-- A pop whose word then goes where `store` puts it (41_load16_stack.md R172, R173). -/
theorem State.pop16_store_after (s : State) (store : State → Word → State) :
    ∃ lo hi u, s.After [.read s.sp lo, .read (s.sp + 1) hi] 0 u ∧
      store s.pop16.2 s.pop16.1 = store { u with sp := s.sp + 2 } (hi ++ lo) := by
  obtain ⟨lo, hi, u, hu, hpop⟩ := s.pop16_after
  exact ⟨lo, hi, u, hu, congrArg (fun p => store p.2 p.1) hpop⟩

/-- Settles O7: a push and a pop are their two calls of the adapter and the new `SP`; a pop then writes its pair. -/
theorem stackInstructionsMoveSp : Obligations.StackInstructionsMoveSp := by
  refine ⟨?_, fun xy => ?_, fun qq => ?_, fun xy => ?_, fun qq => ?_, fun xy => ?_⟩
  · exact .of_encode rfl rfl rfl rfl fun _ => ⟨_, rfl, rfl⟩
  · exact .of_encode rfl rfl rfl rfl fun _ => ⟨_, rfl, rfl⟩
  · exact .of_encode rfl rfl rfl
      (congrArg (fun op => [op]) (opByte_eq_fieldsByte rfl (qq.code_eq_toNat_fieldY 0) rfl))
      fun s => ⟨_, rfl, s.push16_tick_after _⟩
  · exact .of_encode rfl rfl rfl rfl fun s => ⟨_, rfl, s.push16_tick_after _⟩
  · exact .of_encode rfl rfl rfl
      (congrArg (fun op => [op]) (opByte_eq_fieldsByte rfl (qq.code_eq_toNat_fieldY 0) rfl))
      fun s => ⟨_, rfl, s.pop16_store_after (State.setStackPair · qq ·)⟩
  · exact .of_encode rfl rfl rfl rfl fun s => ⟨_, rfl, s.pop16_store_after (State.setIndex · xy ·)⟩

/-- Settles O8: the pop answers the word pushed and moves `SP` back, and the pair takes that word. -/
theorem popAfterPushGivesTheWordBack : Obligations.PopAfterPushGivesTheWordBack := by
  intro s qq qq' hhi hlo
  obtain ⟨hword, hsp⟩ := State.pop16_push16 (s := s.tick 1) (s.getStackPair qq) hhi hlo
  exact ⟨_, _, rfl, rfl, (State.getStackPair_setStackPair_same _ _ _).trans hword,
    (State.setStackPair_sp _ _ _).trans hsp⟩

end Sys2Proof.Machine
end

section
/-! PROOFS. The exchanges (42_exchange_block.md R190 to R194). -/

namespace Sys2Proof.Machine

open Sys2Proof

/-- `EX DE,HL` byte by byte (42_exchange_block.md R190). -/
theorem State.setDe_hl_setHl_de (s : State) :
    (s.setDe s.hl).setHl s.de = { s with d := s.h, e := s.l, h := s.d, l := s.e } := by
  simp only [State.setDe, State.setHl, State.de, State.hl, hiByte_joinBytes, loByte_joinBytes]

/-- The four accesses of an exchange with the stack, one internal cycle between the reads and the writes and two after
them; the word read is also what `WZ` holds (42_exchange_block.md R193). -/
theorem State.exchangeStack_after (s : State) (w : Word) :
    ∃ lo hi u,
      s.After [.read s.sp lo, .read (s.sp + 1) hi, .write (s.sp + 1) (hiByte w), .write s.sp (loByte w)] 3 u ∧
      s.exchangeStack w = (joinBytes hi lo, u.setWz (joinBytes hi lo)) :=
  ⟨_, _, _,
    ((((s.memRead16_after s.sp).trans (State.tick_after _ 1)).trans
      (State.memWrite_after _ (s.sp + 1) (hiByte w))).trans (State.memWrite_after _ s.sp (loByte w))).trans
      (State.tick_after _ 2), rfl⟩

/-- `EX (SP),HL` (42_exchange_block.md R193). -/
theorem executes_exMemSpHl :
    Executes .exMemSpHl fun s t => ∃ lo hi u,
      s.After [.read s.sp lo, .read (s.sp + 1) hi, .write (s.sp + 1) s.h, .write s.sp s.l] 3 u ∧
      t = { u with h := hi, l := lo, wz := hi ++ lo } := by
  intro s
  obtain ⟨lo, hi, u, hu, hx⟩ := s.exchangeStack_after s.hl
  rw [State.hl, hiByte_joinBytes, loByte_joinBytes] at hu
  refine ⟨_, rfl, lo, hi, u, hu, ?_⟩
  rw [hx, State.setHl_joinBytes]
  rfl

/-- `EX (SP),IX` and `EX (SP),IY` (42_exchange_block.md R194). -/
theorem executes_exMemSpXy (xy : Index) :
    Executes (.exMemSpXy xy) fun s t => ∃ lo hi u,
      s.After [.read s.sp lo, .read (s.sp + 1) hi, .write (s.sp + 1) (hiByte (s.getIndex xy)),
        .write s.sp (loByte (s.getIndex xy))] 3 u ∧
      t = { u.setIndex xy (hi ++ lo) with wz := hi ++ lo } := by
  intro s
  obtain ⟨lo, hi, u, hu, hx⟩ := s.exchangeStack_after (s.getIndex xy)
  refine ⟨_, rfl, lo, hi, u, hu, ?_⟩
  rw [hx]
  cases xy <;> rfl

/-- Settles O9: register updates, and for the stack forms the four accesses of `exchangeStack` before them. -/
theorem exchangesSwapTheirOperands : Obligations.ExchangesSwapTheirOperands := by
  refine ⟨?_, ?_, ?_, ?_, fun xy => ?_⟩
  · exact .of_encode rfl rfl rfl rfl fun s => ⟨_, rfl, s.setDe_hl_setHl_de⟩
  · exact .of_encode rfl rfl rfl rfl fun _ => ⟨_, rfl, rfl⟩
  · exact .of_encode rfl rfl rfl rfl fun _ => ⟨_, rfl, rfl⟩
  · exact .of_encode rfl rfl rfl rfl executes_exMemSpHl
  · exact .of_encode rfl rfl rfl rfl (executes_exMemSpXy xy)

end Sys2Proof.Machine
end

section
/-! PROOFS. The borrow from bit 4 of an 8-bit subtraction, which is `H` (43_alu8.md R222, 42_exchange_block.md R199). -/

namespace Sys2Proof.Machine

open Sys2Proof

/-- The operands and the difference disagree on bit 4 exactly when the low halves borrow from it. -/
theorem getLsbD_four_xor_of_sub {a v res : Byte} {cin : Bool}
    (h : (res.toNat + v.toNat + cin.toNat) % 256 = a.toNat) :
    (a ^^^ v ^^^ res).getLsbD 4 = decide (a.toNat % 16 < v.toNat % 16 + cin.toNat) := by
  have hbit (x : Byte) : x.getLsbD 4 = decide (x.toNat / 16 % 2 = 1) := Nat.testBit_eq_decide_div_mod_eq
  have hcin := Bool.toNat_le cin
  rw [BitVec.getLsbD_xor, BitVec.getLsbD_xor, hbit, hbit, hbit, Bool.eq_iff_iff]
  simp only [Bool.coe_xor_iff, xor_iff_not_iff, decide_eq_true_eq]
  omega

end Sys2Proof.Machine
end

section
/-! PROOFS. The block transfers and searches (42_exchange_block.md R195 to R202): one iteration as its calls of the
adapter and the register updates, and then the repeat clause. -/

namespace Sys2Proof.Machine

open Sys2Proof

theorem add_blockStep (w : Word) (up : Bool) : w + blockStep up = if up then w + 1 else w - 1 := by
  cases up with
  | false => exact (BitVec.sub_eq_add_neg w 1).symm
  | true => rfl

/-- The repeat clause (42_exchange_block.md R196) leaves `WZ` one past the `ED` byte. -/
theorem State.repeatBlock_eq_tick (t : State) : t.repeatBlock = { t.tick 5 with pc := t.pc - 2, wz := t.pc - 1 } := by
  have hwz : t.pc - 2 + 1 = t.pc - 1 := by bv_omega
  rw [State.repeatBlock_eq, hwz, State.tick]

@[simp] theorem State.memRead_pc (s : State) (a : Word) : (s.memRead a).2.pc = s.pc := rfl

theorem State.memRead_fst (s : State) (a : Word) : (s.memRead a).1 = s.memValue .read a := rfl

/-! ### Transfer -/

theorem State.blockLoad_bc (s : State) (up : Bool) : (s.blockLoad up).bc = s.bc - 1 := by
  rw [State.blockLoad_eq, State.bc, joinBytes_halves]

/-- Each form is one iteration, and the repeating ones go back while `BC` is not 0. -/
theorem exec_blockLoadForm (up rep : Bool) (s : State) : exec (blockLoadForm up rep) s =
    .next (if rep && s.bc - 1 != 0 then (s.blockLoad up).repeatBlock else s.blockLoad up) := by
  rw [← s.blockLoad_bc up]
  cases up <;> cases rep <;> rfl

theorem hasRule_blockLoadForm {up rep : Bool} {effect : State → State → Prop}
    (h : Executes (blockLoadForm up rep) effect) :
    HasRule (blockLoadForm up rep) [0xED, blockByte up rep 0] 2 0 effect := by
  cases up <;> cases rep <;> exact .of_encode rfl rfl rfl rfl h

/-- One iteration, gone back from or not: a read and a write, and then registers only. -/
theorem State.blockLoad_after (s : State) (up again : Bool) :
    ∃ v u, s.After [.read s.hl v, .write s.de v] (if again then 7 else 2) u ∧
      (if again then (s.blockLoad up).repeatBlock else s.blockLoad up) = { u with
        h := hiByte (if up then s.hl + 1 else s.hl - 1), l := loByte (if up then s.hl + 1 else s.hl - 1),
        d := hiByte (if up then s.de + 1 else s.de - 1), e := loByte (if up then s.de + 1 else s.de - 1),
        b := hiByte (s.bc - 1), c := loByte (s.bc - 1), f := blockLoadFlags s.f s.a v (s.bc - 1),
        pc := if again then s.pc - 2 else s.pc, wz := if again then s.pc - 1 else s.wz } := by
  have hcalls := ((s.memRead_after s.hl).trans (State.memWrite_after _ s.de (s.memRead s.hl).1)).trans
    (State.tick_after _ 2)
  simp only [← add_blockStep, State.blockLoad, State.setHl, State.setDe, State.setBc, State.setF]
  cases again with
  | false => exact ⟨_, _, hcalls, by simp⟩
  | true => exact ⟨_, _, hcalls.trans (State.tick_after _ 5), by simp [State.repeatBlock_eq_tick, State.tick]⟩

theorem hasFlags_blockLoadFlags (f a v : Byte) (bc : Word) :
    HasFlags (blockLoadFlags f a v bc) (f.getLsbD 7) (f.getLsbD 6) ((v + a).getLsbD 1) false ((v + a).getLsbD 3)
      (bc != 0) false (f.getLsbD 0) :=
  hasFlags_packFlags _ _ _ _ _ _ _ _

/-- Settles O10: one iteration with the clause for going back, and the flags of the byte moved. -/
theorem blockTransferMovesOneByte : Obligations.BlockTransferMovesOneByte := by
  refine fun up rep => hasRule_blockLoadForm fun s => ?_
  obtain ⟨v, u, hu, ht⟩ := s.blockLoad_after up (rep && s.bc - 1 != 0)
  exact ⟨_, (exec_blockLoadForm up rep s).trans (congrArg _ ht), v, u, hu, rfl, hasFlags_blockLoadFlags _ _ _ _⟩

/-! ### Search -/

theorem State.blockCompare_bc (s : State) (up : Bool) : (s.blockCompare up).bc = s.bc - 1 := by
  rw [State.blockCompare_eq, State.bc, joinBytes_halves]

/-- The result is 0 when the bytes are equal. -/
theorem sub_bne_zero (a v : Byte) : (a - v != 0) = (a != v) := by
  rw [Bool.eq_iff_iff, bne_iff_ne, bne_iff_ne, sub_ne_zero]

/-- Each form is one iteration, and the repeating ones go back while `BC` is not 0 and the bytes differ. -/
theorem exec_blockCompareForm (up rep : Bool) (s : State) : exec (blockCompareForm up rep) s =
    .next (if rep && s.bc - 1 != 0 && s.a - s.memValue .read s.hl != 0 then (s.blockCompare up).repeatBlock
      else s.blockCompare up) := by
  rw [← s.blockCompare_bc up, sub_bne_zero]
  cases up <;> cases rep <;> rfl

theorem hasRule_blockCompareForm {up rep : Bool} {effect : State → State → Prop}
    (h : Executes (blockCompareForm up rep) effect) :
    HasRule (blockCompareForm up rep) [0xED, blockByte up rep 1] 2 0 effect := by
  cases up <;> cases rep <;> exact .of_encode rfl rfl rfl rfl h

/-- One iteration, gone back from or not: a read, and then registers only. -/
theorem State.blockCompare_after (s : State) (up again : Bool) :
    ∃ u, s.After [.read s.hl (s.memValue .read s.hl)] (if again then 10 else 5) u ∧
      (if again then (s.blockCompare up).repeatBlock else s.blockCompare up) = { u with
        h := hiByte (if up then s.hl + 1 else s.hl - 1), l := loByte (if up then s.hl + 1 else s.hl - 1),
        b := hiByte (s.bc - 1), c := loByte (s.bc - 1),
        f := blockCompareFlags s.f s.a (s.memValue .read s.hl) (s.bc - 1),
        pc := if again then s.pc - 2 else s.pc,
        wz := if again then s.pc - 1 else if up then s.wz + 1 else s.wz - 1 } := by
  have hcalls : s.After [.read s.hl (s.memValue .read s.hl)] 5 ((s.memRead s.hl).2.tick 5) :=
    (s.memRead_after s.hl).trans (State.tick_after _ 5)
  simp only [← add_blockStep, State.blockCompare, State.memRead_fst, State.setHl, State.setBc, State.setF, State.setWz]
  cases again with
  | false => exact ⟨_, hcalls, by simp⟩
  | true => exact ⟨_, hcalls.trans (State.tick_after _ 5), by simp [State.repeatBlock_eq_tick, State.tick]⟩

/-- `Y` and `X` come from the result less `H` (42_exchange_block.md R199). -/
theorem sub_bitAt_zero (res : Byte) (x : Bool) : res - bitAt 0 x = if x then res - 1 else res := by
  cases x with
  | false => exact BitVec.sub_zero res
  | true => rfl

theorem hasFlags_blockCompareFlags (f a v : Byte) (bc : Word) :
    HasFlags (blockCompareFlags f a v bc) ((a - v).getLsbD 7) (a - v == 0)
      ((if decide (a.toNat % 16 < v.toNat % 16) then a - v - 1 else a - v).getLsbD 1)
      (decide (a.toNat % 16 < v.toNat % 16))
      ((if decide (a.toNat % 16 < v.toNat % 16) then a - v - 1 else a - v).getLsbD 3) (bc != 0) true
      (f.getLsbD 0) := by
  have hsub : ((a - v).toNat + v.toNat + false.toNat) % 256 = a.toNat := by
    rw [Bool.toNat_false]
    bv_omega
  have hf : (a ^^^ v ^^^ (a - v)).getLsbD 4 = decide (a.toNat % 16 < v.toNat % 16) := getLsbD_four_xor_of_sub hsub
  rw [← hf, ← sub_bitAt_zero]
  exact hasFlags_packFlags _ _ _ _ _ _ _ _

/-- Settles O11: one iteration with the clause for going back, and the flags of the difference. -/
theorem blockSearchComparesOneByte : Obligations.BlockSearchComparesOneByte := by
  refine fun up rep => hasRule_blockCompareForm fun s => ?_
  obtain ⟨u, hu, ht⟩ :=
    s.blockCompare_after up (rep && s.bc - 1 != 0 && s.a - s.memValue .read s.hl != 0)
  exact ⟨_, (exec_blockCompareForm up rep s).trans (congrArg _ ht), _, u, hu, rfl, hasFlags_blockCompareFlags _ _ _ _⟩

end Sys2Proof.Machine
end

section
/-! PROOFS. The 8-bit operations on bytes and flag bytes (43_alu8.md R220 to R227, R239, R240): what `alu8`, `inc8` and
`dec8` compute is what the rules describe. -/

namespace Sys2Proof.Machine

open Sys2Proof

/-! ### Addition and subtraction -/

/-- `H` of an addition: the low halves carry into bit 4 exactly when taking `v` away from the sum again borrows from it. -/
theorem getLsbD_four_xor_of_add {a v res : Byte} {cin : Bool}
    (h : res.toNat = (a.toNat + v.toNat + cin.toNat) % 256) :
    (a ^^^ v ^^^ res).getLsbD 4 = decide (15 < a.toNat % 16 + v.toNat % 16 + cin.toNat) := by
  have hswap : a ^^^ v ^^^ res = res ^^^ v ^^^ a := by
    rw [BitVec.xor_comm a v, BitVec.xor_comm res v, BitVec.xor_assoc, BitVec.xor_assoc, BitVec.xor_comm a res]
  have hcin := Bool.toNat_le cin
  rw [hswap, getLsbD_four_xor_of_sub h.symm, decide_eq_decide]
  omega

/-- `PV` of an addition: the result differs from both operands in sign. -/
theorem getLsbD_seven_overflow_add (a v res : Byte) :
    ((a ^^^ res) &&& (v ^^^ res)).getLsbD 7 =
      (a.getLsbD 7 == v.getLsbD 7 && res.getLsbD 7 != a.getLsbD 7) := by
  simp only [BitVec.getLsbD_and, BitVec.getLsbD_xor]
  cases a.getLsbD 7 <;> cases v.getLsbD 7 <;> cases res.getLsbD 7 <;> rfl

/-- `PV` of a subtraction: `a` differs in sign from both `v` and the result. -/
theorem getLsbD_seven_overflow_sub (a v res : Byte) :
    ((a ^^^ v) &&& (a ^^^ res)).getLsbD 7 =
      (a.getLsbD 7 != v.getLsbD 7 && res.getLsbD 7 != a.getLsbD 7) := by
  simp only [BitVec.getLsbD_and, BitVec.getLsbD_xor]
  cases a.getLsbD 7 <;> cases v.getLsbD 7 <;> cases res.getLsbD 7 <;> rfl

theorem toNat_add8 (a v : Byte) (cin : Bool) : (add8 a v cin).1.toNat = (a.toNat + v.toNat + cin.toNat) % 256 :=
  BitVec.toNat_ofNat _ _

theorem addResult_add8 (a v : Byte) (cin : Bool) : AddResult a v cin (add8 a v cin).1 (add8 a v cin).2 := by
  refine ⟨toNat_add8 a v cin, ?_⟩
  rw [← getLsbD_four_xor_of_add (toNat_add8 a v cin), ← getLsbD_seven_overflow_add]
  exact hasFlags_packFlags _ _ _ _ _ _ _ _

theorem toNat_sub8 (a v : Byte) (cin : Bool) : ((sub8 a v cin).1.toNat + v.toNat + cin.toNat) % 256 = a.toNat := by
  have ha := a.isLt
  have hres : (sub8 a v cin).1.toNat = (((a.toNat : Int) - v.toNat - cin.toNat) % 256).toNat := BitVec.toNat_ofInt _
  omega

theorem subResult_sub8 (a v : Byte) (cin : Bool) : SubResult a v cin (sub8 a v cin).1 (sub8 a v cin).2 := by
  have hborrow : decide (a.toNat < v.toNat + cin.toNat) = decide ((a.toNat : Int) - v.toNat - cin.toNat < 0) := by
    rw [decide_eq_decide]
    omega
  refine ⟨toNat_sub8 a v cin, ?_⟩
  rw [← getLsbD_four_xor_of_sub (toNat_sub8 a v cin), ← getLsbD_seven_overflow_sub, hborrow]
  exact hasFlags_packFlags _ _ _ _ _ _ _ _

theorem HasFlags.carry {f : Byte} {s z y h x pv n c : Bool} (hf : HasFlags f s z y h x pv n c) : f.getLsbD 0 = c := by
  obtain ⟨-, -, -, -, -, -, -, hc⟩ := hf
  exact hc

/-- Subtracting what was added, with the same carry in, gives back the operand, and borrows when the addition carried. -/
theorem SubResult.undoes_add {a v sum f res f' : Byte} {cin : Bool} (hadd : AddResult a v cin sum f)
    (hsub : SubResult sum v cin res f') : res = a ∧ f'.getLsbD 0 = f.getLsbD 0 := by
  obtain ⟨hsum, hflags⟩ := hadd
  obtain ⟨hres, hflags'⟩ := hsub
  have ha := a.isLt
  have hr := res.isLt
  rw [hflags.carry, hflags'.carry, decide_eq_decide]
  exact ⟨BitVec.eq_of_toNat_eq (by omega), by omega⟩

/-! ### All eight operations -/

/-- The flags that `CP` takes from the subtraction (43_alu8.md R227). -/
theorem hasFlags_and_D7 (g : Byte) :
    HasFlags (g &&& 0xD7) (g.getLsbD 7) (g.getLsbD 6) false (g.getLsbD 4) false (g.getLsbD 2) (g.getLsbD 1)
      (g.getLsbD 0) := by
  revert g; unfold HasFlags; decide

/-- The flags that `CP` takes from the operand (43_alu8.md R227). -/
theorem hasFlags_and_28 (v : Byte) :
    HasFlags (v &&& 0x28) false false (v.getLsbD 5) false (v.getLsbD 3) false false false := by
  revert v; unfold HasFlags; decide

theorem hasFlags_cp (g v : Byte) :
    HasFlags ((g &&& 0xD7) ||| (v &&& 0x28)) (g.getLsbD 7) (g.getLsbD 6) (v.getLsbD 5) (g.getLsbD 4) (v.getLsbD 3)
      (g.getLsbD 2) (g.getLsbD 1) (g.getLsbD 0) := by
  simpa only [Bool.false_or, Bool.or_false] using (hasFlags_and_D7 g).or (hasFlags_and_28 v)

/-- `AND` adds `H` to the flags of the table (43_alu8.md R224). -/
theorem logicFlags_and (res : Byte) : LogicFlags res true (tableSZPXY res ||| 0x10) := by
  have hH : HasFlags 0x10 false false false true false false false false := by unfold HasFlags; decide
  simpa only [LogicFlags, Bool.false_or, Bool.or_false] using (hasFlags_tableSZPXY res).or hH

theorem aluResult_alu8 (op : AluOp) (a f v : Byte) : AluResult op a f v (alu8 op a f v).1 (alu8 op a f v).2 := by
  cases op with
  | add | adc => exact addResult_add8 _ _ _
  | sub | sbc => exact subResult_sub8 _ _ _
  | and => exact ⟨rfl, logicFlags_and _⟩
  | xor | or => exact ⟨rfl, hasFlags_tableSZPXY _⟩
  | cp => exact ⟨rfl, _, _, subResult_sub8 a v false, hasFlags_cp _ _⟩

/-! ### Increment and decrement -/

theorem incResult_inc8 (f v : Byte) : IncResult f v (inc8 f v).1 (inc8 f v).2 := by
  have hhalf : decide (v.toNat % 16 = 15) = ((v + 1) &&& 0x0F == 0) := by revert v; decide
  have hoverflow : decide (v.toNat = 127) = (v + 1 == 0x80) := by revert v; decide
  refine ⟨BitVec.toNat_add v 1, ?_⟩
  rw [hhalf, hoverflow]
  exact hasFlags_packFlags _ _ _ _ _ _ _ _

theorem decResult_dec8 (f v : Byte) : DecResult f v (dec8 f v).1 (dec8 f v).2 := by
  have hhalf : decide (v.toNat % 16 = 0) = ((v - 1) &&& 0x0F == 0x0F) := by revert v; decide
  have hoverflow : decide (v.toNat = 128) = (v - 1 == 0x7F) := by revert v; decide
  have hres : ((v - 1).toNat + 1) % 256 = v.toNat := by bv_omega
  refine ⟨hres, ?_⟩
  rw [hhalf, hoverflow]
  exact hasFlags_packFlags _ _ _ _ _ _ _ _

end Sys2Proof.Machine
end

section
/-! PROOFS. The 8-bit arithmetic and logic group (43_alu8.md R230 to R248): each operation on `A` is `State.aluFrom` of its
source, each step of a byte of memory `State.stepMem`. -/

namespace Sys2Proof.Machine

open Sys2Proof

/-! ### Operations on the accumulator -/

theorem exec_aluForm (op : AluOp) (src : Src8) (s : State) : exec (aluForm op src) s = .next (s.aluFrom op src) := by
  cases op <;> cases src <;> rfl

/-- No form needs a check, and none is a prefix. -/
theorem aluForm_isWhole (op : AluOp) (src : Src8) :
    (aluForm op src).wellFormed = true ∧ (aluForm op src).isBarePrefix = false := by
  cases op <;> cases src <;> exact ⟨rfl, rfl⟩

/-- The operation is field `y` of the opcode byte (30_encoding.md R93). -/
theorem encode_aluForm_reg (op : AluOp) (r : Reg8) :
    encode (aluForm op (.reg r)) = [fieldsByte 0b10 op.field r.field] := by
  cases op <;> exact congrArg (fun b => [b]) (opByte_eq_fieldsByte rfl rfl r.code_eq_toNat_field)

theorem encode_aluForm_half (op : AluOp) (xy : Index) (p : Half) :
    encode (aluForm op (.half xy p)) = [xy.prefixByte, fieldsByte 0b10 op.field p.field] := by
  cases op <;> exact congrArg (fun b => [xy.prefixByte, b]) (opByte_eq_fieldsByte rfl rfl p.code_eq_toNat_field)

theorem HasRule.of_aluForm {op : AluOp} {src : Src8} {bytes : List Byte} {nF nM : Nat} {effect : State → State → Prop}
    (hf : (aluForm op src).fetches = (nF, nM)) (he : encode (aluForm op src) = bytes)
    (hx : ∀ s, effect s (s.aluFrom op src)) : HasRule (aluForm op src) bytes nF nM effect :=
  .of_encode (aluForm_isWhole op src).1 (aluForm_isWhole op src).2 hf he fun s => ⟨_, exec_aluForm op src s, hx s⟩

/-- Settles O12: the source is no access, and what `alu8` makes of it is as the rules describe. -/
theorem aluOnRegistersAndImmediates : Obligations.AluOnRegistersAndImmediates := by
  refine ⟨fun op r => ?_, fun op n => ?_, fun op xy p => ?_⟩
  · exact .of_aluForm (by cases op <;> rfl) (encode_aluForm_reg op r) fun _ => ⟨rfl, aluResult_alu8 _ _ _ _⟩
  · exact .of_aluForm (by cases op <;> rfl) (by cases op <;> rfl) fun _ => ⟨rfl, aluResult_alu8 _ _ _ _⟩
  · exact .of_aluForm (by cases op <;> rfl) (encode_aluForm_half op xy p) fun _ => ⟨rfl, aluResult_alu8 _ _ _ _⟩

/-- Settles O13: one read, behind the internal cycles of an indexed address, and then what `alu8` makes of the byte. -/
theorem aluOnMemoryBytes : Obligations.AluOnMemoryBytes := by
  refine ⟨fun op => ?_, fun op xy d => ?_⟩
  · exact .of_aluForm (by cases op <;> rfl) (by cases op <;> rfl)
      fun s => ⟨_, _, s.memRead_after s.hl, rfl, aluResult_alu8 _ _ _ _⟩
  · exact .of_aluForm (by cases op <;> rfl) (by cases op <;> rfl)
      fun s => ⟨_, _, s.tick_memRead_after 5 (s.indexAddress xy d), rfl, aluResult_alu8 _ _ _ _⟩

/-- Settles O14: the difference that `SUB n` leaves is that of the sum of `ADD A,n`. -/
theorem subtractUndoesAdd : Obligations.SubtractUndoesAdd := by
  intro s n
  have hadd : AddResult s.a n false (s.aluFrom .add (.imm n)).a (s.aluFrom .add (.imm n)).f := addResult_add8 _ _ _
  obtain ⟨ha, hcarry⟩ := SubResult.undoes_add hadd (subResult_sub8 _ n false)
  exact ⟨_, _, rfl, rfl, ha, hcarry, hadd.2.carry⟩

/-! ### Increments and decrements -/

theorem State.stepMem_useIndex (s : State) (xy : Index) (d : Byte) (k : Nat) (a : Word)
    (step : Byte → Byte → Byte × Byte) :
    (s.useIndex xy d k).stepMem a step = ((s.tick k).stepMem a step).setWz (s.indexAddress xy d) := rfl

section
variable {step : Byte → Byte → Byte × Byte} {Result : Byte → Byte → Byte → Byte → Prop}

/-- A step of the byte at `a`, `Result` being what the step computes. -/
theorem State.stepMem_after (s : State) (a : Word) (h : ∀ f v, Result f v (step f v).1 (step f v).2) :
    ∃ v res u, s.After [.read a v, .write a res] 1 u ∧ s.stepMem a step = { u with f := (s.stepMem a step).f } ∧
      Result s.f v res (s.stepMem a step).f :=
  ⟨_, _, _, s.modify_after a _, rfl, h _ _⟩

/-- The same behind the internal cycles of an indexed address. -/
theorem State.stepMem_useIndex_after (s : State) (xy : Index) (d : Byte)
    (h : ∀ f v, Result f v (step f v).1 (step f v).2) :
    let a := s.indexAddress xy d
    let t := (s.useIndex xy d 5).stepMem a step
    ∃ v res u, s.After [.read a v, .write a res] 6 u ∧ t = { u with f := t.f, wz := a } ∧ Result s.f v res t.f := by
  intro a t
  have ht : t = ((s.tick 5).stepMem a step).setWz a := s.stepMem_useIndex xy d 5 a step
  obtain ⟨v, res, u, hu, hstep, hres⟩ := (s.tick 5).stepMem_after a h
  rw [ht]
  exact ⟨v, res, u, (s.tick_after 5).trans hu, congrArg (State.setWz · a) hstep, hres⟩

end

/-- Settles O15: a register update, or the read-modify-write of `stepMem`; the rest is `inc8` and `dec8`. -/
theorem byteIncrementsAndDecrements : Obligations.ByteIncrementsAndDecrements := by
  refine ⟨fun r => ?_, fun r => ?_, fun xy p => ?_, fun xy p => ?_, ?_, ?_, fun xy d => ?_, fun xy d => ?_⟩
  · exact .of_encode rfl rfl rfl
      (congrArg (fun b => [b]) (opByte_eq_fieldsByte rfl r.code_eq_toNat_field rfl))
      fun _ => ⟨_, rfl, _, rfl, incResult_inc8 _ _⟩
  · exact .of_encode rfl rfl rfl
      (congrArg (fun b => [b]) (opByte_eq_fieldsByte rfl r.code_eq_toNat_field rfl))
      fun _ => ⟨_, rfl, _, rfl, decResult_dec8 _ _⟩
  · exact .of_encode rfl rfl rfl
      (congrArg (fun b => [xy.prefixByte, b]) (opByte_eq_fieldsByte rfl p.code_eq_toNat_field rfl))
      fun _ => ⟨_, rfl, _, rfl, incResult_inc8 _ _⟩
  · exact .of_encode rfl rfl rfl
      (congrArg (fun b => [xy.prefixByte, b]) (opByte_eq_fieldsByte rfl p.code_eq_toNat_field rfl))
      fun _ => ⟨_, rfl, _, rfl, decResult_dec8 _ _⟩
  · exact .of_encode rfl rfl rfl rfl fun s => ⟨_, rfl, s.stepMem_after s.hl incResult_inc8⟩
  · exact .of_encode rfl rfl rfl rfl fun s => ⟨_, rfl, s.stepMem_after s.hl decResult_dec8⟩
  · exact .of_encode rfl rfl rfl rfl fun s => ⟨_, rfl, s.stepMem_useIndex_after xy d incResult_inc8⟩
  · exact .of_encode rfl rfl rfl rfl fun s => ⟨_, rfl, s.stepMem_useIndex_after xy d decResult_dec8⟩

end Sys2Proof.Machine
end

section
/-! PROOFS. Bytes and fields put side by side as sums of numbers, as the encoder writes the bits that a rule leaves free
(30_encoding.md R92, 44_general_cpu.md R272). -/

namespace Sys2Proof

variable {m n : Nat} (x : BitVec m) (y : BitVec n)

theorem toNat_append_eq_add : (x ++ y).toNat = x.toNat * 2 ^ n + y.toNat := by
  rw [BitVec.toNat_append, ← Nat.shiftLeft_add_eq_or_of_lt y.isLt, Nat.shiftLeft_eq]

theorem ofNat_eq_append {k : Nat} (hk : k = x.toNat * 2 ^ n + y.toNat) : BitVec.ofNat (m + n) k = x ++ y := by
  rw [hk, ← toNat_append_eq_add, BitVec.ofNat_toNat, BitVec.setWidth_eq]

end Sys2Proof
end

section
/-! PROOFS. `DAA` (44_general_cpu.md R260): the result and the flags, the rule's statement of `H` in place of bit 4 of the
operand and the result; and what it makes of the sum of two packed decimal bytes. -/

namespace Sys2Proof.Machine

open Sys2Proof

theorem HasFlags.half {f : Byte} {s z y h x pv n c : Bool} (hf : HasFlags f s z y h x pv n c) : f.getLsbD 4 = h := by
  obtain ⟨-, -, -, hh, -, -, -, -⟩ := hf
  exact hh

theorem HasFlags.overflow {f : Byte} {s z y h x pv n c : Bool} (hf : HasFlags f s z y h x pv n c) :
    f.getLsbD 2 = pv := by
  obtain ⟨-, -, -, -, -, hpv, -, -⟩ := hf
  exact hpv

theorem HasFlags.subtract {f : Byte} {s z y h x pv n c : Bool} (hf : HasFlags f s z y h x pv n c) :
    f.getLsbD 1 = n := by
  obtain ⟨-, -, -, -, -, -, hn, -⟩ := hf
  exact hn

/-- When the low digit needs a correction. -/
def daaFixesLow (a f : Byte) : Bool := f.getLsbD 4 || decide (9 < a.toNat % 16)

/-- When the high digit does, which is also the carry. -/
def daaFixesHigh (a f : Byte) : Bool := f.getLsbD 0 || decide (0x99 < a.toNat)

/-- The correction: 6 in each digit that needs one. -/
def daaCorrection (a f : Byte) : Byte :=
  (if daaFixesLow a f then 0x06 else 0) ||| (if daaFixesHigh a f then 0x60 else 0)

/-- `DAA` of the accumulator `a` under the flag byte `f` gives `res` and `f'`, as the rule describes them. -/
def DaaResult (a f res f' : Byte) : Prop :=
  let corr := (if daaFixesLow a f then 0x06 else 0) + (if daaFixesHigh a f then 0x60 else 0)
  res.toNat = (if f.getLsbD 1 then a.toNat + 256 - corr else a.toNat + corr) % 256 ∧
  HasFlags f' (res.getLsbD 7) (res == 0) (res.getLsbD 5)
    (if f.getLsbD 1 then f.getLsbD 4 && decide (a.toNat % 16 < 6) else decide (9 < a.toNat % 16))
    (res.getLsbD 3) (hasEvenOnes res) (f.getLsbD 1) (daaFixesHigh a f)

/-! ### The correction -/

theorem toNat_daaCorrection (a f : Byte) :
    (daaCorrection a f).toNat = (if daaFixesLow a f then 0x06 else 0) + (if daaFixesHigh a f then 0x60 else 0) := by
  unfold daaCorrection
  cases daaFixesLow a f <;> cases daaFixesHigh a f <;> rfl

/-- The correction of the high digit is a multiple of 16. -/
theorem toNat_daaCorrection_mod (a f : Byte) : (daaCorrection a f).toNat % 16 = if daaFixesLow a f then 6 else 0 := by
  rw [toNat_daaCorrection]
  split <;> split <;> rfl

/-- No correction has bit 4. -/
theorem getLsbD_four_xor_daaCorrection (a f res : Byte) :
    (a ^^^ daaCorrection a f ^^^ res).getLsbD 4 = (a ^^^ res).getLsbD 4 := by
  have hcorr : (daaCorrection a f).getLsbD 4 = false := by
    unfold daaCorrection
    cases daaFixesLow a f <;> cases daaFixesHigh a f <;> rfl
  simp only [BitVec.getLsbD_xor, hcorr, Bool.xor_false]

/-- `H` after an addition: the correction carries into bit 4 exactly when the low digit is above 9. -/
theorem getLsbD_four_xor_add_daaCorrection (a f : Byte) :
    (a ^^^ (a + daaCorrection a f)).getLsbD 4 = decide (9 < a.toNat % 16) := by
  rw [← getLsbD_four_xor_daaCorrection a f, getLsbD_four_xor_of_add (cin := false) (BitVec.toNat_add a _),
    toNat_daaCorrection_mod, decide_eq_decide, Bool.toNat_false]
  simp only [daaFixesLow, Bool.or_eq_true, decide_eq_true_eq]
  split <;> omega

/-- A difference as the subtraction without borrow that `getLsbD_four_xor_of_sub` speaks of. -/
theorem toNat_sub_add_mod (a v : Byte) : ((a - v).toNat + v.toNat + false.toNat) % 256 = a.toNat := by
  rw [Bool.toNat_false]
  bv_omega

/-- `H` after a subtraction: only a correction that `H` asked for can borrow from bit 4. -/
theorem getLsbD_four_xor_sub_daaCorrection (a f : Byte) :
    (a ^^^ (a - daaCorrection a f)).getLsbD 4 = (f.getLsbD 4 && decide (a.toNat % 16 < 6)) := by
  rw [← getLsbD_four_xor_daaCorrection a f, getLsbD_four_xor_of_sub (toNat_sub_add_mod a _),
    toNat_daaCorrection_mod, Bool.toNat_false, daaFixesLow]
  cases f.getLsbD 4 with
  | true => rfl
  | false =>
    simp only [Bool.false_or, decide_eq_true_eq, Bool.false_and, decide_eq_false_iff_not]
    split <;> omega

/-! ### The flag byte -/

/-- `N` alone. -/
theorem hasFlags_and_two (f : Byte) :
    HasFlags (f &&& 0x02) false false false false false false (f.getLsbD 1) false := by
  revert f; unfold HasFlags; decide

/-- `C` alone. -/
theorem hasFlags_bitAt_zero (x : Bool) : HasFlags (bitAt 0 x) false false false false false false false x := by
  revert x; unfold HasFlags; decide

/-- `H` alone. -/
theorem hasFlags_bitAt_four (x : Bool) : HasFlags (bitAt 4 x) false false false x false false false false := by
  revert x; unfold HasFlags; decide

/-- The flag byte as the rule writes it: the table of the result, `N` as it was, `C` and `H`. -/
theorem hasFlags_daaFlags (res f : Byte) (c h : Bool) :
    HasFlags (tableSZPXY res ||| (f &&& 0x02) ||| bitAt 0 c ||| bitAt 4 h) (res.getLsbD 7) (res == 0) (res.getLsbD 5) h
      (res.getLsbD 3) (hasEvenOnes res) (f.getLsbD 1) c := by
  simpa only [Bool.false_or, Bool.or_false] using
    (((hasFlags_tableSZPXY res).or (hasFlags_and_two f)).or (hasFlags_bitAt_zero c)).or (hasFlags_bitAt_four h)

/-! ### `DAA` -/

theorem daa8_fst (a f : Byte) :
    (daa8 a f).1 = if f.getLsbD 1 then a - daaCorrection a f else a + daaCorrection a f := by
  have hlow : (a &&& 0x0F).toNat = a.toNat % 16 := (BitVec.toNat_and a 0x0F).trans (Nat.and_two_pow_sub_one_eq_mod _ 4)
  rw [daaCorrection, daaFixesLow, ← hlow]
  rfl

theorem daa8_snd (a f : Byte) :
    (daa8 a f).2 = tableSZPXY (daa8 a f).1 ||| (f &&& 0x02) ||| bitAt 0 (daaFixesHigh a f) |||
      bitAt 4 ((a ^^^ (daa8 a f).1).getLsbD 4) := rfl

theorem daaResult_daa8 (a f : Byte) : DaaResult a f (daa8 a f).1 (daa8 a f).2 := by
  have hhalf : (a ^^^ (daa8 a f).1).getLsbD 4 =
      if f.getLsbD 1 then f.getLsbD 4 && decide (a.toNat % 16 < 6) else decide (9 < a.toNat % 16) := by
    rw [daa8_fst, ← getLsbD_four_xor_add_daaCorrection a f, ← getLsbD_four_xor_sub_daaCorrection a f]
    split <;> rfl
  refine ⟨?_, ?_⟩
  · have hle := (daaCorrection a f).isLt
    rw [daa8_fst, ← toNat_daaCorrection]
    split
    · rw [BitVec.toNat_sub]
      omega
    · exact BitVec.toNat_add _ _
  · rw [daa8_snd, ← hhalf]
    exact hasFlags_daaFlags _ _ _ _

/-- Settles O16: the rule's equivalent statement of `H` is bit 4 of the operand and the result. -/
theorem daaAdjustsTheAccumulator : Obligations.DaaAdjustsTheAccumulator :=
  .of_encode rfl rfl rfl rfl fun s => ⟨_, rfl, rfl, daaResult_daa8 s.a s.f⟩

/-! ### Decimal addition -/

/-- The number that two packed decimal digits stand for. -/
def decimalValue (v : Byte) : Nat := 10 * (v.toNat / 16) + v.toNat % 16

/-- Both digits are decimal. -/
def IsDecimal (v : Byte) : Prop := v.toNat % 16 ≤ 9 ∧ v.toNat / 16 ≤ 9

section
variable {a v sum f : Byte} {cin : Bool}

/-- The low digit of a sum is corrected exactly when the low digits add up to more than 9. -/
theorem AddResult.daaFixesLow_eq (hadd : AddResult a v cin sum f) (ha : IsDecimal a) (hv : IsDecimal v) :
    daaFixesLow sum f = decide (9 < a.toNat % 16 + v.toNat % 16 + cin.toNat) := by
  obtain ⟨hsum, hflags⟩ := hadd
  obtain ⟨ha0, ha1⟩ := ha
  obtain ⟨hv0, hv1⟩ := hv
  have hcin := Bool.toNat_le cin
  rw [daaFixesLow, hflags.half, ← Bool.decide_or, decide_eq_decide]
  omega

/-- The high digit is corrected exactly when the high digits, with what the low ones carry, add up to more than 9. -/
theorem AddResult.daaFixesHigh_eq (hadd : AddResult a v cin sum f) (ha : IsDecimal a) (hv : IsDecimal v) :
    daaFixesHigh sum f = decide (9 < a.toNat / 16 + v.toNat / 16 +
      if 9 < a.toNat % 16 + v.toNat % 16 + cin.toNat then 1 else 0) := by
  obtain ⟨hsum, hflags⟩ := hadd
  obtain ⟨ha0, ha1⟩ := ha
  obtain ⟨hv0, hv1⟩ := hv
  have hcin := Bool.toNat_le cin
  have hcarried (k : Nat) : (255 < k ∨ 0x99 < k % 256) ↔ 0x99 < k := by omega
  rw [daaFixesHigh, hflags.carry, hsum, ← Bool.decide_or, decide_eq_decide, hcarried]
  split <;> omega

/-- Each digit of the result is the sum of the digits, less 10 where it is corrected. -/
theorem DaaResult.decimal_sum {res f' : Byte} (hdaa : DaaResult sum f res f') (hadd : AddResult a v cin sum f)
    (ha : IsDecimal a) (hv : IsDecimal v) :
    IsDecimal res ∧ decimalValue a + decimalValue v + cin.toNat = 100 * (f'.getLsbD 0).toNat + decimalValue res := by
  have hlow := hadd.daaFixesLow_eq ha hv
  have hhigh := hadd.daaFixesHigh_eq ha hv
  obtain ⟨hsum, hflags⟩ := hadd
  obtain ⟨hres, hflags'⟩ := hdaa
  obtain ⟨ha0, ha1⟩ := ha
  obtain ⟨hv0, hv1⟩ := hv
  have hcin := Bool.toNat_le cin
  rw [hflags.subtract, if_neg Bool.false_ne_true, hsum, Nat.mod_add_mod, hlow, hhigh] at hres
  rw [hflags'.carry, hhigh]
  simp only [decide_eq_true_eq, Bool.toNat, Bool.cond_decide, IsDecimal, decimalValue] at hres hcin ⊢
  split_ifs at hres ⊢ <;> omega

end

/-- Settles O17: the sum that `ADC A,n` leaves is the one `DAA` adjusts. -/
theorem addThenDaaAddsDecimals : Obligations.AddThenDaaAddsDecimals := by
  intro s n ha0 ha1 hn0 hn1
  have hadd : AddResult s.a n (s.f.getLsbD 0) (s.aluFrom .adc (.imm n)).a (s.aluFrom .adc (.imm n)).f :=
    addResult_add8 _ _ _
  obtain ⟨⟨hones, htens⟩, hvalue⟩ := (daaResult_daa8 _ _).decimal_sum hadd ⟨ha0, ha1⟩ ⟨hn0, hn1⟩
  exact ⟨_, _, rfl, rfl, hones, htens, hvalue.trans (Nat.add_assoc _ _ _).symm⟩

end Sys2Proof.Machine
end

section
/-! PROOFS. `CPL`, `NEG`, `CCF` and `SCF` (44_general_cpu.md R261 to R264). -/

namespace Sys2Proof.Machine

open Sys2Proof

/-- A subtraction from 0 borrows unless the operand is 0, and overflows only for 0x80, which is its own negative. -/
theorem SubResult.flags_of_zero {v res f : Byte} (h : SubResult 0 v false res f) :
    f.getLsbD 0 = (v != 0) ∧ f.getLsbD 2 = (v == 0x80) := by
  obtain ⟨hres, hflags⟩ := h
  obtain rfl : res = 0 - v := by
    rw [Bool.toNat_false] at hres
    bv_omega
  rw [hflags.carry, hflags.overflow]
  clear hres hflags
  revert v
  decide

/-- Settles O18: the results are the register updates of the rules, the flags those packed or of the subtraction. -/
theorem complementNegateAndCarryInstructions : Obligations.ComplementNegateAndCarryInstructions := by
  refine ⟨?_, fun y => ?_, ?_, ?_⟩
  · exact .of_encode rfl rfl rfl rfl fun _ => ⟨_, rfl, rfl, BitVec.toNat_not, hasFlags_packFlags _ _ _ _ _ _ _ _⟩
  · exact .of_encode rfl rfl rfl
      (congrArg (fun b => [0xED, b]) (opByte_eq_fieldsByte rfl rfl rfl))
      fun s => ⟨_, rfl, rfl, subResult_sub8 0 s.a false, (subResult_sub8 0 s.a false).flags_of_zero⟩
  · exact .of_encode rfl rfl rfl rfl fun _ => ⟨_, rfl, rfl, hasFlags_packFlags _ _ _ _ _ _ _ _⟩
  · exact .of_encode rfl rfl rfl rfl fun _ => ⟨_, rfl, rfl, hasFlags_packFlags _ _ _ _ _ _ _ _⟩

end Sys2Proof.Machine
end

section
/-! PROOFS. `NOP`, `HALT`, `DI`, `EI`, `IM n` and every `NOP*` (44_general_cpu.md R265 to R272), and the step after
`EI` (R269, 10_state.md R39). -/

namespace Sys2Proof.Machine

open Sys2Proof

/-- The selector of `IM n` is the list of the rule (44_general_cpu.md R270). -/
theorem imOf_eq_getD (y : BitVec 3) :
    imOf y = [.im0, .im0, .im1, .im2, .im0, .im0, .im1, .im2].getD y.toNat .im0 := by
  revert y
  decide

/-- Settles O19: each meaning writes its bits or nothing; the bytes of `NOP*` are their fields side by side. -/
theorem controlInstructionsSetTheirBits : Obligations.ControlInstructionsSetTheirBits := by
  refine ⟨?_, ?_, ?_, ?_, fun y => ?_, fun yz => ?_, fun q => ?_, fun yz => ?_, fun y z => ?_, fun yz => ?_⟩
  · exact .of_encode rfl rfl rfl rfl fun _ => ⟨_, rfl, rfl⟩
  · exact .of_encode rfl rfl rfl rfl fun _ => ⟨_, rfl, rfl⟩
  · exact .of_encode rfl rfl rfl rfl fun _ => ⟨_, rfl, rfl⟩
  · exact .of_encode rfl rfl rfl rfl fun _ => ⟨_, rfl, rfl⟩
  · exact .of_encode rfl rfl rfl (congrArg (fun b => [0xED, b]) (opByte_eq_fieldsByte rfl rfl rfl))
      fun _ => ⟨_, rfl, by rw [imOf_eq_getD]⟩
  · exact .of_encode rfl rfl rfl (congrArg (fun b => [0xED, b]) (ofNat_eq_append 0b00#2 yz (Nat.zero_add _).symm))
      fun _ => ⟨_, rfl, rfl⟩
  · exact .of_encode rfl rfl rfl
      (congrArg (fun b => [0xED, b]) (opByte_eq_fieldsByte rfl (toNat_append_eq_add 0b11#2 q).symm rfl))
      fun _ => ⟨_, rfl, rfl⟩
  · exact .of_encode rfl rfl rfl (congrArg (fun b => [0xED, b]) (ofNat_eq_append 0b100#3 yz rfl)) fun _ => ⟨_, rfl, rfl⟩
  · exact .of_encode rfl rfl rfl
      (congrArg (fun b => [0xED, b]) (opByte_eq_fieldsByte rfl (toNat_append_eq_add 0b1#1 y).symm
        (toNat_append_eq_add 0b1#1 z).symm))
      fun _ => ⟨_, rfl, rfl⟩
  · exact .of_encode rfl rfl rfl (congrArg (fun b => [0xED, b]) (ofNat_eq_append 0b11#2 yz rfl)) fun _ => ⟨_, rfl, rfl⟩

/-! ### The step after `EI` -/

theorem State.sampleLines_halt (s : State) : s.sampleLines.halt = s.halt := by
  unfold State.sampleLines
  split <;> rfl

/-- Settles O48: the hold-off that `EI` sets keeps the boundary from accepting, whatever is pending, so the step is that
of the instruction read at `PC`. -/
theorem enableTakesEffectOneInstructionLate : Obligations.EnableTakesEffectOneInstructionLate := by
  intro s t hei hhalt hpfx
  obtain ⟨hiff, hinhibit⟩ : t.iff1 = true ∧ t.inhibit = true := by
    cases hei
    exact ⟨rfl, rfl⟩
  have hinhibit' : t.sampleLines.inhibit = true := (congrArg OuterPart.inhibit t.sampleLines_outer).trans hinhibit
  have hpfx' : t.sampleLines.pfx = none := (congrArg OuterPart.pfx t.sampleLines_outer).trans hpfx
  exact ⟨hiff, stepRunsTheDecodedInstruction t (.inl hinhibit') (t.sampleLines_halt.trans hhalt) hpfx'⟩

end Sys2Proof.Machine
end

section
/-! PROOFS. 16-bit arithmetic (45_alu16.md): what `add16`, `adc16` and `sbc16` compute is what the rules describe
(R280 to R282), and the instructions that write their result (R283 to R286) or step a pair (R287 to R290). -/

namespace Sys2Proof

theorem XPair.code_eq_toNat_fieldY (p : XPair) (q : BitVec 1) :
    2 * p.code + q.toNat = (fieldY p.field q).toNat := by
  revert q
  cases p <;> decide

end Sys2Proof

namespace Sys2Proof.Machine

open Sys2Proof

/-! ### `H` and `PV` of words -/

/-- `H` of a 16-bit subtraction: bit 12 of the operands and the result is what the low 12 bits borrow from it. -/
theorem getLsbD_twelve_xor_of_sub {a v res : Word} {cin : Bool}
    (h : (res.toNat + v.toNat + cin.toNat) % 65536 = a.toNat) :
    (a ^^^ v ^^^ res).getLsbD 12 = decide (a.toNat % 4096 < v.toNat % 4096 + cin.toNat) := by
  have hbit (x : Word) : x.getLsbD 12 = decide (x.toNat / 4096 % 2 = 1) := Nat.testBit_eq_decide_div_mod_eq
  have hcin := Bool.toNat_le cin
  rw [BitVec.getLsbD_xor, BitVec.getLsbD_xor, hbit, hbit, hbit, Bool.eq_iff_iff]
  simp only [Bool.coe_xor_iff, xor_iff_not_iff, decide_eq_true_eq]
  omega

/-- `H` of a 16-bit addition: the low 12 bits carry exactly when taking `v` away from the sum again borrows. -/
theorem getLsbD_twelve_xor_of_add {a v res : Word} {cin : Bool}
    (h : res.toNat = (a.toNat + v.toNat + cin.toNat) % 65536) :
    (a ^^^ v ^^^ res).getLsbD 12 = decide (4095 < a.toNat % 4096 + v.toNat % 4096 + cin.toNat) := by
  have hswap : a ^^^ v ^^^ res = res ^^^ v ^^^ a := by
    rw [BitVec.xor_comm (a ^^^ v), BitVec.xor_comm a v, BitVec.xor_assoc]
  have hcin := Bool.toNat_le cin
  rw [hswap, getLsbD_twelve_xor_of_sub h.symm, decide_eq_decide]
  omega

section
variable {w : Nat} (a v res : BitVec w) (k : Nat)

/-- `PV` of an addition at any width, `k` being the sign bit. -/
theorem getLsbD_overflow_add :
    ((a ^^^ res) &&& (v ^^^ res)).getLsbD k = (a.getLsbD k == v.getLsbD k && res.getLsbD k != a.getLsbD k) := by
  simp only [BitVec.getLsbD_and, BitVec.getLsbD_xor]
  cases a.getLsbD k <;> cases v.getLsbD k <;> cases res.getLsbD k <;> rfl

/-- `PV` of a subtraction at any width, `k` being the sign bit. -/
theorem getLsbD_overflow_sub :
    ((a ^^^ v) &&& (a ^^^ res)).getLsbD k = (a.getLsbD k != v.getLsbD k && res.getLsbD k != a.getLsbD k) := by
  simp only [BitVec.getLsbD_and, BitVec.getLsbD_xor]
  cases a.getLsbD k <;> cases v.getLsbD k <;> cases res.getLsbD k <;> rfl

end

/-! ### The three operations -/

section
variable (f : Byte) (a v : Word)

theorem toNat_add16 : (add16 f a v).1.toNat = (a.toNat + v.toNat) % 65536 := BitVec.toNat_ofNat _ _

theorem add16Result_add16 : Add16Result f a v (add16 f a v).1 (add16 f a v).2 := by
  have hhalf := getLsbD_twelve_xor_of_add (cin := false) (toNat_add16 f a v)
  rw [Bool.toNat_false, Nat.add_zero] at hhalf
  refine ⟨toNat_add16 f a v, ?_⟩
  rw [← hhalf]
  exact hasFlags_packFlags _ _ _ _ _ _ _ _

theorem toNat_adc16 : (adc16 f a v).1.toNat = (a.toNat + v.toNat + (f.getLsbD 0).toNat) % 65536 :=
  BitVec.toNat_ofNat _ _

theorem adc16Result_adc16 : Adc16Result a v (f.getLsbD 0) (adc16 f a v).1 (adc16 f a v).2 := by
  refine ⟨toNat_adc16 f a v, ?_⟩
  rw [← getLsbD_twelve_xor_of_add (toNat_adc16 f a v), ← getLsbD_overflow_add]
  exact hasFlags_packFlags _ _ _ _ _ _ _ _

theorem toNat_sbc16 : ((sbc16 f a v).1.toNat + v.toNat + (f.getLsbD 0).toNat) % 65536 = a.toNat := by
  have ha := a.isLt
  have hres : (sbc16 f a v).1.toNat = (((a.toNat : Int) - v.toNat - (f.getLsbD 0).toNat) % 65536).toNat :=
    BitVec.toNat_ofInt _
  omega

theorem sbc16Result_sbc16 : Sbc16Result a v (f.getLsbD 0) (sbc16 f a v).1 (sbc16 f a v).2 := by
  have hborrow : decide (a.toNat < v.toNat + (f.getLsbD 0).toNat) =
      decide ((a.toNat : Int) - v.toNat - (f.getLsbD 0).toNat < 0) := by
    rw [decide_eq_decide]
    omega
  refine ⟨toNat_sbc16 f a v, ?_⟩
  rw [← getLsbD_twelve_xor_of_sub (toNat_sbc16 f a v), ← getLsbD_overflow_sub, hborrow]
  exact hasFlags_packFlags _ _ _ _ _ _ _ _

end

/-! ### The instructions -/

/-- Settles O20: `arith16` writes the pair, the flags and `WZ`; the rest is `add16`, `adc16` and `sbc16`. -/
theorem wordAdditionsAndSubtractions : Obligations.WordAdditionsAndSubtractions := by
  refine ⟨fun ss => ?_, fun xy pp => ?_, fun ss => ?_, fun ss => ?_⟩
  · exact .of_encode rfl rfl rfl
      (congrArg (fun b => [b]) (opByte_eq_fieldsByte rfl (ss.code_eq_toNat_fieldY 1) rfl))
      fun _ => ⟨_, rfl, _, rfl, add16Result_add16 _ _ _⟩
  · exact .of_encode rfl rfl rfl
      (congrArg (fun b => [xy.prefixByte, b]) (opByte_eq_fieldsByte rfl (pp.code_eq_toNat_fieldY 1) rfl))
      fun _ => ⟨_, rfl, _, rfl, add16Result_add16 _ _ _⟩
  · exact .of_encode rfl rfl rfl
      (congrArg (fun b => [0xED, b]) (opByte_eq_fieldsByte rfl (ss.code_eq_toNat_fieldY 1) rfl))
      fun _ => ⟨_, rfl, _, rfl, adc16Result_adc16 _ _ _⟩
  · exact .of_encode rfl rfl rfl
      (congrArg (fun b => [0xED, b]) (opByte_eq_fieldsByte rfl (ss.code_eq_toNat_fieldY 0) rfl))
      fun _ => ⟨_, rfl, _, rfl, sbc16Result_sbc16 _ _ _⟩

/-- Settles O21: the meaning of each is the write of the pair behind its two internal cycles. -/
theorem wordIncrementsAndDecrements : Obligations.WordIncrementsAndDecrements := by
  refine ⟨fun ss => ?_, fun ss => ?_, fun xy => ?_, fun xy => ?_⟩
  · exact .of_encode rfl rfl rfl
      (congrArg (fun b => [b]) (opByte_eq_fieldsByte rfl (ss.code_eq_toNat_fieldY 0) rfl)) fun _ => ⟨_, rfl, rfl⟩
  · exact .of_encode rfl rfl rfl
      (congrArg (fun b => [b]) (opByte_eq_fieldsByte rfl (ss.code_eq_toNat_fieldY 1) rfl)) fun _ => ⟨_, rfl, rfl⟩
  · exact .of_encode rfl rfl rfl rfl fun _ => ⟨_, rfl, rfl⟩
  · exact .of_encode rfl rfl rfl rfl fun _ => ⟨_, rfl, rfl⟩

end Sys2Proof.Machine
end

section
/-! PROOFS. What the rotates and shifts compute (46_rotate_shift.md): the byte moved by one bit and the bit moved out
(R304 to R311), the nibbles moved (R316, R317), and their flag bytes. -/

namespace Sys2Proof.Machine

open Sys2Proof

/-! ### Bits -/

/-- The shift and the bit or-ed in are the rotated byte of the rule, whatever the byte and the carry. -/
theorem rot8_fst (op : RotOp) (v : Byte) (c : Bool) : (rot8 op v c).1 = rotated op v c := by
  revert v c
  cases op <;> decide

theorem rot8_snd (op : RotOp) (v : Byte) (c : Bool) : (rot8 op v c).2 = carriedOut op v := by cases op <;> rfl

theorem rot8_eq (op : RotOp) (v : Byte) (c : Bool) : rot8 op v c = (rotated op v c, carriedOut op v) :=
  Prod.ext (rot8_fst op v c) (rot8_snd op v c)

theorem rotFlags_rotFlags (op : RotOp) (v : Byte) (c : Bool) :
    RotFlags op v c (rotFlags (rotated op v c) (carriedOut op v)) := by
  simpa only [RotFlags, rotFlags, Bool.false_or, Bool.or_false] using
    (hasFlags_tableSZPXY (rotated op v c)).or (hasFlags_bitAt_zero (carriedOut op v))

/-! ### Nibbles -/

theorem and_F0_eq_append (v : Byte) : v &&& 0xF0 = v.extractLsb' 4 4 ++ 0#4 := by revert v; decide

theorem and_0F_eq_append (v : Byte) : v &&& 0x0F = 0#4 ++ v.extractLsb' 0 4 := by revert v; decide

theorem shiftLeft_four_eq_append (v : Byte) : v <<< 4 = v.extractLsb' 0 4 ++ 0#4 := by revert v; decide

theorem ushiftRight_four_eq_append (v : Byte) : v >>> 4 = 0#4 ++ v.extractLsb' 4 4 := by revert v; decide

/-- A high nibble alone or-ed with a low nibble alone. -/
theorem or_eq_append {u w : Byte} {x y : BitVec 4} (hu : u = x ++ 0#4) (hw : w = 0#4 ++ y) : u ||| w = x ++ y := by
  have hor : (x ++ 0#4) ||| (0#4 ++ y) = x ++ y := by rw [BitVec.or_append, BitVec.or_zero, BitVec.zero_or]
  exact (congrArg₂ (· ||| ·) hu hw).trans hor

theorem rld8_eq (a v : Byte) :
    rld8 a v = (a.extractLsb' 4 4 ++ v.extractLsb' 4 4, v.extractLsb' 0 4 ++ a.extractLsb' 0 4) :=
  Prod.ext (or_eq_append (and_F0_eq_append a) (ushiftRight_four_eq_append v))
    (or_eq_append (shiftLeft_four_eq_append v) (and_0F_eq_append a))

theorem rrd8_eq (a v : Byte) :
    rrd8 a v = (a.extractLsb' 4 4 ++ v.extractLsb' 0 4, a.extractLsb' 0 4 ++ v.extractLsb' 4 4) :=
  Prod.ext (or_eq_append (and_F0_eq_append a) (and_0F_eq_append v))
    (or_eq_append (shiftLeft_four_eq_append a) (ushiftRight_four_eq_append v))

theorem hasFlags_digitRotFlags (f a : Byte) :
    HasFlags (digitRotFlags f a) (a.getLsbD 7) (a == 0) (a.getLsbD 5) false (a.getLsbD 3) (hasEvenOnes a) false
      (f.getLsbD 0) := by
  simpa only [digitRotFlags, Bool.false_or, Bool.or_false] using (hasFlags_tableSZPXY a).or (hasFlags_and_one f)

end Sys2Proof.Machine
end

section
/-! PROOFS. The rotates and shifts (46_rotate_shift.md R300 to R317): of the accumulator, of a register, of a byte of
memory with and without the copy to a register, and of the nibbles of `A` and the byte at `HL`. -/

namespace Sys2Proof.Machine

open Sys2Proof

/-! ### The accumulator -/

theorem State.rotAcc_eq_rotated (s : State) (op : RotOp) : s.rotAcc op =
    { s with a := rotated op s.a (s.f.getLsbD 0),
             f := accRotFlags s.f (rotated op s.a (s.f.getLsbD 0)) (carriedOut op s.a) } := by
  rw [State.rotAcc_eq, flagC, rot8_eq]

theorem hasRule_rotAcc {op : RotOp} {byte : Byte} {i : Instr} (hw : i.wellFormed = true) (hb : i.isBarePrefix = false)
    (hf : i.fetches = (1, 0)) (he : encode i = [byte]) (hx : ∀ s, exec i s = .next (s.rotAcc op)) :
    HasRule i [byte] 1 0 (fun s t =>
      t = { s with a := rotated op s.a (s.f.getLsbD 0), f := t.f } ∧
      HasFlags t.f (s.f.getLsbD 7) (s.f.getLsbD 6) (t.a.getLsbD 5) false (t.a.getLsbD 3) (s.f.getLsbD 2) false
        (carriedOut op s.a)) := by
  refine .of_encode hw hb hf he fun s => ⟨_, hx s, ?_⟩
  rw [s.rotAcc_eq_rotated]
  exact ⟨rfl, hasFlags_packFlags _ _ _ _ _ _ _ _⟩

/-- Settles O22: each is `rotAcc` of its operation, whose flags are packed as the rule lists them. -/
theorem accumulatorRotatesKeepSignZeroParity : Obligations.AccumulatorRotatesKeepSignZeroParity := by
  intro op byte i hmem
  simp only [List.mem_cons, List.not_mem_nil, or_false, Prod.mk.injEq] at hmem
  obtain ⟨rfl, rfl, rfl⟩ | ⟨rfl, rfl, rfl⟩ | ⟨rfl, rfl, rfl⟩ | ⟨rfl, rfl, rfl⟩ := hmem <;>
    exact hasRule_rotAcc rfl rfl rfl rfl fun _ => rfl

/-! ### A register -/

theorem hasRule_rotRegForm {op : RotOp} {r : Reg8} {effect : State → State → Prop}
    (h : ∀ s, effect s (s.rotReg r op)) :
    HasRule (rotRegForm op r) [0xCB, fieldsByte 0b00 op.field r.field] 2 0 effect := by
  cases op <;>
    exact .of_encode rfl rfl rfl
      (congrArg (fun b => [0xCB, b]) (opByte_eq_fieldsByte rfl rfl r.code_eq_toNat_field)) fun s => ⟨_, rfl, h s⟩

theorem State.rotReg_eq_rotated (s : State) (r : Reg8) (op : RotOp) : s.rotReg r op =
    { s.setReg r (rotated op (s.getReg r) (s.f.getLsbD 0)) with
      f := rotFlags (rotated op (s.getReg r) (s.f.getLsbD 0)) (carriedOut op (s.getReg r)) } := by
  rw [State.rotReg, flagC, rot8_eq, State.setF]

/-! ### A byte of memory -/

theorem hasRule_rotHlForm {op : RotOp} {effect : State → State → Prop} (h : ∀ s, effect s (s.rotMem s.hl op)) :
    HasRule (rotHlForm op) [0xCB, fieldsByte 0b00 op.field 0b110] 2 0 effect := by
  cases op <;> exact .of_encode rfl rfl rfl rfl fun s => ⟨_, rfl, h s⟩

theorem hasRule_rotIdxForm {op : RotOp} {xy : Index} {d : Byte} {effect : State → State → Prop}
    (h : ∀ s, effect s ((s.useIndex xy d 2).rotMem (s.indexAddress xy d) op)) :
    HasRule (rotIdxForm op xy d) [xy.prefixByte, 0xCB, d, fieldsByte 0b00 op.field 0b110] 2 2 effect := by
  cases op <;> exact .of_encode rfl rfl rfl rfl fun s => ⟨_, rfl, h s⟩

theorem hasRule_rotCopyForm {op : RotOp} {xy : Index} {d : Byte} {r : Reg8} {effect : State → State → Prop}
    (h : ∀ s, effect s ((s.useIndex xy d 2).rotMemCopy (s.indexAddress xy d) op r)) :
    HasRule (rotCopyForm op xy d r) [xy.prefixByte, 0xCB, d, fieldsByte 0b00 op.field r.field] 2 2 effect := by
  cases op <;>
    exact .of_encode rfl rfl rfl
      (congrArg (fun b => [xy.prefixByte, 0xCB, d, b]) (opByte_eq_fieldsByte rfl rfl r.code_eq_toNat_field))
      fun s => ⟨_, rfl, h s⟩

/-- A read-modify-write behind `n` internal cycles. -/
theorem State.tick_modify_after (s : State) (n : Nat) (a : Word) (g : Byte → Byte) :
    s.After [.read a (s.memRead a).1, .write a (g (s.memRead a).1)] (n + 1) ((s.tick n).modify a g) :=
  (s.tick_after n).trans ((s.tick n).modify_after a g)

/-- A rotate of the byte at `a` is a read-modify-write, and then the flags of the byte read. -/
theorem State.rotMem_eq_rotated (s : State) (a : Word) (op : RotOp) : s.rotMem a op =
    { s.modify a (rotated op · (s.f.getLsbD 0)) with
      f := rotFlags (rotated op (s.memRead a).1 (s.f.getLsbD 0)) (carriedOut op (s.memRead a).1) } := by
  simp only [State.rotMem_eq, flagC, rot8_eq, State.memRead_fst]

/-- At an indexed address the internal cycles come first, and `WZ` holds the address. -/
theorem State.rotMem_useIndex (s : State) (xy : Index) (d : Byte) (k : Nat) (a : Word) (op : RotOp) :
    (s.useIndex xy d k).rotMem a op = ((s.tick k).rotMem a op).setWz (s.indexAddress xy d) := rfl

/-- The copy form: the byte written goes to the register as well. -/
theorem State.rotMemCopy_eq_rotated (s : State) (a : Word) (op : RotOp) (r : Reg8) : s.rotMemCopy a op r =
    { (s.modify a (rotated op · (s.f.getLsbD 0))).setReg r (rotated op (s.memRead a).1 (s.f.getLsbD 0)) with
      f := rotFlags (rotated op (s.memRead a).1 (s.f.getLsbD 0)) (carriedOut op (s.memRead a).1) } := by
  rw [State.rotMemCopy, State.rotMem_eq_rotated, rot8_fst]
  cases r <;> rfl

theorem State.rotMemCopy_useIndex (s : State) (xy : Index) (d : Byte) (k : Nat) (a : Word) (op : RotOp) (r : Reg8) :
    (s.useIndex xy d k).rotMemCopy a op r = ((s.tick k).rotMemCopy a op r).setWz (s.indexAddress xy d) := by
  rw [State.rotMemCopy, State.rotMem_useIndex, State.setReg_setWz]
  rfl

/-- Settles O23: a register update, or the read-modify-write of `rotMem`; the rest is `rot8`. -/
theorem everyRotateFormMovesOneBit : Obligations.EveryRotateFormMovesOneBit := by
  refine ⟨fun op r => hasRule_rotRegForm fun s => ?_, fun op => hasRule_rotHlForm fun s => ?_,
    fun op xy d => hasRule_rotIdxForm fun s => ?_, fun op xy d r => hasRule_rotCopyForm fun s => ?_⟩
  · rw [State.rotReg_eq_rotated]
    exact ⟨rfl, rotFlags_rotFlags _ _ _⟩
  · rw [State.rotMem_eq_rotated]
    exact ⟨_, _, s.modify_after s.hl _, rfl, rotFlags_rotFlags _ _ _⟩
  · rw [State.rotMem_useIndex, State.rotMem_eq_rotated]
    exact ⟨_, _, s.tick_modify_after 2 _ (rotated op · (s.f.getLsbD 0)), rfl, rotFlags_rotFlags _ _ _⟩
  · rw [State.rotMemCopy_useIndex, State.rotMemCopy_eq_rotated]
    exact ⟨_, _, s.tick_modify_after 2 _ (rotated op · (s.f.getLsbD 0)), rfl, rotFlags_rotFlags _ _ _⟩

/-! ### The nibbles of `A` and the byte at `HL` -/

/-- A digit rotate is a read, four internal cycles and a write, and then registers only (46_rotate_shift.md R316). -/
theorem State.digitRotate_after (s : State) {rot : Byte → Byte → Byte × Byte} {a' res : Byte}
    (hrot : rot s.a (s.memRead s.hl).1 = (a', res)) :
    ∃ u, s.After [.read s.hl (s.memRead s.hl).1, .write s.hl res] 4 u ∧
      s.digitRotate rot = { u with a := a', f := digitRotFlags s.f a', wz := s.hl + 1 } := by
  refine ⟨_, ((s.memRead_after s.hl).trans (State.tick_after _ 4)).trans (State.memWrite_after _ s.hl res), ?_⟩
  rw [State.digitRotate, hrot]
  rfl

/-- Settles O24: the read and the write of `digitRotate`; the nibbles are those of `rld8` and `rrd8`. -/
theorem digitRotatesMoveNibbles : Obligations.DigitRotatesMoveNibbles := by
  refine ⟨.of_encode rfl rfl rfl rfl fun s => ⟨_, rfl, ?_⟩, .of_encode rfl rfl rfl rfl fun s => ⟨_, rfl, ?_⟩⟩
  · obtain ⟨u, hu, ht⟩ := s.digitRotate_after (rld8_eq _ _)
    rw [ht]
    exact ⟨_, u, hu, rfl, hasFlags_digitRotFlags _ _⟩
  · obtain ⟨u, hu, ht⟩ := s.digitRotate_after (rrd8_eq _ _)
    rw [ht]
    exact ⟨_, u, hu, rfl, hasFlags_digitRotFlags _ _⟩

end Sys2Proof.Machine
end

section
/-! PROOFS. Bit test, set and reset (47_bit.md R330 to R339): a byte masked to one bit, and a byte with one bit written;
then the three operand forms of `BIT` and the four of `RES` and `SET`. -/

namespace Sys2Proof.Machine

open Sys2Proof

/-! ### One bit of a byte -/

theorem getLsbD_bitMask (b : BitVec 3) (k : Nat) : (bitMask b).getLsbD k = decide (b.toNat = k) := by
  have hb : b.toNat < 8 := b.isLt
  exact (BitVec.getLsbD_twoPow b.toNat k).trans (by simp [hb])

/-- A byte masked to bit `b` is that bit alone, or 0. -/
theorem and_bitMask (v : Byte) (b : BitVec 3) : v &&& bitMask b = if v.getLsbD b.toNat then bitMask b else 0 :=
  BitVec.and_twoPow v b.toNat

/-- Bit `b` alone has its sign, its zero and its parity (47_bit.md R330): an odd number of ones. -/
theorem bitMask_facts (b : BitVec 3) :
    (bitMask b).getLsbD 7 = decide (b = 7) ∧ (bitMask b == 0) = false ∧ hasEvenOnes (bitMask b) = false := by
  revert b; decide

theorem and_bitMask_facts (v : Byte) (b : BitVec 3) :
    (v &&& bitMask b).getLsbD 7 = (decide (b = 7) && v.getLsbD 7) ∧ (v &&& bitMask b == 0) = (!v.getLsbD b.toNat) ∧
      hasEvenOnes (v &&& bitMask b) = !v.getLsbD b.toNat := by
  obtain ⟨hs, hz, hp⟩ := bitMask_facts b
  refine ⟨by rw [BitVec.getLsbD_and, hs, Bool.and_comm], ?_⟩
  rw [and_bitMask]
  cases v.getLsbD b.toNat with
  | true => exact ⟨hz, hp⟩
  | false => exact ⟨rfl, (by decide : hasEvenOnes 0 = true)⟩

theorem bitTestFlags_bitTestFlags (f : Byte) (b : BitVec 3) (v xysrc : Byte) :
    BitTestFlags f b v xysrc (bitTestFlags f b v xysrc) := by
  obtain ⟨hsign, hzero, heven⟩ := and_bitMask_facts v b
  simpa only [BitTestFlags, bitTestFlags, Bool.false_or, Bool.or_false, hsign, hzero, heven] using
    ((hasFlags_and_one f).or (hasFlags_tableSZPH (v &&& bitMask b))).or (hasFlags_and_28 xysrc)

/-- `RES b` (`x` false) or `SET b` (`x` true) of a byte (47_bit.md R334). -/
def writeBit (x : Bool) (b : BitVec 3) (v : Byte) : Byte := if x then setBit b v else clearBit b v

theorem isWithBit_writeBit (x : Bool) (b : BitVec 3) (v : Byte) : IsWithBit b x v (writeBit x b v) := by
  intro k hk
  have hmask : (bitMask b).getLsbD k = decide (k = b.toNat) := by rw [getLsbD_bitMask, decide_eq_decide, eq_comm]
  cases x with
  | true =>
    show (v ||| bitMask b).getLsbD k = _
    rw [BitVec.getLsbD_or, hmask]
    split <;> simp [*]
  | false =>
    show (v &&& ~~~bitMask b).getLsbD k = _
    rw [BitVec.getLsbD_and, BitVec.getLsbD_not, hmask, decide_eq_true hk]
    split <;> simp [*]

/-! ### `BIT` -/

/-- A read, one internal cycle, and then the flags (47_bit.md R332, R333). -/
theorem State.memRead_tick_after (s : State) (n k : Nat) (a : Word) :
    s.After [.read a (s.memRead a).1] (n + k) (((s.tick n).memRead a).2.tick k) :=
  (s.tick_memRead_after n a).trans (State.tick_after _ k)

/-- Settles O25: the flags are those of the byte masked to one bit, behind no access or one read. -/
theorem bitTestsWriteOnlyFlags : Obligations.BitTestsWriteOnlyFlags := by
  refine ⟨fun b r => ?_, fun b => ?_, fun xy d b z => ?_⟩
  · exact .of_encode rfl rfl rfl
      (congrArg (fun op => [0xCB, op]) (opByte_eq_fieldsByte rfl rfl r.code_eq_toNat_field))
      fun _ => ⟨_, rfl, rfl, bitTestFlags_bitTestFlags _ _ _ _⟩
  · exact .of_encode rfl rfl rfl (congrArg (fun op => [0xCB, op]) (opByte_eq_fieldsByte rfl rfl rfl))
      fun s => ⟨_, rfl, _, _, s.memRead_tick_after 0 1 s.hl, rfl, bitTestFlags_bitTestFlags _ _ _ _⟩
  · exact .of_encode rfl rfl rfl
      (congrArg (fun op => [xy.prefixByte, 0xCB, d, op]) (opByte_eq_fieldsByte rfl rfl rfl))
      fun s => ⟨_, rfl, _, _, s.memRead_tick_after 2 1 _, rfl, bitTestFlags_bitTestFlags _ _ _ _⟩

/-! ### `RES` and `SET` -/

/-- The field `x` of the opcode byte (47_bit.md R334): 2 for `RES`, 3 for `SET`. -/
theorem hasRule_bitRegForm {x : Bool} {b : BitVec 3} {r : Reg8} {effect : State → State → Prop}
    (h : ∀ s, effect s (s.setReg r (writeBit x b (s.getReg r)))) :
    HasRule (bitRegForm x b r) [0xCB, fieldsByte (if x then 0b11 else 0b10) b r.field] 2 0 effect := by
  cases x <;>
    exact .of_encode rfl rfl rfl
      (congrArg (fun op => [0xCB, op]) (opByte_eq_fieldsByte rfl rfl r.code_eq_toNat_field)) fun s => ⟨_, rfl, h s⟩

theorem hasRule_bitHlForm {x : Bool} {b : BitVec 3} {effect : State → State → Prop}
    (h : ∀ s, effect s (s.modify s.hl (writeBit x b))) :
    HasRule (bitHlForm x b) [0xCB, fieldsByte (if x then 0b11 else 0b10) b 0b110] 2 0 effect := by
  cases x <;>
    exact .of_encode rfl rfl rfl
      (congrArg (fun op => [0xCB, op]) (opByte_eq_fieldsByte rfl rfl rfl)) fun s => ⟨_, rfl, h s⟩

theorem hasRule_bitIdxForm {x : Bool} {b : BitVec 3} {xy : Index} {d : Byte} {effect : State → State → Prop}
    (h : ∀ s, effect s ((s.useIndex xy d 2).modify (s.indexAddress xy d) (writeBit x b))) :
    HasRule (bitIdxForm x b xy d) [xy.prefixByte, 0xCB, d, fieldsByte (if x then 0b11 else 0b10) b 0b110] 2 2
      effect := by
  cases x <;>
    exact .of_encode rfl rfl rfl
      (congrArg (fun op => [xy.prefixByte, 0xCB, d, op]) (opByte_eq_fieldsByte rfl rfl rfl)) fun s => ⟨_, rfl, h s⟩

theorem hasRule_bitCopyForm {x : Bool} {b : BitVec 3} {xy : Index} {d : Byte} {r : Reg8}
    {effect : State → State → Prop}
    (h : ∀ s, effect s ((s.useIndex xy d 2).modifyCopy (s.indexAddress xy d) (writeBit x b) r)) :
    HasRule (bitCopyForm x b xy d r) [xy.prefixByte, 0xCB, d, fieldsByte (if x then 0b11 else 0b10) b r.field] 2 2
      effect := by
  cases x <;>
    exact .of_encode rfl rfl rfl
      (congrArg (fun op => [xy.prefixByte, 0xCB, d, op]) (opByte_eq_fieldsByte rfl rfl r.code_eq_toNat_field))
      fun s => ⟨_, rfl, h s⟩

/-- The copy form at an indexed address: the internal cycles come first, and `WZ` holds the address. -/
theorem State.modifyCopy_useIndex (s : State) (xy : Index) (d : Byte) (k : Nat) (a : Word) (g : Byte → Byte)
    (r : Reg8) :
    (s.useIndex xy d k).modifyCopy a g r =
      (((s.tick k).modify a g).setReg r (g (s.memRead a).1)).setWz (s.indexAddress xy d) :=
  ((s.tick k).modify a g).setReg_setWz (s.indexAddress xy d) r _

/-- Settles O26: a register update, or a read-modify-write; the byte is that of `writeBit`. -/
theorem setAndResetChangeOneBit : Obligations.SetAndResetChangeOneBit := by
  refine ⟨fun x b r => hasRule_bitRegForm fun s => ?_, fun x b => hasRule_bitHlForm fun s => ?_,
    fun x b xy d => hasRule_bitIdxForm fun s => ?_, fun x b xy d r => hasRule_bitCopyForm fun s => ?_⟩
  · exact ⟨_, rfl, isWithBit_writeBit _ _ _⟩
  · exact ⟨_, _, s.modify_after s.hl _, isWithBit_writeBit _ _ _⟩
  · exact ⟨_, _, _, s.tick_modify_after 2 _ (writeBit x b), rfl, isWithBit_writeBit _ _ _⟩
  · rw [State.modifyCopy_useIndex]
    exact ⟨_, _, _, s.tick_modify_after 2 _ (writeBit x b), rfl, isWithBit_writeBit _ _ _⟩

end Sys2Proof.Machine
end

section
/-! PROOFS. The jumps (48_jump_call.md R350 to R357). -/

namespace Sys2Proof

theorem Cond.code_eq_toNat_field (cc : Cond) : cc.code = cc.field.toNat := by cases cc <;> rfl

/-- `JR cc` has the conditions of the first half of the table, in the second half of the field `y` (48_jump_call.md
R354). -/
theorem Cond.code_add_four {cc : Cond} (h : cc.isShort = true) : 4 + cc.code = (cc.field + 4).toNat := by
  cases cc <;> first | rfl | cases h

end Sys2Proof

namespace Sys2Proof.Machine

open Sys2Proof

theorem condHolds_iff (cc : Cond) (f : Byte) : condHolds cc f = true ↔ condTrue cc f := by
  cases cc <;> simp [condHolds, condTrue, flagZ, flagC, flagPV, flagS]

/-- A conditional transfer does the one thing where its condition holds and the other where it does not. -/
theorem executes_conditional {i : Instr} {cc : Cond} {P Q : State → State → Prop} (taken notTaken : State → State)
    (hx : ∀ s, exec i s = .next (if condHolds cc s.f then taken s else notTaken s)) (ht : ∀ s, P s (taken s))
    (hn : ∀ s, Q s (notTaken s)) :
    Executes i fun s t => (condTrue cc s.f → P s t) ∧ (¬condTrue cc s.f → Q s t) := by
  refine fun s => ⟨_, hx s, fun h => ?_, fun h => ?_⟩ <;> rw [← condHolds_iff] at h
  · rw [if_pos h]
    exact ht s
  · rw [if_neg h]
    exact hn s

/-- `DJNZ` counts `B` down and jumps unless it is 0 then (48_jump_call.md R357). -/
theorem executes_djnzE (e : Byte) :
    Executes (.djnzE e) fun s t =>
      (s.b ≠ 1 → t = { s.later 6 with b := s.b - 1, pc := s.relative e, wz := s.relative e }) ∧
      (s.b = 1 → t = { s.later 1 with b := 0 }) := by
  refine fun s => ⟨_, rfl, fun h => ?_, fun h => ?_⟩
  · have hb : s.b - 1 ≠ 0 := fun h0 => h (sub_eq_zero.mp h0)
    exact if_pos (bne_iff_ne.mpr hb)
  · have hb : s.b - 1 = 0 := sub_eq_zero.mpr h
    have hstay : ¬(s.b - 1 != 0) = true := by rw [hb]; decide
    exact (if_neg hstay).trans (congrArg (fun b => ({ s.later 1 with b := b } : State)) hb)

/-- Settles O27: each jump writes `PC` and `WZ`, the conditional ones by the flag of their condition. -/
theorem jumpsGoToTheirTargets : Obligations.JumpsGoToTheirTargets := by
  refine ⟨fun nn => ?_, fun cc nn => ?_, fun e => ?_, fun cc e hcc => ?_, ?_, fun xy => ?_, fun e => ?_⟩
  · exact .of_encode rfl rfl rfl rfl fun _ => ⟨_, rfl, rfl⟩
  · exact .of_encode rfl rfl rfl
      (congrArg (fun op => [op, loByte nn, hiByte nn]) (opByte_eq_fieldsByte rfl cc.code_eq_toNat_field rfl))
      (executes_conditional (State.jumpTo · nn) (State.setWz · nn) (fun _ => rfl) (fun _ => rfl) fun _ => rfl)
  · exact .of_encode rfl rfl rfl rfl fun _ => ⟨_, rfl, rfl⟩
  · have hshort : cc.isShort = true := by
      simp only [List.mem_cons, List.not_mem_nil, or_false] at hcc
      rcases hcc with rfl | rfl | rfl | rfl <;> rfl
    exact .of_encode hshort rfl rfl
      (congrArg (fun op => [op, e]) (opByte_eq_fieldsByte rfl (Cond.code_add_four hshort) rfl))
      (executes_conditional (State.jumpRelative · e) id (fun _ => rfl) (fun _ => rfl) fun _ => rfl)
  · exact .of_encode rfl rfl rfl rfl fun _ => ⟨_, rfl, rfl⟩
  · exact .of_encode rfl rfl rfl rfl fun _ => ⟨_, rfl, rfl⟩
  · exact .of_encode rfl rfl rfl rfl (executes_djnzE e)

end Sys2Proof.Machine
end

section
/-! PROOFS. The calls and returns (48_jump_call.md R358 to R366): the push and the pop of 41_load16_stack.md with the
jump behind it. -/

namespace Sys2Proof.Machine

open Sys2Proof

/-- A call pushes `PC` behind `n` internal cycles, and goes to its target (48_jump_call.md R358; 60_exceptions.md R420,
R423). -/
theorem State.callTo_tick_after (s : State) (n : Nat) (target : Word) :
    ∃ u, s.After [.write (s.sp - 1) (hiByte s.pc), .write (s.sp - 2) (loByte s.pc)] n u ∧
      (s.tick n).callTo target = { u with sp := s.sp - 2, pc := target, wz := target } := by
  obtain ⟨u, hu, hpush⟩ := (s.tick n).push16_after s.pc
  refine ⟨u, ?_, congrArg (State.jumpTo · target) hpush⟩
  simpa using (s.tick_after n).trans hu

/-- A return pops the target of its jump, behind `n` internal cycles (48_jump_call.md R360, R361). -/
theorem State.popPc_tick_after (s : State) (n : Nat) :
    ∃ lo hi u, s.After [.read s.sp lo, .read (s.sp + 1) hi] n u ∧
      (s.tick n).popPc = { u with sp := s.sp + 2, pc := hi ++ lo, wz := hi ++ lo } := by
  obtain ⟨lo, hi, u, hu, hpop⟩ := (s.tick n).pop16_after
  refine ⟨lo, hi, u, ?_, congrArg (fun p : Word × State => p.2.jumpTo p.1) hpop⟩
  simpa using (s.tick_after n).trans hu

/-- Settles O28: each is a push or a pop and a jump, the conditional ones by the flag of their condition. -/
theorem callsAndReturnsUseTheStack : Obligations.CallsAndReturnsUseTheStack := by
  refine ⟨fun nn => ?_, fun cc nn => ?_, fun y => ?_, ?_, fun cc => ?_, ?_, fun y hy => ?_⟩
  · exact .of_encode rfl rfl rfl rfl fun s => ⟨_, rfl, s.callTo_tick_after 1 nn⟩
  · exact .of_encode rfl rfl rfl
      (congrArg (fun op => [op, loByte nn, hiByte nn]) (opByte_eq_fieldsByte rfl cc.code_eq_toNat_field rfl))
      (executes_conditional (fun s => (s.tick 1).callTo nn) (State.setWz · nn) (fun _ => rfl)
        (fun s => s.callTo_tick_after 1 nn) fun _ => rfl)
  · exact .of_encode rfl rfl rfl (congrArg (fun op => [op]) (opByte_eq_fieldsByte rfl rfl rfl))
      fun s => ⟨_, rfl, s.callTo_tick_after 1 _⟩
  · exact .of_encode rfl rfl rfl rfl fun s => ⟨_, rfl, s.popPc_tick_after 0⟩
  · exact .of_encode rfl rfl rfl
      (congrArg (fun op => [op]) (opByte_eq_fieldsByte rfl cc.code_eq_toNat_field rfl))
      (executes_conditional (fun s => (s.tick 1).popPc) (State.tick · 1) (fun _ => rfl)
        (fun s => s.popPc_tick_after 1) fun _ => rfl)
  · exact .of_encode rfl rfl rfl rfl fun s => ⟨_, rfl, State.popPc_tick_after _ 0⟩
  · exact .of_encode (bne_iff_ne.mpr hy) rfl rfl
      (congrArg (fun op => [0xED, op]) (opByte_eq_fieldsByte rfl rfl rfl))
      fun s => ⟨_, rfl, State.popPc_tick_after _ 0⟩

theorem State.pop16_jumpTo (s : State) (w : Word) : (s.jumpTo w).pop16 = (s.pop16.1, s.pop16.2.jumpTo w) := by
  simp only [State.pop16_eq, State.memRead16, State.memRead_eq, State.memValue, State.nextAnswer, State.jumpTo,
    State.setPc, State.setWz]

theorem State.jumpTo_jumpTo (s : State) (w w' : Word) : (s.jumpTo w).jumpTo w' = s.jumpTo w' := rfl

/-- A return right after a call pops behind its push; where the call went is forgotten. -/
theorem State.popPc_callTo (s : State) (target : Word) :
    (s.callTo target).popPc = (s.push16 s.pc).pop16.2.jumpTo (s.push16 s.pc).pop16.1 := by
  rw [State.popPc, State.callTo, State.pop16_jumpTo, State.jumpTo_jumpTo]

/-- Settles O29: the pop of the return answers the word that the call pushed. -/
theorem returnComesBackAfterTheCall : Obligations.ReturnComesBackAfterTheCall := by
  intro s nn hhi hlo
  obtain ⟨hword, hsp⟩ := State.pop16_push16 (s := s.tick 1) s.pc hhi hlo
  refine ⟨_, _, rfl, rfl, rfl, ?_⟩
  rw [State.popPc_callTo]
  exact ⟨hword, hsp⟩

end Sys2Proof.Machine
end

section
/-! PROOFS. Input and output (49_io.md R380 to R394): one port call and the register updates; the block instructions as one
iteration and then the repeat clause. -/

namespace Sys2Proof.Machine

open Sys2Proof

/-! ### Single inputs and outputs -/

/-- The flags of `IN r,(C)` are those of the table, with `C` kept (49_io.md R381). -/
theorem hasFlags_inFlags (f v : Byte) :
    HasFlags (inFlags f v) (v.getLsbD 7) (v == 0) (v.getLsbD 5) false (v.getLsbD 3) (hasEvenOnes v) false
      (f.getLsbD 0) := by
  simpa only [inFlags, Bool.false_or, Bool.or_false] using (hasFlags_and_one f).or (hasFlags_tableSZPXY v)

/-- Settles O30: each is its one call and then registers only. -/
theorem portInstructionsMakeOnePortCall : Obligations.PortInstructionsMakeOnePortCall := by
  refine ⟨fun n => ?_, fun r => ?_, ?_, fun n => ?_, fun r => ?_, ?_⟩
  · exact .of_encode rfl rfl rfl rfl fun s => ⟨_, rfl, _, _, s.ioRead_after (joinBytes s.a n), rfl⟩
  · exact .of_encode rfl rfl rfl
      (congrArg (fun op => [0xED, op]) (opByte_eq_fieldsByte rfl r.code_eq_toNat_field rfl))
      fun s => ⟨_, rfl, _, _, s.ioRead_after s.bc, rfl, hasFlags_inFlags _ _⟩
  · exact .of_encode rfl rfl rfl rfl fun s => ⟨_, rfl, _, _, s.ioRead_after s.bc, rfl, hasFlags_inFlags _ _⟩
  · exact .of_encode rfl rfl rfl rfl fun s => ⟨_, rfl, _, s.ioWrite_after (joinBytes s.a n) s.a, rfl⟩
  · exact .of_encode rfl rfl rfl
      (congrArg (fun op => [0xED, op]) (opByte_eq_fieldsByte rfl r.code_eq_toNat_field rfl))
      fun s => ⟨_, rfl, _, s.ioWrite_after s.bc (s.getReg r), rfl⟩
  · exact .of_encode rfl rfl rfl rfl fun s => ⟨_, rfl, _, s.ioWrite_after s.bc 0, rfl⟩

/-! ### The block instructions -/

/-- `bioflags` (49_io.md R383): the table of the count, and `N`, `H` with `C`, and `PV` put in. -/
theorem blockIoFlags_blockIoFlags (b v : Byte) (k : Nat) : BlockIoFlags b v k (blockIoFlags b v k) := by
  have hn : HasFlags (if v.getLsbD 7 then 0x02 else 0 : Byte) false false false false false false (v.getLsbD 7)
      false := by
    cases v.getLsbD 7 <;> (unfold HasFlags; decide)
  have hc : HasFlags (if 255 < k then 0x11 else 0 : Byte) false false false (decide (255 < k)) false false false
      (decide (255 < k)) := by
    by_cases h : 255 < k <;> simp only [h, if_true, if_false] <;> (unfold HasFlags; decide)
  have hp (p : Bool) : HasFlags (if p then 0x04 else 0 : Byte) false false false false false p false false := by
    revert p; unfold HasFlags; decide
  simpa only [BlockIoFlags, blockIoFlags, evenParity_eq_hasEvenOnes, Bool.false_or, Bool.or_false] using
    (((hasFlags_tableSZXY b).or hn).or hc).or (hp (evenParity (BitVec.ofNat 8 (k % 8) ^^^ b)))

theorem add_loByte_blockStep (x : Byte) (up : Bool) : x + loByte (blockStep up) = if up then x + 1 else x - 1 := by
  cases up with
  | false => exact (BitVec.sub_eq_add_neg x 1).symm
  | true => rfl

theorem State.blockIn_b (s : State) (up : Bool) : (s.blockIn up).b = s.b - 1 := by
  rw [State.blockIn_eq]

theorem State.blockOut_b (s : State) (up : Bool) : (s.blockOut up).b = s.b - 1 := by
  rw [State.blockOut_eq]

/-- Each form is one iteration, and the repeating ones go back while `B` is not 0. -/
theorem exec_blockInForm (up rep : Bool) (s : State) : exec (blockInForm up rep) s =
    .next (if rep && s.b - 1 != 0 then (s.blockIn up).repeatIo else s.blockIn up) := by
  rw [← s.blockIn_b up]
  cases up <;> cases rep <;> rfl

theorem exec_blockOutForm (up rep : Bool) (s : State) : exec (blockOutForm up rep) s =
    .next (if rep && s.b - 1 != 0 then (s.blockOut up).repeatIo else s.blockOut up) := by
  rw [← s.blockOut_b up]
  cases up <;> cases rep <;> rfl

theorem hasRule_blockInForm {up rep : Bool} {effect : State → State → Prop}
    (h : Executes (blockInForm up rep) effect) :
    HasRule (blockInForm up rep) [0xED, blockByte up rep 2] 2 0 effect := by
  cases up <;> cases rep <;> exact .of_encode rfl rfl rfl rfl h

theorem hasRule_blockOutForm {up rep : Bool} {effect : State → State → Prop}
    (h : Executes (blockOutForm up rep) effect) :
    HasRule (blockOutForm up rep) [0xED, blockByte up rep 3] 2 0 effect := by
  cases up <;> cases rep <;> exact .of_encode rfl rfl rfl rfl h

@[simp] theorem State.ioRead_pc (s : State) (port : Word) : (s.ioRead port).2.pc = s.pc := rfl

/-- One iteration, gone back from or not: the port is read before `B` is counted, and the byte written to memory. -/
theorem State.blockIn_after (s : State) (up again : Bool) :
    ∃ v u, s.After [.ioRead s.bc v, .write s.hl v] (if again then 6 else 1) u ∧
      (if again then (s.blockIn up).repeatIo else s.blockIn up) = { u with
        h := hiByte (if up then s.hl + 1 else s.hl - 1), l := loByte (if up then s.hl + 1 else s.hl - 1),
        b := s.b - 1, f := blockIoFlags (s.b - 1) v (v.toNat + (if up then s.c + 1 else s.c - 1).toNat),
        wz := if up then s.bc + 1 else s.bc - 1, pc := if again then s.pc - 2 else s.pc } := by
  have hcalls := ((s.tick_after 1).trans ((s.tick 1).ioRead_after s.bc)).trans
    (State.memWrite_after _ s.hl ((s.tick 1).ioRead s.bc).1)
  simp only [← add_blockStep, ← add_loByte_blockStep, State.blockIn, State.setHl, State.setReg, State.setF,
    State.setWz]
  cases again with
  | false => exact ⟨_, _, hcalls, by simp⟩
  | true => exact ⟨_, _, hcalls.trans (State.tick_after _ 5), by simp [State.repeatIo_eq, State.tick]⟩

/-- One iteration, gone back from or not: the byte is read from memory, and the port has the new `B`. -/
theorem State.blockOut_after (s : State) (up again : Bool) :
    ∃ v u, s.After [.read s.hl v, .ioWrite (joinBytes (s.b - 1) s.c) v] (if again then 6 else 1) u ∧
      (if again then (s.blockOut up).repeatIo else s.blockOut up) = { u with
        h := hiByte (if up then s.hl + 1 else s.hl - 1), l := loByte (if up then s.hl + 1 else s.hl - 1),
        b := s.b - 1,
        f := blockIoFlags (s.b - 1) v (v.toNat + (loByte (if up then s.hl + 1 else s.hl - 1)).toNat),
        wz := if up then joinBytes (s.b - 1) s.c + 1 else joinBytes (s.b - 1) s.c - 1,
        pc := if again then s.pc - 2 else s.pc } := by
  have hcalls := (s.tick_memRead_after 1 s.hl).trans
    (State.ioWrite_after _ (joinBytes (s.b - 1) s.c) ((s.tick 1).memRead s.hl).1)
  simp only [← add_blockStep, State.blockOut, State.setHl, State.setReg, State.setF, State.setWz]
  cases again with
  | false => exact ⟨_, _, hcalls, by simp⟩
  | true => exact ⟨_, _, hcalls.trans (State.tick_after _ 5), by simp [State.repeatIo_eq, State.tick]⟩

/-- Settles O31: one iteration with the clause for going back, and the flags of the byte read. -/
theorem blockInputReadsOnePort : Obligations.BlockInputReadsOnePort := by
  refine fun up rep => hasRule_blockInForm fun s => ?_
  obtain ⟨v, u, hu, ht⟩ := s.blockIn_after up (rep && s.b - 1 != 0)
  exact ⟨_, (exec_blockInForm up rep s).trans (congrArg _ ht), v, u, hu, rfl, blockIoFlags_blockIoFlags _ _ _⟩

/-- Settles O32: one iteration with the clause for going back, and the flags of the byte written. -/
theorem blockOutputWritesOnePort : Obligations.BlockOutputWritesOnePort := by
  refine fun up rep => hasRule_blockOutForm fun s => ?_
  obtain ⟨v, u, hu, ht⟩ := s.blockOut_after up (rep && s.b - 1 != 0)
  exact ⟨_, (exec_blockOutForm up rep s).trans (congrArg _ ht), v, u, hu, rfl, blockIoFlags_blockIoFlags _ _ _⟩

end Sys2Proof.Machine
end

section
/-! PROOFS. The boundary check and what it accepts (60_exceptions.md R416, R419 to R425). An acceptance is a push behind
its internal cycles, in mode 2 the read of the table behind that, and register updates; in mode 0 it is the time it takes,
and then the supplied byte is the first one of an instruction. -/

namespace Sys2Proof.Machine

open Sys2Proof

/-! ### The boundary check -/

/-- Settles O44: the checks of `plan` in their order. -/
theorem boundaryCheckFollowsItsPriority : Obligations.BoundaryCheckFollowsItsPriority := by
  intro s target u
  refine ⟨fun hi => if_pos hi, fun hi hn => ?_, fun hi hn hl he => ?_, fun hi hn hoff => ?_⟩ <;>
    refine (if_neg (ne_true_of_eq_false hi)).trans ?_
  · exact if_pos hn
  · exact (if_neg (ne_true_of_eq_false hn)).trans (if_pos (Bool.and_eq_true_iff.mpr ⟨hl, he⟩))
  · exact (if_neg (ne_true_of_eq_false hn)).trans
      (if_neg (ne_true_of_eq_false (Bool.and_eq_false_iff.mpr hoff)))

/-! ### The non-maskable interrupt and the modes 1 and 2 -/

/-- `s` behind `n` internal cycles and the two writes of a push of `PC`, `SP` not yet moved. -/
def State.withPcPushed (s : State) (n : Nat) : State :=
  ((s.tick n).memWrite (s.sp - 1) (hiByte s.pc)).memWrite (s.sp - 2) (loByte s.pc)

theorem State.withPcPushed_after (s : State) (n : Nat) :
    s.After [.write (s.sp - 1) (hiByte s.pc), .write (s.sp - 2) (loByte s.pc)] n (s.withPcPushed n) :=
  ((s.tick_after n).trans (State.memWrite_after _ _ _)).trans (State.memWrite_after _ _ _)

theorem State.accept_nmi_pushes (s : State) : s.accept .nmi = { s.withPcPushed 5 with
    nmiPending := false, halt := false, iff1 := false, sp := s.sp - 2, pc := 0x0066, wz := 0x0066,
    r := counted s.r 1 } := by
  simp only [State.accept_nmi_eq, State.withPcPushed, State.memWrite_eq, State.tick, sub_one_sub_one, counted_one]

theorem State.accept_int_mode1_pushes {s : State} (h : s.im = .im1) : s.accept .int = { s.withPcPushed 7 with
    halt := false, iff1 := false, iff2 := false, sp := s.sp - 2, pc := 0x0038, wz := 0x0038,
    r := counted s.r 1 } := by
  simp only [State.accept_int_mode1 s h, State.withPcPushed, State.memWrite_eq, State.tick, sub_one_sub_one,
    counted_one]

/-- In mode 2 the table is read after the push (60_exceptions.md R424). -/
theorem State.accept_int_mode2_reads {s : State} (h : s.im = .im2) :
    let v := (s.withPcPushed 7).memRead16 (joinBytes s.i s.cfg.intData)
    s.accept .int = { v.2 with
      halt := false, iff1 := false, iff2 := false, sp := s.sp - 2, pc := v.1, wz := v.1, r := counted s.r 1 } := by
  simp only [State.accept_int_mode2 s h, State.withPcPushed, State.memRead16, State.memRead_eq, State.memValue,
    State.nextAnswer, State.push16_eq, State.memWrite_eq, State.tick, State.acknowledge, State.bumpR, State.jumpTo,
    State.setPc, State.setWz, sub_one_sub_one, counted_one]

/-- Settles O45: the boundary check finds the request, and the acceptance is its push and register updates. -/
theorem nonMaskableInterruptIsAccepted : Obligations.NonMaskableInterruptIsAccepted := by
  intro s u hi hn
  obtain ⟨-, hplan, -⟩ := boundaryCheckFollowsItsPriority s (s.cycles + 1)
  refine ⟨u.accept .nmi, _, ?_, u.withPcPushed_after 5, u.accept_nmi_pushes⟩
  rw [step, hplan hi hn]

/-- A maskable acceptance in a mode other than 0 is the whole of the step. -/
theorem State.acceptInt_of_mode_ne_zero {s : State} (h : s.im ≠ .im0) : s.acceptInt = .accepted (s.accept .int) := by
  unfold State.acceptInt
  cases him : s.im with
  | im0 => exact absurd him h
  | im1 | im2 => rfl

/-- Settles O46: the acceptance is its push, in mode 2 the read of the table behind it, and register updates. -/
theorem maskableInterruptIsAccepted : Obligations.MaskableInterruptIsAccepted := by
  intro s u r' pushed hi hn hl he
  obtain ⟨-, -, hplan, -⟩ := boundaryCheckFollowsItsPriority s (s.cycles + 1)
  have hstep (h : u.im ≠ .im0) : step s = .next (u.accept .int) := by
    rw [step, hplan hi hn hl he, State.acceptInt_of_mode_ne_zero h]
  refine ⟨fun him => ?_, fun him => ?_⟩
  · exact ⟨_, _, hstep (by rw [him]; decide), u.withPcPushed_after 7, State.accept_int_mode1_pushes him⟩
  · exact ⟨_, _, _, _, hstep (by rw [him]; decide),
      (u.withPcPushed_after 7).trans (State.memRead16_after _ (joinBytes u.i u.cfg.intData)),
      State.accept_int_mode2_reads him⟩

/-! ### Mode 0 -/

/-- A mode 0 acceptance goes on to read an instruction that begins with the supplied byte (60_exceptions.md R422). -/
theorem State.acceptInt_of_mode_zero {s : State} (h : s.im = .im0) : s.acceptInt =
    .injected ((s.accept .int).fetchInstr [(s.accept .int).cfg.intData]).1
      ((s.accept .int).fetchInstr [(s.accept .int).cfg.intData]).2 := by
  unfold State.acceptInt
  rw [h]

/-- Settles O47: the injected instruction is read from the state the acceptance leaves, its first byte supplied. -/
theorem modeZeroExecutesTheSuppliedByte : Obligations.ModeZeroExecutesTheSuppliedByte := by
  intro s u v hi hn hl he him
  have hp := supplied_one u.cfg.intData
  have hv : u.accept .int = v := by
    rw [State.accept_int_mode0 u him, counted_one, Nat.add_assoc]
    rfl
  obtain ⟨-, -, hplan, -⟩ := boundaryCheckFollowsItsPriority s (s.cycles + 1)
  have hstep : step s = exec (v.fetchInstr [u.cfg.intData]).1 (v.fetchInstr [u.cfg.intData]).2 := by
    rw [step_eq_outcome, hplan hi hn hl he, State.acceptInt_of_mode_zero him, hv]
    rfl
  refine ⟨v.exists_hasRead hp, fun i w h => ?_⟩
  obtain ⟨t, ht⟩ := v.exec_fetchInstr_answers hp
  rw [← hstep] at ht
  rw [h.fetchInstr_eq hp] at hstep
  exact ⟨t, ht, hstep.symm.trans ht⟩

end Sys2Proof.Machine
end

section
/-! PROOFS. The scheduler (60_exceptions.md R440 to R445, R453): every pass takes time, so that `runUntil` is its loop,
one pass and on; a step is the shortest run, and a halted machine only lets the time pass. -/

namespace Sys2Proof.Machine

open Sys2Proof

/-! ### Every pass takes time -/

/-- A conversation does not turn the clock back. -/
theorem OuterPart.Leads.cycles_le {x y : OuterPart} (h : x.Leads y) : x.cycles ≤ y.cycles := by
  obtain ⟨calls, ticks, h⟩ := h
  rw [h.cycles]
  exact Nat.le_add_right _ _

/-- Executing an instruction changes no cost and does not turn the clock back. -/
theorem exec_cfg_cycles {i : Instr} {s t : State} (hb : i.isBarePrefix = false) (h : exec i s = .next t) :
    t.cfg = s.cfg ∧ s.cycles ≤ t.cycles := by
  have hleads := exec_leads hb h
  rw [State.heldOff_outer] at hleads
  obtain ⟨hcfg, -⟩ := hleads.keeps
  exact ⟨hcfg, hleads.cycles_le⟩

theorem CoreConfig.tFetch_pos {cfg : CoreConfig} (h : cfg.valid = true) : 0 < cfg.tFetch := by
  simp only [CoreConfig.valid, Bool.and_eq_true, decide_eq_true_eq] at h
  obtain ⟨⟨hfetch, -⟩, -⟩ := h
  exact hfetch

/-- Reading an instruction and executing it takes time, if a byte of it is fetched. -/
theorem State.read_exec_takes_time {s t : State} {supplied : List Byte} (hp : Supplied supplied)
    (hs : s.cfg.valid = true) (h : exec (s.fetchInstr supplied).1 (s.fetchInstr supplied).2 = .next t) :
    t.cfg = s.cfg ∧ s.cycles ≤ t.cycles ∧ (moreOpcode supplied = true → s.cycles < t.cycles) := by
  obtain ⟨hread, hcfg, -, hmore, hcycles⟩ := (s.fetchInstr_hasRead hp).cost hp
  obtain ⟨hcfg', hle⟩ := exec_cfg_cycles (Instr.isWhole.not_bare hread.1) h
  refine ⟨hcfg'.trans hcfg, by omega, fun hm => ?_⟩
  have hfetched : 0 < ((s.fetchInstr supplied).1.fetches.1 - supplied.length) * s.cfg.tFetch :=
    Nat.mul_pos (Nat.sub_pos_of_lt (hmore hm)) (CoreConfig.tFetch_pos hs)
  omega

theorem State.proceed_takes_time {s t : State} {target : Nat} (hs : s.cfg.valid = true) (hc : s.cycles < target)
    (h : (s.proceed target).outcome = .next t) : t.cfg = s.cfg ∧ s.cycles < t.cycles := by
  unfold State.proceed at h
  split at h
  · obtain rfl := Host.Outcome.next.inj h
    exact ⟨rfl, hc⟩
  · split at h
    · obtain ⟨hcfg, -, hlt⟩ := State.read_exec_takes_time supplied_nil hs h
      exact ⟨hcfg, hlt rfl⟩
    · rename_i xy _
      have hm : moreOpcode [xy.prefixByte] = true := by cases xy <;> rfl
      obtain ⟨hcfg, -, hlt⟩ := State.read_exec_takes_time (s := { s with pfx := none }) (supplied_one _) hs h
      exact ⟨hcfg, hlt hm⟩

theorem State.accept_takes_time (s : State) (k : Interrupt) :
    (s.accept k).cfg = s.cfg ∧ s.cycles < (s.accept k).cycles := by
  obtain ⟨hcfg, -⟩ := (s.accept_leads k).keeps
  refine ⟨hcfg, ?_⟩
  cases k with
  | nmi =>
    rw [State.accept_nmi_eq]
    dsimp only
    omega
  | int =>
    cases him : s.im with
    | im0 =>
      rw [State.accept_int_mode0 s him]
      dsimp only
      omega
    | im1 =>
      rw [State.accept_int_mode1 s him]
      dsimp only
      omega
    | im2 =>
      simp only [State.accept_int_mode2_reads him, State.withPcPushed, State.memRead16_eq, State.memRead_eq,
        State.memWrite_eq, State.tick]
      omega

theorem State.acceptInt_takes_time {s t : State} (hs : s.cfg.valid = true) (h : s.acceptInt.outcome = .next t) :
    t.cfg = s.cfg ∧ s.cycles < t.cycles := by
  obtain ⟨hcfg, hlt⟩ := s.accept_takes_time .int
  unfold State.acceptInt at h
  split at h
  · obtain ⟨hcfg', hle, -⟩ := State.read_exec_takes_time (supplied_one _) (hcfg ▸ hs) h
    exact ⟨hcfg'.trans hcfg, hlt.trans_le hle⟩
  · obtain rfl := Host.Outcome.next.inj h
    exact ⟨hcfg, hlt⟩

/-- A pass with time to go changes no cost and takes time (60_exceptions.md R442). -/
theorem State.plan_takes_time {s t : State} {target : Nat} (hs : s.cfg.valid = true) (hc : s.cycles < target)
    (h : (s.plan target).outcome = .next t) : t.cfg = s.cfg ∧ s.cycles < t.cycles := by
  obtain ⟨hcfg, hcycles⟩ := s.sampleLines_same
  rw [← hcfg, ← hcycles]
  rw [← hcfg] at hs
  rw [← hcycles] at hc
  rcases s.plan_cases target with ⟨-, e⟩ | ⟨-, -, e⟩ | ⟨-, -, -, e⟩ | ⟨-, -, -, e⟩ <;> rw [e] at h
  · exact State.proceed_takes_time (s := { s.sampleLines with inhibit := false }) hs hc h
  · obtain rfl := Host.Outcome.next.inj h
    exact s.sampleLines.accept_takes_time .nmi
  · exact State.acceptInt_takes_time hs h
  · exact State.proceed_takes_time hs hc h

/-- Settles O55: a step is a pass with one cycle to go. -/
theorem everyStepTakesTime : Obligations.EveryStepTakesTime := by
  intro s t hs h
  rw [step_eq_outcome] at h
  obtain ⟨-, hlt⟩ := State.plan_takes_time hs (Nat.lt_succ_self _) h
  exact hlt

/-! ### `runUntil` -/

theorem State.runLoop_of_le {s : State} {target : Nat} (hc : target ≤ s.cycles) (passes : Nat) :
    s.runLoop passes target = .next s := by
  cases passes with
  | zero => rfl
  | succ k => exact if_neg hc.not_gt

/-- A pass that is no step of the dispatcher ends the call (60_exceptions.md R440). -/
theorem State.runLoop_of_ending {s : State} {target : Nat} {e : Event} (hc : s.cycles < target)
    (hplan : s.plan target = e) (he : ∀ i t, e ≠ .instr i t) (k : Nat) :
    s.runLoop (k + 1) target = e.outcome := by
  rw [State.runLoop, if_pos hc, hplan]
  cases e with
  | instr i t => exact absurd rfl (he i t)
  | accepted | injected | idle => rfl

/-- A step of the dispatcher ends it if it halts. -/
theorem State.runLoop_of_instr {s t u : State} {target : Nat} {i : Instr} (hc : s.cycles < target)
    (hplan : s.plan target = .instr i t) (hx : exec i t = .next u) (k : Nat) :
    s.runLoop (k + 1) target = if u.halt then .next u else u.runLoop k target := by
  simp only [State.runLoop, if_pos hc, hplan, hx]

/-- What a pass with time to go is: one that ends the call, or an instruction that answers. -/
theorem State.plan_ends_or_instr (s : State) (target : Nat) :
    (∀ i t, s.plan target ≠ .instr i t) ∨ ∃ i t u, s.plan target = .instr i t ∧ exec i t = .next u := by
  obtain ⟨u, hu⟩ := s.plan_answers target
  cases hplan : s.plan target with
  | instr i t => exact .inr ⟨i, t, u, rfl, by rwa [hplan] at hu⟩
  | accepted | injected | idle => exact .inl fun _ _ => nofun

/-- Passes enough for the cycles to go are as good as any more, as every pass takes time (60_exceptions.md R442). -/
theorem State.runLoop_congr {s : State} {p q target : Nat} (hs : s.cfg.valid = true) (hp : target ≤ s.cycles + p)
    (hq : target ≤ s.cycles + q) : s.runLoop p target = s.runLoop q target := by
  induction p generalizing s q with
  | zero => rw [State.runLoop_of_le hp, State.runLoop_of_le hp]
  | succ p ih =>
    by_cases hc : s.cycles < target
    · obtain ⟨q, rfl⟩ : ∃ k, q = k + 1 := ⟨q - 1, by omega⟩
      rcases s.plan_ends_or_instr target with hends | ⟨i, t, u, hplan, hx⟩
      · rw [State.runLoop_of_ending hc rfl hends, State.runLoop_of_ending hc rfl hends]
      · obtain ⟨hcfg, hlt⟩ := State.plan_takes_time hs hc (t := u) (by rw [hplan]; exact hx)
        rw [State.runLoop_of_instr hc hplan hx, State.runLoop_of_instr hc hplan hx,
          ih (hcfg ▸ hs) (by omega) (by omega : target ≤ u.cycles + q)]
    · rw [State.runLoop_of_le (Nat.not_lt.mp hc), State.runLoop_of_le (Nat.not_lt.mp hc)]

/-- With time to go, `runUntil` makes a first pass. -/
theorem State.runUntil_eq_runLoop_succ {s : State} {target : Nat} (hc : s.cycles < target) :
    ∃ k, target = s.cycles + (k + 1) ∧ s.runUntil target = s.runLoop (k + 1) target := by
  obtain ⟨k, rfl⟩ := Nat.exists_eq_add_of_lt hc
  refine ⟨k, rfl, ?_⟩
  rw [State.runUntil, Nat.add_assoc, Nat.add_sub_cancel_left]

theorem State.runUntil_of_ending {s : State} {target : Nat} {e : Event} (hc : s.cycles < target)
    (hplan : s.plan target = e) (he : ∀ i t, e ≠ .instr i t) : s.runUntil target = e.outcome := by
  obtain ⟨k, -, hrun⟩ := State.runUntil_eq_runLoop_succ hc
  rw [hrun, State.runLoop_of_ending hc hplan he]

/-- Settles O50: one pass, and the passes after it are those of a call from the state it ends in. -/
theorem runUntilIsTheSchedulersLoop : Obligations.RunUntilIsTheSchedulersLoop := by
  refine fun s target hs => ⟨fun hc => State.runLoop_of_le hc _, fun hc => ⟨fun t hplan => ?_, fun i t hplan => ?_,
    fun t hplan => ?_, fun i t u hplan hx => ?_⟩⟩
  · exact State.runUntil_of_ending hc hplan fun _ _ => nofun
  · exact State.runUntil_of_ending hc hplan fun _ _ => nofun
  · exact State.runUntil_of_ending hc hplan fun _ _ => nofun
  · obtain ⟨k, hk, hrun⟩ := State.runUntil_eq_runLoop_succ hc
    obtain ⟨hcfg, hlt⟩ := State.plan_takes_time hs hc (t := u) (by rw [hplan]; exact hx)
    have hrest : u.runLoop k target = u.runUntil target :=
      State.runLoop_congr (hcfg ▸ hs) (by omega) (by omega)
    rw [hrun, State.runLoop_of_instr hc hplan hx, hrest]

/-- Settles O51: with one cycle to go there is one pass. -/
theorem stepIsRunUntilOneCycleMore : Obligations.StepIsRunUntilOneCycleMore := by
  intro s
  have hc : s.cycles < s.cycles + 1 := Nat.lt_succ_self _
  rw [step_eq_outcome]
  rcases s.plan_ends_or_instr (s.cycles + 1) with hends | ⟨i, t, u, hplan, hx⟩
  · exact (State.runUntil_of_ending hc rfl hends).symm
  · have hone : s.runUntil (s.cycles + 1) = s.runLoop 1 (s.cycles + 1) := by
      rw [State.runUntil, Nat.add_sub_cancel_left]
    rw [hone, State.runLoop_of_instr hc hplan hx, hplan, State.runLoop, ite_self]
    exact hx

/-- Settles O49: the pass is the halted idle, which ends the call at its target. -/
theorem haltedMachineOnlyLetsTimePass : Obligations.HaltedMachineOnlyLetsTimePass := by
  intro s target u hh hoff hc
  have hplan : s.plan target = .idle { u with inhibit := false, cycles := target } :=
    (State.plan_of_not_accepting hoff target).trans (if_pos hh)
  exact State.runUntil_of_ending hc hplan fun _ _ => nofun

end Sys2Proof.Machine
end

section
/-! PROOFS. The registers, the flags, memory and the calls of a step do not depend on the costs or on the counter
(70_reset_and_hazards.md R475): every operation commutes with putting other costs and another counter in the place of those
there are, up to the counter it ends with. -/

namespace Sys2Proof.Machine

open Sys2Proof

/-- `s` with the three costs of `c` and the counter at `n`. -/
def State.retimed (s : State) (c : CoreConfig) (n : Nat) : State :=
  { s with cycles := n, cfg := { s.cfg with tFetch := c.tFetch, tMem := c.tMem, tIo := c.tIo } }

/-- `o` answers the next state `t`, but for the costs, which are those of `c`, and the counter. -/
def AnswersRetimed (c : CoreConfig) (t : State) (o : Outcome) : Prop := ∃ m, o = .next (t.retimed c m)

theorem AnswersRetimed.of_eq {c : CoreConfig} {t u : State} {o : Outcome} (ho : o = .next u)
    (hu : ∃ m, u = t.retimed c m) : AnswersRetimed c t o := by
  obtain ⟨m, rfl⟩ := hu
  exact ⟨m, ho⟩

/-! ### What is read -/

section
variable (s : State) (c : CoreConfig) (n : Nat)

@[simp] theorem State.retimed_toCoreState : (s.retimed c n).toCoreState = { s.toCoreState with cycles := n } := rfl
@[simp] theorem State.retimed_bc : (s.retimed c n).bc = s.bc := rfl
@[simp] theorem State.retimed_de : (s.retimed c n).de = s.de := rfl
@[simp] theorem State.retimed_hl : (s.retimed c n).hl = s.hl := rfl
@[simp] theorem State.retimed_getReg (r : Reg8) : (s.retimed c n).getReg r = s.getReg r := by cases r <;> rfl
@[simp] theorem State.retimed_getPair (p : Pair) : (s.retimed c n).getPair p = s.getPair p := by cases p <;> rfl
@[simp] theorem State.retimed_getIndex (xy : Index) : (s.retimed c n).getIndex xy = s.getIndex xy := by cases xy <;> rfl

@[simp] theorem State.retimed_getStackPair (p : StackPair) : (s.retimed c n).getStackPair p = s.getStackPair p := by
  cases p <;> rfl

@[simp] theorem State.retimed_getHalf (xy : Index) (p : Half) : (s.retimed c n).getHalf xy p = s.getHalf xy p := by
  cases p <;> simp only [State.getHalf, State.retimed_getIndex]

@[simp] theorem State.retimed_getXPair (xy : Index) (p : XPair) : (s.retimed c n).getXPair xy p = s.getXPair xy p := by
  cases p <;> simp [State.getXPair]

@[simp] theorem State.retimed_getXReg (xy : Index) (x : XReg8) : (s.retimed c n).getXReg xy x = s.getXReg xy x := by
  cases x <;> simp [State.getXReg]

@[simp] theorem State.retimed_indexAddress (xy : Index) (d : Byte) :
    (s.retimed c n).indexAddress xy d = s.indexAddress xy d := by
  simp [State.indexAddress]

@[simp] theorem State.retimed_memValue (kind : ReadKind) (a : Word) :
    (s.retimed c n).memValue kind a = s.memValue kind a := rfl

/-! ### What is written -/

@[simp] theorem State.retimed_setF (v : Byte) : (s.retimed c n).setF v = (s.setF v).retimed c n := rfl
@[simp] theorem State.retimed_setSp (w : Word) : (s.retimed c n).setSp w = (s.setSp w).retimed c n := rfl
@[simp] theorem State.retimed_setPc (w : Word) : (s.retimed c n).setPc w = (s.setPc w).retimed c n := rfl
@[simp] theorem State.retimed_setWz (w : Word) : (s.retimed c n).setWz w = (s.setWz w).retimed c n := rfl
@[simp] theorem State.retimed_setBc (w : Word) : (s.retimed c n).setBc w = (s.setBc w).retimed c n := rfl
@[simp] theorem State.retimed_setDe (w : Word) : (s.retimed c n).setDe w = (s.setDe w).retimed c n := rfl
@[simp] theorem State.retimed_setHl (w : Word) : (s.retimed c n).setHl w = (s.setHl w).retimed c n := rfl

@[simp] theorem State.retimed_setReg (r : Reg8) (v : Byte) :
    (s.retimed c n).setReg r v = (s.setReg r v).retimed c n := by
  cases r <;> rfl

@[simp] theorem State.retimed_setPair (p : Pair) (w : Word) :
    (s.retimed c n).setPair p w = (s.setPair p w).retimed c n := by
  cases p <;> rfl

@[simp] theorem State.retimed_setStackPair (p : StackPair) (w : Word) :
    (s.retimed c n).setStackPair p w = (s.setStackPair p w).retimed c n := by
  cases p <;> rfl

@[simp] theorem State.retimed_setIndex (xy : Index) (w : Word) :
    (s.retimed c n).setIndex xy w = (s.setIndex xy w).retimed c n := by
  cases xy <;> rfl

@[simp] theorem State.retimed_setHalf (xy : Index) (p : Half) (v : Byte) :
    (s.retimed c n).setHalf xy p v = (s.setHalf xy p v).retimed c n := by
  cases p <;> simp [State.setHalf]

@[simp] theorem State.retimed_setXReg (xy : Index) (x : XReg8) (v : Byte) :
    (s.retimed c n).setXReg xy x v = (s.setXReg xy x v).retimed c n := by
  cases x <;> simp [State.setXReg]

/-! ### What takes time -/

@[simp] theorem State.retimed_tick (k : Nat) : (s.retimed c n).tick k = (s.tick k).retimed c (n + k) := rfl

@[simp] theorem State.retimed_memRead (a : Word) :
    (s.retimed c n).memRead a = ((s.memRead a).1, (s.memRead a).2.retimed c (n + c.tMem)) := rfl

@[simp] theorem State.retimed_memWrite (a : Word) (v : Byte) :
    (s.retimed c n).memWrite a v = (s.memWrite a v).retimed c (n + c.tMem) := rfl

@[simp] theorem State.retimed_ioRead (p : Word) :
    (s.retimed c n).ioRead p = ((s.ioRead p).1, (s.ioRead p).2.retimed c (n + c.tIo)) := rfl

@[simp] theorem State.retimed_ioWrite (p : Word) (v : Byte) :
    (s.retimed c n).ioWrite p v = (s.ioWrite p v).retimed c (n + c.tIo) := rfl

@[simp] theorem State.retimed_memRead16 (a : Word) :
    (s.retimed c n).memRead16 a = ((s.memRead16 a).1, (s.memRead16 a).2.retimed c (n + c.tMem + c.tMem)) := by
  simp [State.memRead16]

@[simp] theorem State.retimed_memWrite16 (a w : Word) :
    (s.retimed c n).memWrite16 a w = (s.memWrite16 a w).retimed c (n + c.tMem + c.tMem) := by
  simp [State.memWrite16]

@[simp] theorem State.retimed_push16 (w : Word) :
    (s.retimed c n).push16 w = (s.push16 w).retimed c (n + c.tMem + c.tMem) := by
  simp [State.push16]

@[simp] theorem State.retimed_pop16 :
    (s.retimed c n).pop16 = (s.pop16.1, s.pop16.2.retimed c (n + c.tMem + c.tMem)) := by
  simp [State.pop16]

@[simp] theorem State.retimed_jumpTo (w : Word) : (s.retimed c n).jumpTo w = (s.jumpTo w).retimed c n := by
  simp [State.jumpTo]

@[simp] theorem State.retimed_jumpRelative (e : Byte) :
    (s.retimed c n).jumpRelative e = (s.jumpRelative e).retimed c (n + 5) := by
  simp [State.jumpRelative, State.relative]

@[simp] theorem State.retimed_callTo (w : Word) :
    (s.retimed c n).callTo w = (s.callTo w).retimed c (n + c.tMem + c.tMem) := by
  simp [State.callTo]

@[simp] theorem State.retimed_popPc : (s.retimed c n).popPc = s.popPc.retimed c (n + c.tMem + c.tMem) := by
  simp [State.popPc]

@[simp] theorem State.retimed_exchangeStack (w : Word) :
    (s.retimed c n).exchangeStack w =
      ((s.exchangeStack w).1, (s.exchangeStack w).2.retimed c (n + c.tMem + c.tMem + 1 + c.tMem + c.tMem + 2)) := by
  simp [State.exchangeStack]

@[simp] theorem State.retimed_useIndex (xy : Index) (d : Byte) (k : Nat) :
    (s.retimed c n).useIndex xy d k = (s.useIndex xy d k).retimed c (n + k) := by
  simp [State.useIndex]

@[simp] theorem State.retimed_modify (a : Word) (g : Byte → Byte) :
    (s.retimed c n).modify a g = (s.modify a g).retimed c (n + c.tMem + 1 + c.tMem) := by
  simp [State.modify]

@[simp] theorem State.retimed_modifyCopy (a : Word) (g : Byte → Byte) (r : Reg8) :
    (s.retimed c n).modifyCopy a g r = (s.modifyCopy a g r).retimed c (n + c.tMem + 1 + c.tMem) := by
  simp [State.modifyCopy]

@[simp] theorem State.retimed_stepMem (a : Word) (g : Byte → Byte → Byte × Byte) :
    (s.retimed c n).stepMem a g = (s.stepMem a g).retimed c (n + c.tMem + 1 + c.tMem) := by
  simp [State.stepMem]

@[simp] theorem State.retimed_rotMem (a : Word) (op : RotOp) :
    (s.retimed c n).rotMem a op = (s.rotMem a op).retimed c (n + c.tMem + 1 + c.tMem) := by
  simp [State.rotMem]

@[simp] theorem State.retimed_rotMemCopy (a : Word) (op : RotOp) (r : Reg8) :
    (s.retimed c n).rotMemCopy a op r = (s.rotMemCopy a op r).retimed c (n + c.tMem + 1 + c.tMem) := by
  simp [State.rotMemCopy]

@[simp] theorem State.retimed_rotReg (r : Reg8) (op : RotOp) :
    (s.retimed c n).rotReg r op = (s.rotReg r op).retimed c n := by
  simp [State.rotReg]

@[simp] theorem State.retimed_rotAcc (op : RotOp) : (s.retimed c n).rotAcc op = (s.rotAcc op).retimed c n := by
  simp [State.rotAcc]

@[simp] theorem State.retimed_digitRotate (rot : Byte → Byte → Byte × Byte) :
    (s.retimed c n).digitRotate rot = (s.digitRotate rot).retimed c (n + c.tMem + 4 + c.tMem) := by
  simp [State.digitRotate]

@[simp] theorem State.retimed_blockLoad (up : Bool) :
    (s.retimed c n).blockLoad up = (s.blockLoad up).retimed c (n + c.tMem + c.tMem + 2) := by
  simp [State.blockLoad]

@[simp] theorem State.retimed_blockCompare (up : Bool) :
    (s.retimed c n).blockCompare up = (s.blockCompare up).retimed c (n + c.tMem + 5) := by
  simp [State.blockCompare]

@[simp] theorem State.retimed_blockIn (up : Bool) :
    (s.retimed c n).blockIn up = (s.blockIn up).retimed c (n + 1 + c.tIo + c.tMem) := by
  simp [State.blockIn]

@[simp] theorem State.retimed_blockOut (up : Bool) :
    (s.retimed c n).blockOut up = (s.blockOut up).retimed c (n + 1 + c.tMem + c.tIo) := by
  simp [State.blockOut]

@[simp] theorem State.retimed_repeatBlock : (s.retimed c n).repeatBlock = s.repeatBlock.retimed c (n + 5) := by
  simp [State.repeatBlock]

@[simp] theorem State.retimed_repeatIo : (s.retimed c n).repeatIo = s.repeatIo.retimed c (n + 5) := by
  simp [State.repeatIo]

@[simp] theorem State.retimed_withPcPushed (k : Nat) :
    (s.retimed c n).withPcPushed k = (s.withPcPushed k).retimed c (n + k + c.tMem + c.tMem) := by
  simp [State.withPcPushed]

@[simp] theorem State.retimed_arith16_setHl (x : Word × Byte) (old : Word) :
    (s.retimed c n).arith16 x old .setHl = (s.arith16 x old .setHl).retimed c (n + 7) := by
  simp [State.arith16]

@[simp] theorem State.retimed_arith16_setIndex (x : Word × Byte) (old : Word) (xy : Index) :
    (s.retimed c n).arith16 x old (fun t w => t.setIndex xy w) =
      (s.arith16 x old (fun t w => t.setIndex xy w)).retimed c (n + 7) := by
  simp [State.arith16]

end

/-- An operation on the accumulator as the read of its source and two register writes. -/
theorem State.aluFrom_eq_setReg_setF (s : State) (op : AluOp) (src : Src8) :
    let v := s.readSource src
    s.aluFrom op src = (v.2.setReg .a (alu8 op v.2.a v.2.f v.1).1).setF (alu8 op v.2.a v.2.f v.1).2 := rfl

@[simp] theorem State.retimed_aluFrom (s : State) (c : CoreConfig) (n : Nat) (op : AluOp) (src : Src8) :
    ∃ m, (s.retimed c n).aluFrom op src = (s.aluFrom op src).retimed c m := by
  cases src <;> simp [State.aluFrom_eq_setReg_setF, State.readSource]

/-! ### Instructions -/

/-- An instruction that does one of two things, by a condition that reads neither the costs nor the counter. -/
theorem AnswersRetimed.of_conditional {i : Instr} {s t : State} {c : CoreConfig} {n : Nat} {p : State → Bool}
    {f g : State → State} (hx : ∀ s, exec i s = .next (if p s then f s else g s)) (hp : p (s.retimed c n) = p s)
    (hf : ∃ m, f (s.retimed c n) = (f s).retimed c m) (hg : ∃ m, g (s.retimed c n) = (g s).retimed c m)
    (h : exec i s = .next t) : AnswersRetimed c t (exec i (s.retimed c n)) := by
  rw [hx] at h
  obtain rfl := Host.Outcome.next.inj h
  refine .of_eq (hx _) ?_
  rw [hp]
  cases p s with
  | true => exact hf
  | false => exact hg

/-- A meaning reads neither the costs nor the counter. -/
theorem exec_retimed {i : Instr} {s t : State} (hb : i.isBarePrefix = false) (c : CoreConfig) (n : Nat)
    (h : exec i s = .next t) : AnswersRetimed c t (exec i (s.retimed c n)) := by
  induction i with
  | asMainSpace xy inner ih | prefixEdAfterXy xy inner ih =>
    obtain ⟨hb', hx⟩ := exec_of_execEntry h
    obtain ⟨m, hm⟩ := ih hb' hx
    exact ⟨m, (execEntry_eq_exec inner _ hb').trans hm⟩
  | prefixCb | prefixDd | prefixEd | prefixFd | prefixXyCb => cases hb
  | exAfAf | exx | imN | halt | ldIA | ldRfA | di | ei | repeatedPrefixDd | repeatedPrefixFd =>
    cases h
    exact ⟨_, rfl⟩
  | reti | retn =>
    cases h
    exact ⟨_, congrArg Host.Outcome.next (State.retimed_popPc { s with iff1 := s.iff2 } c n)⟩
  | jpCcNn cc nn =>
    exact .of_conditional (p := fun s => condHolds cc s.f) (f := (State.jumpTo · nn)) (g := (State.setWz · nn))
      (fun _ => rfl) rfl (by simp) (by simp) h
  | jrCcE cc e =>
    exact .of_conditional (p := fun s => condHolds cc s.f) (f := (State.jumpRelative · e)) (g := id)
      (fun _ => rfl) rfl (by simp) (by simp) h
  | callCcNn cc nn =>
    exact .of_conditional (p := fun s => condHolds cc s.f) (f := fun s => ((s.setWz nn).tick 1).callTo nn)
      (g := (State.setWz · nn)) (fun _ => rfl) rfl (by simp) (by simp) h
  | retCc cc =>
    exact .of_conditional (p := fun s => condHolds cc s.f) (f := fun s => (s.tick 1).popPc) (g := (State.tick · 1))
      (fun _ => rfl) rfl (by simp) (by simp) h
  | djnzE e =>
    exact .of_conditional (p := fun s => s.b - 1 != 0)
      (f := fun s => ((s.tick 1).setReg .b (s.b - 1)).jumpRelative e) (g := fun s => (s.tick 1).setReg .b (s.b - 1))
      (fun _ => rfl) rfl (by simp) (by simp) h
  | ldir => exact .of_conditional (exec_blockLoadForm true true) rfl (by simp) (by simp) h
  | lddr => exact .of_conditional (exec_blockLoadForm false true) rfl (by simp) (by simp) h
  | cpir => exact .of_conditional (exec_blockCompareForm true true) rfl (by simp) (by simp) h
  | cpdr => exact .of_conditional (exec_blockCompareForm false true) rfl (by simp) (by simp) h
  | inir => exact .of_conditional (exec_blockInForm true true) rfl (by simp) (by simp) h
  | indr => exact .of_conditional (exec_blockInForm false true) rfl (by simp) (by simp) h
  | otir => exact .of_conditional (exec_blockOutForm true true) rfl (by simp) (by simp) h
  | otdr => exact .of_conditional (exec_blockOutForm false true) rfl (by simp) (by simp) h
  | _ =>
    cases h
    refine .of_eq rfl ?_
    simp

/-! ### Reading an instruction -/

theorem State.retimed_fetch (s : State) (c : CoreConfig) (n : Nat) :
    (s.retimed c n).fetch = (s.fetch.1, s.fetch.2.retimed c (n + c.tFetch)) := rfl

theorem State.retimed_imm8 (s : State) (c : CoreConfig) (n : Nat) :
    (s.retimed c n).imm8 = (s.imm8.1, s.imm8.2.retimed c (n + c.tMem)) := rfl

theorem State.retimed_fetchOpcode (s : State) (c : CoreConfig) (n k : Nat) (got : List Byte) :
    ∃ m, (s.retimed c n).fetchOpcode k got = ((s.fetchOpcode k got).1, (s.fetchOpcode k got).2.retimed c m) := by
  induction k generalizing s n got with
  | zero => exact ⟨n, rfl⟩
  | succ k ih =>
    rw [State.fetchOpcode, State.fetchOpcode, State.retimed_fetch]
    split
    · exact ih s.fetch.2 _ _
    · exact ⟨n, rfl⟩

theorem State.retimed_readOperands (s : State) (c : CoreConfig) (n k : Nat) (got : List Byte) :
    ∃ m, (s.retimed c n).readOperands k got = ((s.readOperands k got).1, (s.readOperands k got).2.retimed c m) := by
  induction k generalizing s n got with
  | zero => exact ⟨n, rfl⟩
  | succ k ih =>
    rw [State.readOperands, State.readOperands, State.retimed_imm8]
    exact ih s.imm8.2 _ _

theorem State.retimed_fetchInstr (s : State) (c : CoreConfig) (n : Nat) (supplied : List Byte) :
    ∃ m, (s.retimed c n).fetchInstr supplied =
      ((s.fetchInstr supplied).1, (s.fetchInstr supplied).2.retimed c m) := by
  obtain ⟨k, hop⟩ := s.retimed_fetchOpcode c n 3 supplied
  obtain ⟨m, hall⟩ := (s.fetchOpcode 3 supplied).2.retimed_readOperands c k
    (decodeSoFar (s.fetchOpcode 3 supplied).1).fetches.2 (s.fetchOpcode 3 supplied).1
  refine ⟨m, ?_⟩
  rw [State.fetchInstr, hop]
  dsimp only
  rw [hall]
  rfl

/-! ### A pass of the loop -/

theorem State.read_exec_retimed {s t : State} {supplied : List Byte} (hp : Supplied supplied) (c : CoreConfig) (n : Nat)
    (h : exec (s.fetchInstr supplied).1 (s.fetchInstr supplied).2 = .next t) :
    AnswersRetimed c t (exec ((s.retimed c n).fetchInstr supplied).1 ((s.retimed c n).fetchInstr supplied).2) := by
  obtain ⟨m, hread⟩ := s.retimed_fetchInstr c n supplied
  rw [hread]
  exact exec_retimed (Instr.isWhole.not_bare (s.fetchInstr_isRead hp).1) c m h

theorem State.proceed_of_halt {s : State} (h : s.halt = true) (target : Nat) :
    s.proceed target = .idle { s with cycles := target } := if_pos h

/-- The targets may differ: where they matter, in the halted idle, they are the counter. -/
theorem State.proceed_retimed {s t : State} {target : Nat} (c : CoreConfig) (n target' : Nat)
    (h : (s.proceed target).outcome = .next t) : AnswersRetimed c t ((s.retimed c n).proceed target').outcome := by
  cases hh : s.halt with
  | true =>
    rw [State.proceed_of_halt hh] at h
    obtain rfl := Host.Outcome.next.inj h
    rw [State.proceed_of_halt (s := s.retimed c n) hh]
    exact ⟨target', rfl⟩
  | false =>
    cases hpfx : s.pfx with
    | none =>
      rw [State.proceed_of_no_prefix hh hpfx] at h
      rw [State.proceed_of_no_prefix (s := s.retimed c n) hh hpfx]
      exact State.read_exec_retimed supplied_nil c n h
    | some xy =>
      rw [State.proceed_of_prefix hh hpfx] at h
      rw [State.proceed_of_prefix (s := s.retimed c n) hh hpfx]
      exact State.read_exec_retimed (s := { s with pfx := none }) (supplied_one _) c n h

theorem State.retimed_accept (s : State) (c : CoreConfig) (n : Nat) (k : Interrupt) :
    ∃ m, (s.retimed c n).accept k = (s.accept k).retimed c m := by
  cases k with
  | nmi =>
    rw [State.accept_nmi_pushes, State.accept_nmi_pushes, State.retimed_withPcPushed]
    exact ⟨_, rfl⟩
  | int =>
    cases him : s.im with
    | im0 =>
      rw [State.accept_int_mode0 s him, State.accept_int_mode0 (s.retimed c n) him]
      exact ⟨_, rfl⟩
    | im1 =>
      rw [State.accept_int_mode1_pushes him, State.accept_int_mode1_pushes (s := s.retimed c n) him,
        State.retimed_withPcPushed]
      exact ⟨_, rfl⟩
    | im2 =>
      rw [State.accept_int_mode2_reads him, State.accept_int_mode2_reads (s := s.retimed c n) him,
        State.retimed_withPcPushed, State.retimed_memRead16]
      exact ⟨_, rfl⟩

theorem State.acceptInt_retimed {s t : State} (c : CoreConfig) (n : Nat) (h : s.acceptInt.outcome = .next t) :
    AnswersRetimed c t (s.retimed c n).acceptInt.outcome := by
  obtain ⟨m, haccept⟩ := s.retimed_accept c n .int
  by_cases him : s.im = .im0
  · rw [State.acceptInt_of_mode_zero him] at h
    rw [State.acceptInt_of_mode_zero (s := s.retimed c n) him, haccept]
    exact State.read_exec_retimed (supplied_one _) c m h
  · rw [State.acceptInt_of_mode_ne_zero him] at h
    rw [State.acceptInt_of_mode_ne_zero (s := s.retimed c n) him, haccept]
    obtain rfl := Host.Outcome.next.inj h
    exact ⟨m, rfl⟩

theorem State.retimed_sampleLines (s : State) (c : CoreConfig) (n : Nat) :
    (s.retimed c n).sampleLines = s.sampleLines.retimed c n := by
  cases hscript : s.lineScript <;> simp only [State.sampleLines, State.retimed, hscript]

/-- The boundary check reads neither the costs nor the counter, and so the pass is the same one. -/
theorem State.plan_retimed {s t : State} {target : Nat} (c : CoreConfig) (n target' : Nat)
    (h : (s.plan target).outcome = .next t) : AnswersRetimed c t ((s.retimed c n).plan target').outcome := by
  obtain ⟨hheld, hnmi, hint, hnone⟩ := boundaryCheckFollowsItsPriority (s.retimed c n) target'
  rw [State.retimed_sampleLines] at hheld hnmi hint hnone
  rcases s.plan_cases target with ⟨hi, e⟩ | ⟨hi, hn, e⟩ | ⟨hi, hn, hl, e⟩ | ⟨hi, hn, hl, e⟩ <;> rw [e] at h
  · rw [hheld hi]
    exact State.proceed_retimed (s := { s.sampleLines with inhibit := false }) c n target' h
  · obtain ⟨m, haccept⟩ := s.sampleLines.retimed_accept c n .nmi
    obtain rfl := Host.Outcome.next.inj h
    rw [hnmi hi hn, haccept]
    exact ⟨m, rfl⟩
  · obtain ⟨hline, henabled⟩ := Bool.and_eq_true_iff.mp hl
    rw [hint hi hn hline henabled]
    exact State.acceptInt_retimed c n h
  · rw [hnone hi hn (Bool.and_eq_false_iff.mp hl)]
    exact State.proceed_retimed c n target' h

/-- Settles O57: the pass of the one state is that of the other, with other costs and another counter. -/
theorem effectsDoNotDependOnTheCosts : Obligations.EffectsDoNotDependOnTheCosts := by
  intro s s' h
  obtain ⟨t, ht⟩ := step_answers s
  have hs' : s' = s.retimed s'.cfg s'.cycles := h
  have hpass := ht
  rw [step_eq_outcome] at hpass
  obtain ⟨m, hm⟩ := State.plan_retimed s'.cfg s'.cycles (s'.cycles + 1) hpass
  refine ⟨t, t.retimed s'.cfg m, ht, ?_, rfl⟩
  rw [step_eq_outcome, hs']
  exact hm

end Sys2Proof.Machine
end

section
/-! PROOFS. Reset and the host's operations (10_state.md R45, 70_reset_and_hazards.md R470; 60_exceptions.md R413, R455,
R456). -/

namespace Sys2Proof.Machine

open Sys2Proof

theorem CoreConfig.valid_eq_false_iff (cfg : CoreConfig) :
    cfg.valid = false ↔ cfg.tFetch = 0 ∨ cfg.tMem = 0 ∨ cfg.tIo = 0 := by
  rw [← Bool.not_eq_true]
  simp only [CoreConfig.valid, Bool.and_eq_true, decide_eq_true_eq]
  omega

/-- `create` answers exactly for a valid configuration, and then the machine created with it. -/
theorem State.create_eq_some_iff (cfg : CoreConfig) (adapter : Adapter) (s : State) :
    State.create cfg adapter = some s ↔ cfg.valid = true ∧ s = .created cfg adapter := by
  rw [State.create, Option.ite_none_right_eq_some, Option.some_inj, eq_comm (a := s)]

/-- `create` refuses exactly a configuration that is not valid. -/
theorem State.create_eq_none_iff (cfg : CoreConfig) (adapter : Adapter) :
    State.create cfg adapter = none ↔ cfg.valid = false := by
  simp [State.create]

/-- A created machine has memory with nothing listed, and nothing that the invariant couples is set. -/
theorem State.created_inv {cfg : CoreConfig} (h : cfg.valid = true) (adapter : Adapter) :
    (State.created cfg adapter).Inv :=
  ⟨rfl, h, fun hiff => hiff, fun hpfx => absurd rfl hpfx, fun hboth => Bool.false_ne_true hboth.1⟩

/-- Settles O54: the reset state is created with the reference configuration, which is valid. -/
theorem resetMeetsTheInvariant : Obligations.ResetMeetsTheInvariant := by
  refine ⟨State.created_inv rfl _, fun cfg adapter s h => ?_⟩
  obtain ⟨hvalid, rfl⟩ := (State.create_eq_some_iff cfg adapter s).mp h
  exact State.created_inv hvalid adapter

/-- Settles O59: reset writes the core state whole. -/
theorem resetLeavesTheArchitectedValues : Obligations.ResetLeavesTheArchitectedValues := by
  intro s t0 t
  have hregs (r : Reg8) : t.getReg r = 0xFF := by cases r <;> rfl
  exact ⟨rfl, rfl, rfl, rfl, rfl, rfl, rfl, rfl, rfl, rfl, rfl, rfl, rfl, hregs, rfl, rfl, rfl, rfl, rfl, rfl, rfl, rfl,
    rfl, rfl, rfl, rfl, rfl, rfl, rfl, rfl, rfl⟩

/-- Settles O60: `create` by its two cases; the others write the fields they name. -/
theorem hostOperationsDoWhatTheyName : Obligations.HostOperationsDoWhatTheyName := by
  refine ⟨fun cfg adapter => ⟨?_, fun s h => ?_⟩, fun _ => ⟨rfl, rfl⟩, fun _ _ => rfl,
    fun _ _ => ⟨rfl, rfl, rfl, rfl⟩, fun s x rest h => ?_, fun s h => ?_⟩
  · rw [State.create_eq_none_iff, CoreConfig.valid_eq_false_iff]
  · obtain ⟨-, rfl⟩ := (State.create_eq_some_iff cfg adapter s).mp h
    exact ⟨rfl, rfl⟩
  · rw [State.sampleLines, h]
  · rw [State.sampleLines, h]

end Sys2Proof.Machine
end
